-- ==== Sys2Proof/Word.lean ====
section
/-! DEFINITION. The word types of the block (00_scope.md R6: a value of a stated width is a bit vector). -/

namespace Sys2Proof

/-- One byte of a buffer. -/
abbrev Byte := BitVec 8

/-- A pixel word, a run code or a colour code: 32 bits, narrower values in the low bits. -/
abbrev Word := BitVec 32

end Sys2Proof
end

