-- ==== Sys2Proof/Syntax.lean ====
section
/-! DEFINITION. The data the operations of the block carry, and `Instr`: one constructor for each row of
spec/opcode_table.json. -/

namespace Sys2Proof

/-- The five pixel formats, in the order of 00_scope.md R5. -/
inductive Fmt where
  | argb8888
  | argb4444
  | argb1555
  | lut8
  | lut4
deriving DecidableEq, Repr

/-- A Color: four 8-bit channels (00_scope.md R11). -/
structure Color where
  a : Byte
  r : Byte
  g : Byte
  b : Byte
deriving DecidableEq, Repr, Inhabited

/-- The mode of a run or an entry (10_state.md R21, R22). -/
inductive Mode where
  | literal
  | palette
deriving DecidableEq, Repr, Inhabited

/-- The fields of the stream header as they stand in the stream (30_encoding.md R92, R93); the reserved bits are no
part of it (R94). -/
structure Header where
  version : BitVec 8
  format : BitVec 4
  palSize : BitVec 8
  alphaTrunc : BitVec 2
  rgbTrunc : BitVec 2
  widthM1 : BitVec 16
  heightM1 : BitVec 16
deriving DecidableEq, Repr

/-- The host's buffers (10_state.md R40). Each is an address space of its own, so two of them are disjoint iff their
names differ. -/
inductive HostBuf where
  | canvas
  | out
  | inp
  | dst
  | bmp (j : Nat)
deriving DecidableEq, Repr

/-- All address spaces of bytes: the host's, `SCRATCH` (10_state.md R45) and the logical canvas `LC`
(46_rasterizer.md R285). -/
inductive BufId where
  | host (h : HostBuf)
  | scratch
  | lc
deriving DecidableEq, Repr

/-- A draw object (10_state.md R41). A colour is kept as a number so that one of more than `P` bits can be given and
refused (60_exceptions.md R311). -/
inductive DrawObject where
  | rect (x y w h : Int) (color : Nat)
  | strokeRect (x y w h t : Int) (color : Nat)
  | line (x0 y0 x1 y1 t : Int) (color : Nat)
  | bitmap (x y w h : Int) (src : HostBuf) (stride : Nat)
  | compressedBitmap (x y w h : Int) (src : HostBuf) (offset : Nat)
deriving DecidableEq, Repr

/-- The nine control values as the host gives them with an operation (10_state.md R30): numbers, so that an illegal
one can be given and refused (60_exceptions.md R311). A host that gives no version leaves it to `HDR_VERSION` (D7,
log 7). -/
structure CtrlArgs where
  version : Option Nat
  fmt : Nat
  palSize : Nat
  alphaTrunc : Nat
  rgbTrunc : Nat
  width : Nat
  height : Nat
  runLenBits : Nat
  zeroize : Nat
deriving DecidableEq, Repr

/-- `canvas_attrs` of the object constructors (46_rasterizer.md section 2). -/
structure CanvasAttrs where
  fmt : Nat
  width : Nat
  height : Nat
deriving DecidableEq, Repr

/-- The operands of `DECODE` (44_decoder.md R231, 10_state.md R32). -/
structure DecodeArgs where
  runLenBits : Nat
  inp : HostBuf
  inSize : Nat
  dst : HostBuf
  dstCap : Nat
  expect : Option (Nat × Nat)
  allocOk : Bool
deriving DecidableEq, Repr

/-- The operands of `ENCODE` (43_encoder.md R201). -/
structure EncodeArgs where
  ctrl : CtrlArgs
  canvas : HostBuf
  out : HostBuf
  outCap : Nat
  allocOk : Bool
deriving DecidableEq, Repr

/-- The operands of `ESTIMATE` beside the object list (46_rasterizer.md R283). -/
structure EstimateArgs where
  ctrl : CtrlArgs
  bg : Nat
  allocOk : Bool
deriving DecidableEq, Repr

/-- The operands of `DRAW` beside the object list (46_rasterizer.md R286). -/
structure DrawArgs where
  ctrl : CtrlArgs
  bg : Nat
  out : HostBuf
  outCap : Nat
  allocOk : Bool
deriving DecidableEq, Repr

/-- The entries of a stream (30_encoding.md R100 to R104, R108, notation R117): `n` is the run length itself, `c` a
pixel word, `i` a palette slot, `bits` the bits of a string that spells no entry. -/
inductive Entry where
  | lit (c : Word)
  | litr (n : Nat) (c : Word)
  | reserved011 (bits : List Bool)
  | pal (i : Nat)
  | palr (n i : Nat)
  | nlit (c : Word)
  | nrun (n : Nat) (c : Word)
deriving DecidableEq, Repr

/-- What a string of leading bits of an entry says it is (30_encoding.md R107, R112). -/
inductive EntryKind where
  | lit
  | litr
  | reserved
  | pal
  | palr
  | nlit
  | nrun
deriving DecidableEq, Repr

/-- The instructions of the block: the two header layouts, the entries, and the operations of 30_encoding.md R118. -/
inductive Instr where
  /-- The header in the layout of 30_encoding.md R92. -/
  | hdr3 (h : Header)
  /-- The header in the layout of 30_encoding.md R93. -/
  | hdr4 (h : Header)
  /-- 30_encoding.md R100. -/
  | lit (c : Word)
  /-- 30_encoding.md R101. -/
  | litr (n : Nat) (c : Word)
  /-- 30_encoding.md R108: the bits read of a string that spells no entry (`0 1 1` by default). -/
  | reserved011 (bits : List Bool)
  /-- 30_encoding.md R102. -/
  | pal (i : Nat)
  /-- 30_encoding.md R103. -/
  | palr (n i : Nat)
  /-- 30_encoding.md R104. -/
  | nlit (c : Word)
  /-- 30_encoding.md R104. -/
  | nrun (n : Nat) (c : Word)
  /-- 40_bitstream.md R131. -/
  | bsInit (buf : BufId) (size : Nat) (readOnly : Bool)
  /-- 40_bitstream.md R132. -/
  | bsWrite (v n : Nat)
  /-- 40_bitstream.md R133. -/
  | bsRead (n : Nat)
  /-- 40_bitstream.md R134. -/
  | bsSkip (n : Nat)
  /-- 41_pixelformat.md R150. -/
  | pixGet8888 (buf : BufId) (i : Nat)
  /-- 41_pixelformat.md R151. -/
  | pixGet4444 (buf : BufId) (i : Nat)
  /-- 41_pixelformat.md R152. -/
  | pixGet1555 (buf : BufId) (i : Nat)
  /-- 41_pixelformat.md R153. -/
  | pixGetLut8 (buf : BufId) (i : Nat)
  /-- 41_pixelformat.md R154. -/
  | pixGetLut4 (buf : BufId) (i : Nat)
  /-- 41_pixelformat.md R155. -/
  | pixSet8888 (buf : BufId) (i : Nat) (c : Color)
  /-- 41_pixelformat.md R156. -/
  | pixSet4444 (buf : BufId) (i : Nat) (c : Color)
  /-- 41_pixelformat.md R157. -/
  | pixSet1555 (buf : BufId) (i : Nat) (c : Color)
  /-- 41_pixelformat.md R158. -/
  | pixSetLut8 (buf : BufId) (i : Nat) (c : Color)
  /-- 41_pixelformat.md R159. -/
  | pixSetLut4 (buf : BufId) (i : Nat) (c : Color)
  /-- 41_pixelformat.md R160; the format is given by its code, so that an impossible one can be given (R320). -/
  | pixPreprocess (buf : BufId) (i : Nat) (fmt : BitVec 4) (rgbTrunc alphaTrunc : BitVec 2) (zeroize : Bool)
  /-- 42_palette.md R181. -/
  | palInit (k : Nat)
  /-- 42_palette.md R182. -/
  | palLookup (c : Color)
  /-- 42_palette.md R183. -/
  | palPush (c : Color)
  /-- 42_palette.md R184. -/
  | palLruUpdate (j : Nat)
  /-- 42_palette.md R185. -/
  | palGet (j : Nat)
  /-- 43_encoder.md R203. -/
  | encPixel (c : Color)
  /-- 43_encoder.md R204. -/
  | encStartRun (c : Color)
  /-- 43_encoder.md R205. -/
  | encFlush
  /-- 43_encoder.md R206. -/
  | encSyntax (mode : Mode) (n : Nat) (code : Word)
  /-- 43_encoder.md R215. -/
  | encFinish (output : HostBuf) (outCap : Nat)
  /-- 43_encoder.md R201. -/
  | encode (args : EncodeArgs)
  /-- 44_decoder.md R232. -/
  | decPrefix
  /-- 44_decoder.md R235. -/
  | decEmit
  /-- 44_decoder.md R231. -/
  | decode (args : DecodeArgs)
  /-- 45_header.md R262. -/
  | hdrEncode
  /-- 45_header.md R263. -/
  | hdrDecode
  /-- 46_rasterizer.md R271. -/
  | setRect (attrs : CanvasAttrs) (x y w h : Int) (filled : Bool) (t : Int) (color : Nat)
  /-- 46_rasterizer.md R272. -/
  | setLine (attrs : CanvasAttrs) (x0 y0 x1 y1 t : Int) (color : Nat)
  /-- 46_rasterizer.md R273. -/
  | setBitmap (attrs : CanvasAttrs) (x y w h : Int) (src : HostBuf) (stride : Nat)
  /-- 46_rasterizer.md R283. -/
  | estimate (args : EstimateArgs)
  /-- 46_rasterizer.md R286. -/
  | draw (args : DrawArgs)
deriving DecidableEq, Repr

/-- The instruction an entry is. -/
def Entry.toInstr : Entry → Instr
  | .lit c => .lit c
  | .litr n c => .litr n c
  | .reserved011 bits => .reserved011 bits
  | .pal i => .pal i
  | .palr n i => .palr n i
  | .nlit c => .nlit c
  | .nrun n c => .nrun n c

end Sys2Proof
end

