-- ==== Sys2Proof/Config.lean ====
section
/-! DEFINITION. What an implementation fixes: the configuration parameters of 00_scope.md R5 (each OPEN decision of
92_eei_decisions.md) as plain data with the spec's default instance, and the free values, which have no body. -/

namespace Sys2Proof

/-- `BIT_ORDER` (D1). -/
inductive BitOrder where
  | lsbFirst
  | msbFirst
deriving DecidableEq, Repr

/-- `PIXEL_BYTE_ORDER` (D2). -/
inductive ByteOrder where
  | le
  | be
deriving DecidableEq, Repr

/-- `CHANNEL_SCALE` (D4). -/
inductive ChannelScale where
  | raw
  | leftAligned
deriving DecidableEq, Repr

/-- `LUT4_NIBBLE_ORDER` (D5). -/
inductive NibbleOrder where
  | lowFirst
  | highFirst
deriving DecidableEq, Repr

/-- `HDR_RSV0_BITS` (D6). -/
inductive HdrRsv0 where
  | three
  | four
deriving DecidableEq, Repr

/-- `FMT_CODE` (D8): the 4-bit code of each format. -/
structure FmtCodes where
  argb8888 : BitVec 4
  argb4444 : BitVec 4
  argb1555 : BitVec 4
  lut8 : BitVec 4
  lut4 : BitVec 4
deriving DecidableEq, Repr

/-- `SYNTAX_PE` (D9): the bit strings in front of the four entries of palette mode, in stream order. -/
structure EntryCodes where
  lit : List Bool
  litr : List Bool
  pal : List Bool
  palr : List Bool
deriving DecidableEq, Repr

/-- `SYNTAX_PD` (D10). -/
inductive PlainCodes where
  | lit0Run1
  | lit1Run0
deriving DecidableEq, Repr

/-- `PAL_SEED` (D13): the opaque grays, or a table of seed lists by capacity (grays where it has no row). -/
inductive PalSeed where
  | gray
  | table (rows : List (Nat × List Color))
deriving DecidableEq, Repr

/-- A rule that is a function (`LINE_COVER`, `STROKE_COVER`, `EST_COST`): the spec's default, or another total
function of which nothing is known, told apart by a number. -/
inductive RuleChoice where
  | default
  | other (k : Nat)
deriving DecidableEq, Repr

/-- The configuration parameters of 00_scope.md R5. -/
structure Config where
  bitOrder : BitOrder
  pixelByteOrder : ByteOrder
  channelScale : ChannelScale
  lut4Nibbles : NibbleOrder
  hdrRsv0 : HdrRsv0
  /-- `HDR_VERSION` (D7): the version of an operation whose host gives none. -/
  hdrVersion : BitVec 8
  fmtCodes : FmtCodes
  entryCodes : EntryCodes
  plainCodes : PlainCodes
  palSeed : PalSeed
  /-- How many 16-byte units `SCRATCH_BYTES` is overridden upward by (D21). -/
  scratchExtra : Nat
  lineCover : RuleChoice
  strokeCover : RuleChoice
  estCost : RuleChoice
deriving DecidableEq, Repr

/-- The default instance of 00_scope.md R5 (D1 to D10, D13, D21, D26, D27, D30). -/
def Config.default : Config where
  bitOrder := .lsbFirst
  pixelByteOrder := .le
  channelScale := .raw
  lut4Nibbles := .lowFirst
  hdrRsv0 := .three
  hdrVersion := 0
  fmtCodes := { argb8888 := 0, argb4444 := 1, argb1555 := 2, lut8 := 3, lut4 := 4 }
  entryCodes := {
    lit := [false, false]
    litr := [false, true, false]
    pal := [true, false]
    palr := [true, true] }
  plainCodes := .lit0Run1
  palSeed := .gray
  scratchExtra := 0
  lineCover := .default
  strokeCover := .default
  estCost := .default

/-- FREE VALUE: stream bit `p` returned by the `k`-th read past the capacity (40_bitstream.md R133, U10). -/
opaque Config.freeBit (k p : Nat) : Bool

/-- FREE VALUE: the byte at an offset of a buffer whose contents the `k`-th overflowing write left unspecified
(40_bitstream.md R132, U3). -/
opaque Config.freeByte (k off : Nat) : Byte

/-- FREE VALUE: a mode register before it is written (70_reset_and_hazards.md R343, U14). -/
opaque Config.freeMode (k : Nat) : Mode

/-- FREE VALUE: a run-length register before it is written (70_reset_and_hazards.md R343, U14). -/
opaque Config.freeLen (k : Nat) : BitVec 17

/-- FREE VALUE: a code register before it is written (70_reset_and_hazards.md R343, U14). -/
opaque Config.freeCode (k : Nat) : Word

/-- FREE VALUE: a colour register before it is written (70_reset_and_hazards.md R343, U14). -/
opaque Config.freeColor (k : Nat) : Color

/-- FREE VALUE: what `RES.SIZE` holds of a size that does not fit its 33 bits (10_state.md R27; log 8). -/
opaque Config.freeSize (n : Nat) : BitVec 33

/-- FREE VALUE: what `RES.BITS` holds of a position that does not fit its 40 bits (10_state.md R27; log 8). -/
opaque Config.freeBits (n : Nat) : BitVec 40

/-- FREE VALUE: what `RES.SIZE` holds of an estimate that does not fit it, but for what 46_rasterizer.md R284 asks of it
(log 8). -/
opaque Config.freeEstimateSize (n : Nat) : BitVec 33

/-- FREE VALUE: what `RES.BITS` holds of an estimate that does not fit it, but for what 46_rasterizer.md R284 asks of it
(log 8). -/
opaque Config.freeEstimateBits (n : Nat) : BitVec 40

/-- FREE VALUE: the `width_m1` that `HDR.ENCODE` writes where `CTRL.WIDTH` is 0 (45_header.md R262; log 36). -/
opaque Config.freeWidthM1 : BitVec 16

/-- FREE VALUE: the `height_m1` that `HDR.ENCODE` writes where `CTRL.HEIGHT` is 0 (45_header.md R262; log 36). -/
opaque Config.freeHeightM1 : BitVec 16

/-- A `LINE_COVER` other than the default (D27): a total function of the line's six numbers and the position. -/
opaque Config.otherLineCover (k : Nat) (x0 y0 x1 y1 t px py : Int) : Bool

/-- A `STROKE_COVER` other than the default (D26). -/
opaque Config.otherStrokeCover (k : Nat) (x y w h t px py : Int) : Bool

/-- An `EST_COST` other than the default (D30): the bits charged for the format, the capacity, `RL` and the slices
(constant or not, length) of the canvas in raster order. `estimateBits` keeps it at or above the bits of every stream
that canvases of these slices have, as 46_rasterizer.md R284 demands of any instance. -/
opaque Config.otherEstCost (k : Nat) (fmt : Fmt) (palSize rl : Nat) (slices : List (Bool × Nat)) : Nat

end Sys2Proof
end

