-- ==== Sys2Proof/Machine/State.lean ====
section
/-! DEFINITION. The state of the block as plain data (10_state.md): the working registers, the cache, the control and
result registers, the memories, and five fields of the model's own (`cfg`, `phase`, `pending`, `ret`, `free`). -/

namespace Sys2Proof.Machine

/-! ## Memory -/

/-- What a buffer's unlisted bytes read as. -/
inductive Fill where
  /-- 0: a buffer that `BS.INIT` cleared, or the model's choice for a host buffer (log 2). -/
  | zero
  /-- A free value at each offset: contents that the `k`-th overflowing write left unspecified (40_bitstream.md R132). -/
  | free (k : Nat)
deriving DecidableEq, Repr

/-- The one definition of what an unlisted byte reads as. -/
def Fill.byte : Fill → Nat → Byte
  | .zero, _ => 0
  | .free k, off => Config.freeByte k off

/-- A buffer: an address space of `size` bytes, offsets 0 .. size - 1 (20_memory.md R60). `cells` lists bytes by offset in
the canonical form of `Buffer.wf`; an offset it does not list reads as `fill` says. -/
structure Buffer where
  size : Nat
  fill : Fill
  cells : List Host.Cell
deriving DecidableEq, Repr

/-- A buffer of no bytes. -/
def Buffer.empty : Buffer := { size := 0, fill := .zero, cells := [] }

/-- A buffer of `n` zero bytes. -/
def Buffer.zeros (n : Nat) : Buffer := { size := n, fill := .zero, cells := [] }

/-- The offsets of cells rise strictly. -/
def cellsRise : List Host.Cell → Bool
  | [] => true
  | [_] => true
  | c :: d :: rest => decide (c.1 < d.1) && cellsRise (d :: rest)

/-- The canonical form: offsets strictly rising, inside the buffer, and no byte listed that an unlisted offset reads
as anyway. -/
def Buffer.wf (b : Buffer) : Bool :=
  cellsRise b.cells && b.cells.all fun c => decide (c.1 < b.size) && decide (c.2 ≠ b.fill.byte c.1)

/-! ## Registers -/

/-- `BS.status` (10_state.md R26). -/
inductive BsStatus where
  | ok
  | overflow
deriving DecidableEq, Repr

/-- The BitStream registers (10_state.md R24 to R26). -/
structure BitStreamRegs where
  buf : BufId
  cap : Nat
  ro : Bool
  pos : Nat
  status : BsStatus
deriving DecidableEq, Repr

/-- The encoder run registers (10_state.md R21). -/
structure RunRegs where
  valid : Bool
  mode : Mode
  len : Nat
  code : Word
  color : Color
deriving DecidableEq, Repr

/-- The decoder loop registers (10_state.md R22). -/
structure DecRegs where
  remaining : Nat
  outpix : Nat
  mode : Mode
  len : Nat
  code : Word
  color : Color
deriving DecidableEq, Repr

/-- The control fields (10_state.md R30). `fmt` is the 4-bit code itself: a code that is no format's is "no format"
(60_exceptions.md R313). -/
structure CtrlRegs where
  version : BitVec 8
  fmt : BitVec 4
  palSize : BitVec 8
  alphaTrunc : BitVec 2
  rgbTrunc : BitVec 2
  width : BitVec 17
  height : BitVec 17
  runLenBits : BitVec 5
  zeroize : BitVec 1
deriving DecidableEq, Repr

/-- `RES.STATUS` (10_state.md R27, 60_exceptions.md R312). -/
inductive Status where
  | ok
  | capacity
  | malformed
  | alloc
deriving DecidableEq, Repr

/-- `RES.CAUSE` (60_exceptions.md R312). -/
inductive Cause where
  | none
  | badFormat
  | dimMismatch
  | reservedPrefix
  | badIndex
  | runOverrun
  | truncated
  | shortHeader
deriving DecidableEq, Repr

/-- The result registers (10_state.md R27). -/
structure ResRegs where
  status : Status
  cause : Cause
  size : BitVec 33
  bits : BitVec 40
deriving DecidableEq, Repr

/-- The operands that a `DECODE` in progress still needs (10_state.md R32, 44_decoder.md R231). -/
structure DecodeJob where
  dst : HostBuf
  dstCap : Nat
  expect : Option (Nat × Nat)
deriving DecidableEq, Repr

/-- Where the block stands in the pseudocode of 44_decoder.md R231 (log 5). -/
inductive Phase where
  /-- No `DECODE` is in progress. -/
  | idle
  /-- The header is read next. -/
  | header
  /-- The header is in `CTRL`; the checks and the reset before the loop come next. -/
  | setup
  /-- The loop's test comes next. -/
  | entries
deriving DecidableEq, Repr

/-- What an internal operation or a constructor returns (30_encoding.md R118; log 3). -/
inductive RetVal where
  | nothing
  | bits (v : Word)
  | color (c : Color)
  | lookup (hit : Option Nat)
  | kind (k : EntryKind)
  | object (o : DrawObject)
deriving DecidableEq, Repr

/-- The state of the block (10_state.md R20). -/
structure State where
  cfg : Config
  bs : BitStreamRegs
  run : RunRegs
  encI : Nat
  dec : DecRegs
  pal : List Color
  ctrl : CtrlRegs
  res : ResRegs
  job : DecodeJob
  canvas : Buffer
  out : Buffer
  inp : Buffer
  dst : Buffer
  bmps : List Buffer
  scratch : Buffer
  lc : Buffer
  objs : List DrawObject
  phase : Phase
  pending : List Instr
  ret : RetVal
  free : Nat
deriving DecidableEq, Repr

/-! ## Reasons to stop -/

/-- The faults of the model. -/
inductive Fault where
  /-- Raised where `PIX.GET`, `PIX.SET`, `pack`, `unpack` or `pixel_bits` is reached with a format code that is no
  format's: "a fault of the model (no next state)" (60_exceptions.md R320, D40; 93 U6: stuck). No host operation reaches
  it. Safe: the hardware may do anything there, the model stops. -/
  | formatDispatch
deriving DecidableEq, Repr

/-- The refusals of the model: operands outside what the spec gives a meaning (60_exceptions.md R311). All are safe: the
spec says a model has no step there. -/
inductive Refusal where
  /-- Raised by `exec` for an instruction that has no meaning yet. Safe. -/
  | notModelled (mnemonic : String)
  /-- `ENCODE`, `DRAW`, `ESTIMATE`, `DECODE`: a control value outside its legal column (R311). `SET_RECT`, `SET_LINE`: the
  format code of `canvas_attrs` is no format's (93 U6: host-given, refused). Safe. -/
  | illegalControl
  /-- `ENCODE`: `CANVAS` smaller than `pixbytes(N, FMT)` (R311). Safe. -/
  | canvasTooSmall
  /-- `ENCODE`, `DRAW`, `DECODE`: two buffers that must be disjoint are one (R311). Safe. -/
  | buffersOverlap
  /-- `ENCODE`, `DRAW`: `OUT` smaller than `OUT_CAP` (R311). Safe. -/
  | outTooSmall
  /-- `DRAW`, `ESTIMATE`, `SET_RECT`, `SET_LINE`: a colour that has more than `P` bits (R311, 46 R271). Safe. -/
  | illegalColour
  /-- `DRAW`, `ESTIMATE`: a compressed bitmap in the list (R311, 46 R291). Safe. -/
  | compressedBitmap
  /-- `DRAW`: a bitmap source too small for a position that is read (R311). Safe. -/
  | bitmapTooSmall
  /-- `DECODE`: `IN` smaller than `IN_SIZE` (R311). Safe. -/
  | inTooSmall
  /-- `DECODE`: `DST` smaller than `DST_CAP` (R311). Safe. -/
  | dstTooSmall
  /-- `DECODE`: `EXPECT_W` or `EXPECT_H` outside 1..65536 (R311). Safe. -/
  | illegalExpect
  /-- An internal operation that would access a byte outside a buffer, or that is given a size a buffer does not
  have (R311 last row, 20 R60). Safe. -/
  | accessOutOfRange
  /-- `BS.WRITE` of more than 16 bits (R311 last row). Safe. -/
  | writeTooWide
  /-- A write to a read-only stream (R311 last row, 40 R132). Safe. -/
  | writeReadOnly
  /-- `BS.READ` of more than 32 bits (R311 last row). Safe. -/
  | readTooWide
  /-- `BS.SKIP` with the cursor above the capacity (R311 last row, 40 R134). Safe. -/
  | skipPastCapacity
  /-- `PAL.INIT` of a capacity outside 2..255 (42 R181). Safe. -/
  | illegalCapacity
  /-- A palette operation or a palette entry on a slot that does not exist: with palette mode disabled and no slots made,
  "they exist only when palette mode is enabled" (42_palette.md), or an operand outside 0..K-1 (R184, R185). Safe. -/
  | noSuchSlot
  /-- `ENC.FLUSH` while no run is being accumulated (43 R205). Safe. -/
  | noRun
  /-- A run length outside 1..2^RL given to the emission of an entry (43 R206). Safe. -/
  | illegalRun
  /-- `DEC.EMIT` of more pixels than remain (44 R235: R231 has checked it). Safe. -/
  | emitOverrun
deriving DecidableEq, Repr

/-! ## Reset -/

/-- The state right after power-up. The block has no power-on reset: every register is unspecified (10_state.md R47), so
each value here is a DESIGN CHOICE (log 1, log 2) but for the configuration (log 7) and the model's own fields. -/
def State.reset : State where
  cfg := Config.default
  bs := { buf := .scratch, cap := 0, ro := false, pos := 0, status := .ok }
  run := { valid := false, mode := .literal, len := 0, code := 0, color := { a := 0, r := 0, g := 0, b := 0 } }
  encI := 0
  dec := {
    remaining := 0
    outpix := 0
    mode := .literal
    len := 0
    code := 0
    color := { a := 0, r := 0, g := 0, b := 0 } }
  pal := []
  ctrl := {
    version := Config.default.hdrVersion
    fmt := 0
    palSize := 0
    alphaTrunc := 0
    rgbTrunc := 0
    width := 0
    height := 0
    runLenBits := 0
    zeroize := 0 }
  res := { status := .ok, cause := .none, size := 0, bits := 0 }
  job := { dst := .dst, dstCap := 0, expect := none }
  canvas := Buffer.empty
  out := Buffer.empty
  inp := Buffer.empty
  dst := Buffer.empty
  bmps := []
  scratch := Buffer.empty
  lc := Buffer.empty
  objs := []
  phase := .idle
  pending := []
  ret := .nothing
  free := 0

end Sys2Proof.Machine
end

