-- ==== Sys2Proof/Machine/Flags.lean ====
section
/-! DEFINITION. The one flag of the block, `BS.status`, as each access leaves it (10_state.md R26), the
numbers of the status and cause codes (60_exceptions.md R312), and the result registers (R27). -/

namespace Sys2Proof.Machine

/-- `BS.status` after an access of `n ≥ 1` bits at `pos` of a stream of `cap` bits: a write or a read that passes the
capacity sets `OVERFLOW`, nothing but `BS.INIT` clears it (10_state.md R26, 40_bitstream.md R132, R133). -/
def statusAfter (cap pos n : Nat) (old : BsStatus) : BsStatus :=
  if cap < pos + n then .overflow else old

/-- The code of `RES.STATUS` (60_exceptions.md R312). -/
def Status.code : Status → BitVec 2
  | .ok => 0
  | .capacity => 1
  | .malformed => 2
  | .alloc => 3

/-- The code of `RES.CAUSE` (60_exceptions.md R312). -/
def Cause.code : Cause → BitVec 4
  | .none => 0
  | .badFormat => 1
  | .dimMismatch => 2
  | .reservedPrefix => 3
  | .badIndex => 4
  | .runOverrun => 5
  | .truncated => 6
  | .shortHeader => 7

/-- A size in bytes as the 33 bits of `RES.SIZE` hold it: one that does not fit leaves a free value (10_state.md R27;
log 8). -/
def sizeReg (n : Nat) : BitVec 33 := if n < 2 ^ 33 then BitVec.ofNat 33 n else Config.freeSize n

/-- A position as the 40 bits of `RES.BITS` hold it: one that does not fit leaves a free value (10_state.md R27; log 8). -/
def bitsReg (n : Nat) : BitVec 40 := if n < 2 ^ 40 then BitVec.ofNat 40 n else Config.freeBits n

/-- The result registers of an outcome, `size` in bytes (10_state.md R27, 60_exceptions.md R324). -/
def resRegs (status : Status) (cause : Cause) (size bits : Nat) : ResRegs where
  status := status
  cause := cause
  size := sizeReg size
  bits := bitsReg bits

/-- The bit of `BS.status` (10_state.md R26). -/
def BsStatus.bit : BsStatus → BitVec 1
  | .ok => 0
  | .overflow => 1

/-- The bit of `RUN.mode` and `DEC.mode` (10_state.md R21). -/
def modeBit : Mode → BitVec 1
  | .literal => 0
  | .palette => 1

end Sys2Proof.Machine
end

