-- ==== Sys2Proof/Machine/Operands.lean ====
section
/-! DEFINITION. The operand forms of the block: sizes and derived control values (00_scope.md R8 to R10, 10_state.md
R31), the bits of a field in stream order (20_memory.md R61), the pixel words of the five formats and preprocessing
(41_pixelformat.md), and the legality of the values a host gives (60_exceptions.md R311). -/

namespace Sys2Proof

/-- `ceil(a / b)` (00_scope.md R6). -/
def ceilDiv (a b : Nat) : Nat := (a + (b - 1)) / b

/-- `roundup16(n)` (00_scope.md R8). -/
def roundup16 (n : Nat) : Nat := 16 * ceilDiv n 16

/-- `bytes_of_bits(b)` (00_scope.md R8). -/
def bytesOfBits (b : Nat) : Nat := ceilDiv b 8

/-- The emitted size in bytes of a stream whose final bit cursor is `b` (00_scope.md R8, D20). -/
def emittedSize (b : Nat) : Nat := 16 * ceilDiv b 128

/-- The least `m ≥ n` with `k ≤ 2 ^ m`, looked for in `fuel` tries. -/
def clog2Search (k : Nat) : (fuel n : Nat) → Nat
  | 0, n => n
  | fuel + 1, n => if k ≤ 2 ^ n then n else clog2Search k fuel (n + 1)

/-- `clog2(k)` (00_scope.md R9, D14). -/
def clog2 (k : Nat) : Nat := clog2Search k k 0

/-- `pixel_bits(fmt)`, `P` (00_scope.md R10). -/
def Fmt.bits : Fmt → Nat
  | .argb8888 => 32
  | .argb4444 => 16
  | .argb1555 => 16
  | .lut8 => 8
  | .lut4 => 4

/-- `pixbytes(n, fmt)` (00_scope.md R10, D5). -/
def Fmt.pixbytes (f : Fmt) (n : Nat) : Nat := ceilDiv (n * f.bits) 8

/-- `FMT_CODE` (30_encoding.md R95, D8). -/
def Config.codeOf (cfg : Config) : Fmt → BitVec 4
  | .argb8888 => cfg.fmtCodes.argb8888
  | .argb4444 => cfg.fmtCodes.argb4444
  | .argb1555 => cfg.fmtCodes.argb1555
  | .lut8 => cfg.fmtCodes.lut8
  | .lut4 => cfg.fmtCodes.lut4

/-- The format a code stands for, if it stands for one (30_encoding.md R95). -/
def Config.fmtOf (cfg : Config) (code : BitVec 4) : Option Fmt :=
  if code = cfg.fmtCodes.argb8888 then some .argb8888
  else if code = cfg.fmtCodes.argb4444 then some .argb4444
  else if code = cfg.fmtCodes.argb1555 then some .argb1555
  else if code = cfg.fmtCodes.lut8 then some .lut8
  else if code = cfg.fmtCodes.lut4 then some .lut4
  else none

/-- The format a host-given code stands for (60_exceptions.md R311). -/
def Config.fmtOfNat (cfg : Config) (code : Nat) : Option Fmt :=
  if code < 16 then cfg.fmtOf (BitVec.ofNat 4 code) else none

/-- What the entries of a stream depend on: the configuration, the format, `K` and `RL` (10_state.md R31, 30_encoding.md
R106). -/
structure Ctx where
  cfg : Config
  fmt : Fmt
  k : Nat
  rl : Nat
deriving DecidableEq, Repr

/-- `PAL_EN` (10_state.md R31). -/
def Ctx.palEn (cx : Ctx) : Bool := decide (1 < cx.k)

/-- `I` (10_state.md R31, D15). -/
def Ctx.idxBits (cx : Ctx) : Nat := clog2 cx.k

/-- `MAXRUN` (10_state.md R31). -/
def Ctx.maxRun (cx : Ctx) : Nat := 2 ^ cx.rl

/-- `P` (00_scope.md R10). -/
def Ctx.pixBits (cx : Ctx) : Nat := cx.fmt.bits

/-! ## Bits in stream order -/

/-- The low `n` bits of `v`, least significant first. -/
def bitsOfNat : (n v : Nat) → List Bool
  | 0, _ => []
  | n + 1, v => v.testBit 0 :: bitsOfNat n (v / 2)

/-- The number whose bits, least significant first, are given. -/
def natOfBits : List Bool → Nat
  | [] => 0
  | b :: rest => b.toNat + 2 * natOfBits rest

/-- The stream bits of a value of `n` bits, lowest stream bit first (20_memory.md R61; `MSB_FIRST`: D1). -/
def fieldBits (order : BitOrder) (v n : Nat) : List Bool :=
  match order with
  | .lsbFirst => bitsOfNat n v
  | .msbFirst => (bitsOfNat n v).reverse

/-- The value whose stream bits are given (20_memory.md R61, D1). -/
def fieldValue (order : BitOrder) (bits : List Bool) : Nat :=
  match order with
  | .lsbFirst => natOfBits bits
  | .msbFirst => natOfBits bits.reverse

/-- A field of a header or an entry as it is written: a value and its width in bits. -/
abbrev Field := Nat × Nat

/-- The stream bits of fields written one after the other. -/
def fieldsBits (order : BitOrder) : List Field → List Bool
  | [] => []
  | (v, n) :: rest => fieldBits order v n ++ fieldsBits order rest

/-- The number of bits of fields. -/
def fieldsWidth : List Field → Nat
  | [] => 0
  | (_, n) :: rest => n + fieldsWidth rest

/-- The first `n` bits and the rest, where there are `n`. -/
def splitBits : (n : Nat) → List Bool → Option (List Bool × List Bool)
  | 0, bits => some ([], bits)
  | _ + 1, [] => none
  | n + 1, b :: rest => (splitBits n rest).map fun p => (b :: p.1, p.2)

/-! ## Entries as fields -/

/-- A `P`-bit pixel word: one field, or two halves of 16 bits, low half first (43_encoder.md R207, D11). -/
def codeFields (p : Nat) (w : Word) : List Field :=
  if p ≤ 16 then [(w.toNat, p)] else [(w.toNat % 2 ^ 16, 16), (w.toNat / 2 ^ 16, 16)]

/-- Leading bits, each written as one bit. -/
def stringFields (bits : List Bool) : List Field := bits.map fun b => (b.toNat, 1)

/-- The leading bit of `NRUN` (30_encoding.md R104, D10). -/
def PlainCodes.runBit : PlainCodes → Bool
  | .lit0Run1 => true
  | .lit1Run0 => false

/-- The fields of an entry in stream order (30_encoding.md R96 to R104). -/
def Entry.fields (cx : Ctx) : Entry → List Field
  | .lit c => stringFields cx.cfg.entryCodes.lit ++ codeFields cx.pixBits c
  | .litr n c => stringFields cx.cfg.entryCodes.litr ++ ((n - 1, cx.rl) :: codeFields cx.pixBits c)
  | .reserved011 bits => stringFields bits
  | .pal i => stringFields cx.cfg.entryCodes.pal ++ [(i, cx.idxBits)]
  | .palr n i => stringFields cx.cfg.entryCodes.palr ++ [(n - 1, cx.rl), (i, cx.idxBits)]
  | .nlit c => stringFields [!cx.cfg.plainCodes.runBit] ++ codeFields cx.pixBits c
  | .nrun n c => stringFields [cx.cfg.plainCodes.runBit] ++ ((n - 1, cx.rl) :: codeFields cx.pixBits c)

/-- The width of an entry in bits (30_encoding.md R105). -/
def Entry.width (cx : Ctx) (e : Entry) : Nat := fieldsWidth (e.fields cx)

/-- `W_MAX`, the widest entry a stream can hold (30_encoding.md R105). -/
def Ctx.maxWidth (cx : Ctx) : Nat :=
  if cx.palEn then
    max (max (Entry.width cx (.lit 0)) (Entry.width cx (.litr 1 0)))
      (max (Entry.width cx (.pal 0)) (Entry.width cx (.palr 1 0)))
  else max (Entry.width cx (.nlit 0)) (Entry.width cx (.nrun 1 0))

/-- The longest string that two bit strings begin with has this length. -/
def commonLength : List Bool → List Bool → Nat
  | a :: s, b :: t => if a = b then commonLength s t + 1 else 0
  | _, _ => 0

/-- The number of leading bits after which no entry of palette mode can be meant: one more than they share with any
of the four strings (30_encoding.md R108, D9). -/
def EntryCodes.deadLength (codes : EntryCodes) (bits : List Bool) : Nat :=
  max (max (commonLength codes.lit bits) (commonLength codes.litr bits))
    (max (commonLength codes.pal bits) (commonLength codes.palr bits)) + 1

/-- The kind of entry that the leading bits spell and how many bits say so; `none` where there are too few bits
(30_encoding.md R107, R112). -/
def Ctx.kindOf (cx : Ctx) (bits : List Bool) : Option (EntryKind × Nat) :=
  if cx.palEn then
    if cx.cfg.entryCodes.lit.isPrefixOf bits then some (.lit, cx.cfg.entryCodes.lit.length)
    else if cx.cfg.entryCodes.litr.isPrefixOf bits then some (.litr, cx.cfg.entryCodes.litr.length)
    else if cx.cfg.entryCodes.pal.isPrefixOf bits then some (.pal, cx.cfg.entryCodes.pal.length)
    else if cx.cfg.entryCodes.palr.isPrefixOf bits then some (.palr, cx.cfg.entryCodes.palr.length)
    else if cx.cfg.entryCodes.deadLength bits ≤ bits.length then
      some (.reserved, cx.cfg.entryCodes.deadLength bits)
    else none
  else
    match bits with
    | [] => none
    | b :: _ => some (if b = cx.cfg.plainCodes.runBit then .nrun else .nlit, 1)

/-- A number of bits that is enough to tell the kind of any entry. -/
def Ctx.leadWindow (cx : Ctx) : Nat :=
  max (max cx.cfg.entryCodes.lit.length cx.cfg.entryCodes.litr.length)
    (max cx.cfg.entryCodes.pal.length cx.cfg.entryCodes.palr.length) + 1

/-- A number of bits that is enough to hold any entry. -/
def Ctx.window (cx : Ctx) : Nat := cx.leadWindow + cx.rl + cx.pixBits + cx.idxBits

/-- The mode of an entry (10_state.md R22). -/
def Entry.mode : Entry → Mode
  | .pal _ => .palette
  | .palr _ _ => .palette
  | .lit _ => .literal
  | .litr _ _ => .literal
  | .reserved011 _ => .literal
  | .nlit _ => .literal
  | .nrun _ _ => .literal

/-- The run length of an entry (44_decoder.md R231, R233). -/
def Entry.runLength : Entry → Nat
  | .litr n _ => n
  | .palr n _ => n
  | .nrun n _ => n
  | .lit _ => 1
  | .reserved011 _ => 1
  | .pal _ => 1
  | .nlit _ => 1

/-- The code of an entry, a pixel word or a slot (44_decoder.md R234). -/
def Entry.code : Entry → Word
  | .lit c => c
  | .litr _ c => c
  | .nlit c => c
  | .nrun _ c => c
  | .pal i => BitVec.ofNat 32 i
  | .palr _ i => BitVec.ofNat 32 i
  | .reserved011 _ => 0

/-! ## The header as fields -/

/-- The width of the first reserved field (D6). -/
def HdrRsv0.bits : HdrRsv0 → Nat
  | .three => 3
  | .four => 4

/-- The fields of the header in stream order, reserved fields 0 (45_header.md R261, 30_encoding.md R92 to R94). -/
def Header.fields (rsv : HdrRsv0) (h : Header) : List Field :=
  [(h.version.toNat, 8), (h.format.toNat, 4), (0, rsv.bits), (h.palSize.toNat, 8), (h.alphaTrunc.toNat, 2), (0, 2),
    (h.rgbTrunc.toNat, 2), (0, 2), (h.widthM1.toNat, 16), (h.heightM1.toNat, 16), (0, 4 - rsv.bits)]

/-! ## Pixel words -/

/-- A channel field of width `n` as an 8-bit channel (41_pixelformat.md R150 to R152, D4). -/
def ChannelScale.channelIn (sc : ChannelScale) (n : Nat) (v : BitVec n) : Byte :=
  match sc with
  | .raw => v.setWidth 8
  | .leftAligned => v.setWidth 8 <<< (8 - n)

/-- An 8-bit channel as a field of width `n` (41_pixelformat.md R155 to R157, D4). -/
def ChannelScale.channelOut (sc : ChannelScale) (n : Nat) (c : Byte) : BitVec n :=
  match sc with
  | .raw => c.setWidth n
  | .leftAligned => (c >>> (8 - n)).setWidth n

/-- `unpack(w, ARGB8888)` (41_pixelformat.md R150). -/
def unpack8888 (w : Word) : Color where
  a := w.extractLsb' 24 8
  r := w.extractLsb' 16 8
  g := w.extractLsb' 8 8
  b := w.extractLsb' 0 8

/-- `unpack(w, ARGB4444)` (41_pixelformat.md R151). -/
def unpack4444 (sc : ChannelScale) (w : Word) : Color where
  a := sc.channelIn 4 (w.extractLsb' 12 4)
  r := sc.channelIn 4 (w.extractLsb' 8 4)
  g := sc.channelIn 4 (w.extractLsb' 4 4)
  b := sc.channelIn 4 (w.extractLsb' 0 4)

/-- `unpack(w, ARGB1555)` (41_pixelformat.md R152). -/
def unpack1555 (sc : ChannelScale) (w : Word) : Color where
  a := sc.channelIn 1 (w.extractLsb' 15 1)
  r := sc.channelIn 5 (w.extractLsb' 10 5)
  g := sc.channelIn 5 (w.extractLsb' 5 5)
  b := sc.channelIn 5 (w.extractLsb' 0 5)

/-- `unpack(w, LUT8)` (41_pixelformat.md R153, D5). -/
def unpackLut8 (w : Word) : Color where
  a := w.extractLsb' 0 8
  r := 0
  g := 0
  b := 0

/-- `unpack(w, LUT4)` (41_pixelformat.md R154, D5). -/
def unpackLut4 (w : Word) : Color where
  a := (w.extractLsb' 0 4).setWidth 8
  r := 0
  g := 0
  b := 0

/-- `unpack(w, fmt)` (41_pixelformat.md R150 to R154). -/
def unpack (sc : ChannelScale) : Fmt → Word → Color
  | .argb8888, w => unpack8888 w
  | .argb4444, w => unpack4444 sc w
  | .argb1555, w => unpack1555 sc w
  | .lut8, w => unpackLut8 w
  | .lut4, w => unpackLut4 w

/-- `pack(c, ARGB8888)` (41_pixelformat.md R155). -/
def pack8888 (c : Color) : Word := c.a ++ c.r ++ c.g ++ c.b

/-- `pack(c, ARGB4444)` (41_pixelformat.md R156). -/
def pack4444 (sc : ChannelScale) (c : Color) : Word :=
  (sc.channelOut 4 c.a ++ sc.channelOut 4 c.r ++ sc.channelOut 4 c.g ++ sc.channelOut 4 c.b).setWidth 32

/-- `pack(c, ARGB1555)` (41_pixelformat.md R157). -/
def pack1555 (sc : ChannelScale) (c : Color) : Word :=
  (sc.channelOut 1 c.a ++ sc.channelOut 5 c.r ++ sc.channelOut 5 c.g ++ sc.channelOut 5 c.b).setWidth 32

/-- `pack(c, LUT8)` (41_pixelformat.md R158). -/
def packLut8 (c : Color) : Word := c.a.setWidth 32

/-- `pack(c, LUT4)` (41_pixelformat.md R159). -/
def packLut4 (c : Color) : Word := (c.a.setWidth 4).setWidth 32

/-- `pack(c, fmt)` (41_pixelformat.md R155 to R159). -/
def pack (sc : ChannelScale) : Fmt → Color → Word
  | .argb8888, c => pack8888 c
  | .argb4444, c => pack4444 sc c
  | .argb1555, c => pack1555 sc c
  | .lut8, c => packLut8 c
  | .lut4, c => packLut4 c

/-- `trunc(v, n)` (41_pixelformat.md R161, 00_scope.md R13). -/
def truncChannel (v : Byte) (n : BitVec 2) : Byte := (v >>> n.toNat) <<< n.toNat

/-- The Color with all channels 0 (00_scope.md R11). -/
def Color.zero : Color := { a := 0, r := 0, g := 0, b := 0 }

/-- A Color with its channels truncated (41_pixelformat.md R161). -/
def Color.trunc (c : Color) (rgbTrunc alphaTrunc : BitVec 2) : Color where
  a := truncChannel c.a alphaTrunc
  r := truncChannel c.r rgbTrunc
  g := truncChannel c.g rgbTrunc
  b := truncChannel c.b rgbTrunc

/-- `prep(c, rt, at, z)` (41_pixelformat.md R161): the test is on the truncated alpha. -/
def prep (c : Color) (rgbTrunc alphaTrunc : BitVec 2) (zeroize : Bool) : Color :=
  if zeroize = true ∧ (c.trunc rgbTrunc alphaTrunc).a = 0 then Color.zero else c.trunc rgbTrunc alphaTrunc

/-! ## The palette cache as a list, slot 0 first (42_palette.md R180) -/

/-- An opaque gray (42_palette.md R181, D13). -/
def gray (v : Nat) : Color where
  a := 255
  r := BitVec.ofNat 8 v
  g := BitVec.ofNat 8 v
  b := BitVec.ofNat 8 v

/-- The gray seed of `K` slots (42_palette.md R181). -/
def graySeed (k : Nat) : List Color := (List.range k).map fun i => gray (i * (256 / k))

/-- The row of a seed table for a capacity. -/
def seedRow (k : Nat) : List (Nat × List Color) → Option (List Color)
  | [] => none
  | (n, cs) :: rest => if n = k then some cs else seedRow k rest

/-- `PAL_SEED(K)` (42_palette.md R181, D13). -/
def PalSeed.colors (seed : PalSeed) (k : Nat) : List Color :=
  match seed with
  | .gray => graySeed k
  | .table rows => (seedRow k rows).getD (graySeed k)

/-- The slots of a register file of `k` slots: those that were written, and after them the ones that nothing has written,
which hold the reset value (10_state.md R35, R47; log 37). -/
def slotsFor (k : Nat) (pal : List Color) : List Color := pal ++ List.replicate (k - pal.length) Color.zero

/-- The slots `PAL[0]`, `PAL[1]`, ...: `K` of them, or as many as `PAL.INIT` made, where palette mode is enabled
(10_state.md R35; log 37). -/
def Ctx.slots (cx : Ctx) (pal : List Color) : List Color := if cx.palEn then slotsFor cx.k pal else pal

/-- The least slot that holds a Color (42_palette.md R182). -/
def slotOf (c : Color) : List Color → Option Nat
  | [] => none
  | d :: rest => if d = c then some 0 else (slotOf c rest).map (· + 1)

/-- `push(c, L)`: the new Color in front, the last slot lost (42_palette.md R180, R183). -/
def pushColor (c : Color) (pal : List Color) : List Color := (c :: pal).take pal.length

/-- `promote(j, L)`: slot `j` in front, the others in their order (42_palette.md R180, R184). -/
def promote (j : Nat) (pal : List Color) : List Color :=
  match pal[j]? with
  | some c => c :: pal.eraseIdx j
  | none => pal

/-! ## The values a host gives (60_exceptions.md R311) -/

/-- The control values are legal (10_state.md R30, 60_exceptions.md R311 first row). -/
def CtrlArgs.legal (a : CtrlArgs) (cfg : Config) : Bool :=
  (cfg.fmtOfNat a.fmt).isSome && (a.version.all fun v => decide (v < 256)) && decide (a.palSize < 256) && decide (a.alphaTrunc < 4)
    && decide (a.rgbTrunc < 4) && decide (1 ≤ a.width ∧ a.width ≤ 65536) && decide (1 ≤ a.height ∧ a.height ≤ 65536)
    && decide (1 ≤ a.runLenBits ∧ a.runLenBits ≤ 16) && decide (a.zeroize < 2)

/-- `N` of the host's control values (10_state.md R31). -/
def CtrlArgs.pixels (a : CtrlArgs) : Nat := a.width * a.height

/-- `EXPECT_W`, `EXPECT_H` are legal where they are given (60_exceptions.md R311). -/
def expectLegal : Option (Nat × Nat) → Bool
  | none => true
  | some (w, h) => decide (1 ≤ w ∧ w ≤ 65536) && decide (1 ≤ h ∧ h ≤ 65536)

/-- `SCRATCH_BYTES` for `n` pixels of `p` bits (43_encoder.md R214, D21). -/
def scratchBytes (cfg : Config) (n p : Nat) : Nat :=
  roundup16 (8 + 16 * ceilDiv (n * (p + 1)) 128) + 16 * cfg.scratchExtra

end Sys2Proof
end

