-- ==== Sys2Proof/Machine/Ops.lean ====
section
/-! DEFINITION. The named operations over memory and registers that the meanings share: bytes, bits and pixels of a buffer
(20_memory.md), the BitStream (40_bitstream.md), the cache (42_palette.md), and the one way an operation ends in an error
(60_exceptions.md R324). -/

namespace Sys2Proof.Machine

/-- What one instruction or one step answers. -/
abbrev Result := Host.Outcome State Fault Refusal

/-! ## Bytes of a buffer -/

/-- The byte listed at an offset. -/
def cellAt (off : Nat) : List Host.Cell → Option Byte
  | [] => none
  | c :: rest => if c.1 = off then some c.2 else cellAt off rest

/-- The cells without the one at an offset. -/
def dropCell (off : Nat) (cells : List Host.Cell) : List Host.Cell := cells.filter fun c => decide (c.1 ≠ off)

/-- A cell put before the first of a higher offset. -/
def putCell (off : Nat) (v : Byte) : List Host.Cell → List Host.Cell
  | [] => [(off, v)]
  | c :: rest => if off < c.1 then (off, v) :: c :: rest else c :: putCell off v rest

/-- One byte of a buffer: `MemRead(buf, off, 1)` (00_scope.md R7). -/
def Buffer.read (b : Buffer) (off : Nat) : Byte := (cellAt off b.cells).getD (b.fill.byte off)

/-- One byte written: `MemWrite(buf, off, 1, [v])` (00_scope.md R7). Nothing outside the buffer is ever written
(20_memory.md R60). A byte that an unlisted offset reads as is not listed. -/
def Buffer.write (b : Buffer) (off : Nat) (v : Byte) : Buffer :=
  if off < b.size then
    { b with cells :=
        if v = b.fill.byte off then dropCell off b.cells else putCell off v (dropCell off b.cells) }
  else b

/-- Bytes written at ascending offsets: `MemWrite(buf, off, n, bytes)` (00_scope.md R7). -/
def Buffer.writeBytes (b : Buffer) (off : Nat) : List Byte → Buffer
  | [] => b
  | v :: rest => (b.write off v).writeBytes (off + 1) rest

/-- `n` bytes at ascending offsets: `MemRead(buf, off, n)` (00_scope.md R7). -/
def Buffer.readBytes (b : Buffer) (off : Nat) : (n : Nat) → List Byte
  | 0 => []
  | n + 1 => b.read off :: b.readBytes (off + 1) n

/-- The first `n` bytes set to 0 (40_bitstream.md R131). -/
def Buffer.clear (b : Buffer) (n : Nat) : Buffer :=
  if b.size ≤ n then { b with fill := .zero, cells := [] } else b.writeBytes 0 (List.replicate n 0)

/-- The contents left unspecified (40_bitstream.md R132, U3): every byte a free value. -/
def Buffer.forget (b : Buffer) (k : Nat) : Buffer := { b with fill := .free k, cells := [] }

/-! ## Bits of a buffer -/

/-- Where stream bit `p` stands in its byte (20_memory.md R61, D1). -/
def bitIndex (order : BitOrder) (p : Nat) : Nat :=
  match order with
  | .lsbFirst => p % 8
  | .msbFirst => 7 - p % 8

/-- A byte with one bit set to `b`. -/
def byteWithBit (v : Byte) (i : Nat) (b : Bool) : Byte :=
  if b then v ||| (1#8 <<< i) else v &&& ~~~(1#8 <<< i)

/-- `BitGet(buf, p)` (20_memory.md R61). -/
def Buffer.bit (b : Buffer) (order : BitOrder) (p : Nat) : Bool := (b.read (p / 8)).getLsbD (bitIndex order p)

/-- `BitSet(buf, p, v)` (20_memory.md R61). -/
def Buffer.setBit (b : Buffer) (order : BitOrder) (p : Nat) (v : Bool) : Buffer :=
  b.write (p / 8) (byteWithBit (b.read (p / 8)) (bitIndex order p) v)

/-- Bits written at ascending stream positions. -/
def Buffer.setBits (b : Buffer) (order : BitOrder) (p : Nat) : List Bool → Buffer
  | [] => b
  | v :: rest => (b.setBit order p v).setBits order (p + 1) rest

/-! ## Pixels of a buffer -/

/-- A word from its bytes at ascending offsets (20_memory.md R62, D2). -/
def wordOfBytes (order : ByteOrder) (bytes : List Byte) : Word :=
  match order with
  | .le => BitVec.ofNat 32 (bytes.foldr (fun v acc => v.toNat + 256 * acc) 0)
  | .be => BitVec.ofNat 32 (bytes.foldl (fun acc v => v.toNat + 256 * acc) 0)

/-- The low `n` bytes of a word, least significant first. -/
def lowBytes : (n : Nat) → (v : Nat) → List Byte
  | 0, _ => []
  | n + 1, v => BitVec.ofNat 8 v :: lowBytes n (v / 256)

/-- The `n` bytes of a word at ascending offsets (20_memory.md R62, D2). -/
def bytesOfWord (order : ByteOrder) (n : Nat) (w : Word) : List Byte :=
  match order with
  | .le => lowBytes n w.toNat
  | .be => (lowBytes n w.toNat).reverse

/-- Nibble `i` is the high one of its byte (20_memory.md R65, D5). -/
def nibbleIsHigh (order : NibbleOrder) (i : Nat) : Bool :=
  match order with
  | .lowFirst => decide (i % 2 = 1)
  | .highFirst => decide (i % 2 = 0)

/-- A nibble of a byte. -/
def nibbleOf (high : Bool) (v : Byte) : BitVec 4 := if high then v.extractLsb' 4 4 else v.extractLsb' 0 4

/-- A byte with one nibble replaced. -/
def byteWithNibble (high : Bool) (v : Byte) (x : BitVec 4) : Byte :=
  if high then x ++ v.extractLsb' 0 4 else v.extractLsb' 4 4 ++ x

/-- Nibble `i` of a buffer as a word (20_memory.md R65). -/
def Buffer.nibble (b : Buffer) (order : NibbleOrder) (i : Nat) : Word :=
  (nibbleOf (nibbleIsHigh order i) (b.read (i / 2))).setWidth 32

/-- `PixRead(buf, i, fmt)` (20_memory.md R63 to R65). -/
def pixRead (cfg : Config) (f : Fmt) (b : Buffer) (i : Nat) : Word :=
  match f with
  | .argb8888 => wordOfBytes cfg.pixelByteOrder (b.readBytes (4 * i) 4)
  | .argb4444 => wordOfBytes cfg.pixelByteOrder (b.readBytes (2 * i) 2)
  | .argb1555 => wordOfBytes cfg.pixelByteOrder (b.readBytes (2 * i) 2)
  | .lut8 => wordOfBytes cfg.pixelByteOrder (b.readBytes i 1)
  | .lut4 => b.nibble cfg.lut4Nibbles i

/-- `PixWrite(buf, i, fmt, w)` (20_memory.md R63 to R65). -/
def pixWrite (cfg : Config) (f : Fmt) (b : Buffer) (i : Nat) (w : Word) : Buffer :=
  match f with
  | .argb8888 => b.writeBytes (4 * i) (bytesOfWord cfg.pixelByteOrder 4 w)
  | .argb4444 => b.writeBytes (2 * i) (bytesOfWord cfg.pixelByteOrder 2 w)
  | .argb1555 => b.writeBytes (2 * i) (bytesOfWord cfg.pixelByteOrder 2 w)
  | .lut8 => b.writeBytes i (bytesOfWord cfg.pixelByteOrder 1 w)
  | .lut4 =>
    b.write (i / 2) (byteWithNibble (nibbleIsHigh cfg.lut4Nibbles i) (b.read (i / 2)) (w.extractLsb' 0 4))

/-- The bytes of pixel `i` lie inside the buffer. -/
def pixInside (f : Fmt) (b : Buffer) (i : Nat) : Bool := decide (f.pixbytes (i + 1) ≤ b.size)

/-- One word written to `n` consecutive pixels from `i` on. -/
def pixFill (cfg : Config) (f : Fmt) (b : Buffer) (i : Nat) (w : Word) : (n : Nat) → Buffer
  | 0 => b
  | n + 1 => pixFill cfg f (pixWrite cfg f b i w) (i + 1) w n

/-! ## Buffers of the state -/

/-- The buffer of a name; a bitmap source that the host has not given is empty (10_state.md R40). -/
def State.buf (s : State) : BufId → Buffer
  | .host .canvas => s.canvas
  | .host .out => s.out
  | .host .inp => s.inp
  | .host .dst => s.dst
  | .host (.bmp j) => s.bmps.getD j Buffer.empty
  | .scratch => s.scratch
  | .lc => s.lc

/-- The buffer of a name replaced. -/
def State.setBuf (s : State) (id : BufId) (b : Buffer) : State :=
  match id with
  | .host .canvas => { s with canvas := b }
  | .host .out => { s with out := b }
  | .host .inp => { s with inp := b }
  | .host .dst => { s with dst := b }
  | .host (.bmp j) => { s with bmps := s.bmps.set j b }
  | .scratch => { s with scratch := b }
  | .lc => { s with lc := b }

/-- The byte of a buffer at an offset. -/
def State.byteAt (s : State) (id : BufId) (off : Nat) : Byte := (s.buf id).read off

/-! ## Derived control values (10_state.md R31) -/

/-- The format that `CTRL.FMT` names. -/
def State.fmt? (s : State) : Option Fmt := s.cfg.fmtOf s.ctrl.fmt

/-- `K`. -/
def State.palSize (s : State) : Nat := s.ctrl.palSize.toNat

/-- `PAL_EN`. -/
def State.palEn (s : State) : Bool := decide (1 < s.palSize)

/-- `RL`. -/
def State.rl (s : State) : Nat := s.ctrl.runLenBits.toNat

/-- `N`. -/
def State.pixels (s : State) : Nat := s.ctrl.width.toNat * s.ctrl.height.toNat

/-- The slots of the palette cache (10_state.md R35; log 37). -/
def State.slots (s : State) : List Color := if s.palEn then slotsFor s.palSize s.pal else s.pal

/-- The context of the entries for a format. -/
def State.ctxOf (s : State) (f : Fmt) : Ctx := { cfg := s.cfg, fmt := f, k := s.palSize, rl := s.rl }

/-- The context of the entries, where `CTRL.FMT` names a format. -/
def State.ctx? (s : State) : Option Ctx := s.fmt?.map s.ctxOf

/-- An operation that dispatches on the format of `CTRL`: a fault where there is none (60_exceptions.md R320, D40). -/
def withCtx (s : State) (k : Ctx → Result) : Result :=
  match s.ctx? with
  | some cx => k cx
  | none => .fault .formatDispatch

/-- The context of the entries, for what looks at no format: any format stands where `CTRL.FMT` names none. -/
def State.anyCtx (s : State) : Ctx := s.ctxOf (s.fmt?.getD .argb8888)

/-- An operation that reaches a format dispatch only where `reaches` says so; elsewhere it looks at no format, and runs
whatever `CTRL.FMT` holds (60_exceptions.md R320). -/
def dispatching (reaches : Bool) (s : State) (k : Ctx → Result) : Result := if reaches then withCtx s k else k s.anyCtx

/-! ## The BitStream (40_bitstream.md) -/

/-- `BS.INIT(buf, size, read_only)` (40_bitstream.md R131). An internal buffer takes the size it is given. -/
def bsInit (id : BufId) (size : Nat) (readOnly : Bool) (s : State) : State :=
  let s' :=
    if readOnly then s
    else
      match id with
      | .host h => s.setBuf (.host h) ((s.buf (.host h)).clear size)
      | .scratch => s.setBuf .scratch (Buffer.zeros size)
      | .lc => s.setBuf .lc (Buffer.zeros size)
  { s' with bs := { buf := id, cap := size * 8, ro := readOnly, pos := 0, status := .ok } }

/-- The bound buffer holds all the bytes the stream counts on. Every `BS.INIT` leaves it so. -/
def State.bsBound (s : State) : Bool := decide (s.bs.cap ≤ 8 * (s.buf s.bs.buf).size)

/-- `BS.WRITE(v, n)` (40_bitstream.md R132): past the capacity the cursor still advances, the status is set and the
contents of the buffer become free values. -/
def bsWrite (v n : Nat) (s : State) : State :=
  if n = 0 then s
  else if s.bs.pos + n ≤ s.bs.cap then
    { s.setBuf s.bs.buf ((s.buf s.bs.buf).setBits s.cfg.bitOrder s.bs.pos (fieldBits s.cfg.bitOrder v n)) with
      bs := { s.bs with pos := s.bs.pos + n } }
  else
    { s.setBuf s.bs.buf ((s.buf s.bs.buf).forget s.free) with
      bs := { s.bs with pos := s.bs.pos + n, status := statusAfter s.bs.cap s.bs.pos n s.bs.status }
      free := s.free + 1 }

/-- Fields written one after the other. -/
def bsWriteFields : List Field → State → State
  | [], s => s
  | (v, n) :: rest, s => bsWriteFields rest (bsWrite v n s)

/-- A stream bit as a read returns it: past the capacity a free value (40_bitstream.md R133, U10). -/
def State.streamBit (s : State) (p : Nat) : Bool :=
  if p < s.bs.cap then (s.buf s.bs.buf).bit s.cfg.bitOrder p else Config.freeBit s.free p

/-- `n` stream bits from position `p` on, as a read returns them. -/
def State.streamBits (s : State) (p : Nat) : (n : Nat) → List Bool
  | 0 => []
  | n + 1 => s.streamBit p :: s.streamBits (p + 1) n

/-- What a read of `n` bits leaves: the cursor advanced and clamped, the status (40_bitstream.md R133). -/
def bsAdvance (n : Nat) (s : State) : State :=
  if n = 0 then s
  else
    { s with
      bs := {
        s.bs with
        pos := min (s.bs.pos + n) s.bs.cap
        status := statusAfter s.bs.cap s.bs.pos n s.bs.status }
      free := if s.bs.cap < s.bs.pos + n then s.free + 1 else s.free }

/-- The value that `BS.READ(n)` returns (40_bitstream.md R133). -/
def State.readValue (s : State) (n : Nat) : Nat := fieldValue s.cfg.bitOrder (s.streamBits s.bs.pos n)

/-- `BS.SKIP(n)` (40_bitstream.md R134). -/
def bsSkip (n : Nat) (s : State) : State :=
  { s with bs := { s.bs with pos := min (s.bs.pos + n) s.bs.cap } }

/-! ## How an operation ends (60_exceptions.md R324) -/

/-- `raise Malformed(cause)` (44_decoder.md R231, 60_exceptions.md R312, R324): the one way an operation takes an error of
its input. `size` is the bytes of pixels written so far. The block goes idle; nothing is saved and nothing resumes (R325). -/
def raiseMalformed (cause : Cause) (size : Nat) (s : State) : State :=
  { s with
    res := resRegs .malformed cause size s.bs.pos
    phase := .idle }

/-- `raise Malformed(cause)` inside the loop: `RES.SIZE` is `pixbytes(DEC.outpix, CTRL.FMT)` (44_decoder.md R231). -/
def raiseInLoop (cause : Cause) (f : Fmt) (s : State) : State :=
  raiseMalformed cause (f.pixbytes s.dec.outpix) s

/-- The end with `ST_ALLOC` (60_exceptions.md R323). -/
def endAlloc (s : State) : State := { s with res := resRegs .alloc .none 0 0 }

/-- The end of a successful `DECODE` (44_decoder.md R231 last line). -/
def endDecode (f : Fmt) (s : State) : State :=
  { s with
    res := resRegs .ok .none (f.pixbytes s.pixels) s.bs.pos
    phase := .idle }

/-! ## Control values -/

/-- The host's control values in the control registers (10_state.md R30, R47); a host that gives no version leaves it to
`HDR_VERSION` (92 D7). -/
def ctrlRegsOf (cfg : Config) (a : CtrlArgs) : CtrlRegs where
  version := (a.version.map (BitVec.ofNat 8)).getD cfg.hdrVersion
  fmt := BitVec.ofNat 4 a.fmt
  palSize := BitVec.ofNat 8 a.palSize
  alphaTrunc := BitVec.ofNat 2 a.alphaTrunc
  rgbTrunc := BitVec.ofNat 2 a.rgbTrunc
  width := BitVec.ofNat 17 a.width
  height := BitVec.ofNat 17 a.height
  runLenBits := BitVec.ofNat 5 a.runLenBits
  zeroize := BitVec.ofNat 1 a.zeroize

/-- `PAL.INIT(K)` where palette mode is enabled, no cache where it is not (43_encoder.md R201, 44_decoder.md R231, D14). -/
def seedPalette (s : State) : State :=
  { s with pal := if s.palEn then s.cfg.palSeed.colors s.palSize else [] }

end Sys2Proof.Machine
end

