-- ==== Sys2Proof/Machine/BitStream.lean ====
section
/-! DEFINITION. The four BitStream operations (40_bitstream.md). -/

namespace Sys2Proof.Machine

/-- The size given to `BS.INIT` is one the buffer has; `SCRATCH` and `LC` take any size when they are initialised
writable (40_bitstream.md R131, 43_encoder.md R214). -/
def initFits (id : BufId) (size : Nat) (readOnly : Bool) (s : State) : Bool :=
  match id with
  | .host h => decide (size ≤ (s.buf (.host h)).size)
  | .scratch => !readOnly || decide (size ≤ s.scratch.size)
  | .lc => !readOnly || decide (size ≤ s.lc.size)

/-- `BS.INIT` (40_bitstream.md R131). -/
def execBsInit (id : BufId) (size : Nat) (readOnly : Bool) (s : State) : Result :=
  if initFits id size readOnly s then .next (bsInit id size readOnly s) else .refused .accessOutOfRange

/-- `BS.WRITE` (40_bitstream.md R132). -/
def execBsWrite (v n : Nat) (s : State) : Result :=
  if 16 < n then .refused .writeTooWide
  else if s.bs.ro then .refused .writeReadOnly
  else if s.bsBound then .next (bsWrite v n s)
  else .refused .accessOutOfRange

/-- `BS.READ` (40_bitstream.md R133): the value is returned. -/
def execBsRead (n : Nat) (s : State) : Result :=
  if 32 < n then .refused .readTooWide
  else if s.bsBound then .next { bsAdvance n s with ret := .bits (BitVec.ofNat 32 (s.readValue n)) }
  else .refused .accessOutOfRange

/-- `BS.SKIP` (40_bitstream.md R134). -/
def execBsSkip (n : Nat) (s : State) : Result :=
  if s.bs.cap < s.bs.pos then .refused .skipPastCapacity else .next (bsSkip n s)

end Sys2Proof.Machine
end

