-- ==== Sys2Proof/WellFormed.lean ====
section
/-! DEFINITION. Which instructions are well formed: their operands are in the ranges the spec gives, for the format,
`K`, `RL` and configuration of a context. What depends on the state (sizes of buffers, the object list) is checked by
the meanings. -/

namespace Sys2Proof

/-- A `P`-bit pixel word (30_encoding.md R98). -/
def wordFits (p : Nat) (w : Word) : Bool := decide (w.toNat < 2 ^ p)

/-- A run length that a run field can hold (30_encoding.md R97). -/
def runFits (rl n : Nat) : Bool := decide (1 ≤ n ∧ n ≤ 2 ^ rl)

/-- A header is read in the layout the configuration has (30_encoding.md R92, R93). -/
def headerLayoutIs (cx : Ctx) (rsv : HdrRsv0) : Bool := decide (cx.cfg.hdrRsv0 = rsv)

/-- An entry that its encoding can hold, of the set that `PAL_EN` selects (30_encoding.md R97 to R108). An index
that names no slot is well formed: the decoder faults on it (R109). -/
def Entry.wf (cx : Ctx) : Entry → Bool
  | .lit c => cx.palEn && wordFits cx.pixBits c
  | .litr n c => cx.palEn && runFits cx.rl n && wordFits cx.pixBits c
  | .reserved011 bits => cx.palEn && decide (cx.kindOf bits = some (.reserved, bits.length))
  | .pal i => cx.palEn && decide (i < 2 ^ cx.idxBits)
  | .palr n i => cx.palEn && runFits cx.rl n && decide (i < 2 ^ cx.idxBits)
  | .nlit c => !cx.palEn && wordFits cx.pixBits c
  | .nrun n c => !cx.palEn && runFits cx.rl n && wordFits cx.pixBits c

/-- An object's colour is a `P`-bit word where the format code is one (46_rasterizer.md R271, R272). -/
def colorFits (cx : Ctx) (fmtCode color : Nat) : Bool :=
  match cx.cfg.fmtOfNat fmtCode with
  | some f => decide (color < 2 ^ f.bits)
  | none => false

/-- The operands of `DECODE` that need no state to check (60_exceptions.md R311). -/
def DecodeArgs.legal (a : DecodeArgs) : Bool :=
  decide (1 ≤ a.runLenBits ∧ a.runLenBits ≤ 16) && decide (a.inp ≠ a.dst) && expectLegal a.expect

/-- An instruction is well formed in a context. -/
def Instr.wf (cx : Ctx) : Instr → Bool
  | .hdr3 _ => headerLayoutIs cx .three
  | .hdr4 _ => headerLayoutIs cx .four
  | .lit c => Entry.wf cx (.lit c)
  | .litr n c => Entry.wf cx (.litr n c)
  | .reserved011 bits => Entry.wf cx (.reserved011 bits)
  | .pal i => Entry.wf cx (.pal i)
  | .palr n i => Entry.wf cx (.palr n i)
  | .nlit c => Entry.wf cx (.nlit c)
  | .nrun n c => Entry.wf cx (.nrun n c)
  | .bsInit _ _ _ => true
  | .bsWrite _ n => decide (n ≤ 16)
  | .bsRead n => decide (n ≤ 32)
  | .bsSkip _ => true
  | .pixGet8888 _ _ => true
  | .pixGet4444 _ _ => true
  | .pixGet1555 _ _ => true
  | .pixGetLut8 _ _ => true
  | .pixGetLut4 _ _ => true
  | .pixSet8888 _ _ _ => true
  | .pixSet4444 _ _ _ => true
  | .pixSet1555 _ _ _ => true
  | .pixSetLut8 _ _ _ => true
  | .pixSetLut4 _ _ _ => true
  | .pixPreprocess _ _ code _ _ _ => (cx.cfg.fmtOf code).isSome
  | .palInit k => decide (2 ≤ k ∧ k ≤ 255)
  | .palLookup _ => cx.palEn
  | .palPush _ => cx.palEn
  | .palLruUpdate j => cx.palEn && decide (j < cx.k)
  | .palGet j => cx.palEn && decide (j < cx.k)
  | .encPixel _ => true
  | .encStartRun _ => true
  | .encFlush => true
  | .encSyntax _ n _ => runFits cx.rl n
  | .encFinish _ _ => true
  | .encode a => a.ctrl.legal cx.cfg && decide (a.canvas ≠ a.out)
  | .decPrefix => true
  | .decEmit => true
  | .decode a => a.legal
  | .hdrEncode => true
  | .hdrDecode => true
  | .setRect attrs _ _ _ _ _ _ color => colorFits cx attrs.fmt color
  | .setLine attrs _ _ _ _ _ color => colorFits cx attrs.fmt color
  | .setBitmap attrs _ _ _ _ _ _ => (cx.cfg.fmtOfNat attrs.fmt).isSome
  | .estimate a => a.ctrl.legal cx.cfg && colorFits cx a.ctrl.fmt a.bg
  | .draw a => a.ctrl.legal cx.cfg && colorFits cx a.ctrl.fmt a.bg

end Sys2Proof
end

