-- ==== Sys2Proof/Decode.lean ====
section
/-! DEFINITION. The decoder of the stream, total on any bits, rejecting by name, and after it the encoder. A stream has
two points at which something is decoded: its header (45_header.md R263) and its entries (44_decoder.md R232 to R234).
The 36 operations have no binary encoding (30_encoding.md R118). -/

namespace Sys2Proof

/-- Why bits are not decoded. -/
inductive DecodeError where
  /-- The bits end inside the header or the entry. -/
  | tooShort
deriving DecidableEq, Repr

/-- What is decoded next. -/
inductive DecodePoint where
  | header
  | body
deriving DecidableEq, Repr

/-- A field of `n` bits and the bits after it. -/
def takeField (order : BitOrder) (n : Nat) (bits : List Bool) : Except DecodeError (Nat × List Bool) :=
  match splitBits n bits with
  | some (field, rest) => .ok (fieldValue order field, rest)
  | none => .error .tooShort

/-- A `P`-bit pixel word: one field, or two halves, low half first (44_decoder.md R234, D11). -/
def takeCode (order : BitOrder) (p : Nat) (bits : List Bool) : Except DecodeError (Word × List Bool) :=
  if p ≤ 16 then
    match takeField order p bits with
    | .ok (v, rest) => .ok (BitVec.ofNat 32 v, rest)
    | .error e => .error e
  else
    match takeField order 16 bits with
    | .ok (low, rest) =>
      match takeField order 16 rest with
      | .ok (high, rest') => .ok (BitVec.ofNat 32 (low + 2 ^ 16 * high), rest')
      | .error e => .error e
    | .error e => .error e

/-- A literal entry's code. -/
def takeLiteral (cx : Ctx) (mk : Word → Entry) (bits : List Bool) : Except DecodeError (Entry × List Bool) :=
  match takeCode cx.cfg.bitOrder cx.pixBits bits with
  | .ok (c, rest) => .ok (mk c, rest)
  | .error e => .error e

/-- A palette entry's index. -/
def takeIndex (cx : Ctx) (mk : Nat → Entry) (bits : List Bool) : Except DecodeError (Entry × List Bool) :=
  match takeField cx.cfg.bitOrder cx.idxBits bits with
  | .ok (i, rest) => .ok (mk i, rest)
  | .error e => .error e

/-- A run field: the length is one more than what is stored (44_decoder.md R233). -/
def takeRun (cx : Ctx) (k : Nat → List Bool → Except DecodeError (Entry × List Bool)) (bits : List Bool) :
    Except DecodeError (Entry × List Bool) :=
  match takeField cx.cfg.bitOrder cx.rl bits with
  | .ok (m, rest) => k (m + 1) rest
  | .error e => .error e

/-- The fields after the leading bits, by kind (30_encoding.md R107). -/
def takeFields (cx : Ctx) (kind : EntryKind) (lead rest : List Bool) : Except DecodeError (Entry × List Bool) :=
  match kind with
  | .lit => takeLiteral cx .lit rest
  | .litr => takeRun cx (fun n => takeLiteral cx (.litr n)) rest
  | .reserved => .ok (.reserved011 lead, rest)
  | .pal => takeIndex cx .pal rest
  | .palr => takeRun cx (fun n => takeIndex cx (.palr n)) rest
  | .nlit => takeLiteral cx .nlit rest
  | .nrun => takeRun cx (fun n => takeLiteral cx (.nrun n)) rest

/-- One entry from the bits of a body (30_encoding.md R107, R112; 44_decoder.md R232 to R234). -/
def decodeEntry (cx : Ctx) (bits : List Bool) : Except DecodeError (Entry × List Bool) :=
  match cx.kindOf bits with
  | some (kind, n) => takeFields cx kind (bits.take n) (bits.drop n)
  | none => .error .tooShort

/-- The values of fields of the given widths. -/
def takeValues (order : BitOrder) : (widths : List Nat) → List Bool → Except DecodeError (List Nat × List Bool)
  | [], bits => .ok ([], bits)
  | n :: ns, bits =>
    match takeField order n bits with
    | .ok (v, rest) =>
      match takeValues order ns rest with
      | .ok (vs, rest') => .ok (v :: vs, rest')
      | .error e => .error e
    | .error e => .error e

/-- The widths of the header's fields (45_header.md R261). -/
def headerWidths (rsv : HdrRsv0) : List Nat := [8, 4, rsv.bits, 8, 2, 2, 2, 2, 16, 16, 4 - rsv.bits]

/-- The header from the values of its fields; the reserved ones are not looked at (30_encoding.md R94). -/
def headerOfValues : List Nat → Header
  | version :: format :: _ :: palSize :: alphaTrunc :: _ :: rgbTrunc :: _ :: widthM1 :: heightM1 :: _ =>
    { version := BitVec.ofNat 8 version
      format := BitVec.ofNat 4 format
      palSize := BitVec.ofNat 8 palSize
      alphaTrunc := BitVec.ofNat 2 alphaTrunc
      rgbTrunc := BitVec.ofNat 2 rgbTrunc
      widthM1 := BitVec.ofNat 16 widthM1
      heightM1 := BitVec.ofNat 16 heightM1 }
  | _ => { version := 0, format := 0, palSize := 0, alphaTrunc := 0, rgbTrunc := 0, widthM1 := 0, heightM1 := 0 }

/-- The header from the first 64 bits of a stream (45_header.md R263). -/
def decodeHeader (rsv : HdrRsv0) (order : BitOrder) (bits : List Bool) : Except DecodeError (Header × List Bool) :=
  match takeValues order (headerWidths rsv) bits with
  | .ok (vs, rest) => .ok (headerOfValues vs, rest)
  | .error e => .error e

/-- The instruction that a header is in a layout. -/
def headerInstr (rsv : HdrRsv0) (h : Header) : Instr :=
  match rsv with
  | .three => .hdr3 h
  | .four => .hdr4 h

/-- The instruction at a point of a stream and the bits after it. -/
def decode (cx : Ctx) (point : DecodePoint) (bits : List Bool) : Except DecodeError (Instr × List Bool) :=
  match point with
  | .header =>
    match decodeHeader cx.cfg.hdrRsv0 cx.cfg.bitOrder bits with
    | .ok (h, rest) => .ok (headerInstr cx.cfg.hdrRsv0 h, rest)
    | .error e => .error e
  | .body =>
    match decodeEntry cx bits with
    | .ok (e, rest) => .ok (e.toInstr, rest)
    | .error e => .error e

/-! ## The encoder -/

/-- The stream bits of an entry (30_encoding.md R96 to R104). -/
def encodeEntry (cx : Ctx) (e : Entry) : List Bool := fieldsBits cx.cfg.bitOrder (e.fields cx)

/-- The stream bits of a header (30_encoding.md R92, R93). -/
def encodeHeader (rsv : HdrRsv0) (order : BitOrder) (h : Header) : List Bool := fieldsBits order (h.fields rsv)

/-- The stream bits of an instruction, where it has any (30_encoding.md R118). -/
def encode (cx : Ctx) : Instr → Option (List Bool)
  | .hdr3 h => some (encodeHeader .three cx.cfg.bitOrder h)
  | .hdr4 h => some (encodeHeader .four cx.cfg.bitOrder h)
  | .lit c => some (encodeEntry cx (.lit c))
  | .litr n c => some (encodeEntry cx (.litr n c))
  | .reserved011 bits => some (encodeEntry cx (.reserved011 bits))
  | .pal i => some (encodeEntry cx (.pal i))
  | .palr n i => some (encodeEntry cx (.palr n i))
  | .nlit c => some (encodeEntry cx (.nlit c))
  | .nrun n c => some (encodeEntry cx (.nrun n c))
  | .bsInit _ _ _ => none
  | .bsWrite _ _ => none
  | .bsRead _ => none
  | .bsSkip _ => none
  | .pixGet8888 _ _ => none
  | .pixGet4444 _ _ => none
  | .pixGet1555 _ _ => none
  | .pixGetLut8 _ _ => none
  | .pixGetLut4 _ _ => none
  | .pixSet8888 _ _ _ => none
  | .pixSet4444 _ _ _ => none
  | .pixSet1555 _ _ _ => none
  | .pixSetLut8 _ _ _ => none
  | .pixSetLut4 _ _ _ => none
  | .pixPreprocess _ _ _ _ _ _ => none
  | .palInit _ => none
  | .palLookup _ => none
  | .palPush _ => none
  | .palLruUpdate _ => none
  | .palGet _ => none
  | .encPixel _ => none
  | .encStartRun _ => none
  | .encFlush => none
  | .encSyntax _ _ _ => none
  | .encFinish _ _ => none
  | .encode _ => none
  | .decPrefix => none
  | .decEmit => none
  | .decode _ => none
  | .hdrEncode => none
  | .hdrDecode => none
  | .setRect _ _ _ _ _ _ _ _ => none
  | .setLine _ _ _ _ _ _ _ => none
  | .setBitmap _ _ _ _ _ _ _ => none
  | .estimate _ => none
  | .draw _ => none

/-- The point of a stream at which an instruction that has bits stands. -/
def pointOf : Instr → DecodePoint
  | .hdr3 _ => .header
  | .hdr4 _ => .header
  | .lit _ => .body
  | .litr _ _ => .body
  | .reserved011 _ => .body
  | .pal _ => .body
  | .palr _ _ => .body
  | .nlit _ => .body
  | .nrun _ _ => .body
  | .bsInit _ _ _ => .body
  | .bsWrite _ _ => .body
  | .bsRead _ => .body
  | .bsSkip _ => .body
  | .pixGet8888 _ _ => .body
  | .pixGet4444 _ _ => .body
  | .pixGet1555 _ _ => .body
  | .pixGetLut8 _ _ => .body
  | .pixGetLut4 _ _ => .body
  | .pixSet8888 _ _ _ => .body
  | .pixSet4444 _ _ _ => .body
  | .pixSet1555 _ _ _ => .body
  | .pixSetLut8 _ _ _ => .body
  | .pixSetLut4 _ _ _ => .body
  | .pixPreprocess _ _ _ _ _ _ => .body
  | .palInit _ => .body
  | .palLookup _ => .body
  | .palPush _ => .body
  | .palLruUpdate _ => .body
  | .palGet _ => .body
  | .encPixel _ => .body
  | .encStartRun _ => .body
  | .encFlush => .body
  | .encSyntax _ _ _ => .body
  | .encFinish _ _ => .body
  | .encode _ => .body
  | .decPrefix => .body
  | .decEmit => .body
  | .decode _ => .body
  | .hdrEncode => .body
  | .hdrDecode => .body
  | .setRect _ _ _ _ _ _ _ _ => .body
  | .setLine _ _ _ _ _ _ _ => .body
  | .setBitmap _ _ _ _ _ _ _ => .body
  | .estimate _ => .body
  | .draw _ => .body

/-! ## The words of the opcode table -/

/-- The context in which a table word of an entry is read: the default instance, LUT4, `K = 2`, `RL = 1`, in which
every entry of palette mode has at most 8 bits. DESIGN CHOICE: the table gives an entry no context (log 24). -/
def tableCtx : Ctx := { cfg := Config.default, fmt := .lut4, k := 2, rl := 1 }

/-- The header layout in which a table word is read: the row of R93 has no fixed bit above bit 31, the row of R92
has one at bit 63. DESIGN CHOICE (log 24). -/
def tableRsv (nbits : Nat) : HdrRsv0 := if nbits ≤ 32 then .four else .three

/-- The stream bits of a table word: bit 0 of the word is stream bit 0, and every bit from `nbits` on is 0. -/
def tableBits (nbits w : Nat) : List Bool := bitsOfNat 64 (w % 2 ^ nbits)

/-- The instruction the decoder reads from a word of the opcode table: an entry for a word of at most 8 bits (see
`tableCtx`), a header for a longer one. -/
def decodeTableWord (nbits w : Nat) : Option Instr :=
  if nbits ≤ 8 then
    match decode tableCtx .body (tableBits nbits w) with
    | .ok (i, _) => some i
    | .error _ => none
  else
    match decode { tableCtx with cfg := { Config.default with hdrRsv0 := tableRsv nbits } } .header
        (tableBits nbits w) with
    | .ok (i, _) => some i
    | .error _ => none

end Sys2Proof
end

