-- ==== Sys2Proof/Machine/Palette.lean ====
section
/-! DEFINITION. The palette cache operations (42_palette.md). -/

namespace Sys2Proof.Machine

/-- The cache after `PAL.LOOKUP(c)` (42_palette.md R182): the found slot promoted, or `c` pushed. -/
def lookupPalette (c : Color) (pal : List Color) : List Color :=
  match slotOf c pal with
  | some j => promote j pal
  | none => pushColor c pal

/-- `PAL.INIT` (42_palette.md R181). DESIGN CHOICE (log 37): the operand is the number of slots made, also where it is not
`CTRL.PAL_SIZE`, which stays. -/
def execPalInit (k : Nat) (s : State) : Result :=
  if 2 ≤ k ∧ k ≤ 255 then .next { s with pal := s.cfg.palSeed.colors k } else .refused .illegalCapacity

/-- `PAL.LOOKUP` (42_palette.md R182): the slot before the promotion is returned. -/
def execPalLookup (c : Color) (s : State) : Result :=
  if s.slots = [] then .refused .noSuchSlot
  else .next { s with pal := lookupPalette c s.slots, ret := .lookup (slotOf c s.slots) }

/-- `PAL.PUSH` (42_palette.md R183). -/
def execPalPush (c : Color) (s : State) : Result :=
  if s.slots = [] then .refused .noSuchSlot else .next { s with pal := pushColor c s.slots }

/-- `PAL.LRU_UPDATE` (42_palette.md R184). -/
def execPalLruUpdate (j : Nat) (s : State) : Result :=
  if j < s.slots.length then .next { s with pal := promote j s.slots } else .refused .noSuchSlot

/-- `PAL.GET` (42_palette.md R185). -/
def execPalGet (j : Nat) (s : State) : Result :=
  match s.slots[j]? with
  | some c => .next { s with pal := promote j s.slots, ret := .color c }
  | none => .refused .noSuchSlot

end Sys2Proof.Machine
end

