-- ==== Sys2Proof/Machine/Entries.lean ====
section
/-! DEFINITION. The entries of a stream as instructions (44_decoder.md R235 to R241, 60_exceptions.md R316 to R319). An entry
starts with `BS.pos` at its first bit: its meaning reads its fields, makes the checks of 44_decoder.md R231, and has its
effect, or raises the cause of the first check that fails. -/

namespace Sys2Proof.Machine

/-- `DEC.EMIT()` (44_decoder.md R235). -/
def decEmit (cx : Ctx) (s : State) : State :=
  { s.setBuf (.host s.job.dst)
      (pixFill cx.cfg cx.fmt (s.buf (.host s.job.dst)) s.dec.outpix (pack cx.cfg.channelScale cx.fmt s.dec.color) s.dec.len)
    with
    dec := { s.dec with outpix := s.dec.outpix + s.dec.len, remaining := s.dec.remaining - s.dec.len } }

/-- The pixels that `DEC.EMIT` would write, if any, lie inside the output buffer. -/
def emitInside (cx : Ctx) (s : State) : Bool :=
  decide (s.dec.len = 0) || decide (cx.fmt.pixbytes (s.dec.outpix + s.dec.len) ≤ (s.buf (.host s.job.dst)).size)

/-- `DEC.EMIT()`, refused where it would write outside the output buffer (60_exceptions.md R311). -/
def emitOrRefuse (cx : Ctx) (s : State) : Result :=
  if emitInside cx s then .next (decEmit cx s) else .refused .accessOutOfRange

/-- The fields of an entry read: the cursor past it, `DEC.mode`, `DEC.len` and `DEC.code` set (44_decoder.md R231). -/
def readEntry (cx : Ctx) (e : Entry) (s : State) : State :=
  let s' := bsAdvance (e.width cx) s
  { s' with dec := { s'.dec with mode := e.mode, len := e.runLength, code := e.code } }

/-- The first check of 44_decoder.md R231 that fails after the fields are read; `slot` is the index of a palette entry. -/
def entryFault (cx : Ctx) (slot : Option Nat) (s : State) : Option Cause :=
  if s.bs.status = .overflow then some .truncated
  else if slot.any fun i => decide (cx.k ≤ i) then some .badIndex
  else if s.dec.remaining < s.dec.len then some .runOverrun
  else none

/-- A literal entry resolved: `DEC.color`, and the push of palette mode (44_decoder.md R236, R237, R240, R241). Where
there is no cache nothing is pushed (92 D14); slots that no `PAL.INIT` has filled: DESIGN CHOICE (log 37). -/
def resolveLiteral (cx : Ctx) (c : Word) (push : Bool) (s : State) : State :=
  { s with
    dec := { s.dec with color := unpack cx.cfg.channelScale cx.fmt c }
    pal := if push then pushColor (unpack cx.cfg.channelScale cx.fmt c) (cx.slots s.pal) else s.pal }

/-- A literal entry (44_decoder.md R231, R236, R237, R240, R241). -/
def literalEntry (e : Entry) (c : Word) (push : Bool) (s : State) : Result :=
  withCtx s fun cx =>
    match entryFault cx none (readEntry cx e s) with
    | some cause => .next (raiseInLoop cause cx.fmt (readEntry cx e s))
    | none => emitOrRefuse cx (resolveLiteral cx c push (readEntry cx e s))

/-- A palette entry (44_decoder.md R231, R238, R239): `PAL.GET(i)`, then `DEC.EMIT`. -/
def paletteEntry (e : Entry) (i : Nat) (s : State) : Result :=
  withCtx s fun cx =>
    match entryFault cx (some i) (readEntry cx e s) with
    | some cause => .next (raiseInLoop cause cx.fmt (readEntry cx e s))
    | none =>
      match (cx.slots s.pal)[i]? with
      | some color =>
        let s' := readEntry cx e s
        emitOrRefuse cx { s' with dec := { s'.dec with color := color }, pal := promote i (cx.slots s.pal) }
      | none => .refused .noSuchSlot

/-- `LIT c` (44_decoder.md R236). -/
def execLit (c : Word) (s : State) : Result := literalEntry (.lit c) c true s

/-- `LITR n, c` (44_decoder.md R237): pushed once. -/
def execLitr (n : Nat) (c : Word) (s : State) : Result := literalEntry (.litr n c) c true s

/-- The reserved string (60_exceptions.md R316, R319): `TRUNCATED` where its bits pass the end, else
`RESERVED_PREFIX`; no other effect. -/
def execReserved011 (bits : List Bool) (s : State) : Result :=
  withCtx s fun cx =>
    if (bsAdvance bits.length s).bs.status = .overflow then
      .next (raiseInLoop .truncated cx.fmt (bsAdvance bits.length s))
    else .next (raiseInLoop .reservedPrefix cx.fmt (bsAdvance bits.length s))

/-- `PAL i` (44_decoder.md R238). -/
def execPal (i : Nat) (s : State) : Result := paletteEntry (.pal i) i s

/-- `PALR n, i` (44_decoder.md R239): promoted once. -/
def execPalr (n i : Nat) (s : State) : Result := paletteEntry (.palr n i) i s

/-- `NLIT c` (44_decoder.md R240): nothing is pushed. -/
def execNlit (c : Word) (s : State) : Result := literalEntry (.nlit c) c false s

/-- `NRUN n, c` (44_decoder.md R241): nothing is pushed. -/
def execNrun (n : Nat) (c : Word) (s : State) : Result := literalEntry (.nrun n c) c false s

/-- An entry executed. -/
def runEntry (e : Entry) (s : State) : Result :=
  match e with
  | .lit c => execLit c s
  | .litr n c => execLitr n c s
  | .reserved011 bits => execReserved011 bits s
  | .pal i => execPal i s
  | .palr n i => execPalr n i s
  | .nlit c => execNlit c s
  | .nrun n c => execNrun n c s

/-- `DEC.EMIT` as an operation (44_decoder.md R235): 44_decoder.md R231 has checked the run length. A run of no pixels
reaches no `PIX.SET`. -/
def execDecEmit (s : State) : Result :=
  dispatching (decide (s.dec.len ≠ 0)) s fun cx =>
    if s.dec.remaining < s.dec.len then .refused .emitOverrun else emitOrRefuse cx s

end Sys2Proof.Machine
end

