-- ==== Sys2Proof/Machine/Header.lean ====
section
/-! DEFINITION. The header codec (45_header.md) and the two header layouts as instructions. -/

namespace Sys2Proof.Machine

/-- `CTRL.WIDTH - 1` or `CTRL.HEIGHT - 1` as 16 bits are written of it (45_header.md R262; 40_bitstream.md R132: bits above
them are ignored). For 0 the spec states no value: a free value. DESIGN CHOICE (log 36). -/
def dimM1 (open0 : BitVec 16) (dim : BitVec 17) : BitVec 16 := if dim = 0 then open0 else (dim - 1).setWidth 16

/-- The header that `CTRL` describes (45_header.md R262). A `CTRL.FMT` that is no format's code is written as the four
bits it is: DEDUCED (log 36). -/
def headerOfCtrl (c : CtrlRegs) : Header where
  version := c.version
  format := c.fmt
  palSize := c.palSize
  alphaTrunc := c.alphaTrunc
  rgbTrunc := c.rgbTrunc
  widthM1 := dimM1 Config.freeWidthM1 c.width
  heightM1 := dimM1 Config.freeHeightM1 c.height

/-- One step of `HDR.ENCODE`: a write of a value, or a skip (no value), of so many bits. -/
abbrev HdrStep := Option Nat × Nat

/-- The steps of `HDR.ENCODE` (45_header.md R262). -/
def hdrSteps (rsv : HdrRsv0) (h : Header) : List HdrStep :=
  [(some h.version.toNat, 8), (some h.format.toNat, 4), (none, rsv.bits), (some h.palSize.toNat, 8),
    (some h.alphaTrunc.toNat, 2), (none, 2), (some h.rgbTrunc.toNat, 2), (none, 2), (some h.widthM1.toNat, 16),
    (some h.heightM1.toNat, 16), (none, 4 - rsv.bits)]

/-- One step of `HDR.ENCODE` done. -/
def hdrStep (st : HdrStep) (s : State) : State :=
  match st.1 with
  | some v => bsWrite v st.2 s
  | none => bsSkip st.2 s

/-- The steps done in order. -/
def runHdrSteps : List HdrStep → State → State
  | [], s => s
  | st :: rest, s => runHdrSteps rest (hdrStep st s)

/-- Some skip among the steps would start with the cursor above the capacity (40_bitstream.md R134: refused). -/
def hdrSkipsPastCapacity : List HdrStep → State → Bool
  | [], _ => false
  | st :: rest, s => (st.1.isNone && decide (s.bs.cap < s.bs.pos)) || hdrSkipsPastCapacity rest (hdrStep st s)

/-- `HDR.ENCODE` on a stream it fits (45_header.md R262). -/
def hdrEncode (s : State) : State := runHdrSteps (hdrSteps s.cfg.hdrRsv0 (headerOfCtrl s.ctrl)) s

/-- `HDR.ENCODE` (45_header.md R262). -/
def execHdrEncode (s : State) : Result :=
  if s.bs.ro then .refused .writeReadOnly
  else if s.bsBound = false then .refused .accessOutOfRange
  else if hdrSkipsPastCapacity (hdrSteps s.cfg.hdrRsv0 (headerOfCtrl s.ctrl)) s then .refused .skipPastCapacity
  else .next (hdrEncode s)

/-- `CTRL` fields 0 to 6 from a header (45_header.md R263); fields 7 and 8 stay. -/
def ctrlOfHeader (h : Header) (c : CtrlRegs) : CtrlRegs :=
  { c with
    version := h.version
    fmt := h.format
    palSize := h.palSize
    alphaTrunc := h.alphaTrunc
    rgbTrunc := h.rgbTrunc
    width := h.widthM1.setWidth 17 + 1
    height := h.heightM1.setWidth 17 + 1 }

/-- The control fields filled; a `DECODE` that waits for its header goes on to its checks (44_decoder.md R231). -/
def fillCtrl (h : Header) (s : State) : State :=
  { s with
    ctrl := ctrlOfHeader h s.ctrl
    phase := if s.phase = .header then .setup else s.phase }

/-- What the reads and skips of `HDR.DECODE` leave of the cursor and the status (45_header.md R263). -/
def hdrWalk (rsv : HdrRsv0) (s : State) : State :=
  bsSkip (4 - rsv.bits) (bsAdvance 16 (bsAdvance 16 (bsSkip 2 (bsAdvance 2 (bsSkip 2 (bsAdvance 2
    (bsAdvance 8 (bsSkip rsv.bits (bsAdvance 4 (bsAdvance 8 s))))))))))

/-- The header in the layout of 30_encoding.md R92, read by `HDR.DECODE` (45_header.md R263). -/
def execHdr3 (h : Header) (s : State) : Result := .next (fillCtrl h (hdrWalk .three s))

/-- The header in the layout of 30_encoding.md R93, read by `HDR.DECODE` (45_header.md R263). -/
def execHdr4 (h : Header) (s : State) : Result := .next (fillCtrl h (hdrWalk .four s))

/-- `HDR.DECODE` read by read (45_header.md R263). -/
def hdrDecode (s : State) : State :=
  let s1 := bsAdvance 8 s
  let s2 := bsSkip s.cfg.hdrRsv0.bits (bsAdvance 4 s1)
  let s3 := bsAdvance 8 s2
  let s4 := bsSkip 2 (bsAdvance 2 s3)
  let s5 := bsSkip 2 (bsAdvance 2 s4)
  let s6 := bsAdvance 16 s5
  let s7 := bsSkip (4 - s.cfg.hdrRsv0.bits) (bsAdvance 16 s6)
  fillCtrl
    { version := BitVec.ofNat 8 (s.readValue 8)
      format := BitVec.ofNat 4 (s1.readValue 4)
      palSize := BitVec.ofNat 8 (s2.readValue 8)
      alphaTrunc := BitVec.ofNat 2 (s3.readValue 2)
      rgbTrunc := BitVec.ofNat 2 (s4.readValue 2)
      widthM1 := BitVec.ofNat 16 (s5.readValue 16)
      heightM1 := BitVec.ofNat 16 (s6.readValue 16) } s7

/-- `HDR.DECODE` (45_header.md R263). -/
def execHdrDecode (s : State) : Result :=
  if s.bsBound then .next (hdrDecode s) else .refused .accessOutOfRange

/-- The header at the cursor of the bound stream, in the layout of the configuration: the decoder on 64 bits, which are
always a header (45_header.md R261); one of zeros stands for none. -/
def fetchHeader (s : State) : Header :=
  match decodeHeader s.cfg.hdrRsv0 s.cfg.bitOrder (s.streamBits s.bs.pos 64) with
  | .ok (h, _) => h
  | .error _ => headerOfValues (List.replicate 11 0)

/-- A header executed in a layout. -/
def runHeader (rsv : HdrRsv0) (h : Header) (s : State) : Result :=
  match rsv with
  | .three => execHdr3 h s
  | .four => execHdr4 h s

end Sys2Proof.Machine
end

