-- ==== Sys2Proof/Machine/Decoder.lean ====
section
/-! DEFINITION. The frame decoder (44_decoder.md): `DEC.PREFIX`, the fetch of an entry, and `DECODE` as the steps of
44_decoder.md R231. -/

namespace Sys2Proof.Machine

/-! ## DEC.PREFIX -/

/-- The kind of the entry at the cursor and the number of bits that say so (30_encoding.md R107). Every string of
`leadWindow` bits has a kind; the reserved one stands for none. -/
def leadKind (cx : Ctx) (s : State) : EntryKind × Nat :=
  (cx.kindOf (s.streamBits s.bs.pos cx.leadWindow)).getD (.reserved, cx.leadWindow)

/-- The error that `DEC.PREFIX` raises once its bits are read (44_decoder.md R232): the status is tested only where the
third bit of `0 1` was needed. -/
def prefixCause (kind : EntryKind) (s : State) : Option Cause :=
  match kind with
  | .litr => if s.bs.status = .overflow then some .truncated else none
  | .reserved => if s.bs.status = .overflow then some .truncated else some .reservedPrefix
  | .lit => none
  | .pal => none
  | .palr => none
  | .nlit => none
  | .nrun => none

/-- What `DEC.PREFIX` does once its bits are read (44_decoder.md R232). -/
def prefixOutcome (cx : Ctx) (kind : EntryKind) (s : State) : State :=
  match prefixCause kind s with
  | some cause => raiseInLoop cause cx.fmt s
  | none => { s with ret := .kind kind }

/-- `DEC.PREFIX` reaches a format dispatch: it raises an error, whose `RES.SIZE` is in pixels of the format. -/
def prefixDispatches (s : State) : Bool :=
  let lead := leadKind s.anyCtx s
  (prefixCause lead.1 (bsAdvance lead.2 s)).isSome

/-- `DEC.PREFIX` (44_decoder.md R232). -/
def execDecPrefix (s : State) : Result :=
  if s.bsBound then
    dispatching (prefixDispatches s) s fun cx =>
      .next (prefixOutcome cx (leadKind cx s).1 (bsAdvance (leadKind cx s).2 s))
  else .refused .accessOutOfRange

/-! ## The fetch of an entry -/

/-- The entry at the cursor of the bound stream: the decoder on the bits that a read would return. Bits past the
capacity are free values; whatever they spell, the entry raises `TRUNCATED` (44_decoder.md R232). Every string of `window`
bits begins with an entry (30_encoding.md R107); the reserved string stands for none. -/
def fetchEntry (cx : Ctx) (s : State) : Entry :=
  match decodeEntry cx (s.streamBits s.bs.pos cx.window) with
  | .ok (e, _) => e
  | .error _ => .reserved011 (s.streamBits s.bs.pos cx.window)

/-! ## DECODE -/

/-- The reset before the loop (44_decoder.md R231 step 2, 70_reset_and_hazards.md R342, R343): the other `DEC` registers
hold free values until the first entry is read (U14). -/
def decReset (s : State) : State :=
  { seedPalette s with
    dec := {
      remaining := s.pixels
      outpix := 0
      mode := Config.freeMode s.free
      len := (Config.freeLen s.free).toNat
      code := Config.freeCode s.free
      color := Config.freeColor s.free }
    free := s.free + 1
    phase := .entries }

/-- The header's dimensions differ from the ones the host expects (60_exceptions.md R314). -/
def expectationFails (s : State) : Bool :=
  match s.job.expect with
  | some (w, h) => decide (s.ctrl.width.toNat ≠ w) || decide (s.ctrl.height.toNat ≠ h)
  | none => false

/-- The checks after the header and the reset (44_decoder.md R231 steps 1 and 2). -/
def decSetup (s : State) : State :=
  match s.fmt? with
  | none => raiseMalformed .badFormat 0 s
  | some f =>
    if expectationFails s then raiseMalformed .dimMismatch 0 s
    else if s.job.dstCap < f.pixbytes s.pixels then raiseMalformed .dimMismatch 0 s
    else decReset s

/-- The test of the loop, and one entry where pixels remain (44_decoder.md R231 step 3). -/
def decLoopStep (s : State) : Result :=
  withCtx s fun cx => if s.dec.remaining = 0 then .next (endDecode cx.fmt s) else runEntry (fetchEntry cx s) s

/-- One step of a `DECODE` in progress (44_decoder.md R231). -/
def decStep (s : State) : Result :=
  match s.phase with
  | .idle => .next s
  | .header => runHeader s.cfg.hdrRsv0 (fetchHeader s) s
  | .setup => .next (decSetup s)
  | .entries => decLoopStep s

/-- Steps of a `DECODE` until it has ended. -/
def decRun : (fuel : Nat) → State → Result
  | 0, s => .next s
  | fuel + 1, s =>
    if s.phase = .idle then .next s
    else
      match decStep s with
      | .next t => decRun fuel t
      | .fault r => .fault r
      | .refused r => .refused r

/-- More steps than any `DECODE` takes: the header, the checks, an entry for each of at most 2^32 pixels, the last test of
the loop (44_decoder.md R242). -/
def decFuel : Nat := 2 ^ 32 + 3

/-- `DECODE` up to the header (44_decoder.md R231 steps 0 and 1): the refusals of 60_exceptions.md R311, `ST_ALLOC`,
`SHORT_HEADER`, then `BS.INIT`. -/
def decStart (a : DecodeArgs) (s : State) : Result :=
  if ¬(1 ≤ a.runLenBits ∧ a.runLenBits ≤ 16) then .refused .illegalControl
  else if (s.buf (.host a.inp)).size < a.inSize then .refused .inTooSmall
  else if (s.buf (.host a.dst)).size < a.dstCap then .refused .dstTooSmall
  else if a.inp = a.dst then .refused .buffersOverlap
  else if expectLegal a.expect = false then .refused .illegalExpect
  else if a.allocOk = false then .next (endAlloc s)
  else if a.inSize < 8 then
    .next { s with res := resRegs .malformed .shortHeader 0 0 }
  else
    .next { bsInit (.host a.inp) a.inSize true s with
      ctrl := { s.ctrl with runLenBits := BitVec.ofNat 5 a.runLenBits }
      res := { s.res with size := 0, cause := .none }
      job := { dst := a.dst, dstCap := a.dstCap, expect := a.expect }
      phase := .header }

/-- `DECODE` (44_decoder.md R231): to the host one step (60_exceptions.md R326), begun with no other in progress. -/
def execDecode (a : DecodeArgs) (s : State) : Result :=
  match decStart a { s with phase := .idle } with
  | .next t => decRun decFuel t
  | .fault r => .fault r
  | .refused r => .refused r

end Sys2Proof.Machine
end

