-- ==== Sys2Proof/Machine/PixelFormat.lean ====
section
/-! DEFINITION. The pixel-format transcoder (41_pixelformat.md). -/

namespace Sys2Proof.Machine

/-- The Color of pixel `i` of a buffer: `unpack(PixRead(buf, i, fmt), fmt)` (41_pixelformat.md R150). -/
def pixelColor (cfg : Config) (f : Fmt) (b : Buffer) (i : Nat) : Color :=
  unpack cfg.channelScale f (pixRead cfg f b i)

/-- A buffer with the Color of pixel `i` replaced: `PixWrite(buf, i, fmt, pack(c, fmt))` (41_pixelformat.md R155). -/
def setPixelColor (cfg : Config) (f : Fmt) (b : Buffer) (i : Nat) (c : Color) : Buffer :=
  pixWrite cfg f b i (pack cfg.channelScale f c)

/-- `PIX.GET` of a format (41_pixelformat.md R150 to R154). -/
def pixGet (f : Fmt) (id : BufId) (i : Nat) (s : State) : Result :=
  if pixInside f (s.buf id) i then .next { s with ret := .color (pixelColor s.cfg f (s.buf id) i) }
  else .refused .accessOutOfRange

/-- `PIX.SET` of a format (41_pixelformat.md R155 to R159). -/
def pixSet (f : Fmt) (id : BufId) (i : Nat) (c : Color) (s : State) : Result :=
  if pixInside f (s.buf id) i then .next (s.setBuf id (setPixelColor s.cfg f (s.buf id) i c))
  else .refused .accessOutOfRange

/-- `PIX.GET.8888` (41_pixelformat.md R150). -/
def execPixGet8888 (id : BufId) (i : Nat) (s : State) : Result := pixGet .argb8888 id i s

/-- `PIX.GET.4444` (41_pixelformat.md R151). -/
def execPixGet4444 (id : BufId) (i : Nat) (s : State) : Result := pixGet .argb4444 id i s

/-- `PIX.GET.1555` (41_pixelformat.md R152). -/
def execPixGet1555 (id : BufId) (i : Nat) (s : State) : Result := pixGet .argb1555 id i s

/-- `PIX.GET.LUT8` (41_pixelformat.md R153). -/
def execPixGetLut8 (id : BufId) (i : Nat) (s : State) : Result := pixGet .lut8 id i s

/-- `PIX.GET.LUT4` (41_pixelformat.md R154). -/
def execPixGetLut4 (id : BufId) (i : Nat) (s : State) : Result := pixGet .lut4 id i s

/-- `PIX.SET.8888` (41_pixelformat.md R155). -/
def execPixSet8888 (id : BufId) (i : Nat) (c : Color) (s : State) : Result := pixSet .argb8888 id i c s

/-- `PIX.SET.4444` (41_pixelformat.md R156). -/
def execPixSet4444 (id : BufId) (i : Nat) (c : Color) (s : State) : Result := pixSet .argb4444 id i c s

/-- `PIX.SET.1555` (41_pixelformat.md R157). -/
def execPixSet1555 (id : BufId) (i : Nat) (c : Color) (s : State) : Result := pixSet .argb1555 id i c s

/-- `PIX.SET.LUT8` (41_pixelformat.md R158). -/
def execPixSetLut8 (id : BufId) (i : Nat) (c : Color) (s : State) : Result := pixSet .lut8 id i c s

/-- `PIX.SET.LUT4` (41_pixelformat.md R159). -/
def execPixSetLut4 (id : BufId) (i : Nat) (c : Color) (s : State) : Result := pixSet .lut4 id i c s

/-- The Color that `PIX.PREPROCESS` returns (41_pixelformat.md R160). -/
def preppedColor (f : Fmt) (id : BufId) (i : Nat) (rgbTrunc alphaTrunc : BitVec 2) (zeroize : Bool) (s : State) : Color :=
  prep (pixelColor s.cfg f (s.buf id) i) rgbTrunc alphaTrunc zeroize

/-- The pixel written back by `PIX.PREPROCESS` (41_pixelformat.md R160). -/
def prepPixel (f : Fmt) (id : BufId) (i : Nat) (rgbTrunc alphaTrunc : BitVec 2) (zeroize : Bool) (s : State) : State :=
  s.setBuf id (setPixelColor s.cfg f (s.buf id) i (preppedColor f id i rgbTrunc alphaTrunc zeroize s))

/-- `PIX.PREPROCESS` (41_pixelformat.md R160); a code that is no format's reaches the dispatch (60_exceptions.md R320). -/
def execPixPreprocess (id : BufId) (i : Nat) (code : BitVec 4) (rgbTrunc alphaTrunc : BitVec 2) (zeroize : Bool)
    (s : State) : Result :=
  match s.cfg.fmtOf code with
  | none => .fault .formatDispatch
  | some f =>
    if pixInside f (s.buf id) i then
      .next { prepPixel f id i rgbTrunc alphaTrunc zeroize s with
        ret := .color (preppedColor f id i rgbTrunc alphaTrunc zeroize s) }
    else .refused .accessOutOfRange

end Sys2Proof.Machine
end

