-- ==== Sys2Proof/Machine/Encoder.lean ====
section
/-! DEFINITION. The frame encoder (43_encoder.md). -/

namespace Sys2Proof.Machine

/-! ## The run state machine -/

/-- `ENC.START_RUN(c)` (43_encoder.md R204). Where no `PAL.INIT` has filled the slots it looks up and pushes in unwritten
ones: DESIGN CHOICE (log 37). -/
def encStartRun (cx : Ctx) (c : Color) (s : State) : State :=
  let literalRun : RunRegs :=
    { valid := true, mode := .literal, len := 1, code := pack cx.cfg.channelScale cx.fmt c, color := c }
  if cx.palEn then
    match slotOf c (cx.slots s.pal) with
    | some j =>
      { s with
        pal := lookupPalette c (cx.slots s.pal)
        run := { valid := true, mode := .palette, len := 1, code := BitVec.ofNat 32 j, color := c } }
    | none => { s with pal := lookupPalette c (cx.slots s.pal), run := literalRun }
  else { s with run := literalRun }

/-- The entry that `ENC.SYNTAX(mode, n, code)` emits (43_encoder.md R206): the single form iff `n = 1`. -/
def syntaxEntry (cx : Ctx) (mode : Mode) (n : Nat) (code : Word) : Entry :=
  if cx.palEn then
    match mode with
    | .literal => if n = 1 then .lit code else .litr n code
    | .palette => if n = 1 then .pal code.toNat else .palr n code.toNat
  else if n = 1 then .nlit code else .nrun n code

/-- `ENC.SYNTAX(mode, n, code)` (43_encoder.md R206 to R209): the fields of the entry, one `BS.WRITE` each. -/
def encSyntax (cx : Ctx) (mode : Mode) (n : Nat) (code : Word) (s : State) : State :=
  bsWriteFields ((syntaxEntry cx mode n code).fields cx) s

/-- `ENC.FLUSH()` (43_encoder.md R205). -/
def encFlush (cx : Ctx) (s : State) : State := encSyntax cx s.run.mode s.run.len s.run.code s

/-- The run ends before a pixel of Color `c` (43_encoder.md R203). -/
def runEnds (cx : Ctx) (c : Color) (s : State) : Bool :=
  decide (c ≠ s.run.color) || decide (s.run.len = cx.maxRun)

/-- `ENC.PIXEL(c)` (43_encoder.md R203). -/
def encPixel (cx : Ctx) (c : Color) (s : State) : State :=
  if s.run.valid = false then encStartRun cx c s
  else if runEnds cx c s then encStartRun cx c (encFlush cx s)
  else { s with run := { s.run with len := s.run.len + 1 } }

/-- Why the emission of an entry of run length `n` is refused: a run length outside 1..2^RL (43_encoder.md R206), or a
`BS.WRITE` that 60_exceptions.md R311 refuses. -/
def emissionRefusal (cx : Ctx) (n : Nat) (s : State) : Option Refusal :=
  if n = 0 ∨ cx.maxRun < n then some .illegalRun
  else if s.bs.ro then some .writeReadOnly
  else if 1 < n ∧ 16 < cx.rl then some .writeTooWide
  else if s.bsBound = false then some .accessOutOfRange
  else none

/-- An emission, or its refusal. -/
def emitting (cx : Ctx) (n : Nat) (s t : State) : Result :=
  match emissionRefusal cx n s with
  | some r => .refused r
  | none => .next t

/-! ## Which operations reach a format dispatch

`pack` and `pixel_bits` are defined for the five formats only (60_exceptions.md R320); an index needs neither. -/

/-- `ENC.START_RUN(c)` packs the Color: it is no hit (43_encoder.md R204). -/
def startRunDispatches (c : Color) (s : State) : Bool := !(s.palEn && (slotOf c s.slots).isSome)

/-- `ENC.SYNTAX` writes a literal of `P` bits, not an index (43_encoder.md R206 to R209). -/
def syntaxDispatches (mode : Mode) (s : State) : Bool := !(s.palEn && decide (mode = .palette))

/-- `ENC.PIXEL(c)` packs a Color or writes a literal (43_encoder.md R203). -/
def pixelDispatches (c : Color) (s : State) : Bool :=
  if s.run.valid = false then startRunDispatches c s
  else runEnds s.anyCtx c s && (syntaxDispatches s.run.mode s || startRunDispatches c s)

/-- `ENC.PIXEL` (43_encoder.md R203). -/
def execEncPixel (c : Color) (s : State) : Result :=
  dispatching (pixelDispatches c s) s fun cx =>
    if s.run.valid && runEnds cx c s then emitting cx s.run.len s (encPixel cx c s) else .next (encPixel cx c s)

/-- `ENC.START_RUN` (43_encoder.md R204). -/
def execEncStartRun (c : Color) (s : State) : Result :=
  dispatching (startRunDispatches c s) s fun cx => .next (encStartRun cx c s)

/-- `ENC.FLUSH` (43_encoder.md R205): it requires a run. -/
def execEncFlush (s : State) : Result :=
  dispatching (s.run.valid && syntaxDispatches s.run.mode s) s fun cx =>
    if s.run.valid then emitting cx s.run.len s (encFlush cx s) else .refused .noRun

/-- `ENC.SYNTAX` (43_encoder.md R206). -/
def execEncSyntax (mode : Mode) (n : Nat) (code : Word) (s : State) : Result :=
  dispatching (syntaxDispatches mode s) s fun cx => emitting cx n s (encSyntax cx mode n code s)

/-! ## The end of the pass -/

/-- The stream fits the scratch buffer and the caller's (43_encoder.md R215). -/
def streamFits (outCap : Nat) (s : State) : Bool :=
  decide (s.bs.pos ≤ s.bs.cap) && decide (emittedSize s.bs.pos ≤ outCap)

/-- The stream copied out: `MemWrite(OUT, 0, RES.SIZE, MemRead(SCRATCH, 0, RES.SIZE))` (43_encoder.md R215). -/
def copyOut (output : HostBuf) (s : State) : State :=
  s.setBuf (.host output)
    ((s.buf (.host output)).writeBytes 0 (s.scratch.readBytes 0 (emittedSize s.bs.pos)))

/-- `ENC.FINISH(OUT, OUT_CAP)` (43_encoder.md R215, R216). -/
def encFinish (output : HostBuf) (outCap : Nat) (s : State) : State :=
  if streamFits outCap s then
    { copyOut output s with
      res := resRegs .ok .none (emittedSize s.bs.pos) s.bs.pos }
  else
    { s with res := resRegs .capacity .none (emittedSize s.bs.pos) s.bs.pos }

/-- `ENC.FINISH` (43_encoder.md R215): refused where the copy would leave a buffer (60_exceptions.md R311). -/
def execEncFinish (output : HostBuf) (outCap : Nat) (s : State) : Result :=
  if streamFits outCap s && (decide ((s.buf (.host output)).size < emittedSize s.bs.pos)
      || decide (s.scratch.size < emittedSize s.bs.pos)) then .refused .accessOutOfRange
  else .next (encFinish output outCap s)

/-! ## The frame -/

/-- One step of the scan (43_encoder.md R201 step 3): preprocess the pixel, then `ENC.PIXEL`. -/
def encScanStep (cx : Ctx) (canvas : BufId) (s : State) : State :=
  let c := preppedColor cx.fmt canvas s.encI s.ctrl.rgbTrunc s.ctrl.alphaTrunc (s.ctrl.zeroize == 1) s
  let s1 := encPixel cx c (prepPixel cx.fmt canvas s.encI s.ctrl.rgbTrunc s.ctrl.alphaTrunc (s.ctrl.zeroize == 1) s)
  { s1 with encI := s1.encI + 1 }

/-- The scan of `n` pixels from `ENC.i` on (43_encoder.md R201 step 3). -/
def encScan (cx : Ctx) (canvas : BufId) : (n : Nat) → State → State
  | 0, s => s
  | n + 1, s => encScan cx canvas n (encScanStep cx canvas s)

/-- The reset of the encoder's registers (70_reset_and_hazards.md R343): `RUN.valid` and `ENC.i`; the other `RUN`
registers hold free values until the first `ENC.START_RUN` (U14). -/
def encReset (s : State) : State :=
  { s with
    run := {
      valid := false
      mode := Config.freeMode s.free
      len := (Config.freeLen s.free).toNat
      code := Config.freeCode s.free
      color := Config.freeColor s.free }
    encI := 0
    free := s.free + 1 }

/-- Steps 1 and 2 of `ENCODE` (43_encoder.md R201): the resets and the header. -/
def encBegin (cx : Ctx) (s : State) : State :=
  hdrEncode (encReset (seedPalette (bsInit .scratch (scratchBytes s.cfg s.pixels cx.pixBits) false s)))

/-- Steps 1 to 4 of `ENCODE` on a canvas (43_encoder.md R201): the whole stream written. -/
def encodeStream (cx : Ctx) (canvas : BufId) (s : State) : State :=
  encFlush cx (encScan cx canvas s.pixels (encBegin cx s))

/-- Steps 1 to 5 of `ENCODE` on a canvas (43_encoder.md R201). -/
def encodePass (cx : Ctx) (canvas : BufId) (output : HostBuf) (outCap : Nat) (s : State) : State :=
  encFinish output outCap (encodeStream cx canvas s)

/-- `ENCODE` (43_encoder.md R201): refusals (60_exceptions.md R311), `ST_ALLOC` (R323), then the pass. -/
def execEncode (a : EncodeArgs) (s : State) : Result :=
  match s.cfg.fmtOfNat a.ctrl.fmt with
  | none => .refused .illegalControl
  | some f =>
    if a.ctrl.legal s.cfg = false then .refused .illegalControl
    else if (s.buf (.host a.canvas)).size < f.pixbytes a.ctrl.pixels then .refused .canvasTooSmall
    else if a.canvas = a.out then .refused .buffersOverlap
    else if (s.buf (.host a.out)).size < a.outCap then .refused .outTooSmall
    else if a.allocOk = false then .next (endAlloc s)
    else
      .next (encodePass (State.ctxOf { s with ctrl := ctrlRegsOf s.cfg a.ctrl } f) (.host a.canvas) a.out a.outCap
        { s with ctrl := ctrlRegsOf s.cfg a.ctrl })

end Sys2Proof.Machine
end

