-- ==== Sys2Proof/Machine/Streams.lean ====
section
/-! DEFINITION. The runs and the entries that a canvas of preprocessed Colors has (43_encoder.md R203 to R210), as lists,
without a machine. -/

namespace Sys2Proof

/-- The runs of a list of Colors, one of `n` pixels of Color `c` having begun: a run ends at another Color or at
`maxRun` pixels (43_encoder.md R203, R210). -/
def runsFrom (maxRun : Nat) (c : Color) (n : Nat) : List Color → List (Nat × Color)
  | [] => [(n, c)]
  | d :: rest => if d = c ∧ n ≠ maxRun then runsFrom maxRun c (n + 1) rest else (n, c) :: runsFrom maxRun d 1 rest

/-- The runs of a canvas. -/
def runsOf (maxRun : Nat) : List Color → List (Nat × Color)
  | [] => []
  | c :: rest => runsFrom maxRun c 1 rest

/-- The entry of a run, the cache being `pal` (43_encoder.md R204, R206). -/
def entryOf (cx : Ctx) (pal : List Color) (run : Nat × Color) : Entry :=
  if cx.palEn then
    match slotOf run.2 pal with
    | some j => if run.1 = 1 then .pal j else .palr run.1 j
    | none => if run.1 = 1 then .lit (pack cx.cfg.channelScale cx.fmt run.2)
        else .litr run.1 (pack cx.cfg.channelScale cx.fmt run.2)
  else if run.1 = 1 then .nlit (pack cx.cfg.channelScale cx.fmt run.2)
  else .nrun run.1 (pack cx.cfg.channelScale cx.fmt run.2)

/-- The cache after the encoder starts a run (42_palette.md R182). -/
def cacheAfterRun (cx : Ctx) (pal : List Color) (c : Color) : List Color :=
  if cx.palEn then
    match slotOf c pal with
    | some j => promote j pal
    | none => pushColor c pal
  else pal

/-- The entries of runs, the cache being `pal` (43_encoder.md R204). -/
def entriesOf (cx : Ctx) (pal : List Color) : List (Nat × Color) → List Entry
  | [] => []
  | run :: rest => entryOf cx pal run :: entriesOf cx (cacheAfterRun cx pal run.2) rest

/-- The cache with which a frame starts (70_reset_and_hazards.md R342). -/
def Ctx.seed (cx : Ctx) : List Color := if cx.palEn then cx.cfg.palSeed.colors cx.k else []

/-- The entries of a canvas of preprocessed Colors. -/
def canvasEntries (cx : Ctx) (canvas : List Color) : List Entry := entriesOf cx cx.seed (runsOf cx.maxRun canvas)

/-- The bits of the stream of a canvas: the header's and the entries' (30_encoding.md R91). -/
def canvasBits (cx : Ctx) (canvas : List Color) : Nat := 64 + ((canvasEntries cx canvas).map (Entry.width cx)).sum

end Sys2Proof
end

