-- ==== Sys2Proof/Machine/Raster.lean ====
section
/-! DEFINITION. The canvas rasterizer (46_rasterizer.md): constructors, coverage, `canvas_pixel`, `ESTIMATE`, `DRAW`. -/

namespace Sys2Proof.Machine

/-! ## Constructors -/

/-- A constructor's object returned, where its colour has at most `P` bits (46_rasterizer.md R271, R272); a format code that
is no format's is refused (93 U6). It "writes nothing but its result and has no status" (46_rasterizer.md section 2). -/
def returnObject (attrs : CanvasAttrs) (color : Nat) (o : DrawObject) (s : State) : Result :=
  match s.cfg.fmtOfNat attrs.fmt with
  | none => .refused .illegalControl
  | some f => if color < 2 ^ f.bits then .next { s with ret := .object o } else .refused .illegalColour

/-- `SET_RECT` (46_rasterizer.md R271, D44). -/
def execSetRect (attrs : CanvasAttrs) (x y w h : Int) (filled : Bool) (t : Int) (color : Nat) (s : State) : Result :=
  returnObject attrs color (if filled then .rect x y w h color else .strokeRect x y w h t color) s

/-- `SET_LINE` (46_rasterizer.md R272). -/
def execSetLine (attrs : CanvasAttrs) (x0 y0 x1 y1 t : Int) (color : Nat) (s : State) : Result :=
  returnObject attrs color (.line x0 y0 x1 y1 t color) s

/-- `SET_BITMAP` (46_rasterizer.md R273): the source is checked by `DRAW`. -/
def execSetBitmap (_attrs : CanvasAttrs) (x y w h : Int) (src : HostBuf) (stride : Nat) (s : State) : Result :=
  .next { s with ret := .object (.bitmap x y w h src stride) }

/-! ## Coverage -/

/-- A position lies in the rectangle at `(x, y)` of width `w` and height `h` (46_rasterizer.md R274). -/
def inRect (x y w h px py : Int) : Bool := decide ((x ≤ px ∧ px < x + w) ∧ (y ≤ py ∧ py < y + h))

/-- `STROKE_COVER` (46_rasterizer.md R276, D26). -/
def strokeCover (rule : RuleChoice) (x y w h t px py : Int) : Bool :=
  match rule with
  | .default =>
    inRect x y w h px py && !(inRect (x + t) (y + t) (w - 2 * t) (h - 2 * t) px py) && decide (1 ≤ t)
  | .other k => Config.otherStrokeCover k x y w h t px py

/-- A line from `(u0, v0)` over `du ≥ 0` positions of its major axis, `v` moving by `dv` in all, at the position
`(pu, pv)` (46_rasterizer.md R277; `D` there is `du`, or 1 for a single point). -/
def majorCover (u0 v0 du dv t pu pv : Int) : Bool :=
  let d := if 0 < du then du else 1
  let e := d * (pv - v0) - dv * (pu - u0)
  decide ((u0 ≤ pu ∧ pu ≤ u0 + du) ∧ (-t * d ≤ 2 * e ∧ 2 * e < t * d))

/-- The default `LINE_COVER` (46_rasterizer.md R277, D27): the end points are exchanged where the major axis falls. -/
def defaultLineCover (x0 y0 x1 y1 t px py : Int) : Bool :=
  let dx := x1 - x0
  let dy := y1 - y0
  if dy.natAbs ≤ dx.natAbs then
    if dx < 0 then majorCover x1 y1 (-dx) (-dy) t px py else majorCover x0 y0 dx dy t px py
  else if dy < 0 then majorCover y1 x1 (-dy) (-dx) t py px
  else majorCover y0 x0 dy dx t py px

/-- `LINE_COVER` (46_rasterizer.md R277). -/
def lineCover (rule : RuleChoice) (x0 y0 x1 y1 t px py : Int) : Bool :=
  match rule with
  | .default => defaultLineCover x0 y0 x1 y1 t px py
  | .other k => Config.otherLineCover k x0 y0 x1 y1 t px py

/-- `covers(o, px, py)` (46_rasterizer.md R274 to R278). No operation asks it of a compressed bitmap (R291). -/
def covers (cfg : Config) (o : DrawObject) (px py : Int) : Bool :=
  match o with
  | .rect x y w h _ => inRect x y w h px py
  | .strokeRect x y w h t _ => strokeCover cfg.strokeCover x y w h t px py
  | .line x0 y0 x1 y1 t _ => lineCover cfg.lineCover x0 y0 x1 y1 t px py
  | .bitmap x y w h _ _ => inRect x y w h px py
  | .compressedBitmap _ _ _ _ _ _ => false

/-! ## Owner and pixel -/

/-- The greatest index from `j` on whose object covers a position, with the object (46_rasterizer.md R280). -/
def ownerFrom (cfg : Config) (px py : Int) : (j : Nat) → List DrawObject → Option (Nat × DrawObject)
  | _, [] => none
  | j, o :: rest =>
    match ownerFrom cfg px py (j + 1) rest with
    | some above => some above
    | none => if covers cfg o px py then some (j, o) else none

/-- `owner(px, py)` (46_rasterizer.md R280). -/
def owner (cfg : Config) (objs : List DrawObject) (px py : Int) : Option (Nat × DrawObject) :=
  ownerFrom cfg px py 0 objs

/-- The bytes of a bitmap's source that `bitmap_pixel` reads end here (46_rasterizer.md R279). -/
def bitmapEnd (f : Fmt) (x y : Int) (stride : Nat) (px py : Int) : Nat :=
  match f with
  | .lut4 => ((py - y).toNat * stride + (px - x).toNat) / 2 + 1
  | .argb8888 => (py - y).toNat * stride + (px - x).toNat * 4 + 4
  | .argb4444 => (py - y).toNat * stride + (px - x).toNat * 2 + 2
  | .argb1555 => (py - y).toNat * stride + (px - x).toNat * 2 + 2
  | .lut8 => (py - y).toNat * stride + (px - x).toNat + 1

/-- `bitmap_pixel` (46_rasterizer.md R279, D28). -/
def bitmapPixel (cfg : Config) (f : Fmt) (src : Buffer) (x y : Int) (stride : Nat) (px py : Int) : Word :=
  match f with
  | .lut4 => src.nibble cfg.lut4Nibbles ((py - y).toNat * stride + (px - x).toNat)
  | .argb8888 => wordOfBytes cfg.pixelByteOrder (src.readBytes ((py - y).toNat * stride + (px - x).toNat * 4) 4)
  | .argb4444 => wordOfBytes cfg.pixelByteOrder (src.readBytes ((py - y).toNat * stride + (px - x).toNat * 2) 2)
  | .argb1555 => wordOfBytes cfg.pixelByteOrder (src.readBytes ((py - y).toNat * stride + (px - x).toNat * 2) 2)
  | .lut8 => wordOfBytes cfg.pixelByteOrder (src.readBytes ((py - y).toNat * stride + (px - x).toNat) 1)

/-- The word of an object at a position it covers (46_rasterizer.md R282). -/
def objectPixel (f : Fmt) (s : State) (o : DrawObject) (px py : Int) : Word :=
  match o with
  | .rect _ _ _ _ color => BitVec.ofNat 32 color
  | .strokeRect _ _ _ _ _ color => BitVec.ofNat 32 color
  | .line _ _ _ _ _ color => BitVec.ofNat 32 color
  | .bitmap x y _ _ src stride => bitmapPixel s.cfg f (s.buf (.host src)) x y stride px py
  | .compressedBitmap _ _ _ _ _ _ => 0

/-- `canvas_pixel(px, py)` (46_rasterizer.md R282). -/
def canvasPixel (f : Fmt) (bg : Nat) (s : State) (px py : Int) : Word :=
  match owner s.cfg s.objs px py with
  | some (_, o) => objectPixel f s o px py
  | none => BitVec.ofNat 32 bg

/-! ## Slices and the estimate -/

/-- A slice of this owner is constant (46_rasterizer.md R281). -/
def isConstant : Option (Nat × DrawObject) → Bool
  | some (_, .bitmap _ _ _ _ _ _) => false
  | some (_, .compressedBitmap _ _ _ _ _ _) => false
  | some (_, .rect _ _ _ _ _) => true
  | some (_, .strokeRect _ _ _ _ _ _) => true
  | some (_, .line _ _ _ _ _ _) => true
  | none => true

/-- The slices of a stretch of owners, a slice of `len` pixels of `cur` having begun (46_rasterizer.md R281). -/
def slicesFrom (cur : Option (Nat × DrawObject)) (len : Nat) :
    List (Option (Nat × DrawObject)) → List (Bool × Nat)
  | [] => [(isConstant cur, len)]
  | o :: rest =>
    if o.map Prod.fst = cur.map Prod.fst then slicesFrom cur (len + 1) rest
    else (isConstant cur, len) :: slicesFrom o 1 rest

/-- The slices of a line of owners: constant or not, and length. -/
def slicesOf : List (Option (Nat × DrawObject)) → List (Bool × Nat)
  | [] => []
  | o :: rest => slicesFrom o 1 rest

/-- The owners of scan line `y`. -/
def lineOwners (cfg : Config) (objs : List DrawObject) (width y : Nat) : List (Option (Nat × DrawObject)) :=
  (List.range width).map fun x => owner cfg objs (Int.ofNat x) (Int.ofNat y)

/-- The slices of the canvas in raster order (46_rasterizer.md R281). -/
def canvasSlices (cfg : Config) (objs : List DrawObject) (width height : Nat) : List (Bool × Nat) :=
  (List.range height).flatMap fun y => slicesOf (lineOwners cfg objs width y)

/-- The units a slice is charged (46_rasterizer.md R283). -/
def sliceUnits (rl : Nat) (slice : Bool × Nat) : Nat := if slice.1 then ceilDiv slice.2 (2 ^ rl) else slice.2

/-- The units of all slices (46_rasterizer.md R283). -/
def totalUnits (rl : Nat) : List (Bool × Nat) → Nat
  | [] => 0
  | slice :: rest => sliceUnits rl slice + totalUnits rl rest

/-- The stretches that hold one word each, whatever the colours and the sources: a constant slice, and each pixel of a
bitmap slice (46_rasterizer.md R281, R284). -/
def wordStretches (slices : List (Bool × Nat)) : List Nat :=
  slices.flatMap fun slice => if slice.1 then [slice.2] else List.replicate slice.2 1

/-- Every canvas of words of `P` bits whose stretches of these lengths hold one word each. -/
def canvasesOf (f : Fmt) : List Nat → List (List Word)
  | [] => [[]]
  | n :: rest =>
    (List.range (2 ^ f.bits)).flatMap fun w =>
      (canvasesOf f rest).map fun canvas => List.replicate n (BitVec.ofNat 32 w) ++ canvas

/-- Every setting of preprocessing: `RGB_TRUNC`, `ALPHA_TRUNC`, `ZEROIZE` (10_state.md R30). -/
def prepSettings : List (BitVec 2 × BitVec 2 × Bool) :=
  [0, 1, 2, 3].flatMap fun rgb => [0, 1, 2, 3].flatMap fun alpha => [(rgb, alpha, false), (rgb, alpha, true)]

/-- The bits of the stream of every canvas of these slices, whatever the colours, the background, the sources and the
preprocessing (46_rasterizer.md R284). -/
def canvasCosts (cx : Ctx) (slices : List (Bool × Nat)) : List Nat :=
  prepSettings.flatMap fun setting =>
    (canvasesOf cx.fmt (wordStretches slices)).map fun canvas =>
      canvasBits cx (canvas.map fun w =>
        prep (unpack cx.cfg.channelScale cx.fmt w) setting.1 setting.2.1 setting.2.2)

/-- The greatest of some numbers. -/
def greatest (l : List Nat) : Nat := l.foldr max 0

/-- The most bits that the stream of a canvas of these slices has: the least that 46_rasterizer.md R284 lets an `EST_COST`
charge them. -/
def mostBits (cx : Ctx) (slices : List (Bool × Nat)) : Nat := greatest (canvasCosts cx slices)

/-- The bits that `ESTIMATE` reports: `EST_COST` of the slices (46_rasterizer.md R283, D30). An instance other than the
default is any function of them that bounds the stream (R284): an opaque one, raised to the most bits that a canvas of
these slices takes where it falls below them (log 22). -/
def estimateBits (cx : Ctx) (slices : List (Bool × Nat)) : Nat :=
  match cx.cfg.estCost with
  | .default => 64 + totalUnits cx.rl slices * cx.maxWidth
  | .other k => max (Config.otherEstCost k cx.fmt cx.k cx.rl slices) (mostBits cx slices)

/-! ## Operand checks -/

/-- An object's colour has at most `P` bits (60_exceptions.md R311). -/
def objectColourFits (p : Nat) : DrawObject → Bool
  | .rect _ _ _ _ color => decide (color < 2 ^ p)
  | .strokeRect _ _ _ _ _ color => decide (color < 2 ^ p)
  | .line _ _ _ _ _ color => decide (color < 2 ^ p)
  | .bitmap _ _ _ _ _ _ => true
  | .compressedBitmap _ _ _ _ _ _ => true

/-- An object is a compressed bitmap. -/
def isCompressed : DrawObject → Bool
  | .compressedBitmap _ _ _ _ _ _ => true
  | .rect _ _ _ _ _ => false
  | .strokeRect _ _ _ _ _ _ => false
  | .line _ _ _ _ _ _ => false
  | .bitmap _ _ _ _ _ _ => false

/-- An object's source is a given buffer. -/
def sourceIs (h : HostBuf) : DrawObject → Bool
  | .bitmap _ _ _ _ src _ => decide (src = h)
  | .compressedBitmap _ _ _ _ src _ => decide (src = h)
  | .rect _ _ _ _ _ => false
  | .strokeRect _ _ _ _ _ _ => false
  | .line _ _ _ _ _ _ => false

/-- The word of a position is read inside its bitmap's source (60_exceptions.md R311). -/
def pixelReadable (f : Fmt) (s : State) (px py : Int) : Bool :=
  match owner s.cfg s.objs px py with
  | some (_, .bitmap x y _ _ src stride) => decide (bitmapEnd f x y stride px py ≤ (s.buf (.host src)).size)
  | some (_, .compressedBitmap _ _ _ _ _ _) => true
  | some (_, .rect _ _ _ _ _) => true
  | some (_, .strokeRect _ _ _ _ _ _) => true
  | some (_, .line _ _ _ _ _ _) => true
  | none => true

/-- Every position of the canvas is readable. -/
def canvasReadable (f : Fmt) (s : State) (width height : Nat) : Bool :=
  (List.range height).all fun y => (List.range width).all fun x => pixelReadable f s (Int.ofNat x) (Int.ofNat y)

/-- Why `ESTIMATE` and `DRAW` are refused before any other check (60_exceptions.md R311). -/
def objectsRefusal (a : CtrlArgs) (bg : Nat) (f : Fmt) (s : State) : Option Refusal :=
  if a.legal s.cfg = false then some .illegalControl
  else if 2 ^ f.bits ≤ bg then some .illegalColour
  else if (s.objs.all (objectColourFits f.bits)) = false then some .illegalColour
  else if s.objs.any isCompressed then some .compressedBitmap
  else none

/-! ## ESTIMATE and DRAW -/

/-- Pixels written from number `i` on, each with the word of its position (46_rasterizer.md R286). -/
def fillPixels (cfg : Config) (f : Fmt) (word : Nat → Word) (b : Buffer) (i : Nat) : (n : Nat) → Buffer
  | 0 => b
  | n + 1 => fillPixels cfg f word (pixWrite cfg f b i (word i)) (i + 1) n

/-- The word of pixel number `i` (46_rasterizer.md R286). -/
def rasterWord (f : Fmt) (bg : Nat) (s : State) (i : Nat) : Word :=
  canvasPixel f bg s (Int.ofNat (i % s.ctrl.width.toNat)) (Int.ofNat (i / s.ctrl.width.toNat))

/-- The logical canvas (46_rasterizer.md R285, R286). -/
def drawCanvas (f : Fmt) (bg : Nat) (s : State) : State :=
  { s with lc := fillPixels s.cfg f (rasterWord f bg s) (Buffer.zeros (f.pixbytes s.pixels)) 0 s.pixels }

/-- `RES.SIZE` after an `ESTIMATE` of `bits` bits. A size that does not fit leaves a free value, but for what R284 asks:
at least what a `DRAW` of these slices leaves (10_state.md R27, 46_rasterizer.md R284; log 8). -/
def estimateSizeReg (cx : Ctx) (slices : List (Bool × Nat)) (bits : Nat) : BitVec 33 :=
  if emittedSize bits < 2 ^ 33 then BitVec.ofNat 33 (emittedSize bits)
  else
    BitVec.ofNat 33 (max (Config.freeEstimateSize (emittedSize bits)).toNat
      (greatest ((canvasCosts cx slices).map fun b => (sizeReg (emittedSize b)).toNat)))

/-- `RES.BITS` after an `ESTIMATE` of `bits` bits; where they do not fit as `estimateSizeReg` (log 8). -/
def estimateBitsReg (cx : Ctx) (slices : List (Bool × Nat)) (bits : Nat) : BitVec 40 :=
  if bits < 2 ^ 40 then BitVec.ofNat 40 bits
  else
    BitVec.ofNat 40 (max (Config.freeEstimateBits bits).toNat
      (greatest ((canvasCosts cx slices).map fun b => (bitsReg b).toNat)))

/-- The result registers of an `ESTIMATE` of these slices (46_rasterizer.md R283). -/
def estimateRegs (cx : Ctx) (slices : List (Bool × Nat)) : ResRegs where
  status := .ok
  cause := .none
  size := estimateSizeReg cx slices (estimateBits cx slices)
  bits := estimateBitsReg cx slices (estimateBits cx slices)

/-- `ESTIMATE` after its checks (46_rasterizer.md R283). -/
def estimateEnd (cx : Ctx) (s : State) : State :=
  { s with res := estimateRegs cx (canvasSlices s.cfg s.objs s.ctrl.width.toNat s.ctrl.height.toNat) }

/-- `ESTIMATE` (46_rasterizer.md R283). -/
def execEstimate (a : EstimateArgs) (s : State) : Result :=
  match s.cfg.fmtOfNat a.ctrl.fmt with
  | none => .refused .illegalControl
  | some f =>
    match objectsRefusal a.ctrl a.bg f s with
    | some r => .refused r
    | none =>
      if a.allocOk = false then .next (endAlloc s)
      else
        .next (estimateEnd (State.ctxOf { s with ctrl := ctrlRegsOf s.cfg a.ctrl } f)
          { s with ctrl := ctrlRegsOf s.cfg a.ctrl })

/-- `DRAW` (46_rasterizer.md R286): steps 1 to 5 of `ENCODE` on the logical canvas. -/
def execDraw (a : DrawArgs) (s : State) : Result :=
  match s.cfg.fmtOfNat a.ctrl.fmt with
  | none => .refused .illegalControl
  | some f =>
    match objectsRefusal a.ctrl a.bg f s with
    | some r => .refused r
    | none =>
      if s.objs.any (sourceIs a.out) then .refused .buffersOverlap
      else if (s.buf (.host a.out)).size < a.outCap then .refused .outTooSmall
      else if canvasReadable f s a.ctrl.width a.ctrl.height = false then .refused .bitmapTooSmall
      else if a.allocOk = false then .next (endAlloc s)
      else
        .next (encodePass (State.ctxOf { s with ctrl := ctrlRegsOf s.cfg a.ctrl } f) .lc a.out a.outCap
          (drawCanvas f a.bg { s with ctrl := ctrlRegsOf s.cfg a.ctrl }))

end Sys2Proof.Machine
end

