-- ==== Sys2Proof/Machine/Dispatch.lean ====
section
/-! DEFINITION. Every instruction sent to its meaning. -/

namespace Sys2Proof.Machine

def exec (i : Instr) (s : State) : Host.Outcome State Fault Refusal :=
  match i with
  | .hdr3 h => Sys2Proof.Machine.execHdr3 h s
  | .hdr4 h => Sys2Proof.Machine.execHdr4 h s
  | .lit c => Sys2Proof.Machine.execLit c s
  | .litr n c => Sys2Proof.Machine.execLitr n c s
  | .reserved011 bits => Sys2Proof.Machine.execReserved011 bits s
  | .pal idx => Sys2Proof.Machine.execPal idx s
  | .palr n idx => Sys2Proof.Machine.execPalr n idx s
  | .nlit c => Sys2Proof.Machine.execNlit c s
  | .nrun n c => Sys2Proof.Machine.execNrun n c s
  | .bsInit buf size readOnly => Sys2Proof.Machine.execBsInit buf size readOnly s
  | .bsWrite v n => Sys2Proof.Machine.execBsWrite v n s
  | .bsRead n => Sys2Proof.Machine.execBsRead n s
  | .bsSkip n => Sys2Proof.Machine.execBsSkip n s
  | .pixGet8888 buf k => Sys2Proof.Machine.execPixGet8888 buf k s
  | .pixGet4444 buf k => Sys2Proof.Machine.execPixGet4444 buf k s
  | .pixGet1555 buf k => Sys2Proof.Machine.execPixGet1555 buf k s
  | .pixGetLut8 buf k => Sys2Proof.Machine.execPixGetLut8 buf k s
  | .pixGetLut4 buf k => Sys2Proof.Machine.execPixGetLut4 buf k s
  | .pixSet8888 buf k c => Sys2Proof.Machine.execPixSet8888 buf k c s
  | .pixSet4444 buf k c => Sys2Proof.Machine.execPixSet4444 buf k c s
  | .pixSet1555 buf k c => Sys2Proof.Machine.execPixSet1555 buf k c s
  | .pixSetLut8 buf k c => Sys2Proof.Machine.execPixSetLut8 buf k c s
  | .pixSetLut4 buf k c => Sys2Proof.Machine.execPixSetLut4 buf k c s
  | .pixPreprocess buf k fmt rgbTrunc alphaTrunc zeroize => Sys2Proof.Machine.execPixPreprocess buf k fmt rgbTrunc alphaTrunc zeroize s
  | .palInit k => Sys2Proof.Machine.execPalInit k s
  | .palLookup c => Sys2Proof.Machine.execPalLookup c s
  | .palPush c => Sys2Proof.Machine.execPalPush c s
  | .palLruUpdate j => Sys2Proof.Machine.execPalLruUpdate j s
  | .palGet j => Sys2Proof.Machine.execPalGet j s
  | .encPixel c => Sys2Proof.Machine.execEncPixel c s
  | .encStartRun c => Sys2Proof.Machine.execEncStartRun c s
  | .encFlush => Sys2Proof.Machine.execEncFlush s
  | .encSyntax mode n code => Sys2Proof.Machine.execEncSyntax mode n code s
  | .encFinish output outCap => Sys2Proof.Machine.execEncFinish output outCap s
  | .encode a => Sys2Proof.Machine.execEncode a s
  | .decPrefix => Sys2Proof.Machine.execDecPrefix s
  | .decEmit => Sys2Proof.Machine.execDecEmit s
  | .decode a => Sys2Proof.Machine.execDecode a s
  | .hdrEncode => Sys2Proof.Machine.execHdrEncode s
  | .hdrDecode => Sys2Proof.Machine.execHdrDecode s
  | .setRect attrs x y w h filled t color => Sys2Proof.Machine.execSetRect attrs x y w h filled t color s
  | .setLine attrs x0 y0 x1 y1 t color => Sys2Proof.Machine.execSetLine attrs x0 y0 x1 y1 t color s
  | .setBitmap attrs x y w h src stride => Sys2Proof.Machine.execSetBitmap attrs x y w h src stride s
  | .estimate a => Sys2Proof.Machine.execEstimate a s
  | .draw a => Sys2Proof.Machine.execDraw a s

end Sys2Proof.Machine
end

