-- ==== Sys2Proof/Machine/Step.lean ====
section
/-! DEFINITION. One step of the machine, and where its next instruction is put for the host's table words. -/

namespace Sys2Proof.Machine

/-- One step (log 4, log 5). Inside a `DECODE`: the header or the entry at the cursor is fetched and executed; the checks
between the header and the loop and the last test of the loop are steps of their own (44_decoder.md R231). Otherwise
the oldest operation the host has asked for is executed, and with none asked for nothing happens. -/
def step (s : State) : Host.Outcome State Fault Refusal :=
  match s.phase with
  | .idle =>
    match s.pending with
    | [] => .next s
    | i :: rest => exec i { s with pending := rest }
  | .header => exec (headerInstr s.cfg.hdrRsv0 (fetchHeader s)) s
  | .setup => .next (decSetup s)
  | .entries =>
    if s.dec.remaining = 0 then decLoopStep s else withCtx s fun cx => exec (fetchEntry cx s).toInstr s

/-- A stream whose first entry (at bit 64) is the table word: the header of `tableCtx` for 2 x 2 pixels is not needed, its
values are put into `CTRL`. -/
def State.withEntryWord (s : State) (nbits w : Nat) : State :=
  { s with
    cfg := Config.default
    inp := (Buffer.zeros 16).setBits .lsbFirst 64 (tableBits nbits w)
    dst := Buffer.zeros 2
    bs := { buf := .host .inp, cap := 128, ro := true, pos := 64, status := .ok }
    ctrl := { s.ctrl with fmt := 4, palSize := 2, width := 2, height := 2, runLenBits := 1 }
    job := { dst := .dst, dstCap := 2, expect := none }
    pal := graySeed 2
    dec := { s.dec with remaining := 4, outpix := 0 }
    phase := .entries }

/-- A stream whose header is the table word. -/
def State.withHeaderWord (s : State) (nbits w : Nat) : State :=
  { s with
    cfg := { Config.default with hdrRsv0 := tableRsv nbits }
    inp := (Buffer.zeros 16).setBits .lsbFirst 0 (tableBits nbits w)
    bs := { buf := .host .inp, cap := 128, ro := true, pos := 0, status := .ok }
    phase := .header }

/-- The state with a table word stored where the next step fetches: an entry in the context of `tableCtx`, or a header
(log 24). -/
def State.withFetchWord (s : State) (nbits w : Nat) : State :=
  if nbits ≤ 8 then s.withEntryWord nbits w else s.withHeaderWord nbits w

end Sys2Proof.Machine
end

