-- ==== Sys2Proof/Safety.lean ====
section
/-! DEFINITION. What claims call a legal configuration, a good state and an unchanged part of the state. -/

namespace Sys2Proof

/-- Neither of two bit strings begins the other. -/
def apart (a b : List Bool) : Bool := !a.isPrefixOf b && !b.isPrefixOf a

/-- `SYNTAX_PE` is prefix-free and `LITR` has three leading bits (00_scope.md R5, D9). -/
def EntryCodes.legal (codes : EntryCodes) : Bool :=
  apart codes.lit codes.litr && apart codes.lit codes.pal && apart codes.lit codes.palr && apart codes.litr codes.pal
    && apart codes.litr codes.palr && apart codes.pal codes.palr && decide (codes.litr.length = 3)

/-- `FMT_CODE` is injective (00_scope.md R5, D8). -/
def FmtCodes.legal (codes : FmtCodes) : Bool :=
  decide [codes.argb8888, codes.argb4444, codes.argb1555, codes.lut8, codes.lut4].Nodup

/-- `PAL_SEED` gives `K` pairwise different Colors (00_scope.md R5, D13). -/
def PalSeed.legal : PalSeed → Bool
  | .gray => true
  | .table rows => rows.all fun row => decide (row.2.length = row.1) && decide row.2.Nodup

/-- A configuration in the range of 00_scope.md R5. -/
def Config.legal (cfg : Config) : Bool := cfg.entryCodes.legal && cfg.fmtCodes.legal && cfg.palSeed.legal

/-! ## What a stream means, without a machine

A canvas is a list of Colors, a stream a list of entries; Machine/Streams.lean says which entries an encoder gives a
canvas. -/

/-- The Color of an entry (44_decoder.md R236 to R241). -/
def entryColor (cx : Ctx) (pal : List Color) : Entry → Color
  | .lit c => unpack cx.cfg.channelScale cx.fmt c
  | .litr _ c => unpack cx.cfg.channelScale cx.fmt c
  | .nlit c => unpack cx.cfg.channelScale cx.fmt c
  | .nrun _ c => unpack cx.cfg.channelScale cx.fmt c
  | .pal i => pal.getD i Color.zero
  | .palr _ i => pal.getD i Color.zero
  | .reserved011 _ => Color.zero

/-- The cache after an entry (44_decoder.md R236 to R241). -/
def cacheAfterEntry (cx : Ctx) (pal : List Color) : Entry → List Color
  | .lit c => pushColor (unpack cx.cfg.channelScale cx.fmt c) pal
  | .litr _ c => pushColor (unpack cx.cfg.channelScale cx.fmt c) pal
  | .nlit _ => pal
  | .nrun _ _ => pal
  | .pal i => promote i pal
  | .palr _ i => promote i pal
  | .reserved011 _ => pal

/-- The Colors that entries stand for, the cache being `pal` (44_decoder.md R231). -/
def expand (cx : Ctx) (pal : List Color) : List Entry → List Color
  | [] => []
  | e :: rest => List.replicate e.runLength (entryColor cx pal e) ++ expand cx (cacheAfterEntry cx pal e) rest

/-- The cache after entries. -/
def cacheAfter (cx : Ctx) (pal : List Color) : List Entry → List Color
  | [] => pal
  | e :: rest => cacheAfter cx (cacheAfterEntry cx pal e) rest

/-- An entry that `DECODE` executes without an error, but for the pixels that remain: one its encoding holds, no
reserved string, no index without a slot (30_encoding.md R108, R109). -/
def Entry.executable (cx : Ctx) (e : Entry) : Bool :=
  e.wf cx && match e with
    | .lit _ => true
    | .litr _ _ => true
    | .reserved011 _ => false
    | .pal i => decide (i < cx.k)
    | .palr _ i => decide (i < cx.k)
    | .nlit _ => true
    | .nrun _ _ => true

/-- The pixels that entries cover. -/
def coveredPixels (es : List Entry) : Nat := (es.map Entry.runLength).sum

/-- The stream of a header and entries, without the padding (30_encoding.md R91). -/
def streamOf (cx : Ctx) (h : Header) (es : List Entry) : List Bool :=
  encodeHeader cx.cfg.hdrRsv0 cx.cfg.bitOrder h ++ es.flatMap (encodeEntry cx)

/-- Every channel of a Color fits its field, and a look-up-table Color has no r, g, b (41_pixelformat.md R164(b),
`CHANNEL_SCALE` RAW). -/
def Color.fits (f : Fmt) (c : Color) : Prop :=
  match f with
  | .argb8888 => True
  | .argb4444 => c.a.toNat < 16 ∧ c.r.toNat < 16 ∧ c.g.toNat < 16 ∧ c.b.toNat < 16
  | .argb1555 => c.a.toNat < 2 ∧ c.r.toNat < 32 ∧ c.g.toNat < 32 ∧ c.b.toNat < 32
  | .lut8 => c.r = 0 ∧ c.g = 0 ∧ c.b = 0
  | .lut4 => c.a.toNat < 16 ∧ c.r = 0 ∧ c.g = 0 ∧ c.b = 0

/-- A Color with each channel reduced to its low field-width bits (41_pixelformat.md R164(b)). -/
def Color.reduce (f : Fmt) (c : Color) : Color :=
  match f with
  | .argb8888 => c
  | .argb4444 =>
    { a := BitVec.ofNat 8 (c.a.toNat % 16)
      r := BitVec.ofNat 8 (c.r.toNat % 16)
      g := BitVec.ofNat 8 (c.g.toNat % 16)
      b := BitVec.ofNat 8 (c.b.toNat % 16) }
  | .argb1555 =>
    { a := BitVec.ofNat 8 (c.a.toNat % 2)
      r := BitVec.ofNat 8 (c.r.toNat % 32)
      g := BitVec.ofNat 8 (c.g.toNat % 32)
      b := BitVec.ofNat 8 (c.b.toNat % 32) }
  | .lut8 => { a := c.a, r := 0, g := 0, b := 0 }
  | .lut4 => { a := BitVec.ofNat 8 (c.a.toNat % 16), r := 0, g := 0, b := 0 }

namespace Machine

/-! ## The invariant of every state a step can leave -/

/-- Every memory is in its canonical form. -/
def State.memWf (s : State) : Prop :=
  s.canvas.wf = true ∧ s.out.wf = true ∧ s.inp.wf = true ∧ s.dst.wf = true ∧ s.scratch.wf = true ∧ s.lc.wf = true
    ∧ ∀ b ∈ s.bmps, b.wf = true

/-- The BitStream registers: the bound buffer holds the capacity, the cursor of a read-only stream is never past it, and a
cursor past it is flagged (10_state.md R24, R26). -/
def State.bsGood (s : State) : Prop :=
  s.bsBound = true ∧ (s.bs.ro = true → s.bs.pos ≤ s.bs.cap) ∧ (s.bs.cap < s.bs.pos → s.bs.status = .overflow)

/-- What holds while a `DECODE` is in progress (44_decoder.md R231): the stream is read-only, without an overflow so far
and not the output, the output holds what it is said to hold, `RL` is legal. -/
def State.decoding (s : State) : Prop :=
  s.bs.ro = true ∧ s.bs.status = .ok ∧ s.bs.buf ≠ .host s.job.dst
    ∧ s.job.dstCap ≤ (s.buf (.host s.job.dst)).size ∧ 1 ≤ s.rl ∧ s.rl ≤ 16

/-- The dimensions are those a header can hold (44_decoder.md R242). -/
def State.dimsGood (s : State) : Prop :=
  1 ≤ s.ctrl.width.toNat ∧ s.ctrl.width.toNat ≤ 65536 ∧ 1 ≤ s.ctrl.height.toNat ∧ s.ctrl.height.toNat ≤ 65536

/-- Before the header is read. -/
def State.headerGood (s : State) : Prop := s.decoding ∧ s.bs.pos = 0 ∧ 64 ≤ s.bs.cap

/-- After the header is read. -/
def State.setupGood (s : State) : Prop := s.decoding ∧ s.dimsGood ∧ s.bs.pos = 64

/-- Inside the loop: `DEC.remaining + DEC.outpix = W * H` (10_state.md R22), the output holds the frame, the cache has
`K` slots. -/
def State.loopGood (s : State) : Prop :=
  s.decoding ∧ s.dimsGood ∧ 64 ≤ s.bs.pos ∧ s.dec.remaining + s.dec.outpix = s.pixels
    ∧ (∃ f, s.fmt? = some f ∧ f.pixbytes s.pixels ≤ s.job.dstCap) ∧ (s.palEn = true → s.pal.length = s.palSize)

/-- The invariant that every step keeps. -/
structure State.Inv (s : State) : Prop where
  cfg : s.cfg.legal = true
  mem : s.memWf
  bs : s.bsGood
  header : s.phase = .header → s.headerGood
  setup : s.phase = .setup → s.setupGood
  loop : s.phase = .entries → s.loopGood

/-- At most this many steps are left of a `DECODE` in progress (44_decoder.md R242). -/
def State.stepsLeft (s : State) : Nat :=
  match s.phase with
  | .idle => 0
  | .header => 2 ^ 32 + 3
  | .setup => s.pixels + 2
  | .entries => s.dec.remaining + 1

/-! ## Frames -/

/-- `s` with the memories of `m`. -/
def State.withMem (s m : State) : State :=
  { s with
    canvas := m.canvas
    out := m.out
    inp := m.inp
    dst := m.dst
    bmps := m.bmps
    scratch := m.scratch
    lc := m.lc }

/-- Every buffer keeps its size, and every byte outside `stored` reads as before. -/
def State.keepsBytes (s t : State) (stored : BufId → Nat → Prop) : Prop :=
  (∀ id, (t.buf id).size = (s.buf id).size) ∧ ∀ id off, ¬stored id off → t.byteAt id off = s.byteAt id off

/-- A register of `w` bits holds a number, where the number fits it (10_state.md R27). -/
def regHolds {w : Nat} (r : BitVec w) (n : Nat) : Prop := n < 2 ^ w → r.toNat = n

/-- The result registers report an outcome (60_exceptions.md R324). -/
def ResRegs.reports (r : ResRegs) (status : Status) (cause : Cause) (size bits : Nat) : Prop :=
  r.status = status ∧ r.cause = cause ∧ regHolds r.size size ∧ regHolds r.bits bits

/-- `CTRL` fields 0 to 6 are those of a header (45_header.md R263). -/
def CtrlRegs.holds (c : CtrlRegs) (h : Header) : Prop :=
  c.version = h.version ∧ c.fmt = h.format ∧ c.palSize = h.palSize ∧ c.alphaTrunc = h.alphaTrunc
    ∧ c.rgbTrunc = h.rgbTrunc ∧ c.width.toNat = h.widthM1.toNat + 1 ∧ c.height.toNat = h.heightM1.toNat + 1

/-- Nothing is stored. -/
def noBytes (_ : BufId) (_ : Nat) : Prop := False

/-- The bytes from `off` on, `n` of them, of one buffer. -/
def bytesFrom (id : BufId) (off n : Nat) (id' : BufId) (off' : Nat) : Prop := id' = id ∧ off ≤ off' ∧ off' < off + n

/-- The bytes that hold the stream bits from `p` on, `n` of them, of one buffer. -/
def bytesOfBitsFrom (id : BufId) (p n : Nat) (id' : BufId) (off' : Nat) : Prop :=
  id' = id ∧ p / 8 ≤ off' ∧ 8 * off' < p + n

/-- The bytes of pixel `i` of a format start here (20_memory.md R63 to R65). -/
def pixelOffset (f : Fmt) (i : Nat) : Nat := i * f.bits / 8

/-- The stream bits of a buffer from position `p` on. -/
def Buffer.bitList (b : Buffer) (order : BitOrder) (p : Nat) : (n : Nat) → List Bool
  | 0 => []
  | n + 1 => b.bit order p :: b.bitList order (p + 1) n

/-- A buffer name that stands for a buffer: every one but a bitmap source the host has not given. -/
def State.given (s : State) (id : BufId) : Prop := ∀ j, id = .host (.bmp j) → j < s.bmps.length

end Machine

open Machine

/-! ## Operands that are not refused (60_exceptions.md R311) -/

/-- `ENCODE` is not refused. -/
def EncodeArgs.accepted (a : EncodeArgs) (f : Fmt) (s : State) : Prop :=
  s.cfg.fmtOfNat a.ctrl.fmt = some f ∧ a.ctrl.legal s.cfg = true
    ∧ f.pixbytes a.ctrl.pixels ≤ (s.buf (.host a.canvas)).size ∧ a.canvas ≠ a.out
    ∧ a.outCap ≤ (s.buf (.host a.out)).size

/-- `ESTIMATE` is not refused. -/
def EstimateArgs.accepted (a : EstimateArgs) (f : Fmt) (s : State) : Prop :=
  s.cfg.fmtOfNat a.ctrl.fmt = some f ∧ a.ctrl.legal s.cfg = true ∧ a.bg < 2 ^ f.bits
    ∧ s.objs.all (objectColourFits f.bits) = true ∧ s.objs.any isCompressed = false

/-- `DRAW` is not refused. -/
def DrawArgs.accepted (a : DrawArgs) (f : Fmt) (s : State) : Prop :=
  s.cfg.fmtOfNat a.ctrl.fmt = some f ∧ a.ctrl.legal s.cfg = true ∧ a.bg < 2 ^ f.bits
    ∧ s.objs.all (objectColourFits f.bits) = true ∧ s.objs.any isCompressed = false
    ∧ s.objs.any (sourceIs a.out) = false ∧ a.outCap ≤ (s.buf (.host a.out)).size
    ∧ canvasReadable f s a.ctrl.width a.ctrl.height = true

/-- `DECODE` is not refused. -/
def DecodeArgs.accepted (a : DecodeArgs) (s : State) : Prop :=
  (1 ≤ a.runLenBits ∧ a.runLenBits ≤ 16) ∧ a.inSize ≤ (s.buf (.host a.inp)).size
    ∧ a.dstCap ≤ (s.buf (.host a.dst)).size ∧ a.inp ≠ a.dst ∧ expectLegal a.expect = true

/-- A draw object without its colour (46_rasterizer.md R283). -/
def DrawObject.shape : DrawObject → DrawObject
  | .rect x y w h _ => .rect x y w h 0
  | .strokeRect x y w h t _ => .strokeRect x y w h t 0
  | .line x0 y0 x1 y1 t _ => .line x0 y0 x1 y1 t 0
  | .bitmap x y w h src stride => .bitmap x y w h src stride
  | .compressedBitmap x y w h src offset => .compressedBitmap x y w h src offset

/-- The header of the host's control values. -/
def CtrlArgs.header (a : CtrlArgs) (cfg : Config) : Header := headerOfCtrl (ctrlRegsOf cfg a)

/-- The context of the host's control values. -/
def CtrlArgs.ctx (a : CtrlArgs) (cfg : Config) (f : Fmt) : Ctx :=
  { cfg := cfg, fmt := f, k := a.palSize, rl := a.runLenBits }

/-- Preprocessing with the host's control values (41_pixelformat.md R161). -/
def CtrlArgs.prep (a : CtrlArgs) (c : Color) : Color :=
  Sys2Proof.prep c (BitVec.ofNat 2 a.rgbTrunc) (BitVec.ofNat 2 a.alphaTrunc) (decide (a.zeroize = 1))

/-- The preprocessed Colors of the canvas of an `ENCODE`, in raster order (43_encoder.md R201). -/
def EncodeArgs.canvasColors (a : EncodeArgs) (f : Fmt) (s : State) : List Color :=
  (List.range a.ctrl.pixels).map fun i => a.ctrl.prep (pixelColor s.cfg f (s.buf (.host a.canvas)) i)

/-- The preprocessed Colors of the canvas of a `DRAW`, in raster order (46_rasterizer.md R286). -/
def DrawArgs.canvasColors (a : DrawArgs) (f : Fmt) (s : State) : List Color :=
  (List.range a.ctrl.pixels).map fun i =>
    a.ctrl.prep (unpack s.cfg.channelScale f
      (canvasPixel f a.bg s (Int.ofNat (i % a.ctrl.width)) (Int.ofNat (i / a.ctrl.width))))

namespace Machine

/-! ## Instructions by format -/

/-- `PIX.GET` of a format. -/
def pixGetInstr (f : Fmt) (id : BufId) (i : Nat) : Instr :=
  match f with
  | .argb8888 => .pixGet8888 id i
  | .argb4444 => .pixGet4444 id i
  | .argb1555 => .pixGet1555 id i
  | .lut8 => .pixGetLut8 id i
  | .lut4 => .pixGetLut4 id i

/-- `PIX.SET` of a format. -/
def pixSetInstr (f : Fmt) (id : BufId) (i : Nat) (c : Color) : Instr :=
  match f with
  | .argb8888 => .pixSet8888 id i c
  | .argb4444 => .pixSet4444 id i c
  | .argb1555 => .pixSet1555 id i c
  | .lut8 => .pixSetLut8 id i c
  | .lut4 => .pixSetLut4 id i c

/-- The reads `BS.READ(n)` of several widths, one after the other: the values and the state they leave. -/
def readFields : (widths : List Nat) → State → List Nat × State
  | [], s => ([], s)
  | n :: ns, s => (s.readValue n :: (readFields ns (bsAdvance n s)).1, (readFields ns (bsAdvance n s)).2)

end Machine

end Sys2Proof
end

