-- ==== Sys2Proof/Certificates/Slice0/Obligations.lean ====
section
/-! DEFINITION. The statements for the provers, in the order of OBLIGATIONS.json. `s` is the state before, `t` the one
after. `t.withMem s = { s with … }` says which registers change; `s.keepsBytes t p` says that no byte outside `p` does. -/

open Sys2Proof Sys2Proof.Machine

/-! ## Encodings -/

/-- Decoding the encoding of a well-formed instruction, whatever follows it, gives the instruction and what follows
(30_encoding.md R96 to R108, R112; 45_header.md R261). -/
def Obligations.DecodeOfEncode : Prop :=
  ∀ (cx : Ctx) (i : Instr) (bits rest : List Bool), cx.cfg.legal = true → i.wf cx = true → encode cx i = some bits →
    decode cx (pointOf i) (bits ++ rest) = .ok (i, rest)

/-- What decodes as an entry is the encoding of that entry, which is well formed: every string of bits has one
meaning (30_encoding.md R107, R108). -/
def Obligations.EncodeOfDecode : Prop :=
  ∀ (cx : Ctx) (bits rest : List Bool) (e : Entry), decodeEntry cx bits = .ok (e, rest) →
    e.wf cx = true ∧ encodeEntry cx e ++ rest = bits

/-- The bit places of the header in both layouts, the stream bits read as a number whose bit 0 is stream bit 0
(30_encoding.md R92, R93). -/
def Obligations.HeaderBitPlaces : Prop :=
  ∀ h : Header,
    natOfBits (encodeHeader .three .lsbFirst h) = h.version.toNat + 2 ^ 8 * h.format.toNat + 2 ^ 15 * h.palSize.toNat
        + 2 ^ 23 * h.alphaTrunc.toNat + 2 ^ 27 * h.rgbTrunc.toNat + 2 ^ 31 * h.widthM1.toNat + 2 ^ 47 * h.heightM1.toNat
      ∧ natOfBits (encodeHeader .four .lsbFirst h) = h.version.toNat + 2 ^ 8 * h.format.toNat
        + 2 ^ 16 * h.palSize.toNat + 2 ^ 24 * h.alphaTrunc.toNat + 2 ^ 28 * h.rgbTrunc.toNat + 2 ^ 32 * h.widthM1.toNat
        + 2 ^ 48 * h.heightM1.toNat
      ∧ (encodeHeader .three .lsbFirst h).length = 64 ∧ (encodeHeader .four .lsbFirst h).length = 64

/-- The widths of the entries and of the widest one under the default syntax (30_encoding.md R105). -/
def Obligations.EntryWidths : Prop :=
  ∀ (cx : Ctx) (c : Word) (n i : Nat), cx.cfg.entryCodes = Config.default.entryCodes →
    Entry.width cx (.lit c) = 2 + cx.pixBits ∧ Entry.width cx (.litr n c) = 3 + cx.rl + cx.pixBits
      ∧ Entry.width cx (.pal i) = 2 + cx.idxBits ∧ Entry.width cx (.palr n i) = 2 + cx.rl + cx.idxBits
      ∧ Entry.width cx (.nlit c) = 1 + cx.pixBits ∧ Entry.width cx (.nrun n c) = 1 + cx.rl + cx.pixBits
      ∧ cx.maxWidth = if cx.palEn then 2 + cx.rl + max (1 + cx.pixBits) cx.idxBits else 1 + cx.rl + cx.pixBits

/-- Words written out from the encodings of 30_encoding.md decode to what they stand for. -/
def Obligations.DecodesSpecWords : Prop :=
  decodeTableWord 8 0x3C = some (.lit 15) ∧ decodeTableWord 8 0xFA = some (.litr 2 15)
    ∧ decodeTableWord 8 0x06 = some (.reserved011 [false, true, true]) ∧ decodeTableWord 8 0x05 = some (.pal 1)
    ∧ decodeTableWord 8 0x0F = some (.palr 2 1)
    ∧ decodeTableWord 64 0x0000000308020200 = some (.hdr3
        { version := 0, format := 2, palSize := 4, alphaTrunc := 0, rgbTrunc := 1, widthM1 := 6, heightM1 := 0 })
    ∧ decodeTableWord 32 0x10040200 = some (.hdr4
        { version := 0, format := 2, palSize := 4, alphaTrunc := 0, rgbTrunc := 1, widthM1 := 0, heightM1 := 0 })

/-! ## The BitStream -/

/-- `BS.INIT` (40_bitstream.md R131): the five registers, the buffer cleared where it is writable, nothing else. -/
def Obligations.BsInitResult : Prop :=
  ∀ (id : BufId) (size : Nat) (ro : Bool) (s : State), initFits id size ro s = true →
    ∃ t, exec (.bsInit id size ro) s = .next t
      ∧ t.withMem s = { s with bs := { buf := id, cap := size * 8, ro := ro, pos := 0, status := .ok } }
      ∧ (ro = true → s.keepsBytes t noBytes)
      ∧ (ro = false → ∀ off, off < size → t.byteAt id off = 0)
      ∧ (∀ h, (t.buf (.host h)).size = (s.buf (.host h)).size)
      ∧ ∀ id' off, off < (t.buf id').size → (id' = id → size ≤ off) → t.byteAt id' off = s.byteAt id' off

/-- `BS.WRITE` (40_bitstream.md R132): the cursor always advances; a write that fits stores the bits of the value and no
other bit; one that does not sets the flag and touches no other buffer. -/
def Obligations.BsWriteResult : Prop :=
  ∀ (v n : Nat) (s : State), n ≤ 16 → s.bs.ro = false → s.bsBound = true →
    ∃ t, exec (.bsWrite v n) s = .next t
      ∧ t.withMem s = { s with
          bs := {
            s.bs with
            pos := s.bs.pos + n
            status := if 0 < n ∧ s.bs.cap < s.bs.pos + n then .overflow else s.bs.status }
          free := t.free }
      ∧ (s.bs.pos + n ≤ s.bs.cap →
          s.keepsBytes t (bytesOfBitsFrom s.bs.buf s.bs.pos n)
            ∧ (∀ k, k < n → (t.buf s.bs.buf).bit s.cfg.bitOrder (s.bs.pos + k) =
                match s.cfg.bitOrder with
                | .lsbFirst => v.testBit k
                | .msbFirst => v.testBit (n - 1 - k))
            ∧ ∀ q, ¬(s.bs.pos ≤ q ∧ q < s.bs.pos + n) →
                (t.buf s.bs.buf).bit s.cfg.bitOrder q = (s.buf s.bs.buf).bit s.cfg.bitOrder q)
      ∧ s.keepsBytes t fun id _ => id = s.bs.buf ∧ 0 < n

/-- `BS.READ` (40_bitstream.md R133): the bits inside the capacity, the cursor clamped, the flag, no memory. A bit past
the capacity is any. -/
def Obligations.BsReadResult : Prop :=
  ∀ (n : Nat) (s : State), n ≤ 32 → s.bsBound = true →
    ∃ t v, exec (.bsRead n) s = .next t
      ∧ t = { s with
          bs := {
            s.bs with
            pos := if n = 0 then s.bs.pos else min (s.bs.pos + n) s.bs.cap
            status := if 0 < n ∧ s.bs.cap < s.bs.pos + n then .overflow else s.bs.status }
          ret := .bits v
          free := t.free }
      ∧ v.toNat < 2 ^ n
      ∧ ∀ k, k < n → s.bs.pos + k < s.bs.cap →
          v.getLsbD (match s.cfg.bitOrder with | .lsbFirst => k | .msbFirst => n - 1 - k) =
            (s.buf s.bs.buf).bit s.cfg.bitOrder (s.bs.pos + k)

/-- `BS.SKIP` (40_bitstream.md R134): the cursor alone, clamped; refused where it is above the capacity. -/
def Obligations.BsSkipResult : Prop :=
  ∀ (n : Nat) (s : State),
    (s.bs.pos ≤ s.bs.cap →
      exec (.bsSkip n) s = .next { s with bs := { s.bs with pos := min (s.bs.pos + n) s.bs.cap } })
      ∧ (s.bs.cap < s.bs.pos → exec (.bsSkip n) s = .refused .skipPastCapacity)

/-- The two laws of 40_bitstream.md R135: a write or read that fits may be cut in two (least significant bit first), and
what is written without an overflow into a fresh stream is read back. -/
def Obligations.BsLaws : Prop :=
  (∀ (v m n : Nat) (s : State), s.cfg.bitOrder = .lsbFirst → s.bsBound = true → s.bs.pos + (m + n) ≤ s.bs.cap →
    bsWrite (v / 2 ^ m) n (bsWrite v m s) = bsWrite v (m + n) s
      ∧ s.readValue (m + n) = s.readValue m + 2 ^ m * (bsAdvance m s).readValue n
      ∧ bsAdvance n (bsAdvance m s) = bsAdvance (m + n) s)
    ∧ ∀ (id : BufId) (size : Nat) (fs : List Field) (s : State), initFits id size false s = true →
        (bsWriteFields fs (bsInit id size false s)).bs.status = .ok →
        let w := bsWriteFields fs (bsInit id size false s)
        (readFields (fs.map Prod.snd) (bsInit id size true w)).1 = fs.map (fun f => f.1 % 2 ^ f.2)
          ∧ (readFields (fs.map Prod.snd) (bsInit id size true w)).2.bs.status = .ok
          ∧ (readFields (fs.map Prod.snd) (bsInit id size true w)).2.bs.pos = w.bs.pos

/-- Over all instructions: only an operation that starts with `BS.INIT` clears `BS.status` or binds another stream, and
only such an operation moves the cursor back from a place not above the capacity (10_state.md R24, R26). From above it a
`BS.READ` moves the cursor back to the capacity (log 14). -/
def Obligations.StreamOnlyForward : Prop :=
  ∀ (i : Instr) (s t : State), exec i s = .next t →
    (∃ id size ro, i = .bsInit id size ro) ∨ (∃ a, i = .encode a) ∨ (∃ a, i = .decode a) ∨ (∃ a, i = .draw a)
      ∨ ((s.bs.status = .overflow → t.bs.status = .overflow) ∧ (s.bs.pos ≤ s.bs.cap → s.bs.pos ≤ t.bs.pos)
        ∧ t.bs.buf = s.bs.buf ∧ t.bs.cap = s.bs.cap ∧ t.bs.ro = s.bs.ro)

/-! ## The pixel-format transcoder -/

/-- `PIX.GET` of every format in every configuration: the Color of the pixel, and nothing changes (41_pixelformat.md R150
to R154). -/
def Obligations.PixGetResult : Prop :=
  ∀ (f : Fmt) (id : BufId) (i : Nat) (s : State), pixInside f (s.buf id) i = true →
    exec (pixGetInstr f id i) s =
      .next { s with ret := .color (unpack s.cfg.channelScale f (pixRead s.cfg f (s.buf id) i)) }

/-- The channels that `PIX.GET` returns in terms of the bytes of the buffer, in the default configuration
(41_pixelformat.md R150 to R154, 20_memory.md R62 to R65). -/
def Obligations.PixGetBytes : Prop :=
  ∀ (f : Fmt) (id : BufId) (i : Nat) (s : State), pixInside f (s.buf id) i = true → s.cfg.pixelByteOrder = .le →
    s.cfg.channelScale = .raw → s.cfg.lut4Nibbles = .lowFirst →
    ∃ c : Color, exec (pixGetInstr f id i) s = .next { s with ret := .color c } ∧
      match f with
      | .argb8888 => c.b = s.byteAt id (4 * i) ∧ c.g = s.byteAt id (4 * i + 1) ∧ c.r = s.byteAt id (4 * i + 2)
          ∧ c.a = s.byteAt id (4 * i + 3)
      | .argb4444 => c.b.toNat = (s.byteAt id (2 * i)).toNat % 16 ∧ c.g.toNat = (s.byteAt id (2 * i)).toNat / 16
          ∧ c.r.toNat = (s.byteAt id (2 * i + 1)).toNat % 16 ∧ c.a.toNat = (s.byteAt id (2 * i + 1)).toNat / 16
      | .argb1555 => c.b.toNat = (s.byteAt id (2 * i)).toNat % 32
          ∧ c.g.toNat = (s.byteAt id (2 * i)).toNat / 32 + 8 * ((s.byteAt id (2 * i + 1)).toNat % 4)
          ∧ c.r.toNat = (s.byteAt id (2 * i + 1)).toNat / 4 % 32 ∧ c.a.toNat = (s.byteAt id (2 * i + 1)).toNat / 128
      | .lut8 => c = { a := s.byteAt id i, r := 0, g := 0, b := 0 }
      | .lut4 => c.r = 0 ∧ c.g = 0 ∧ c.b = 0
          ∧ c.a.toNat = if i % 2 = 0 then (s.byteAt id (i / 2)).toNat % 16 else (s.byteAt id (i / 2)).toNat / 16

/-- `PIX.SET` of every format in every configuration: the pixel reads as `pack(c)`, every other pixel as before, no byte
but the pixel's own changes, no register changes (41_pixelformat.md R155 to R159). -/
def Obligations.PixSetResult : Prop :=
  ∀ (f : Fmt) (id : BufId) (i : Nat) (c : Color) (s : State), pixInside f (s.buf id) i = true →
    ∃ t, exec (pixSetInstr f id i c) s = .next t ∧ t.withMem s = s
      ∧ s.keepsBytes t (bytesFrom id (pixelOffset f i) (f.pixbytes 1))
      ∧ pixRead s.cfg f (t.buf id) i = pack s.cfg.channelScale f c
      ∧ ∀ j, j ≠ i → pixRead s.cfg f (t.buf id) j = pixRead s.cfg f (s.buf id) j

/-- The bytes that `PIX.SET` stores in terms of the channels, in the default configuration (41_pixelformat.md R155 to
R159, 20_memory.md R62 to R65). -/
def Obligations.PixSetBytes : Prop :=
  ∀ (f : Fmt) (id : BufId) (i : Nat) (c : Color) (s : State), pixInside f (s.buf id) i = true →
    s.cfg.pixelByteOrder = .le → s.cfg.channelScale = .raw → s.cfg.lut4Nibbles = .lowFirst →
    ∃ t, exec (pixSetInstr f id i c) s = .next t ∧
      match f with
      | .argb8888 => t.byteAt id (4 * i) = c.b ∧ t.byteAt id (4 * i + 1) = c.g ∧ t.byteAt id (4 * i + 2) = c.r
          ∧ t.byteAt id (4 * i + 3) = c.a
      | .argb4444 => (t.byteAt id (2 * i)).toNat = c.b.toNat % 16 + 16 * (c.g.toNat % 16)
          ∧ (t.byteAt id (2 * i + 1)).toNat = c.r.toNat % 16 + 16 * (c.a.toNat % 16)
      | .argb1555 => (t.byteAt id (2 * i)).toNat = c.b.toNat % 32 + 32 * (c.g.toNat % 8)
          ∧ (t.byteAt id (2 * i + 1)).toNat =
              c.g.toNat / 8 % 4 + 4 * (c.r.toNat % 32) + 128 * (c.a.toNat % 2)
      | .lut8 => t.byteAt id i = c.a
      | .lut4 => (t.byteAt id (i / 2)).toNat =
          if i % 2 = 0 then c.a.toNat % 16 + 16 * ((s.byteAt id (i / 2)).toNat / 16)
          else (s.byteAt id (i / 2)).toNat % 16 + 16 * (c.a.toNat % 16)

/-- `PIX.PREPROCESS` (41_pixelformat.md R160): the preprocessed Color is returned and stored in the pixel, nothing else
changes; a code that is no format's stops (60_exceptions.md R320). -/
def Obligations.PixPreprocessResult : Prop :=
  ∀ (id : BufId) (i : Nat) (code : BitVec 4) (rt at' : BitVec 2) (z : Bool) (s : State),
    (∀ f, s.cfg.fmtOf code = some f → pixInside f (s.buf id) i = true →
      ∃ t, exec (.pixPreprocess id i code rt at' z) s = .next t
        ∧ t.withMem s = { s with ret := .color (prep (pixelColor s.cfg f (s.buf id) i) rt at' z) }
        ∧ s.keepsBytes t (bytesFrom id (pixelOffset f i) (f.pixbytes 1))
        ∧ pixRead s.cfg f (t.buf id) i =
            pack s.cfg.channelScale f (prep (pixelColor s.cfg f (s.buf id) i) rt at' z)
        ∧ ∀ j, j ≠ i → pixRead s.cfg f (t.buf id) j = pixRead s.cfg f (s.buf id) j)
      ∧ (s.cfg.fmtOf code = none → exec (.pixPreprocess id i code rt at' z) s = .fault .formatDispatch)

/-- The function `prep`, channel by channel, as numbers (41_pixelformat.md R161). -/
def Obligations.PrepChannels : Prop :=
  ∀ (c : Color) (rt at' : BitVec 2) (z : Bool),
    let low (v : Byte) (n : BitVec 2) : Nat := v.toNat - v.toNat % 2 ^ n.toNat
    if z = true ∧ low c.a at' = 0 then prep c rt at' z = { a := 0, r := 0, g := 0, b := 0 }
    else (prep c rt at' z).a.toNat = low c.a at' ∧ (prep c rt at' z).r.toNat = low c.r rt
      ∧ (prep c rt at' z).g.toNat = low c.g rt ∧ (prep c rt at' z).b.toNat = low c.b rt

/-- Preprocessing is idempotent, and a second `PIX.PREPROCESS` of a pixel returns the same Color and changes no byte
(41_pixelformat.md R162). -/
def Obligations.PrepIdempotent : Prop :=
  (∀ (c : Color) (rt at' : BitVec 2) (z : Bool), prep (prep c rt at' z) rt at' z = prep c rt at' z)
    ∧ ∀ (id : BufId) (i : Nat) (code : BitVec 4) (rt at' : BitVec 2) (z : Bool) (s t : State),
        exec (.pixPreprocess id i code rt at' z) s = .next t →
        ∃ u, exec (.pixPreprocess id i code rt at' z) t = .next u ∧ u.ret = t.ret
          ∧ ∀ id' off, u.byteAt id' off = t.byteAt id' off

/-- The laws of the transcoder (41_pixelformat.md R164): `pack` inverts `unpack` in every configuration; the other
three for `CHANNEL_SCALE` RAW. -/
def Obligations.TranscoderLaws : Prop :=
  ∀ f : Fmt,
    (∀ (sc : ChannelScale) (w : Word), w.toNat < 2 ^ f.bits → pack sc f (unpack sc f w) = w)
      ∧ (∀ c : Color, unpack .raw f (pack .raw f c) = c.reduce f)
      ∧ (∀ c : Color, unpack .raw f (pack .raw f c) = c ↔ c.fits f)
      ∧ (∀ (sc : ChannelScale) (v w : Word), v.toNat < 2 ^ f.bits → w.toNat < 2 ^ f.bits →
          unpack sc f v = unpack sc f w → v = w)
      ∧ ∀ (c : Color) (rt at' : BitVec 2) (z : Bool), c.fits f → (prep c rt at' z).fits f

/-! ## The palette cache -/

/-- `PAL.INIT` (42_palette.md R181): the cache of `K` slots, the grays of the default seed in ascending order; pairwise
different Colors for every legal seed (10_state.md R36). -/
def Obligations.PalInitResult : Prop :=
  ∀ (k : Nat) (s : State), 2 ≤ k → k ≤ 255 →
    ∃ pal, exec (.palInit k) s = .next { s with pal := pal }
      ∧ (s.cfg.palSeed = .gray → pal.length = k ∧ ∀ i, i < k → ∃ c, pal[i]? = some c ∧ c.a.toNat = 255
          ∧ c.r.toNat = i * (256 / k) ∧ c.g.toNat = i * (256 / k) ∧ c.b.toNat = i * (256 / k))
      ∧ (s.cfg.palSeed.legal = true → pal.length = k ∧ pal.Nodup)

/-- `PAL.LOOKUP` (42_palette.md R182) of the slots: a hit returns the least slot and moves it to the front, a miss
pushes. It needs palette mode, or slots that `PAL.INIT` made. -/
def Obligations.PalLookupResult : Prop :=
  ∀ (c : Color) (s : State), s.palEn = true ∨ s.pal ≠ [] →
    (∀ j, s.slots[j]? = some c → (∀ i, i < j → s.slots[i]? ≠ some c) →
      exec (.palLookup c) s = .next { s with pal := c :: s.slots.eraseIdx j, ret := .lookup (some j) })
      ∧ (c ∉ s.slots → exec (.palLookup c) s = .next { s with pal := c :: s.slots.dropLast, ret := .lookup none })

/-- `PAL.PUSH`, `PAL.LRU_UPDATE` and `PAL.GET`, slot by slot (42_palette.md R183 to R185). -/
def Obligations.PalSlotMoves : Prop :=
  (∀ (c : Color) (s : State), s.palEn = true ∨ s.pal ≠ [] →
    ∃ pal, exec (.palPush c) s = .next { s with pal := pal } ∧ pal.length = s.slots.length ∧ pal[0]? = some c
      ∧ ∀ i, i + 1 < s.slots.length → pal[i + 1]? = s.slots[i]?)
    ∧ ∀ (j : Nat) (c : Color) (s : State), s.slots[j]? = some c →
        ∃ pal, exec (.palLruUpdate j) s = .next { s with pal := pal }
          ∧ exec (.palGet j) s = .next { s with pal := pal, ret := .color c } ∧ pal.length = s.slots.length
          ∧ pal[0]? = some c ∧ (∀ i, i < j → pal[i + 1]? = s.slots[i]?) ∧ ∀ i, j < i → pal[i]? = s.slots[i]?

/-- The mirror law (42_palette.md R186). -/
def Obligations.MirrorLaw : Prop :=
  ∀ (c : Color) (s : State), s.palEn = true ∨ s.pal ≠ [] →
    ∃ t, exec (.palLookup c) s = .next t
      ∧ (t.ret = .lookup none → ∃ u, exec (.palPush c) s = .next u ∧ u.pal = t.pal)
      ∧ ∀ j, t.ret = .lookup (some j) →
          ∃ u, exec (.palGet j) s = .next u ∧ u.ret = .color c ∧ u.pal = t.pal

/-- No operation of the encoder's puts a Color into the cache twice, and the slots stay as many (10_state.md R35, R36); with
palette mode there are at least `K` of them, and exactly those of `PAL.INIT` where it made `K`. -/
def Obligations.PaletteNoDuplicates : Prop :=
  (∀ (c : Color) (s t : State), s.slots.Nodup →
    exec (.palLookup c) s = .next t ∨ exec (.encStartRun c) s = .next t ∨ exec (.encPixel c) s = .next t →
    t.slots.Nodup ∧ t.slots.length = s.slots.length)
    ∧ ∀ s : State, s.palEn = true →
        s.slots.length = max s.pal.length s.palSize ∧ (s.pal.length = s.palSize → s.slots = s.pal)

/-- After pushes of different Colors, at least as many as there are slots, the cache holds the latest, latest first,
and exactly these are found (42_palette.md R187). -/
def Obligations.LruProperty : Prop :=
  ∀ (pal cs : List Color), cs.Nodup → pal.length ≤ cs.length →
    let after := cs.foldl (fun p c => pushColor c p) pal
    after = cs.reverse.take pal.length
      ∧ (∀ c ∈ cs.reverse.take pal.length, (slotOf c after).isSome = true)
      ∧ ∀ c ∈ cs.reverse.drop pal.length, slotOf c after = none

/-! ## The encoder -/

/-- `ENC.START_RUN` (43_encoder.md R204): the lookup, the mode and code it decides, run length 1; nothing else. A hit
packs no Color and needs no format (60_exceptions.md R320). -/
def Obligations.EncStartRunResult : Prop :=
  ∀ (c : Color) (s : State),
    (∀ f, s.fmt? = some f →
      let literal : RunRegs :=
        { valid := true, mode := .literal, len := 1, code := pack s.cfg.channelScale f c, color := c }
      (s.palEn = false → exec (.encStartRun c) s = .next { s with run := literal })
        ∧ (s.palEn = true → c ∉ s.slots →
            exec (.encStartRun c) s = .next { s with run := literal, pal := pushColor c s.slots }))
      ∧ ∀ j, s.palEn = true → s.slots[j]? = some c → (∀ i, i < j → s.slots[i]? ≠ some c) →
          exec (.encStartRun c) s = .next { s with
            run := { valid := true, mode := .palette, len := 1, code := BitVec.ofNat 32 j, color := c }
            pal := promote j s.slots }

/-- `ENC.PIXEL` (43_encoder.md R203): the first pixel starts a run, an equal one extends it while it is shorter than
`2^RL`, any other flushes the run and starts one. Indices need no format (60_exceptions.md R320). -/
def Obligations.EncPixelResult : Prop :=
  ∀ (c : Color) (s : State),
    let hit : Prop := s.palEn = true ∧ c ∈ s.slots
    (s.run.valid = false → exec (.encPixel c) s = exec (.encStartRun c) s
        ∧ ((∃ f, s.fmt? = some f) ∨ hit → ∃ t, exec (.encPixel c) s = .next t))
      ∧ (s.run.valid = true → c = s.run.color → s.run.len ≠ 2 ^ s.rl →
          exec (.encPixel c) s = .next { s with run := { s.run with len := s.run.len + 1 } })
      ∧ (s.run.valid = true → c ≠ s.run.color ∨ s.run.len = 2 ^ s.rl → 1 ≤ s.run.len → s.run.len ≤ 2 ^ s.rl →
          s.bs.ro = false → s.rl ≤ 16 → s.bsBound = true → (∃ f, s.fmt? = some f) ∨ (hit ∧ s.run.mode = .palette) →
          ∃ u t, exec .encFlush s = .next u ∧ exec (.encStartRun c) u = .next t ∧ exec (.encPixel c) s = .next t)

/-- `ENC.SYNTAX` (43_encoder.md R206 to R209): the entry chosen by the mode, palette mode and the run length; its bits
at the cursor where they fit, and no other byte; the cursor past it in any case. An index is written in the same way
whatever the format, and with none (60_exceptions.md R320). -/
def Obligations.EncSyntaxResult : Prop :=
  ∀ (mode : Mode) (n : Nat) (code : Word) (f : Fmt) (s : State),
    s.fmt? = some f ∨ (s.palEn = true ∧ mode = .palette) → 1 ≤ n → n ≤ 2 ^ s.rl → s.bs.ro = false →
    s.rl ≤ 16 → s.bsBound = true →
    let e : Entry :=
      match s.palEn, mode, decide (n = 1) with
      | true, .literal, true => .lit code
      | true, .literal, false => .litr n code
      | true, .palette, true => .pal code.toNat
      | true, .palette, false => .palr n code.toNat
      | false, _, true => .nlit code
      | false, _, false => .nrun n code
    ∃ t, exec (.encSyntax mode n code) s = .next t
      ∧ t.withMem s = { s with
          bs := { s.bs with pos := s.bs.pos + e.width (s.ctxOf f), status := t.bs.status }
          free := t.free }
      ∧ (s.bs.pos + e.width (s.ctxOf f) ≤ s.bs.cap →
          t.bs.status = s.bs.status
            ∧ (t.buf s.bs.buf).bitList s.cfg.bitOrder s.bs.pos (e.width (s.ctxOf f)) = encodeEntry (s.ctxOf f) e
            ∧ s.keepsBytes t (bytesOfBitsFrom s.bs.buf s.bs.pos (e.width (s.ctxOf f))))
      ∧ (s.bs.cap < s.bs.pos + e.width (s.ctxOf f) →
          t.bs.status = .overflow ∧ s.keepsBytes t fun id _ => id = s.bs.buf)

/-- `ENC.FLUSH` (43_encoder.md R205): `ENC.SYNTAX` of the run, which stays as it is; refused where there is no run. A
run of palette mode needs no format (60_exceptions.md R320). -/
def Obligations.EncFlushResult : Prop :=
  ∀ s : State,
    (s.run.valid = true → 1 ≤ s.run.len → s.run.len ≤ 2 ^ s.rl → s.bs.ro = false → s.rl ≤ 16 → s.bsBound = true →
      (∃ f, s.fmt? = some f) ∨ (s.palEn = true ∧ s.run.mode = .palette) →
      ∃ t, exec .encFlush s = .next t ∧ exec (.encSyntax s.run.mode s.run.len s.run.code) s = .next t
        ∧ t.run = s.run ∧ t.pal = s.pal)
      ∧ (s.run.valid = false → exec .encFlush s = .refused .noRun)

/-- `ENC.FINISH` (43_encoder.md R215): the true bit count and size in every case; the stream copied and `ST_OK` where it
fits both buffers; `ST_CAPACITY` and no byte changed where it does not. -/
def Obligations.EncFinishResult : Prop :=
  ∀ (output : HostBuf) (outCap : Nat) (s : State),
    let size := 16 * ((s.bs.pos + 127) / 128)
    (s.bs.pos ≤ s.bs.cap → size ≤ outCap → size ≤ (s.buf (.host output)).size → size ≤ s.scratch.size →
      ∃ t, exec (.encFinish output outCap) s = .next t ∧ t.withMem s = { s with res := t.res }
        ∧ t.res.reports .ok .none size s.bs.pos ∧ s.keepsBytes t (bytesFrom (.host output) 0 size)
        ∧ ∀ off, off < size → t.byteAt (.host output) off = s.byteAt .scratch off)
      ∧ (s.bs.cap < s.bs.pos ∨ outCap < size →
          ∃ t, exec (.encFinish output outCap) s = .next t ∧ t = { s with res := t.res }
            ∧ t.res.reports .capacity .none size s.bs.pos)

/-- `ENCODE` (43_encoder.md R201; 60_exceptions.md R321, R324; 70_reset_and_hazards.md R354): it ends with `ST_OK` or
`ST_CAPACITY` and the true sizes; the canvas holds the preprocessed pixels in either case, and what is no pixel of it
stays, the last nibble of an odd LUT4 canvas too (93 U17); `OUT` changes only on success and only below the emitted size;
no other buffer of the host changes. -/
def Obligations.EncodeResult : Prop :=
  ∀ (a : EncodeArgs) (f : Fmt) (s : State), a.accepted f s → a.allocOk = true →
    ∃ t bits, exec (.encode a) s = .next t ∧
      let size := 16 * ((bits + 127) / 128)
      (t.res.status = .ok ∨ t.res.status = .capacity) ∧ t.res.reports t.res.status .none size bits
        ∧ (t.res.status = .capacity ↔ 8 * scratchBytes s.cfg a.ctrl.pixels f.bits < bits ∨ a.outCap < size)
        ∧ (∀ i, i < a.ctrl.pixels → pixRead s.cfg f (t.buf (.host a.canvas)) i =
            pack s.cfg.channelScale f (a.ctrl.prep (pixelColor s.cfg f (s.buf (.host a.canvas)) i)))
        ∧ (∀ i, a.ctrl.pixels ≤ i →
            pixRead s.cfg f (t.buf (.host a.canvas)) i = pixRead s.cfg f (s.buf (.host a.canvas)) i)
        ∧ (∀ h off, ¬(h = a.canvas ∧ off < f.pixbytes a.ctrl.pixels) →
            ¬(h = a.out ∧ t.res.status = .ok ∧ off < size) → t.byteAt (.host h) off = s.byteAt (.host h) off)
        ∧ t.ctrl = ctrlRegsOf s.cfg a.ctrl ∧ t.cfg = s.cfg ∧ t.dec = s.dec ∧ t.job = s.job ∧ t.objs = s.objs
        ∧ t.lc = s.lc ∧ t.phase = s.phase ∧ t.pending = s.pending ∧ t.ret = s.ret

/-- `ENCODE` writes the header and the entries of the canvas's runs: `RES.BITS` counts them, and on success `OUT` holds
them followed by zero bits (43_encoder.md R201, R212, R215, R216; 30_encoding.md R91). -/
def Obligations.EncodeStream : Prop :=
  ∀ (a : EncodeArgs) (f : Fmt) (s : State), s.cfg.legal = true → a.accepted f s → a.allocOk = true →
    let cx := a.ctrl.ctx s.cfg f
    let bits := streamOf cx (a.ctrl.header s.cfg) (canvasEntries cx (a.canvasColors f s))
    let size := 16 * ((bits.length + 127) / 128)
    ∃ t, exec (.encode a) s = .next t ∧ regHolds t.res.bits bits.length
      ∧ (t.res.status = .ok →
          (t.buf (.host a.out)).bitList s.cfg.bitOrder 0 (8 * size) =
            bits ++ List.replicate (8 * size - bits.length) false)

/-- The run-length bound (43_encoder.md R210): no run is longer than `2^RL` and none is empty, runs cover the canvas in
order, and a stretch of `m` equal pixels is cut greedily into `ceil(m / 2^RL)` runs. -/
def Obligations.RunsCut : Prop :=
  ∀ (maxRun : Nat), 1 ≤ maxRun →
    (∀ cs : List Color, (runsOf maxRun cs).flatMap (fun r => List.replicate r.1 r.2) = cs
        ∧ ∀ r ∈ runsOf maxRun cs, 1 ≤ r.1 ∧ r.1 ≤ maxRun)
      ∧ ∀ (m : Nat) (c : Color) (rest : List Color), 1 ≤ m → rest.head? ≠ some c →
          runsOf maxRun (List.replicate m c ++ rest) =
            List.replicate (m / maxRun) (maxRun, c) ++ (if m % maxRun = 0 then [] else [(m % maxRun, c)])
              ++ runsOf maxRun rest

/-! ## How operations stop -/

/-- `ST_ALLOC` (60_exceptions.md R323): the result registers and nothing else. -/
def Obligations.AllocationFails : Prop :=
  ∀ (f : Fmt) (s : State),
    let failed : Result := .next { s with res := { status := .alloc, cause := .none, size := 0, bits := 0 } }
    (∀ a : EncodeArgs, a.accepted f s → a.allocOk = false → exec (.encode a) s = failed)
      ∧ (∀ a : EstimateArgs, a.accepted f s → a.allocOk = false → exec (.estimate a) s = failed)
      ∧ (∀ a : DrawArgs, a.accepted f s → a.allocOk = false → exec (.draw a) s = failed)
      ∧ ∀ a : DecodeArgs, a.accepted s → a.allocOk = false → s.phase = .idle → exec (.decode a) s = failed

/-- What stops by name. Where `CTRL.FMT` names no format, the encoder's and the decoder's operations stop that pack a
Color, write a literal, write pixels or report their bytes (60_exceptions.md R320); what they do without that is said by
their own statements, and where `DEC.PREFIX` stops by `DecPrefixResult`. A host operation stops on operands that R311
refuses. -/
def Obligations.NamedStops : Prop :=
  (∀ (i : Instr) (s : State), s.fmt? = none →
    let hit (c : Color) : Prop := s.palEn = true ∧ c ∈ s.slots
    let index (mode : Mode) : Prop := s.palEn = true ∧ mode = .palette
    ((∃ e : Entry, i = e.toInstr)
      ∨ (∃ c, i = .encStartRun c ∧ ¬hit c)
      ∨ (∃ mode n code, i = .encSyntax mode n code ∧ ¬index mode)
      ∨ (i = .encFlush ∧ s.run.valid = true ∧ ¬index s.run.mode)
      ∨ (∃ c, i = .encPixel c ∧ s.run.valid = false ∧ ¬hit c)
      ∨ (∃ c, i = .encPixel c ∧ s.run.valid = true ∧ (c ≠ s.run.color ∨ s.run.len = 2 ^ s.rl)
          ∧ ¬(index s.run.mode ∧ hit c))
      ∨ (i = .decEmit ∧ s.dec.len ≠ 0)) → exec i s = .fault .formatDispatch)
    ∧ (∀ (a : EncodeArgs) (s : State), (∃ r, exec (.encode a) s = .refused r) ↔ ∀ f, ¬a.accepted f s)
    ∧ (∀ (a : EstimateArgs) (s : State), (∃ r, exec (.estimate a) s = .refused r) ↔ ∀ f, ¬a.accepted f s)
    ∧ (∀ (a : DrawArgs) (s : State), (∃ r, exec (.draw a) s = .refused r) ↔ ∀ f, ¬a.accepted f s)
    ∧ ∀ (a : DecodeArgs) (s : State), ¬a.accepted s → ∃ r, exec (.decode a) s = .refused r

/-! ## The decoder -/

/-- `DEC.PREFIX` (44_decoder.md R232) in the default syntaxes: the kind by the first two or three bits, the cursor past
them; the reserved string raised; a third bit past the end raised as `TRUNCATED`, whatever it is (60_exceptions.md R322);
and in every configuration it ends. Only the errors need a format, for their `RES.SIZE` (R320). -/
def Obligations.DecPrefixResult : Prop :=
  ∀ s : State, s.bsBound = true →
    let b (k : Nat) : Bool := (s.buf s.bs.buf).bit s.cfg.bitOrder (s.bs.pos + k)
    let read (k : Nat) (kind : EntryKind) : Result :=
      .next { s with bs := { s.bs with pos := s.bs.pos + k }, ret := .kind kind }
    (s.palEn = false → s.cfg.plainCodes = .lit0Run1 → s.bs.pos + 1 ≤ s.bs.cap →
      exec .decPrefix s = read 1 (if b 0 then .nrun else .nlit))
      ∧ (s.palEn = true → s.cfg.entryCodes = Config.default.entryCodes → s.bs.pos + 2 ≤ s.bs.cap →
          (b 0 = false → b 1 = false → exec .decPrefix s = read 2 .lit)
            ∧ (b 0 = true → b 1 = false → exec .decPrefix s = read 2 .pal)
            ∧ (b 0 = true → b 1 = true → exec .decPrefix s = read 2 .palr)
            ∧ (b 0 = false → b 1 = true → s.bs.pos + 3 ≤ s.bs.cap → s.bs.status = .ok →
                (b 2 = false → exec .decPrefix s = read 3 .litr)
                  ∧ (b 2 = true → ∀ f, s.fmt? = some f → ∃ t, exec .decPrefix s = .next t
                      ∧ t = { s with bs := { s.bs with pos := s.bs.pos + 3 }, res := t.res, phase := .idle }
                      ∧ t.res.reports .malformed .reservedPrefix (f.pixbytes s.dec.outpix) (s.bs.pos + 3)))
            ∧ (b 0 = false → b 1 = true → s.bs.cap = s.bs.pos + 2 → ∀ f, s.fmt? = some f →
                ∃ t, exec .decPrefix s = .next t
                  ∧ t = { s with
                      bs := { s.bs with pos := s.bs.cap, status := .overflow }
                      res := t.res
                      free := t.free
                      phase := .idle }
                  ∧ t.res.reports .malformed .truncated (f.pixbytes s.dec.outpix) s.bs.cap)
            ∧ (b 0 = false → b 1 = true → s.bs.cap = s.bs.pos + 2 ∨ (s.bs.pos + 3 ≤ s.bs.cap ∧ b 2 = true) →
                s.fmt? = none → exec .decPrefix s = .fault .formatDispatch))
      ∧ ((∃ f, s.fmt? = some f) → ∃ t, exec .decPrefix s = .next t)

/-- `DEC.EMIT` (44_decoder.md R235): `DEC.len` pixels of `DEC.color` from pixel `DEC.outpix` on, the two counters, no
other byte and no other register. A run of no pixels changes nothing and needs no format (60_exceptions.md R320). -/
def Obligations.DecEmitResult : Prop :=
  ∀ s : State,
    (s.dec.len = 0 → exec .decEmit s = .next s)
      ∧ ∀ f, s.fmt? = some f → s.dec.len ≤ s.dec.remaining →
          f.pixbytes (s.dec.outpix + s.dec.len) ≤ (s.buf (.host s.job.dst)).size →
          ∃ t, exec .decEmit s = .next t
            ∧ t.withMem s = { s with
                dec := { s.dec with outpix := s.dec.outpix + s.dec.len, remaining := s.dec.remaining - s.dec.len } }
            ∧ (∀ i, s.dec.outpix ≤ i → i < s.dec.outpix + s.dec.len →
                pixRead s.cfg f (t.buf (.host s.job.dst)) i = pack s.cfg.channelScale f s.dec.color)
            ∧ (∀ i, ¬(s.dec.outpix ≤ i ∧ i < s.dec.outpix + s.dec.len) →
                pixRead s.cfg f (t.buf (.host s.job.dst)) i = pixRead s.cfg f (s.buf (.host s.job.dst)) i)
            ∧ s.keepsBytes t fun id off => id = .host s.job.dst ∧ pixelOffset f s.dec.outpix ≤ off
                ∧ off < f.pixbytes (s.dec.outpix + s.dec.len)

/-- `LIT`, `LITR`, `NLIT`, `NRUN` (44_decoder.md R236, R237, R240, R241) inside the stream and the frame: the word stored
in each pixel of the run, one push where there is a cache, the counters, the cursor past the entry; nothing else. -/
def Obligations.LiteralEntryResult : Prop :=
  ∀ (e : Entry) (c : Word) (push : Bool) (f : Fmt) (s : State),
    (e = .lit c ∧ push = true) ∨ (∃ n, e = .litr n c ∧ push = true) ∨ (e = .nlit c ∧ push = false)
      ∨ (∃ n, e = .nrun n c ∧ push = false) →
    s.fmt? = some f → c.toNat < 2 ^ f.bits → s.bs.status = .ok →
    s.bs.pos + e.width (s.ctxOf f) ≤ s.bs.cap → e.runLength ≤ s.dec.remaining →
    f.pixbytes (s.dec.outpix + e.runLength) ≤ (s.buf (.host s.job.dst)).size →
    ∃ t, exec e.toInstr s = .next t
      ∧ t.withMem s = { s with
          bs := { s.bs with pos := s.bs.pos + e.width (s.ctxOf f) }
          dec := {
            remaining := s.dec.remaining - e.runLength
            outpix := s.dec.outpix + e.runLength
            mode := .literal
            len := e.runLength
            code := c
            color := unpack s.cfg.channelScale f c }
          pal := if push then pushColor (unpack s.cfg.channelScale f c) s.slots else s.pal }
      ∧ (∀ i, s.dec.outpix ≤ i → i < s.dec.outpix + e.runLength →
          pixRead s.cfg f (t.buf (.host s.job.dst)) i = c)
      ∧ (∀ i, ¬(s.dec.outpix ≤ i ∧ i < s.dec.outpix + e.runLength) →
          pixRead s.cfg f (t.buf (.host s.job.dst)) i = pixRead s.cfg f (s.buf (.host s.job.dst)) i)
      ∧ s.keepsBytes t fun id off => id = .host s.job.dst ∧ pixelOffset f s.dec.outpix ≤ off
          ∧ off < f.pixbytes (s.dec.outpix + e.runLength)

/-- `PAL` and `PALR` (44_decoder.md R238, R239) of a slot that exists, inside the stream and the frame: its Color in each
pixel of the run, one promotion, the counters, the cursor past the entry; nothing else. -/
def Obligations.PaletteEntryResult : Prop :=
  ∀ (e : Entry) (i : Nat) (c : Color) (f : Fmt) (s : State), e = .pal i ∨ (∃ n, e = .palr n i) →
    s.fmt? = some f → i < s.palSize → s.slots[i]? = some c → s.bs.status = .ok →
    s.bs.pos + e.width (s.ctxOf f) ≤ s.bs.cap → e.runLength ≤ s.dec.remaining →
    f.pixbytes (s.dec.outpix + e.runLength) ≤ (s.buf (.host s.job.dst)).size →
    ∃ t, exec e.toInstr s = .next t
      ∧ t.withMem s = { s with
          bs := { s.bs with pos := s.bs.pos + e.width (s.ctxOf f) }
          dec := {
            remaining := s.dec.remaining - e.runLength
            outpix := s.dec.outpix + e.runLength
            mode := .palette
            len := e.runLength
            code := BitVec.ofNat 32 i
            color := c }
          pal := promote i s.slots }
      ∧ (∀ j, s.dec.outpix ≤ j → j < s.dec.outpix + e.runLength →
          pixRead s.cfg f (t.buf (.host s.job.dst)) j = pack s.cfg.channelScale f c)
      ∧ (∀ j, ¬(s.dec.outpix ≤ j ∧ j < s.dec.outpix + e.runLength) →
          pixRead s.cfg f (t.buf (.host s.job.dst)) j = pixRead s.cfg f (s.buf (.host s.job.dst)) j)
      ∧ s.keepsBytes t fun id off => id = .host s.job.dst ∧ pixelOffset f s.dec.outpix ≤ off
          ∧ off < f.pixbytes (s.dec.outpix + e.runLength)

/-- The reserved string inside the stream (60_exceptions.md R316): `ST_MALFORMED`, cause `RESERVED_PREFIX`, the position
after it, the bytes of pixels written so far; nothing else. -/
def Obligations.ReservedEntryResult : Prop :=
  ∀ (bits : List Bool) (f : Fmt) (s : State), s.fmt? = some f → s.bs.status = .ok →
    s.bs.pos + bits.length ≤ s.bs.cap →
    ∃ t, exec (.reserved011 bits) s = .next t
      ∧ t = { s with bs := { s.bs with pos := s.bs.pos + bits.length }, res := t.res, phase := .idle }
      ∧ t.res.reports .malformed .reservedPrefix (f.pixbytes s.dec.outpix) (s.bs.pos + bits.length)

/-- The errors of an entry and their order (60_exceptions.md R317, R318, R319, R322): truncated, then an index without a
slot, then too long a run; the cache and every byte of memory stay, `RES` reports, the block goes idle. -/
def Obligations.EntryErrors : Prop :=
  ∀ (e : Entry) (f : Fmt) (s : State), s.fmt? = some f → s.bs.pos ≤ s.bs.cap → 0 < e.width (s.ctxOf f) →
    let badIndex : Prop := ∃ i n, (e = .pal i ∨ e = .palr n i) ∧ s.palSize ≤ i
    let raised (cause : Cause) (pos : Nat) : Prop :=
      ∃ t, exec e.toInstr s = .next t
        ∧ t.res.reports .malformed cause (f.pixbytes s.dec.outpix) pos
        ∧ t.bs.pos = pos ∧ t.phase = .idle ∧ t.pal = s.pal ∧ t = t.withMem s ∧ t.ctrl = s.ctrl
        ∧ t.dec.outpix = s.dec.outpix ∧ t.dec.remaining = s.dec.remaining
    let stop := s.bs.pos + e.width (s.ctxOf f)
    (s.bs.cap < stop → raised .truncated s.bs.cap)
      ∧ (s.bs.status = .ok → stop ≤ s.bs.cap → badIndex → raised .badIndex stop)
      ∧ (s.bs.status = .ok → stop ≤ s.bs.cap → ¬badIndex → (∀ bits, e ≠ .reserved011 bits) →
          s.dec.remaining < e.runLength → raised .runOverrun stop)

/-- A header in either layout, inside the stream (45_header.md R263): `CTRL` fields 0 to 6, the cursor 64 bits on; a
`DECODE` that waits for its header goes on; nothing else. -/
def Obligations.HeaderLayoutResult : Prop :=
  ∀ (h : Header) (i : Instr) (s : State), i = .hdr3 h ∨ i = .hdr4 h → s.bs.pos + 64 ≤ s.bs.cap →
    ∃ t, exec i s = .next t
      ∧ t = { s with
          bs := { s.bs with pos := s.bs.pos + 64 }
          ctrl := {
            s.ctrl with
            version := h.version
            fmt := h.format
            palSize := h.palSize
            alphaTrunc := h.alphaTrunc
            rgbTrunc := h.rgbTrunc
            width := t.ctrl.width
            height := t.ctrl.height }
          phase := if s.phase = .header then .setup else s.phase }
      ∧ t.ctrl.width.toNat = h.widthM1.toNat + 1 ∧ t.ctrl.height.toNat = h.heightM1.toNat + 1

/-- `HDR.DECODE` (45_header.md R263) reads the header that stands at the cursor: it does what the instruction does that
the decoder gives for those 64 bits; and it ends on every bound stream. -/
def Obligations.HdrDecodeResult : Prop :=
  ∀ s : State, s.bsBound = true →
    (s.bs.pos + 64 ≤ s.bs.cap →
      ∃ h t, decodeHeader s.cfg.hdrRsv0 s.cfg.bitOrder ((s.buf s.bs.buf).bitList s.cfg.bitOrder s.bs.pos 64)
          = .ok (h, [])
        ∧ exec .hdrDecode s = .next t ∧ exec (headerInstr s.cfg.hdrRsv0 h) s = .next t)
      ∧ ∃ t, exec .hdrDecode s = .next t

/-- `HDR.ENCODE` (45_header.md R262) into zero bits that hold it: the encoding of the header that `CTRL` describes, the
cursor 64 bits on, no other byte, no other register. A dimension of 0 leaves its field open (log 36). -/
def Obligations.HdrEncodeResult : Prop :=
  ∀ s : State, s.bs.ro = false → s.bsBound = true → s.bs.pos + 64 ≤ s.bs.cap →
    ∃ t h, exec .hdrEncode s = .next t
      ∧ t.withMem s = { s with bs := { s.bs with pos := s.bs.pos + 64 } }
      ∧ s.keepsBytes t (bytesOfBitsFrom s.bs.buf s.bs.pos 64)
      ∧ ((s.buf s.bs.buf).bitList s.cfg.bitOrder s.bs.pos 64 = List.replicate 64 false →
          (t.buf s.bs.buf).bitList s.cfg.bitOrder s.bs.pos 64 = encodeHeader s.cfg.hdrRsv0 s.cfg.bitOrder h)
      ∧ h.version = s.ctrl.version ∧ h.format = s.ctrl.fmt ∧ h.palSize = s.ctrl.palSize
      ∧ h.alphaTrunc = s.ctrl.alphaTrunc ∧ h.rgbTrunc = s.ctrl.rgbTrunc
      ∧ (s.ctrl.width ≠ 0 → h.widthM1.toNat = (s.ctrl.width.toNat - 1) % 2 ^ 16)
      ∧ (s.ctrl.height ≠ 0 → h.heightM1.toNat = (s.ctrl.height.toNat - 1) % 2 ^ 16)

/-- The header round trip (45_header.md R264): `HDR.ENCODE` into a fresh buffer of at least 8 bytes, then `HDR.DECODE` of
that buffer from its start, whatever `CTRL` held in between, gives fields 0 to 6 back. -/
def Obligations.HeaderRoundTrip : Prop :=
  ∀ (id : BufId) (size : Nat) (c : CtrlRegs) (s : State), 8 ≤ size → initFits id size false s = true →
    1 ≤ s.ctrl.width.toNat → s.ctrl.width.toNat ≤ 65536 → 1 ≤ s.ctrl.height.toNat → s.ctrl.height.toNat ≤ 65536 →
    ∃ t u v w, exec (.bsInit id size false) s = .next t ∧ exec .hdrEncode t = .next u
      ∧ exec (.bsInit id size true) { u with ctrl := c } = .next v ∧ exec .hdrDecode v = .next w
      ∧ w.ctrl = { s.ctrl with runLenBits := c.runLenBits, zeroize := c.zeroize }

/-- The errors of `DECODE` before its loop, in their order (60_exceptions.md R313, R314, R315, R322): no byte changes;
`CTRL` stays where the stream is not read, and otherwise holds the header's fields and the host's `RUN_LEN_BITS`. -/
def Obligations.DecodeHeaderErrors : Prop :=
  ∀ (a : DecodeArgs) (s : State), a.accepted s → a.allocOk = true →
    let raised (cause : Cause) (bits : Nat) (ctrl : CtrlRegs → Prop) : Prop :=
      ∃ t, exec (.decode a) s = .next t ∧ t.res.reports .malformed cause 0 bits
        ∧ (∀ id off, t.byteAt id off = s.byteAt id off) ∧ ctrl t.ctrl
    (a.inSize < 8 → raised .shortHeader 0 fun c => c = s.ctrl)
      ∧ ∀ h rest, 8 ≤ a.inSize →
          decodeHeader s.cfg.hdrRsv0 s.cfg.bitOrder ((s.buf (.host a.inp)).bitList s.cfg.bitOrder 0 64)
            = .ok (h, rest) →
          let read (c : CtrlRegs) : Prop :=
            c.holds h ∧ c.runLenBits.toNat = a.runLenBits ∧ c.zeroize = s.ctrl.zeroize
          (s.cfg.fmtOf h.format = none → raised .badFormat 64 read)
            ∧ ∀ f, s.cfg.fmtOf h.format = some f →
                (∃ w ht, a.expect = some (w, ht) ∧ (h.widthM1.toNat + 1, h.heightM1.toNat + 1) ≠ (w, ht))
                  ∨ a.dstCap < f.pixbytes ((h.widthM1.toNat + 1) * (h.heightM1.toNat + 1)) →
                raised .dimMismatch 64 read

/-- `DECODE` always ends (44_decoder.md R242; 60_exceptions.md R326, R327): never a fault or a refusal once its operands
are accepted, with `ST_OK` or `ST_MALFORMED`, having changed no byte but the first `n` of `DST`, the size that it
reports, none or those of the `DEC.outpix` pixels written (44_decoder.md R243), and no register beside `BS`, `CTRL`, `RES`, `DEC`, the cache, the operands it keeps and
the model's own. -/
def Obligations.DecodeEnds : Prop :=
  ∀ (a : DecodeArgs) (s : State), s.Inv → s.phase = .idle → a.accepted s → a.allocOk = true →
    ∃ t n, exec (.decode a) s = .next t ∧ t.phase = .idle ∧ (t.res.status = .ok ∨ t.res.status = .malformed)
      ∧ regHolds t.res.size n ∧ n ≤ a.dstCap
      ∧ (n = 0 ∨ ∃ f, s.cfg.fmtOf t.ctrl.fmt = some f ∧ n = f.pixbytes t.dec.outpix)
      ∧ s.keepsBytes t (bytesFrom (.host a.dst) 0 n)
      ∧ t.withMem s = { s with
          bs := t.bs
          ctrl := t.ctrl
          res := t.res
          dec := t.dec
          pal := t.pal
          job := t.job
          free := t.free }

/-- `DECODE` of a stream of a header and executable entries that cover the frame ends with `ST_OK`, has read exactly
these, and `DST` holds the Colors they stand for in raster order, no other byte or pixel changed; the cache is the
entries', `CTRL` fields 0 to 6 the header's (44_decoder.md R231, R236 to R244; 60_exceptions.md R324). -/
def Obligations.DecodeStream : Prop :=
  ∀ (a : DecodeArgs) (f : Fmt) (h : Header) (es : List Entry) (rest : List Bool) (s : State),
    s.cfg.legal = true → a.accepted s → a.allocOk = true → s.cfg.fmtOf h.format = some f →
    let cx : Ctx := { cfg := s.cfg, fmt := f, k := h.palSize.toNat, rl := a.runLenBits }
    let w := h.widthM1.toNat + 1
    let ht := h.heightM1.toNat + 1
    a.expect = none ∨ a.expect = some (w, ht) → f.pixbytes (w * ht) ≤ a.dstCap →
    (∀ e ∈ es, e.executable cx = true) → coveredPixels es = w * ht →
    (s.buf (.host a.inp)).bitList s.cfg.bitOrder 0 (8 * a.inSize) = streamOf cx h es ++ rest →
    ∃ t, exec (.decode a) s = .next t
      ∧ t.res.reports .ok .none (f.pixbytes (w * ht)) (streamOf cx h es).length
      ∧ (∀ i, i < w * ht → ∃ c, (expand cx cx.seed es)[i]? = some c
          ∧ pixRead s.cfg f (t.buf (.host a.dst)) i = pack s.cfg.channelScale f c)
      ∧ (∀ i, w * ht ≤ i → pixRead s.cfg f (t.buf (.host a.dst)) i = pixRead s.cfg f (s.buf (.host a.dst)) i)
      ∧ s.keepsBytes t (bytesFrom (.host a.dst) 0 (f.pixbytes (w * ht)))
      ∧ t.pal = cacheAfter cx cx.seed es ∧ t.ctrl.holds h

/-! ## Steps -/

/-- `DECODE` as one operation is the steps of the machine, from the state in which it waits for its header to the one in
which it has ended (60_exceptions.md R326, 30_encoding.md R90; the model's log 5). -/
def Obligations.DecodeIsSteps : Prop :=
  ∀ (a : DecodeArgs) (s t : State), s.Inv → s.phase = .idle → decStart a s = .next t →
    ∃ k, k ≤ 2 ^ 32 + 3 ∧ exec (.decode a) s = core.run k t

/-- A step runs the decoded instruction: the header, the entry at the cursor, or the oldest operation asked for. -/
def Obligations.StepRunsDecoded : Prop :=
  ∀ (s : State) (i : Instr),
    (∀ f rest, s.phase = .header →
      decode (s.ctxOf f) .header (s.streamBits s.bs.pos 64) = .ok (i, rest) → step s = exec i s)
      ∧ (∀ f rest, s.phase = .entries → s.dec.remaining ≠ 0 → s.fmt? = some f →
          decode (s.ctxOf f) .body (s.streamBits s.bs.pos (s.ctxOf f).window) = .ok (i, rest) → step s = exec i s)
      ∧ (∀ rest, s.phase = .idle → s.pending = i :: rest → step s = exec i { s with pending := rest })
      ∧ (s.phase = .idle → s.pending = [] → step s = .next s)

/-! ## The rasterizer -/

/-- The constructors (46_rasterizer.md R271 to R273): the record returned, nothing else. `SET_RECT` and `SET_LINE` refuse a
colour of more than `P` bits and a code that is no format's; `SET_BITMAP` answers whatever its code. -/
def Obligations.ConstructorsResult : Prop :=
  ∀ (attrs : CanvasAttrs) (f : Fmt) (x y w h t : Int) (filled : Bool) (color : Nat) (src : HostBuf) (stride : Nat)
    (s : State),
    exec (.setBitmap attrs x y w h src stride) s = .next { s with ret := .object (.bitmap x y w h src stride) }
      ∧ (s.cfg.fmtOfNat attrs.fmt = some f → color < 2 ^ f.bits →
          exec (.setRect attrs x y w h filled t color) s =
              .next { s with ret := .object (if filled then .rect x y w h color else .strokeRect x y w h t color) }
            ∧ exec (.setLine attrs x y w h t color) s = .next { s with ret := .object (.line x y w h t color) })
      ∧ (s.cfg.fmtOfNat attrs.fmt = some f → 2 ^ f.bits ≤ color →
          exec (.setRect attrs x y w h filled t color) s = .refused .illegalColour
            ∧ exec (.setLine attrs x y w h t color) s = .refused .illegalColour)
      ∧ (s.cfg.fmtOfNat attrs.fmt = none →
          exec (.setRect attrs x y w h filled t color) s = .refused .illegalControl
            ∧ exec (.setLine attrs x y w h t color) s = .refused .illegalControl)

/-- `ESTIMATE` (46_rasterizer.md R283): it reports some bits and their size, and changes no buffer and no register but
`CTRL` and `RES`. With the default cost the bits are 64 and `W_MAX` for each unit, a constant slice of `L` pixels being
`ceil(L / 2^RL)` units and a bitmap slice `L`. With any cost, `RES` depends on the format, `PAL_SIZE`, `RUN_LEN_BITS`, the
dimensions and the objects without their colours alone: on no buffer, background, truncation or `ZEROIZE`. -/
def Obligations.EstimateResult : Prop :=
  (∀ (a : EstimateArgs) (f : Fmt) (s : State), a.accepted f s → a.allocOk = true →
    let units (slices : List (Bool × Nat)) : Nat :=
      (slices.map fun l => if l.1 then (l.2 + (2 ^ a.ctrl.runLenBits - 1)) / 2 ^ a.ctrl.runLenBits else l.2).sum
    let lineUnits (y : Nat) : Nat :=
      units (slicesOf ((List.range a.ctrl.width).map fun x => owner s.cfg s.objs (Int.ofNat x) (Int.ofNat y)))
    ∃ t bits, exec (.estimate a) s = .next t ∧ t = { s with ctrl := ctrlRegsOf s.cfg a.ctrl, res := t.res }
      ∧ t.res.reports .ok .none (16 * ((bits + 127) / 128)) bits
      ∧ (s.cfg.estCost = .default →
          bits = 64 + ((List.range a.ctrl.height).map lineUnits).sum * (a.ctrl.ctx s.cfg f).maxWidth))
    ∧ ∀ (a a' : EstimateArgs) (f : Fmt) (s s' : State), a.accepted f s → a'.accepted f s' → a.allocOk = true →
        a'.allocOk = true → s'.cfg = s.cfg → s'.objs.map DrawObject.shape = s.objs.map DrawObject.shape →
        a'.ctrl.palSize = a.ctrl.palSize → a'.ctrl.runLenBits = a.ctrl.runLenBits → a'.ctrl.width = a.ctrl.width →
        a'.ctrl.height = a.ctrl.height →
        ∃ t t', exec (.estimate a) s = .next t ∧ exec (.estimate a') s' = .next t' ∧ t'.res = t.res

/-- Slices are maximal stretches of one owner (46_rasterizer.md R281): they cover the line in order, none is empty, and
one owner's stretch, ended by another owner, is one slice. -/
def Obligations.SlicesPartition : Prop :=
  (∀ os : List (Option (Nat × DrawObject)),
    ((slicesOf os).map Prod.snd).sum = os.length ∧ ∀ l ∈ slicesOf os, 1 ≤ l.2)
    ∧ ∀ (n : Nat) (o : Option (Nat × DrawObject)) (rest : List (Option (Nat × DrawObject))), 1 ≤ n →
        (∀ o', rest.head? = some o' → o'.map Prod.fst ≠ o.map Prod.fst) →
        slicesOf (List.replicate n o ++ rest) = (isConstant o, n) :: slicesOf rest

/-- The topmost object that covers a position owns it (46_rasterizer.md R280), and gives the pixel its word: its colour,
the word of a bitmap's source at its row and column, or the background's where no object covers the position (R282,
R279; the bytes of the source in the default byte and nibble order). -/
def Obligations.OwnerIsTopmost : Prop :=
  (∀ (cfg : Config) (objs : List DrawObject) (px py : Int),
    (∀ j o, owner cfg objs px py = some (j, o) ↔ objs[j]? = some o ∧ covers cfg o px py = true
        ∧ ∀ k o', j < k → objs[k]? = some o' → covers cfg o' px py = false)
      ∧ (owner cfg objs px py = none ↔ ∀ o ∈ objs, covers cfg o px py = false))
    ∧ ∀ (f : Fmt) (bg : Nat) (s : State) (px py : Int),
        let word := canvasPixel f bg s px py
        (owner s.cfg s.objs px py = none → word = BitVec.ofNat 32 bg)
          ∧ (∀ j o color, owner s.cfg s.objs px py = some (j, o) →
              (∃ x y w h, o = .rect x y w h color) ∨ (∃ x y w h t, o = .strokeRect x y w h t color)
                ∨ (∃ x0 y0 x1 y1 t, o = .line x0 y0 x1 y1 t color) → word = BitVec.ofNat 32 color)
          ∧ ∀ (j : Nat) (x y w h : Int) (src : HostBuf) (stride row col : Nat),
              owner s.cfg s.objs px py = some (j, .bitmap x y w h src stride) → py = y + row → px = x + col →
              s.cfg.pixelByteOrder = .le → s.cfg.lut4Nibbles = .lowFirst →
              let byte (k : Nat) : Nat := (s.byteAt (.host src) (row * stride + k)).toNat
              word.toNat = match f with
                | .argb8888 => byte (col * 4) + 2 ^ 8 * byte (col * 4 + 1) + 2 ^ 16 * byte (col * 4 + 2)
                    + 2 ^ 24 * byte (col * 4 + 3)
                | .argb4444 => byte (col * 2) + 2 ^ 8 * byte (col * 2 + 1)
                | .argb1555 => byte (col * 2) + 2 ^ 8 * byte (col * 2 + 1)
                | .lut8 => byte col
                | .lut4 =>
                  let pair := (s.byteAt (.host src) ((row * stride + col) / 2)).toNat
                  if (row * stride + col) % 2 = 0 then pair % 16 else pair / 16

/-- Coverage (46_rasterizer.md R274, R276 to R278). A rectangle and a bitmap cover `w` columns and `h` rows. A stroke
covers the outer rectangle without the inner one; one at least half as thick as its rectangle is the rectangle. A line
covers, between its ends on the major axis, the minor positions less than half its thickness from the ideal one, the
lower edge included, and so exactly `max(t, 0)` of them; the order of its ends does not matter. -/
def Obligations.Coverage : Prop :=
  (∀ (cfg : Config) (x y w h px py : Int) (color : Nat) (src : HostBuf) (stride : Nat),
    let inside : Prop := (x ≤ px ∧ px < x + w) ∧ y ≤ py ∧ py < y + h
    (covers cfg (.rect x y w h color) px py = true ↔ inside)
      ∧ (covers cfg (.bitmap x y w h src stride) px py = true ↔ inside))
    ∧ (∀ (cfg : Config) (x y w h t px py : Int) (color : Nat), cfg.strokeCover = .default →
        (covers cfg (.strokeRect x y w h t color) px py = true ↔
          1 ≤ t ∧ ((x ≤ px ∧ px < x + w) ∧ y ≤ py ∧ py < y + h)
            ∧ ¬((x + t ≤ px ∧ px < x + w - t) ∧ y + t ≤ py ∧ py < y + h - t))
          ∧ (1 ≤ t → w ≤ 2 * t ∨ h ≤ 2 * t →
              covers cfg (.strokeRect x y w h t color) px py = covers cfg (.rect x y w h color) px py))
    ∧ (∀ (cfg : Config) (x0 y0 x1 y1 t px py : Int) (color : Nat), cfg.lineCover = .default →
        let near (p p0 p1 q q0 q1 : Int) : Prop :=
          let ideal : Rat := (q0 : Rat) + (q1 - q0 : Rat) * (p - p0 : Rat) / (p1 - p0 : Rat)
          (min p0 p1 ≤ p ∧ p ≤ max p0 p1) ∧ -(t : Rat) / 2 ≤ (q : Rat) - ideal ∧ (q : Rat) - ideal < (t : Rat) / 2
        covers cfg (.line x0 y0 x1 y1 t color) px py = true ↔
          if (y1 - y0).natAbs ≤ (x1 - x0).natAbs then near px x0 x1 py y0 y1 else near py y0 y1 px x0 x1)
    ∧ (∀ x0 y0 x1 y1 t px py : Int, defaultLineCover x0 y0 x1 y1 t px py = defaultLineCover x1 y1 x0 y0 t px py)
    ∧ (∀ x0 y0 x1 y1 t px : Int, (y1 - y0).natAbs ≤ (x1 - x0).natAbs → min x0 x1 ≤ px → px ≤ max x0 x1 →
        ∃ m : Int, ∀ py, defaultLineCover x0 y0 x1 y1 t px py = true ↔ m ≤ py ∧ py < m + t)
    ∧ ∀ x0 y0 x1 y1 t py : Int, (x1 - x0).natAbs < (y1 - y0).natAbs → min y0 y1 ≤ py → py ≤ max y0 y1 →
        ∃ m : Int, ∀ px, defaultLineCover x0 y0 x1 y1 t px py = true ↔ m ≤ px ∧ px < m + t

/-- `DRAW` (46_rasterizer.md R285, R286): the stream of the canvas of `canvas_pixel` words, preprocessed; `OUT` as
`ENCODE` leaves it; no other buffer of the host changes. -/
def Obligations.DrawStream : Prop :=
  ∀ (a : DrawArgs) (f : Fmt) (s : State), s.cfg.legal = true → a.accepted f s → a.allocOk = true →
    let cx := a.ctrl.ctx s.cfg f
    let bits := streamOf cx (a.ctrl.header s.cfg) (canvasEntries cx (a.canvasColors f s))
    let size := 16 * ((bits.length + 127) / 128)
    ∃ t, exec (.draw a) s = .next t ∧ t.res.reports t.res.status .none size bits.length
      ∧ (t.res.status = .ok ∨ t.res.status = .capacity)
      ∧ (t.res.status = .capacity ↔
          8 * scratchBytes s.cfg a.ctrl.pixels f.bits < bits.length ∨ a.outCap < size)
      ∧ (t.res.status = .ok →
          (t.buf (.host a.out)).bitList s.cfg.bitOrder 0 (8 * size) =
            bits ++ List.replicate (8 * size - bits.length) false)
      ∧ ∀ h off, ¬(h = a.out ∧ t.res.status = .ok ∧ off < size) →
          t.byteAt (.host h) off = s.byteAt (.host h) off

/-- The estimate bounds the stream, with any `EST_COST` (46_rasterizer.md R284): for the same control values and objects,
whatever the sources of the bitmaps hold at either time, the background and the output capacity. -/
def Obligations.DrawWithinEstimate : Prop :=
  ∀ (a : DrawArgs) (e : EstimateArgs) (f : Fmt) (s s' t u : State), s.cfg.legal = true →
    a.accepted f s → a.allocOk = true → e.allocOk = true → e.ctrl = a.ctrl → s'.cfg = s.cfg → s'.objs = s.objs →
    exec (.draw a) s = .next t → exec (.estimate e) s' = .next u →
    t.res.bits.toNat ≤ u.res.bits.toNat ∧ t.res.size.toNat ≤ u.res.size.toNat

/-! ## The machine -/

/-- Every step keeps the invariant of `Sys2Proof.Machine.State.Inv`: the canonical form of every memory, the registers of
the stream, the legal configuration, and inside a `DECODE` the invariant of 10_state.md R22. -/
def Obligations.StepKeepsInv : Prop := ∀ s t : State, s.Inv → step s = .next t → t.Inv ∧ t.cfg = s.cfg

/-- The invariant holds at reset. -/
def Obligations.ResetInv : Prop := State.reset.Inv

/-- The round trip (43_encoder.md R218): `DECODE` of the bytes that a successful `ENCODE` left, as many as the size of its
stream of `bits` bits (what `RES.BITS` and `RES.SIZE` hold where it fits), with the same `RUN_LEN_BITS` and room for the
frame, ends with `ST_OK`, has read exactly these bits, and gives the canvas as `ENCODE` left it. -/
def Obligations.RoundTrip : Prop :=
  ∀ (a : EncodeArgs) (b : DecodeArgs) (f : Fmt) (s t u : State), s.cfg.legal = true → a.accepted f s →
    a.allocOk = true → exec (.encode a) s = .next t → t.res.status = .ok →
    let cx := a.ctrl.ctx s.cfg f
    let bits := (streamOf cx (a.ctrl.header s.cfg) (canvasEntries cx (a.canvasColors f s))).length
    u.cfg = s.cfg → b.accepted u → b.allocOk = true → b.runLenBits = a.ctrl.runLenBits →
    b.inSize = 16 * ((bits + 127) / 128) →
    b.expect = none ∨ b.expect = some (a.ctrl.width, a.ctrl.height) → f.pixbytes a.ctrl.pixels ≤ b.dstCap →
    (∀ off, off < b.inSize → u.byteAt (.host b.inp) off = t.byteAt (.host a.out) off) →
    t.res.reports .ok .none b.inSize bits
      ∧ ∃ v, exec (.decode b) u = .next v ∧ v.res.reports .ok .none (f.pixbytes a.ctrl.pixels) bits
          ∧ ∀ i, i < a.ctrl.pixels →
              pixRead s.cfg f (v.buf (.host b.dst)) i = pixRead s.cfg f (t.buf (.host a.canvas)) i
end

