-- ==== Sys2Proof/Laws/Bits.lean ====
section
/-! SUPPORT. The laws of bit strings: fields written and taken, the leading bits of an entry. -/

namespace Sys2Proof.Laws

/-! ## Numbers and bits -/

@[simp] theorem bitsOfNat_length (n v : Nat) : (bitsOfNat n v).length = n := by
  induction n generalizing v with
  | zero => rfl
  | succ n ih => simp [bitsOfNat, ih]

theorem bitsOfNat_getElem {n v i : Nat} (h : i < (bitsOfNat n v).length) : (bitsOfNat n v)[i] = v.testBit i := by
  induction n generalizing v i with
  | zero => simp at h
  | succ n ih =>
    cases i with
    | zero => rfl
    | succ i =>
      simp only [bitsOfNat, List.getElem_cons_succ]
      rw [ih, Nat.testBit_succ]

theorem natOfBits_bitsOfNat (n v : Nat) : natOfBits (bitsOfNat n v) = v % 2 ^ n := by
  induction n generalizing v with
  | zero => simp [bitsOfNat, natOfBits, Nat.mod_one]
  | succ n ih =>
    have hm : v % 2 ^ (n + 1) = v % 2 + 2 * (v / 2 % 2 ^ n) := by rw [Nat.pow_succ', Nat.mod_mul]
    simp only [bitsOfNat, natOfBits, ih, hm, Nat.testBit_zero]
    congr 1
    rcases Nat.mod_two_eq_zero_or_one v with h | h <;> simp [h]

theorem natOfBits_lt (bits : List Bool) : natOfBits bits < 2 ^ bits.length := by
  induction bits with
  | nil => simp [natOfBits]
  | cons b rest ih =>
    have hb : b.toNat ≤ 1 := Bool.toNat_le b
    simp only [natOfBits, List.length_cons, Nat.pow_succ]
    omega

theorem bitsOfNat_natOfBits (bits : List Bool) : bitsOfNat bits.length (natOfBits bits) = bits := by
  induction bits with
  | nil => rfl
  | cons b rest ih =>
    have hd : (b.toNat + 2 * natOfBits rest) / 2 = natOfBits rest := by
      have hb : b.toNat ≤ 1 := Bool.toNat_le b
      omega
    have ht : (b.toNat + 2 * natOfBits rest).testBit 0 = b := by cases b <;> simp [Nat.testBit_zero, Nat.add_mod]
    simp only [List.length_cons, natOfBits, bitsOfNat, hd, ht, ih]

theorem bitsOfNat_mod (n v : Nat) : bitsOfNat n (v % 2 ^ n) = bitsOfNat n v := by
  have := bitsOfNat_natOfBits (bitsOfNat n v)
  rwa [bitsOfNat_length, natOfBits_bitsOfNat] at this

@[simp] theorem fieldBits_length (order : BitOrder) (v n : Nat) : (fieldBits order v n).length = n := by
  cases order <;> simp [fieldBits]

/-- A field's value, from its own bits. -/
theorem fieldValue_fieldBits (order : BitOrder) (v n : Nat) : fieldValue order (fieldBits order v n) = v % 2 ^ n := by
  cases order <;> simp [fieldBits, fieldValue, natOfBits_bitsOfNat]

/-- A field's bits, from its own value. -/
theorem fieldBits_fieldValue (order : BitOrder) (bits : List Bool) :
    fieldBits order (fieldValue order bits) bits.length = bits := by
  cases order
  · exact bitsOfNat_natOfBits bits
  · have := bitsOfNat_natOfBits bits.reverse
    simp only [List.length_reverse] at this
    simp [fieldBits, fieldValue, this]

theorem fieldValue_lt (order : BitOrder) (bits : List Bool) : fieldValue order bits < 2 ^ bits.length := by
  cases order
  · exact natOfBits_lt bits
  · have := natOfBits_lt bits.reverse
    rwa [List.length_reverse] at this

/-- Bits above the width of a field are ignored. -/
theorem fieldBits_mod (order : BitOrder) (v n : Nat) : fieldBits order (v % 2 ^ n) n = fieldBits order v n := by
  cases order <;> simp [fieldBits, bitsOfNat_mod]

@[simp] theorem fieldBits_one (order : BitOrder) (b : Bool) : fieldBits order b.toNat 1 = [b] := by
  cases order <;> cases b <;> rfl

/-! ## Fields -/

@[simp] theorem fieldsBits_length (order : BitOrder) (fs : List Field) :
    (fieldsBits order fs).length = fieldsWidth fs := by
  induction fs with
  | nil => rfl
  | cons f rest ih => simp [fieldsBits, fieldsWidth, ih]

theorem fieldsBits_append (order : BitOrder) (fs gs : List Field) :
    fieldsBits order (fs ++ gs) = fieldsBits order fs ++ fieldsBits order gs := by
  induction fs with
  | nil => rfl
  | cons f rest ih => simp [fieldsBits, ih]

@[simp] theorem fieldsWidth_append (fs gs : List Field) : fieldsWidth (fs ++ gs) = fieldsWidth fs + fieldsWidth gs := by
  induction fs with
  | nil => simp [fieldsWidth]
  | cons f rest ih => simp [fieldsWidth, ih, Nat.add_assoc]

@[simp] theorem fieldsWidth_stringFields (bits : List Bool) : fieldsWidth (stringFields bits) = bits.length := by
  induction bits with
  | nil => rfl
  | cons b rest ih => simp_all [stringFields, fieldsWidth, Nat.add_comm]

@[simp] theorem fieldsBits_stringFields (order : BitOrder) (bits : List Bool) :
    fieldsBits order (stringFields bits) = bits := by
  induction bits with
  | nil => rfl
  | cons b rest ih =>
    simp only [stringFields, List.map_cons, fieldsBits, fieldBits_one] at ih ⊢
    simp [ih]

theorem fieldsWidth_codeFields (f : Fmt) (w : Word) : fieldsWidth (codeFields f.bits w) = f.bits := by
  cases f <;> rfl

theorem width_eq_length (cx : Ctx) (e : Entry) : (encodeEntry cx e).length = e.width cx := by
  simp [encodeEntry, Entry.width]

/-! ## Taking fields -/

theorem splitBits_append (p rest : List Bool) : splitBits p.length (p ++ rest) = some (p, rest) := by
  induction p with
  | nil => rfl
  | cons b p ih => simp [splitBits, ih]

theorem splitBits_some {n : Nat} {bits p rest : List Bool} (h : splitBits n bits = some (p, rest)) :
    bits = p ++ rest ∧ p.length = n := by
  induction n generalizing bits p with
  | zero => simp only [splitBits, Option.some.injEq, Prod.mk.injEq] at h; simp [← h.1, h.2]
  | succ n ih =>
    cases bits with
    | nil => simp [splitBits] at h
    | cons b bits =>
      simp only [splitBits, Option.map_eq_some_iff] at h
      obtain ⟨⟨q, r⟩, hq, he⟩ := h
      simp only [Prod.mk.injEq] at he
      obtain ⟨rfl, rfl⟩ := he
      obtain ⟨rfl, hl⟩ := ih hq
      simp [hl]

theorem splitBits_of_le {n : Nat} {bits : List Bool} (h : n ≤ bits.length) :
    splitBits n bits = some (bits.take n, bits.drop n) := by
  have := splitBits_append (bits.take n) (bits.drop n)
  rwa [List.take_append_drop, List.length_take, Nat.min_eq_left h] at this

/-- A field taken from its own bits. -/
theorem takeField_append (order : BitOrder) (v n : Nat) (rest : List Bool) :
    takeField order n (fieldBits order v n ++ rest) = .ok (v % 2 ^ n, rest) := by
  have := splitBits_append (fieldBits order v n) rest
  rw [fieldBits_length] at this
  simp [takeField, this, fieldValue_fieldBits]

/-- A field taken from enough bits. -/
theorem takeField_of_le (order : BitOrder) {n : Nat} {bits : List Bool} (h : n ≤ bits.length) :
    takeField order n bits = .ok (fieldValue order (bits.take n), bits.drop n) := by
  simp [takeField, splitBits_of_le h]

/-- What a field taken says of the bits. -/
theorem takeField_ok {order : BitOrder} {n v : Nat} {bits rest : List Bool}
    (h : takeField order n bits = .ok (v, rest)) : bits = fieldBits order v n ++ rest ∧ v < 2 ^ n := by
  unfold takeField at h
  split at h
  · rename_i p r hs
    obtain ⟨rfl, hl⟩ := splitBits_some hs
    simp only [Except.ok.injEq, Prod.mk.injEq] at h
    obtain ⟨rfl, rfl⟩ := h
    have h1 := fieldBits_fieldValue order p
    have h2 := fieldValue_lt order p
    rw [hl] at h1 h2
    exact ⟨by rw [h1], h2⟩
  · exact absurd h (by simp)

/-! ## Leading bits -/

theorem commonLength_le (a b : List Bool) : commonLength a b ≤ a.length := by
  induction a generalizing b with
  | nil => simp [commonLength]
  | cons x a ih =>
    cases b with
    | nil => simp [commonLength]
    | cons y b =>
      simp only [commonLength, List.length_cons]
      split
      · exact Nat.succ_le_succ (ih b)
      · omega

theorem deadLength_le (codes : EntryCodes) (bits : List Bool) :
    codes.deadLength bits ≤
      max (max codes.lit.length codes.litr.length) (max codes.pal.length codes.palr.length) + 1 := by
  have h1 := commonLength_le codes.lit bits
  have h2 := commonLength_le codes.litr bits
  have h3 := commonLength_le codes.pal bits
  have h4 := commonLength_le codes.palr bits
  simp only [EntryCodes.deadLength]
  omega

/-- A window of bits is enough to tell the kind of an entry. -/
theorem kindOf_window (cx : Ctx) {bits : List Bool} (h : cx.leadWindow ≤ bits.length) :
    ∃ kind n, cx.kindOf bits = some (kind, n) ∧ n ≤ cx.leadWindow := by
  have hd := deadLength_le cx.cfg.entryCodes bits
  have hw : cx.leadWindow = max (max cx.cfg.entryCodes.lit.length cx.cfg.entryCodes.litr.length)
    (max cx.cfg.entryCodes.pal.length cx.cfg.entryCodes.palr.length) + 1 := rfl
  unfold Ctx.kindOf
  split
  · split
    · exact ⟨_, _, rfl, by omega⟩
    · split
      · exact ⟨_, _, rfl, by omega⟩
      · split
        · exact ⟨_, _, rfl, by omega⟩
        · split
          · exact ⟨_, _, rfl, by omega⟩
          · rw [if_pos (by omega)]
            exact ⟨_, _, rfl, by omega⟩
  · cases bits with
    | nil => simp [Ctx.leadWindow] at h
    | cons b rest => exact ⟨_, _, rfl, by omega⟩

/-- The number of bits that tell the kind of an entry is a number of bits there are. -/
theorem kindOf_length {cx : Ctx} {bits : List Bool} {kind : EntryKind} {n : Nat}
    (h : cx.kindOf bits = some (kind, n)) : n ≤ bits.length := by
  unfold Ctx.kindOf at h
  split at h
  · split at h
    · rename_i hp; simp only [Option.some.injEq, Prod.mk.injEq] at h; rw [← h.2]; exact (List.isPrefixOf_iff_prefix.mp hp).length_le
    · split at h
      · rename_i hp; simp only [Option.some.injEq, Prod.mk.injEq] at h; rw [← h.2]; exact (List.isPrefixOf_iff_prefix.mp hp).length_le
      · split at h
        · rename_i hp; simp only [Option.some.injEq, Prod.mk.injEq] at h; rw [← h.2]; exact (List.isPrefixOf_iff_prefix.mp hp).length_le
        · split at h
          · rename_i hp; simp only [Option.some.injEq, Prod.mk.injEq] at h; rw [← h.2]; exact (List.isPrefixOf_iff_prefix.mp hp).length_le
          · split at h
            · rename_i hp; simp only [Option.some.injEq, Prod.mk.injEq] at h; rw [← h.2]; exact hp
            · exact absurd h (by simp)
  · cases bits with
    | nil => simp at h
    | cons b rest => simp only [Option.some.injEq, Prod.mk.injEq] at h; simp [← h.2]

theorem takeCode_of_le (order : BitOrder) (f : Fmt) {bits : List Bool} (h : f.bits ≤ bits.length) :
    ∃ w, takeCode order f.bits bits = .ok (w, bits.drop f.bits) := by
  unfold takeCode
  split
  · rw [takeField_of_le order h]; exact ⟨_, rfl⟩
  · have h32 : f.bits = 32 := by cases f <;> simp_all [Fmt.bits]
    rw [takeField_of_le order (n := 16) (by omega)]
    simp only
    rw [takeField_of_le order (n := 16) (by simp; omega)]
    rw [h32, List.drop_drop]
    exact ⟨_, rfl⟩

/-- A window of bits is enough to decode an entry. -/
theorem decodeEntry_window (cx : Ctx) {bits : List Bool} (h : cx.window ≤ bits.length) :
    ∃ e rest, decodeEntry cx bits = .ok (e, rest) := by
  have hw : cx.window = cx.leadWindow + cx.rl + cx.pixBits + cx.idxBits := rfl
  obtain ⟨kind, n, hk, hn⟩ := kindOf_window cx (bits := bits) (by omega)
  have hl : (bits.drop n).length = bits.length - n := List.length_drop
  have lit : ∀ (mk : Word → Entry) (b : List Bool), cx.pixBits ≤ b.length →
      ∃ e rest, takeLiteral cx mk b = .ok (e, rest) := by
    intro mk b hb
    obtain ⟨w, hw⟩ := takeCode_of_le cx.cfg.bitOrder cx.fmt hb
    exact ⟨mk w, b.drop cx.fmt.bits, by simp only [takeLiteral, Ctx.pixBits, hw]⟩
  have idx : ∀ (mk : Nat → Entry) (b : List Bool), cx.idxBits ≤ b.length →
      ∃ e rest, takeIndex cx mk b = .ok (e, rest) := by
    intro mk b hb
    simp only [takeIndex, takeField_of_le _ hb]
    exact ⟨_, _, rfl⟩
  have run : ∀ k : Nat → List Bool → Except DecodeError (Entry × List Bool),
      (∀ m b, cx.pixBits + cx.idxBits ≤ b.length → ∃ e rest, k m b = .ok (e, rest)) →
      ∃ e rest, takeRun cx k (bits.drop n) = .ok (e, rest) := by
    intro k hk
    simp only [takeRun, takeField_of_le cx.cfg.bitOrder (n := cx.rl) (bits := bits.drop n) (by omega)]
    exact hk _ _ (by simp; omega)
  simp only [decodeEntry, hk]
  cases kind
  · exact lit _ _ (by omega)
  · exact run (fun m => takeLiteral cx (.litr m)) fun m b hb => lit _ b (by omega)
  · exact ⟨_, _, rfl⟩
  · exact idx _ _ (by omega)
  · exact run (fun m => takeIndex cx (.palr m)) fun m b hb => idx _ b (by omega)
  · exact lit _ _ (by omega)
  · exact run (fun m => takeLiteral cx (.nrun m)) fun m b hb => lit _ b (by omega)

theorem takeValues_of_le (order : BitOrder) (ns : List Nat) {bits : List Bool} (h : ns.sum ≤ bits.length) :
    ∃ vs, takeValues order ns bits = .ok (vs, bits.drop ns.sum) := by
  induction ns generalizing bits with
  | nil => exact ⟨[], rfl⟩
  | cons n ns ih =>
    simp only [List.sum_cons] at h
    obtain ⟨vs, hv⟩ := ih (bits := bits.drop n) (by simp; omega)
    simp only [takeValues, takeField_of_le order (n := n) (bits := bits) (by omega), hv, List.sum_cons, List.drop_drop]
    exact ⟨_, rfl⟩

theorem headerWidths_sum (rsv : HdrRsv0) : (headerWidths rsv).sum = 64 := by cases rsv <;> rfl

/-- 64 bits are enough to decode a header. -/
theorem decodeHeader_of_le (rsv : HdrRsv0) (order : BitOrder) {bits : List Bool} (h : 64 ≤ bits.length) :
    ∃ hd, decodeHeader rsv order bits = .ok (hd, bits.drop 64) := by
  obtain ⟨vs, hv⟩ := takeValues_of_le order (headerWidths rsv) (bits := bits) (by rw [headerWidths_sum]; exact h)
  rw [headerWidths_sum] at hv
  exact ⟨headerOfValues vs, by simp [decodeHeader, hv]⟩

end Sys2Proof.Laws
end

