-- ==== Sys2Proof/Laws/Memory.lean ====
section
/-! SUPPORT. The laws of memory: reading after writing, the canonical form, bits and pixels of a buffer. -/

namespace Sys2Proof.Laws

open Sys2Proof.Machine

/-! ## Cells -/

theorem cellAt_dropCell_same (off : Nat) (cells : List Host.Cell) : cellAt off (dropCell off cells) = none := by
  induction cells with
  | nil => rfl
  | cons c rest ih => grind [dropCell, cellAt]

theorem cellAt_dropCell_other {off off' : Nat} (h : off' ≠ off) (cells : List Host.Cell) :
    cellAt off' (dropCell off cells) = cellAt off' cells := by
  induction cells with
  | nil => rfl
  | cons c rest ih => grind [dropCell, cellAt]

theorem cellAt_putCell_same (off : Nat) (v : Byte) (cells : List Host.Cell) (h : cellAt off cells = none) :
    cellAt off (putCell off v cells) = some v := by
  induction cells with
  | nil => simp [putCell, cellAt]
  | cons c rest ih => grind [putCell, cellAt]

theorem cellAt_putCell_other {off off' : Nat} (h : off' ≠ off) (v : Byte) (cells : List Host.Cell) :
    cellAt off' (putCell off v cells) = cellAt off' cells := by
  induction cells with
  | nil => simp [putCell, cellAt, h.symm]
  | cons c rest ih => grind [putCell, cellAt]

/-! ## Bytes -/

@[simp] theorem write_size (b : Buffer) (off : Nat) (v : Byte) : (b.write off v).size = b.size := by
  unfold Buffer.write; split <;> rfl

@[simp] theorem write_fill (b : Buffer) (off : Nat) (v : Byte) : (b.write off v).fill = b.fill := by
  unfold Buffer.write; split <;> rfl

/-- A read after a write to the same place gives what was written. -/
theorem read_write_same (b : Buffer) {off : Nat} (v : Byte) (h : off < b.size) : (b.write off v).read off = v := by
  simp only [Buffer.write, if_pos h, Buffer.read]
  split
  · rename_i hv; simp [cellAt_dropCell_same, hv]
  · simp [cellAt_putCell_same _ _ _ (cellAt_dropCell_same off b.cells)]

/-- A write leaves every other place alone. -/
theorem read_write_other (b : Buffer) {off off' : Nat} (v : Byte) (h : off' ≠ off) :
    (b.write off v).read off' = b.read off' := by
  unfold Buffer.write
  split
  · simp only [Buffer.read]
    split
    · rw [cellAt_dropCell_other h]
    · rw [cellAt_putCell_other h, cellAt_dropCell_other h]
  · rfl

/-- Nothing outside the buffer is written. -/
theorem write_outside (b : Buffer) {off : Nat} (v : Byte) (h : b.size ≤ off) : b.write off v = b := by
  simp [Buffer.write, Nat.not_lt.mpr h]

@[simp] theorem writeBytes_size (vs : List Byte) (b : Buffer) (off : Nat) : (b.writeBytes off vs).size = b.size := by
  induction vs generalizing b off with
  | nil => rfl
  | cons v rest ih => simp [Buffer.writeBytes, ih]

theorem read_writeBytes_before (vs : List Byte) (b : Buffer) {off off' : Nat} (h : off' < off) :
    (b.writeBytes off vs).read off' = b.read off' := by
  induction vs generalizing b off with
  | nil => rfl
  | cons v rest ih =>
    rw [Buffer.writeBytes, ih _ (by omega), read_write_other _ _ (by omega)]

theorem read_writeBytes_after (vs : List Byte) (b : Buffer) {off off' : Nat} (h : off + vs.length ≤ off') :
    (b.writeBytes off vs).read off' = b.read off' := by
  induction vs generalizing b off with
  | nil => rfl
  | cons v rest ih =>
    simp only [List.length_cons] at h
    rw [Buffer.writeBytes, ih _ (by omega), read_write_other _ _ (by omega)]

/-- A write of several bytes leaves every other place alone. -/
theorem read_writeBytes_other (vs : List Byte) (b : Buffer) {off off' : Nat}
    (h : ¬(off ≤ off' ∧ off' < off + vs.length)) : (b.writeBytes off vs).read off' = b.read off' := by
  by_cases h1 : off' < off
  · exact read_writeBytes_before vs b h1
  · exact read_writeBytes_after vs b (by omega)

/-- A read of one of several bytes written. -/
theorem read_writeBytes_same (vs : List Byte) (b : Buffer) {off i : Nat} (hi : i < vs.length)
    (h : off + vs.length ≤ b.size) : (b.writeBytes off vs).read (off + i) = vs[i] := by
  induction vs generalizing b off i with
  | nil => simp at hi
  | cons v rest ih =>
    simp only [List.length_cons] at h hi
    cases i with
    | zero =>
      simp only [Buffer.writeBytes, Nat.add_zero, List.getElem_cons_zero]
      rw [read_writeBytes_before _ _ (by omega), read_write_same _ _ (by omega)]
    | succ i =>
      have := ih (b := b.write off v) (off := off + 1) (i := i) (by omega) (by simp; omega)
      rw [Buffer.writeBytes, show off + (i + 1) = off + 1 + i by omega, this]
      rfl

@[simp] theorem readBytes_length (b : Buffer) (off n : Nat) : (b.readBytes off n).length = n := by
  induction n generalizing off with
  | zero => rfl
  | succ n ih => simp [Buffer.readBytes, ih]

theorem readBytes_getElem (b : Buffer) {off n i : Nat} (h : i < (b.readBytes off n).length) :
    (b.readBytes off n)[i] = b.read (off + i) := by
  induction n generalizing off i with
  | zero => simp at h
  | succ n ih =>
    cases i with
    | zero => rfl
    | succ i =>
      simp only [readBytes_length] at h
      have := ih (off := off + 1) (i := i) (by simp; omega)
      simp only [Buffer.readBytes, List.getElem_cons_succ, this]
      congr 1; omega

/-- Two buffers that agree on bytes give the same list of them. -/
theorem readBytes_congr {b c : Buffer} {off n : Nat} (h : ∀ i, off ≤ i → i < off + n → b.read i = c.read i) :
    b.readBytes off n = c.readBytes off n := by
  induction n generalizing off with
  | zero => rfl
  | succ n ih =>
    simp only [Buffer.readBytes]
    rw [h off (by omega) (by omega), ih fun i h1 h2 => h i (by omega) (by omega)]

/-- Reading several bytes after writing them. -/
theorem readBytes_writeBytes (vs : List Byte) (b : Buffer) {off : Nat} (h : off + vs.length ≤ b.size) :
    (b.writeBytes off vs).readBytes off vs.length = vs := by
  apply List.ext_getElem (by simp)
  intro i h1 h2
  rw [readBytes_getElem, read_writeBytes_same vs b h2 h]

@[simp] theorem clear_size (b : Buffer) (n : Nat) : (b.clear n).size = b.size := by
  unfold Buffer.clear; split <;> simp

@[simp] theorem forget_size (b : Buffer) (k : Nat) : (b.forget k).size = b.size := rfl

@[simp] theorem read_zeros (n off : Nat) : (Buffer.zeros n).read off = 0 := rfl

theorem read_clear_same (b : Buffer) {n off : Nat} (hn : n ≤ b.size) (h : off < n) : (b.clear n).read off = 0 := by
  unfold Buffer.clear
  split
  · rfl
  · have := read_writeBytes_same (List.replicate n (0 : Byte)) b (off := 0) (i := off) (by simpa) (by simpa)
    simpa using this

theorem read_clear_other (b : Buffer) {n off : Nat} (h : n ≤ off) (hs : off < b.size) :
    (b.clear n).read off = b.read off := by
  unfold Buffer.clear
  rw [if_neg (by omega)]
  exact read_writeBytes_after _ _ (by simpa using h)

/-! ## The canonical form -/

theorem cellsRise_iff (cells : List Host.Cell) : cellsRise cells = true ↔ cells.Pairwise fun c d => c.1 < d.1 := by
  induction cells with
  | nil => simp [cellsRise]
  | cons c rest ih =>
    cases rest with
    | nil => simp [cellsRise]
    | cons d rest =>
      simp only [cellsRise, Bool.and_eq_true, decide_eq_true_eq, ih]
      constructor
      · rintro ⟨h1, h2⟩
        refine List.pairwise_cons.mpr ⟨fun e he => ?_, h2⟩
        rcases List.mem_cons.mp he with rfl | he
        · exact h1
        · exact lt_trans h1 ((List.pairwise_cons.mp h2).1 e he)
      · intro h
        exact ⟨(List.pairwise_cons.mp h).1 d (by simp), (List.pairwise_cons.mp h).2⟩

theorem wf_iff (b : Buffer) :
    b.wf = true ↔ (b.cells.Pairwise fun c d => c.1 < d.1) ∧ ∀ c ∈ b.cells, c.1 < b.size ∧ c.2 ≠ b.fill.byte c.1 := by
  simp [Buffer.wf, cellsRise_iff, List.all_eq_true]

theorem mem_dropCell {off : Nat} {cells : List Host.Cell} {c : Host.Cell} :
    c ∈ dropCell off cells ↔ c ∈ cells ∧ c.1 ≠ off := by
  simp [dropCell]

theorem mem_putCell {off : Nat} {v : Byte} {cells : List Host.Cell} {c : Host.Cell} :
    c ∈ putCell off v cells ↔ c = (off, v) ∨ c ∈ cells := by
  induction cells with
  | nil => simp [putCell]
  | cons d rest ih => grind [putCell]

theorem putCell_rises {off : Nat} {v : Byte} {cells : List Host.Cell}
    (h : cells.Pairwise fun c d => c.1 < d.1) (hn : ∀ c ∈ cells, c.1 ≠ off) :
    (putCell off v cells).Pairwise fun c d => c.1 < d.1 := by
  induction cells with
  | nil => simp [putCell]
  | cons d rest ih =>
    have hd := List.pairwise_cons.mp h
    have hne := hn d (by simp)
    unfold putCell
    split
    · refine List.pairwise_cons.mpr ⟨fun e he => ?_, h⟩
      rcases List.mem_cons.mp he with rfl | he
      · assumption
      · exact lt_trans ‹_› (hd.1 e he)
    · refine List.pairwise_cons.mpr ⟨fun e he => ?_, ih hd.2 fun c hc => hn c (by simp [hc])⟩
      rcases mem_putCell.mp he with rfl | he
      · simp only; omega
      · exact hd.1 e he

/-- A write keeps the canonical form. -/
theorem write_wf {b : Buffer} (h : b.wf = true) (off : Nat) (v : Byte) : (b.write off v).wf = true := by
  unfold Buffer.write
  split
  · rename_i hs
    rw [wf_iff] at h ⊢
    have hp : (dropCell off b.cells).Pairwise fun c d => c.1 < d.1 := List.Pairwise.filter _ h.1
    have hm : ∀ c ∈ dropCell off b.cells, c.1 < b.size ∧ c.2 ≠ b.fill.byte c.1 :=
      fun c hc => h.2 c (mem_dropCell.mp hc).1
    split
    · exact ⟨hp, hm⟩
    · rename_i hv
      refine ⟨putCell_rises hp fun c hc => (mem_dropCell.mp hc).2, fun c hc => ?_⟩
      rcases mem_putCell.mp hc with rfl | hc
      · exact ⟨hs, hv⟩
      · exact hm c hc
  · exact h

theorem writeBytes_wf (vs : List Byte) {b : Buffer} (h : b.wf = true) (off : Nat) : (b.writeBytes off vs).wf = true := by
  induction vs generalizing b off with
  | nil => exact h
  | cons v rest ih => exact ih (write_wf h off v) _

@[simp] theorem empty_wf : Buffer.empty.wf = true := rfl

@[simp] theorem zeros_wf (n : Nat) : (Buffer.zeros n).wf = true := rfl

@[simp] theorem forget_wf (b : Buffer) (k : Nat) : (b.forget k).wf = true := rfl

theorem clear_wf {b : Buffer} (h : b.wf = true) (n : Nat) : (b.clear n).wf = true := by
  unfold Buffer.clear
  split
  · rfl
  · exact writeBytes_wf _ h _

/-! ## Bits -/

theorem bitIndex_lt (order : BitOrder) (p : Nat) : bitIndex order p < 8 := by cases order <;> simp [bitIndex] <;> omega

theorem bitIndex_inj (order : BitOrder) {p q : Nat} (h : p / 8 = q / 8) (hb : bitIndex order p = bitIndex order q) :
    p = q := by
  cases order <;> simp [bitIndex] at hb <;> omega

theorem byteWithBit_same (v : Byte) {i : Nat} (h : i < 8) (b : Bool) : (byteWithBit v i b).getLsbD i = b := by
  cases b <;> simp [byteWithBit, h]

theorem byteWithBit_other (v : Byte) {i j : Nat} (h : j ≠ i) (hj : j < 8) (b : Bool) :
    (byteWithBit v i b).getLsbD j = v.getLsbD j := by
  cases b <;> simp [byteWithBit, hj] <;> intros <;> omega

@[simp] theorem setBit_size (b : Buffer) (order : BitOrder) (p : Nat) (v : Bool) :
    (b.setBit order p v).size = b.size := by simp [Buffer.setBit]

theorem setBit_wf {b : Buffer} (h : b.wf = true) (order : BitOrder) (p : Nat) (v : Bool) :
    (b.setBit order p v).wf = true := write_wf h _ _

theorem bit_setBit_same (b : Buffer) (order : BitOrder) {p : Nat} (v : Bool) (h : p < 8 * b.size) :
    (b.setBit order p v).bit order p = v := by
  rw [Buffer.bit, Buffer.setBit, read_write_same _ _ (by omega), byteWithBit_same _ (bitIndex_lt order p)]

theorem bit_setBit_other (b : Buffer) (order : BitOrder) {p q : Nat} (v : Bool) (h : q ≠ p) :
    (b.setBit order p v).bit order q = b.bit order q := by
  unfold Buffer.bit Buffer.setBit
  by_cases hb : q / 8 = p / 8
  · by_cases hs : p / 8 < b.size
    · rw [hb, read_write_same _ _ hs, byteWithBit_other _ _ (bitIndex_lt order q)]
      intro hi; exact h (bitIndex_inj order hb hi)
    · rw [write_outside _ _ (by omega)]
  · rw [read_write_other _ _ hb]

theorem read_setBit_other (b : Buffer) (order : BitOrder) {p off : Nat} (v : Bool) (h : off ≠ p / 8) :
    (b.setBit order p v).read off = b.read off := read_write_other _ _ h

@[simp] theorem setBits_size (bits : List Bool) (b : Buffer) (order : BitOrder) (p : Nat) :
    (b.setBits order p bits).size = b.size := by
  induction bits generalizing b p with
  | nil => rfl
  | cons v rest ih => simp [Buffer.setBits, ih]

theorem setBits_wf (bits : List Bool) {b : Buffer} (h : b.wf = true) (order : BitOrder) (p : Nat) :
    (b.setBits order p bits).wf = true := by
  induction bits generalizing b p with
  | nil => exact h
  | cons v rest ih => exact ih (setBit_wf h order p v) _

/-- Setting bits leaves every other bit alone. -/
theorem bit_setBits_other (bits : List Bool) (b : Buffer) (order : BitOrder) {p q : Nat}
    (h : ¬(p ≤ q ∧ q < p + bits.length)) : (b.setBits order p bits).bit order q = b.bit order q := by
  induction bits generalizing b p with
  | nil => rfl
  | cons v rest ih =>
    simp only [List.length_cons] at h
    rw [Buffer.setBits, ih _ (by omega), bit_setBit_other _ _ _ (by omega)]

/-- A bit that was set. -/
theorem bit_setBits_same (bits : List Bool) (b : Buffer) (order : BitOrder) {p i : Nat} (hi : i < bits.length)
    (h : p + bits.length ≤ 8 * b.size) : (b.setBits order p bits).bit order (p + i) = bits[i] := by
  induction bits generalizing b p i with
  | nil => simp at hi
  | cons v rest ih =>
    simp only [List.length_cons] at h hi
    cases i with
    | zero =>
      simp only [Buffer.setBits, Nat.add_zero, List.getElem_cons_zero]
      rw [bit_setBits_other _ _ _ (by omega), bit_setBit_same _ _ _ (by omega)]
    | succ i =>
      have := ih (b := b.setBit order p v) (p := p + 1) (i := i) (by omega) (by simp; omega)
      rw [Buffer.setBits, show p + (i + 1) = p + 1 + i by omega, this]
      rfl

/-- Setting bits leaves every byte that holds none of them alone. -/
theorem read_setBits_other (bits : List Bool) (b : Buffer) (order : BitOrder) {p off : Nat}
    (h : ¬(p / 8 ≤ off ∧ 8 * off < p + bits.length)) : (b.setBits order p bits).read off = b.read off := by
  induction bits generalizing b p with
  | nil => rfl
  | cons v rest ih =>
    simp only [List.length_cons] at h
    rw [Buffer.setBits, ih _ (by omega), read_setBit_other _ _ _ (by omega)]

theorem setBits_append (xs ys : List Bool) (b : Buffer) (order : BitOrder) (p : Nat) :
    b.setBits order p (xs ++ ys) = (b.setBits order p xs).setBits order (p + xs.length) ys := by
  induction xs generalizing b p with
  | nil => rfl
  | cons x rest ih =>
    simp only [List.cons_append, Buffer.setBits, ih, List.length_cons]
    congr 1; omega

end Sys2Proof.Laws
end

