-- ==== Sys2Proof/Laws/Pixels.lean ====
section
/-! SUPPORT. The laws of pixels: reading after writing, `pack` and `unpack`, preprocessing. -/

namespace Sys2Proof.Laws

open Sys2Proof.Machine

/-! ## Sizes -/

/-- `pixbytes` written out. -/
theorem pixbytes_eq (f : Fmt) (n : Nat) :
    f.pixbytes n = match f with
      | .argb8888 => 4 * n
      | .argb4444 => 2 * n
      | .argb1555 => 2 * n
      | .lut8 => n
      | .lut4 => (n + 1) / 2 := by
  cases f <;> simp only [Fmt.pixbytes, ceilDiv, Fmt.bits] <;> omega

theorem pixelOffset_eq (f : Fmt) (i : Nat) :
    pixelOffset f i = match f with
      | .argb8888 => 4 * i
      | .argb4444 => 2 * i
      | .argb1555 => 2 * i
      | .lut8 => i
      | .lut4 => i / 2 := by
  cases f <;> simp only [pixelOffset, Fmt.bits] <;> omega

theorem pixbytes_mono (f : Fmt) {m n : Nat} (h : m ≤ n) : f.pixbytes m ≤ f.pixbytes n := by
  cases f <;> simp only [pixbytes_eq] <;> omega

theorem bits_le (f : Fmt) : f.bits ≤ 32 := by cases f <;> decide

theorem bits_pos (f : Fmt) : 0 < f.bits := by cases f <;> decide

/-! ## Words and bytes -/

@[simp] theorem lowBytes_length (n v : Nat) : (lowBytes n v).length = n := by
  induction n generalizing v with
  | zero => rfl
  | succ n ih => simp [lowBytes, ih]

@[simp] theorem bytesOfWord_length (order : ByteOrder) (n : Nat) (w : Word) : (bytesOfWord order n w).length = n := by
  cases order <;> simp [bytesOfWord]

/-- A word from its own bytes. -/
theorem wordOfBytes_lowBytes (n v : Nat) :
    (lowBytes n v).foldr (fun b acc => b.toNat + 256 * acc) 0 = v % 256 ^ n := by
  induction n generalizing v with
  | zero => simp [lowBytes, Nat.mod_one]
  | succ n ih =>
    have hm : v % 256 ^ (n + 1) = v % 256 + 256 * (v / 256 % 256 ^ n) := by rw [Nat.pow_succ', Nat.mod_mul]
    simp only [lowBytes, List.foldr_cons, ih, hm]
    rfl

theorem wordOfBytes_bytesOfWord (order : ByteOrder) (n : Nat) (w : Word) :
    wordOfBytes order (bytesOfWord order n w) = BitVec.ofNat 32 (w.toNat % 256 ^ n) := by
  cases order
  · simp only [wordOfBytes, bytesOfWord, wordOfBytes_lowBytes]
  · simp only [wordOfBytes, bytesOfWord, List.foldl_reverse, wordOfBytes_lowBytes]

/-- The bits of a byte made of two nibbles. -/
theorem getLsbD_nibbles (x y : BitVec 4) (i : Nat) :
    (x ++ y : Byte).getLsbD i = if i < 4 then y.getLsbD i else x.getLsbD (i - 4) := BitVec.getLsbD_append

theorem byteWithNibble_same (high : Bool) (v : Byte) (x : BitVec 4) : nibbleOf high (byteWithNibble high v x) = x := by
  cases high <;> ext i hi <;>
    simp [nibbleOf, byteWithNibble, getLsbD_nibbles, hi, ← BitVec.getLsbD_eq_getElem]

theorem byteWithNibble_other {high high' : Bool} (h : high' ≠ high) (v : Byte) (x : BitVec 4) :
    nibbleOf high' (byteWithNibble high v x) = nibbleOf high' v := by
  cases high <;> cases high' <;> first | exact absurd rfl h | skip
  all_goals
    ext i hi
    simp [nibbleOf, byteWithNibble, getLsbD_nibbles, hi]

theorem nibble_parity {order : NibbleOrder} {i j : Nat} (hij : i ≠ j) (h : i / 2 = j / 2) :
    nibbleIsHigh order i ≠ nibbleIsHigh order j := by
  intro he
  cases order <;> simp only [nibbleIsHigh, decide_eq_decide] at he <;> omega

/-! ## Reading a pixel after writing one -/

@[simp] theorem pixWrite_size (cfg : Config) (f : Fmt) (b : Buffer) (i : Nat) (w : Word) :
    (pixWrite cfg f b i w).size = b.size := by cases f <;> simp [pixWrite]

theorem pixWrite_wf (cfg : Config) (f : Fmt) {b : Buffer} (h : b.wf = true) (i : Nat) (w : Word) :
    (pixWrite cfg f b i w).wf = true := by
  cases f <;> first | exact writeBytes_wf _ h _ | exact write_wf h _ _

/-- A pixel written leaves every byte but its own alone. -/
theorem read_pixWrite_other (cfg : Config) (f : Fmt) (b : Buffer) {i off : Nat} (w : Word)
    (h : ¬(pixelOffset f i ≤ off ∧ off < pixelOffset f i + f.pixbytes 1)) :
    (pixWrite cfg f b i w).read off = b.read off := by
  cases f <;> simp only [pixelOffset_eq, pixbytes_eq] at h <;> simp only [pixWrite]
  · exact read_writeBytes_other _ _ (by simpa using h)
  · exact read_writeBytes_other _ _ (by simpa using h)
  · exact read_writeBytes_other _ _ (by simpa using h)
  · exact read_writeBytes_other _ _ (by simpa using h)
  · exact read_write_other _ _ (by omega)

/-- The pixel written, as many bits of it as the format has. -/
theorem pixRead_pixWrite_same (cfg : Config) (f : Fmt) (b : Buffer) {i : Nat} (w : Word) (h : pixInside f b i = true) :
    pixRead cfg f (pixWrite cfg f b i w) i = BitVec.ofNat 32 (w.toNat % 2 ^ f.bits) := by
  simp only [pixInside, decide_eq_true_eq] at h
  have hb : ∀ (n off : Nat), off + n ≤ b.size →
      (b.writeBytes off (bytesOfWord cfg.pixelByteOrder n w)).readBytes off n = bytesOfWord cfg.pixelByteOrder n w := by
    intro n off hn
    have := readBytes_writeBytes (bytesOfWord cfg.pixelByteOrder n w) b (off := off) (by simpa using hn)
    simpa using this
  cases f <;> simp only [pixbytes_eq] at h <;> simp only [pixRead, pixWrite, Fmt.bits]
  · rw [hb 4 _ (by omega), wordOfBytes_bytesOfWord]; rfl
  · rw [hb 2 _ (by omega), wordOfBytes_bytesOfWord]; rfl
  · rw [hb 2 _ (by omega), wordOfBytes_bytesOfWord]; rfl
  · rw [hb 1 _ (by omega), wordOfBytes_bytesOfWord]; rfl
  · rw [Buffer.nibble, read_write_same _ _ (by omega), byteWithNibble_same]
    apply BitVec.eq_of_toNat_eq
    simp only [BitVec.toNat_setWidth, BitVec.extractLsb'_toNat, BitVec.toNat_ofNat, Nat.shiftRight_zero]

/-- A pixel written leaves every other pixel alone. -/
theorem pixRead_pixWrite_other (cfg : Config) (f : Fmt) (b : Buffer) {i j : Nat} (w : Word) (h : j ≠ i) :
    pixRead cfg f (pixWrite cfg f b i w) j = pixRead cfg f b j := by
  have hr : ∀ n off, (∀ k, off ≤ k → k < off + n → ¬(pixelOffset f i ≤ k ∧ k < pixelOffset f i + f.pixbytes 1)) →
      (pixWrite cfg f b i w).readBytes off n = b.readBytes off n :=
    fun n off hk => readBytes_congr fun k h1 h2 => read_pixWrite_other cfg f b w (hk k h1 h2)
  cases f <;> simp only [pixelOffset_eq, pixbytes_eq] at hr
  · simp only [pixRead]; rw [hr 4 _ (by intros; omega)]
  · simp only [pixRead]; rw [hr 2 _ (by intros; omega)]
  · simp only [pixRead]; rw [hr 2 _ (by intros; omega)]
  · simp only [pixRead]; rw [hr 1 _ (by intros; omega)]
  · simp only [pixRead, Buffer.nibble, pixWrite]
    by_cases hb : j / 2 = i / 2
    · rw [hb]
      by_cases hs : i / 2 < b.size
      · rw [read_write_same _ _ hs, byteWithNibble_other (nibble_parity h hb)]
      · rw [write_outside _ _ (by omega)]
    · rw [read_write_other _ _ hb]

@[simp] theorem pixFill_size (cfg : Config) (f : Fmt) (n : Nat) (b : Buffer) (i : Nat) (w : Word) :
    (pixFill cfg f b i w n).size = b.size := by
  induction n generalizing b i with
  | zero => rfl
  | succ n ih => simp [pixFill, ih]

theorem pixFill_wf (cfg : Config) (f : Fmt) (n : Nat) {b : Buffer} (h : b.wf = true) (i : Nat) (w : Word) :
    (pixFill cfg f b i w n).wf = true := by
  induction n generalizing b i with
  | zero => exact h
  | succ n ih => exact ih (pixWrite_wf cfg f h i w) _

theorem pixInside_congr {f : Fmt} {b c : Buffer} (h : b.size = c.size) (i : Nat) : pixInside f b i = pixInside f c i := by
  simp [pixInside, h]

theorem pixInside_mono {f : Fmt} {b : Buffer} {i j : Nat} (h : pixInside f b j = true) (hij : i ≤ j) :
    pixInside f b i = true := by
  simp only [pixInside, decide_eq_true_eq] at *
  exact le_trans (pixbytes_mono f (by omega)) h

/-- Filled pixels leave every other pixel alone. -/
theorem pixRead_pixFill_other (cfg : Config) (f : Fmt) (n : Nat) (b : Buffer) {i j : Nat} (w : Word)
    (h : ¬(i ≤ j ∧ j < i + n)) : pixRead cfg f (pixFill cfg f b i w n) j = pixRead cfg f b j := by
  induction n generalizing b i with
  | zero => rfl
  | succ n ih => rw [pixFill, ih _ (by omega), pixRead_pixWrite_other _ _ _ _ (by omega)]

/-- Each pixel filled. -/
theorem pixRead_pixFill_same (cfg : Config) (f : Fmt) (n : Nat) (b : Buffer) {i j : Nat} (w : Word)
    (h1 : i ≤ j) (h2 : j < i + n) (h : f.pixbytes (i + n) ≤ b.size) :
    pixRead cfg f (pixFill cfg f b i w n) j = BitVec.ofNat 32 (w.toNat % 2 ^ f.bits) := by
  induction n generalizing b i with
  | zero => omega
  | succ n ih =>
    rw [pixFill]
    by_cases hj : j = i
    · subst hj
      rw [pixRead_pixFill_other _ _ _ _ _ (by omega)]
      refine pixRead_pixWrite_same _ _ _ _ ?_
      simp only [pixInside, decide_eq_true_eq]
      exact le_trans (pixbytes_mono f (by omega)) h
    · exact ih _ (by omega) (by omega) (by simpa [Nat.add_assoc, Nat.add_comm 1] using h)

/-- Filled pixels leave every byte that holds none of them alone. -/
theorem read_pixFill_other (cfg : Config) (f : Fmt) (n : Nat) (b : Buffer) {i off : Nat} (w : Word)
    (h : ¬(pixelOffset f i ≤ off ∧ off < f.pixbytes (i + n))) :
    (pixFill cfg f b i w n).read off = b.read off := by
  induction n generalizing b i with
  | zero => rfl
  | succ n ih =>
    rw [pixFill, ih, read_pixWrite_other]
    · cases f <;> simp only [pixelOffset_eq, pixbytes_eq] at h ⊢ <;> omega
    · cases f <;> simp only [pixelOffset_eq, pixbytes_eq] at h ⊢ <;> omega

/-! ## The transcoder (41_pixelformat.md) -/

/-- A word that the format's pixel holds. -/
theorem unpack_lt (cfg : Config) (f : Fmt) (b : Buffer) (i : Nat) : (pixRead cfg f b i).toNat < 2 ^ f.bits := by
  have hw : ∀ (order : ByteOrder) (n : Nat) (bytes : List Byte), bytes.length = n → n ≤ 4 →
      (wordOfBytes order bytes).toNat < 256 ^ n := by
    intro order n bytes hl hn
    have hfold : ∀ bs : List Byte, bs.foldr (fun b acc => b.toNat + 256 * acc) 0 < 256 ^ bs.length := by
      intro bs
      induction bs with
      | nil => simp
      | cons x rest ih =>
        have hx : x.toNat < 256 := x.isLt
        simp only [List.foldr_cons, List.length_cons, Nat.pow_succ]
        omega
    have h4 : (256 : Nat) ^ n ≤ 2 ^ 32 := by
      calc (256 : Nat) ^ n ≤ 256 ^ 4 := Nat.pow_le_pow_right (by decide) hn
        _ = 2 ^ 32 := by norm_num
    cases order
    · have := hfold bytes
      rw [hl] at this
      simp only [wordOfBytes, BitVec.toNat_ofNat]
      exact lt_of_le_of_lt (Nat.mod_le _ _) this
    · have := hfold bytes.reverse
      rw [List.length_reverse, hl, List.foldr_reverse] at this
      simp only [wordOfBytes, BitVec.toNat_ofNat]
      exact lt_of_le_of_lt (Nat.mod_le _ _) this
  cases f
  · exact lt_of_lt_of_eq (hw _ 4 _ (by simp) (by decide)) (by norm_num [Fmt.bits])
  · exact lt_of_lt_of_eq (hw _ 2 _ (by simp) (by decide)) (by norm_num [Fmt.bits])
  · exact lt_of_lt_of_eq (hw _ 2 _ (by simp) (by decide)) (by norm_num [Fmt.bits])
  · exact lt_of_lt_of_eq (hw _ 1 _ (by simp) (by decide)) (by norm_num [Fmt.bits])
  · simp only [pixRead, Buffer.nibble, Fmt.bits, BitVec.toNat_setWidth]
    exact lt_of_le_of_lt (Nat.mod_le _ _) (BitVec.isLt _)

theorem channelOut_channelIn_raw {n : Nat} (hn : n ≤ 8) (v : BitVec n) :
    ChannelScale.raw.channelOut n (ChannelScale.raw.channelIn n v) = v := by
  simp [ChannelScale.channelOut, ChannelScale.channelIn, hn]

theorem channelOut_channelIn (sc : ChannelScale) {n : Nat} (hn : n ≤ 8) (v : BitVec n) :
    sc.channelOut n (sc.channelIn n v) = v := by
  cases sc
  · exact channelOut_channelIn_raw hn v
  · simp only [ChannelScale.channelOut, ChannelScale.channelIn]
    ext i hi
    simp only [BitVec.getElem_setWidth, BitVec.getLsbD_ushiftRight, BitVec.getLsbD_shiftLeft, BitVec.getLsbD_setWidth]
    have h1 : 8 - n + i < 8 := by omega
    have h2 : ¬(8 - n + i < 8 - n) := by omega
    have h3 : 8 - n + i - (8 - n) = i := by omega
    have h4 : i < 8 := by omega
    simp [h1, h3, h4, ← BitVec.getLsbD_eq_getElem]

end Sys2Proof.Laws
end

