-- ==== Sys2Proof/Laws/State.lean ====
section
/-! SUPPORT. The small lemmas of the state: which field each update leaves, and buffers after an update. -/

namespace Sys2Proof.Laws

open Sys2Proof.Machine

/-! ## `State.setBuf` -/

@[simp] theorem setBuf_cfg (s : State) (id : BufId) (b : Buffer) : (s.setBuf id b).cfg = s.cfg := by unfold State.setBuf; split <;> rfl
@[simp] theorem setBuf_bs (s : State) (id : BufId) (b : Buffer) : (s.setBuf id b).bs = s.bs := by unfold State.setBuf; split <;> rfl
@[simp] theorem setBuf_run (s : State) (id : BufId) (b : Buffer) : (s.setBuf id b).run = s.run := by unfold State.setBuf; split <;> rfl
@[simp] theorem setBuf_encI (s : State) (id : BufId) (b : Buffer) : (s.setBuf id b).encI = s.encI := by unfold State.setBuf; split <;> rfl
@[simp] theorem setBuf_dec (s : State) (id : BufId) (b : Buffer) : (s.setBuf id b).dec = s.dec := by unfold State.setBuf; split <;> rfl
@[simp] theorem setBuf_pal (s : State) (id : BufId) (b : Buffer) : (s.setBuf id b).pal = s.pal := by unfold State.setBuf; split <;> rfl
@[simp] theorem setBuf_ctrl (s : State) (id : BufId) (b : Buffer) : (s.setBuf id b).ctrl = s.ctrl := by unfold State.setBuf; split <;> rfl
@[simp] theorem setBuf_res (s : State) (id : BufId) (b : Buffer) : (s.setBuf id b).res = s.res := by unfold State.setBuf; split <;> rfl
@[simp] theorem setBuf_job (s : State) (id : BufId) (b : Buffer) : (s.setBuf id b).job = s.job := by unfold State.setBuf; split <;> rfl
@[simp] theorem setBuf_objs (s : State) (id : BufId) (b : Buffer) : (s.setBuf id b).objs = s.objs := by unfold State.setBuf; split <;> rfl
@[simp] theorem setBuf_phase (s : State) (id : BufId) (b : Buffer) : (s.setBuf id b).phase = s.phase := by unfold State.setBuf; split <;> rfl
@[simp] theorem setBuf_pending (s : State) (id : BufId) (b : Buffer) : (s.setBuf id b).pending = s.pending := by unfold State.setBuf; split <;> rfl
@[simp] theorem setBuf_ret (s : State) (id : BufId) (b : Buffer) : (s.setBuf id b).ret = s.ret := by unfold State.setBuf; split <;> rfl
@[simp] theorem setBuf_free (s : State) (id : BufId) (b : Buffer) : (s.setBuf id b).free = s.free := by unfold State.setBuf; split <;> rfl

/-! ## Buffers of the state -/

@[simp] theorem buf_canvas (s : State) : s.buf (.host .canvas) = s.canvas := rfl
@[simp] theorem buf_out (s : State) : s.buf (.host .out) = s.out := rfl
@[simp] theorem buf_inp (s : State) : s.buf (.host .inp) = s.inp := rfl
@[simp] theorem buf_dst (s : State) : s.buf (.host .dst) = s.dst := rfl
@[simp] theorem buf_scratch (s : State) : s.buf .scratch = s.scratch := rfl
@[simp] theorem buf_lc (s : State) : s.buf .lc = s.lc := rfl

/-- The buffers of a state depend on its memories only. -/
theorem buf_congr {s t : State} (h : t = t.withMem s) (id : BufId) : t.buf id = s.buf id := by rw [h]; rfl

theorem withMem_self (s : State) : s.withMem s = s := rfl

/-- A buffer replaced, read back. -/
theorem buf_setBuf_same (s : State) {id : BufId} (b : Buffer) (h : s.given id) : (s.setBuf id b).buf id = b := by
  cases id with
  | host n =>
    cases n with
    | bmp j => simp [State.buf, State.setBuf, h j rfl]
    | canvas => rfl
    | out => rfl
    | inp => rfl
    | dst => rfl
  | scratch => rfl
  | lc => rfl

/-- A buffer replaced leaves every other buffer. -/
theorem buf_setBuf_other (s : State) {id id' : BufId} (b : Buffer) (h : id' ≠ id) :
    (s.setBuf id b).buf id' = s.buf id' := by
  rcases id with (_ | _ | _ | _ | j) | _ | _ <;> rcases id' with (_ | _ | _ | _ | k) | _ | _ <;>
    first
      | rfl
      | exact absurd rfl h
      | (have hk : j ≠ k := fun e => h (by rw [e])
         simp [State.buf, State.setBuf, List.getD, List.getElem?_set_ne hk])

/-- A buffer name that stands for no buffer stands for an empty one. -/
theorem buf_not_given (s : State) {id : BufId} (h : ¬s.given id) : s.buf id = Buffer.empty := by
  simp only [State.given, not_forall, not_lt] at h
  obtain ⟨j, rfl, hj⟩ := h
  simp [State.buf, List.getD, List.getElem?_eq_none hj]

theorem setBuf_not_given (s : State) {id : BufId} (b : Buffer) (h : ¬s.given id) : s.setBuf id b = s := by
  simp only [State.given, not_forall, not_lt] at h
  obtain ⟨j, rfl, hj⟩ := h
  simp [State.setBuf, List.set_eq_of_length_le hj]

/-- A buffer that has a byte is given. -/
theorem given_of_size {s : State} {id : BufId} (h : 0 < (s.buf id).size) : s.given id := by
  by_contra hn
  rw [buf_not_given s hn] at h
  exact absurd h (by decide)

/-- A buffer replaced by itself. -/
theorem setBuf_buf (s : State) (id : BufId) : s.setBuf id (s.buf id) = s := by
  rcases id with (_ | _ | _ | _ | j) | _ | _ <;> try rfl
  by_cases h : j < s.bmps.length
  · simp [State.setBuf, State.buf, List.getD, List.getElem?_eq_getElem h]
  · simp [State.setBuf, List.set_eq_of_length_le (Nat.le_of_not_lt h)]

/-- A buffer replaced twice. -/
theorem setBuf_setBuf (s : State) (id : BufId) (b c : Buffer) : (s.setBuf id b).setBuf id c = s.setBuf id c := by
  rcases id with (_ | _ | _ | _ | j) | _ | _ <;> try rfl
  simp [State.setBuf, List.set_set]

open Classical in
/-- The buffer of a name after a replacement. -/
theorem buf_setBuf (s : State) (id id' : BufId) (b : Buffer) :
    (s.setBuf id b).buf id' = if id' = id ∧ s.given id then b else s.buf id' := by
  by_cases h : id' = id
  · subst h
    by_cases hg : s.given id'
    · rw [buf_setBuf_same s b hg, if_pos ⟨rfl, hg⟩]
    · rw [setBuf_not_given s b hg, if_neg fun hh => hg hh.2]
  · rw [buf_setBuf_other s b h, if_neg fun hh => h hh.1]

theorem size_setBuf (s : State) {id : BufId} {b : Buffer} (hb : b.size = (s.buf id).size) (id' : BufId) :
    ((s.setBuf id b).buf id').size = (s.buf id').size := by
  rw [buf_setBuf]
  split
  · rename_i h; rw [h.1, hb]
  · rfl

/-- A replacement changes nothing but memories. -/
theorem setBuf_withMem (s : State) (id : BufId) (b : Buffer) : (s.setBuf id b).withMem s = s := by
  unfold State.setBuf; split <;> rfl

/-- A replacement by a buffer of the same size that reads the same outside some bytes is a frame. -/
theorem keepsBytes_setBuf (s : State) {id : BufId} {b : Buffer} {stored : BufId → Nat → Prop}
    (hs : b.size = (s.buf id).size) (hb : ∀ off, ¬stored id off → b.read off = (s.buf id).read off) :
    s.keepsBytes (s.setBuf id b) stored := by
  refine ⟨size_setBuf s hs, fun id' off ho => ?_⟩
  unfold State.byteAt
  rw [buf_setBuf]
  split
  · rename_i h; obtain ⟨rfl, _⟩ := h; exact hb off ho
  · rfl

/-- The canonical form of all memories, one buffer at a time. -/
theorem memWf_iff (s : State) : s.memWf ↔ ∀ id, (s.buf id).wf = true := by
  constructor
  · rintro ⟨h1, h2, h3, h4, h5, h6, h7⟩ id
    rcases id with (_ | _ | _ | _ | j) | _ | _
    · exact h1
    · exact h2
    · exact h3
    · exact h4
    · simp only [State.buf, List.getD]
      cases hj : s.bmps[j]? with
      | none => rfl
      | some b => exact h7 b (List.mem_of_getElem? hj)
    · exact h5
    · exact h6
  · intro h
    refine ⟨h (.host .canvas), h (.host .out), h (.host .inp), h (.host .dst), h .scratch, h .lc, fun b hb => ?_⟩
    obtain ⟨j, hj, rfl⟩ := List.getElem_of_mem hb
    have := h (.host (.bmp j))
    simpa [State.buf, List.getD, List.getElem?_eq_getElem hj] using this

theorem memWf_setBuf {s : State} (h : s.memWf) {id : BufId} {b : Buffer} (hb : b.wf = true) : (s.setBuf id b).memWf := by
  rw [memWf_iff] at h ⊢
  intro id'
  rw [buf_setBuf]
  split
  · exact hb
  · exact h id'

theorem memWf_congr {s t : State} (h : t = t.withMem s) (hs : s.memWf) : t.memWf := by rw [h]; exact hs

/-! ## The result registers -/

@[simp] theorem resRegs_status (st : Status) (c : Cause) (n b : Nat) : (resRegs st c n b).status = st := rfl
@[simp] theorem resRegs_cause (st : Status) (c : Cause) (n b : Nat) : (resRegs st c n b).cause = c := rfl
@[simp] theorem resRegs_size (st : Status) (c : Cause) (n b : Nat) : (resRegs st c n b).size = sizeReg n := rfl
@[simp] theorem resRegs_bits (st : Status) (c : Cause) (n b : Nat) : (resRegs st c n b).bits = bitsReg b := rfl

theorem toNat_ofNat_holds {w n : Nat} : regHolds (BitVec.ofNat w n) n := fun h => by
  rw [BitVec.toNat_ofNat, Nat.mod_eq_of_lt h]

theorem sizeReg_held (n : Nat) : regHolds (sizeReg n) n := fun h => by
  rw [sizeReg, if_pos h]; exact toNat_ofNat_holds h

theorem bitsReg_held (n : Nat) : regHolds (bitsReg n) n := fun h => by
  rw [bitsReg, if_pos h]; exact toNat_ofNat_holds h

/-- What the result registers of an outcome report. -/
theorem resRegs_reports (st : Status) (c : Cause) (n b : Nat) : (resRegs st c n b).reports st c n b :=
  ⟨rfl, rfl, sizeReg_held n, bitsReg_held b⟩

/-! ## Reads of the stream -/

@[simp] theorem bsAdvance_cfg (n : Nat) (s : State) : (bsAdvance n s).cfg = s.cfg := by unfold bsAdvance; split <;> rfl
@[simp] theorem bsAdvance_run (n : Nat) (s : State) : (bsAdvance n s).run = s.run := by unfold bsAdvance; split <;> rfl
@[simp] theorem bsAdvance_encI (n : Nat) (s : State) : (bsAdvance n s).encI = s.encI := by unfold bsAdvance; split <;> rfl
@[simp] theorem bsAdvance_dec (n : Nat) (s : State) : (bsAdvance n s).dec = s.dec := by unfold bsAdvance; split <;> rfl
@[simp] theorem bsAdvance_pal (n : Nat) (s : State) : (bsAdvance n s).pal = s.pal := by unfold bsAdvance; split <;> rfl
@[simp] theorem bsAdvance_ctrl (n : Nat) (s : State) : (bsAdvance n s).ctrl = s.ctrl := by unfold bsAdvance; split <;> rfl
@[simp] theorem bsAdvance_res (n : Nat) (s : State) : (bsAdvance n s).res = s.res := by unfold bsAdvance; split <;> rfl
@[simp] theorem bsAdvance_job (n : Nat) (s : State) : (bsAdvance n s).job = s.job := by unfold bsAdvance; split <;> rfl
@[simp] theorem bsAdvance_objs (n : Nat) (s : State) : (bsAdvance n s).objs = s.objs := by unfold bsAdvance; split <;> rfl
@[simp] theorem bsAdvance_phase (n : Nat) (s : State) : (bsAdvance n s).phase = s.phase := by unfold bsAdvance; split <;> rfl
@[simp] theorem bsAdvance_pending (n : Nat) (s : State) : (bsAdvance n s).pending = s.pending := by unfold bsAdvance; split <;> rfl
@[simp] theorem bsAdvance_ret (n : Nat) (s : State) : (bsAdvance n s).ret = s.ret := by unfold bsAdvance; split <;> rfl

@[simp] theorem bsAdvance_buf (n : Nat) (s : State) (id : BufId) : (bsAdvance n s).buf id = s.buf id := by
  unfold bsAdvance; split <;> rfl

/-- Everything a read leaves. -/
theorem bsAdvance_eq (n : Nat) (s : State) :
    bsAdvance n s = { s with bs := (bsAdvance n s).bs, free := (bsAdvance n s).free } := by
  unfold bsAdvance; split <;> rfl

theorem bsAdvance_bs {n : Nat} (h : 0 < n) (s : State) :
    (bsAdvance n s).bs = { s.bs with
      pos := min (s.bs.pos + n) s.bs.cap
      status := statusAfter s.bs.cap s.bs.pos n s.bs.status } := by
  simp [bsAdvance, Nat.ne_of_gt h]

/-- A read that stays inside the stream. -/
theorem bsAdvance_inside {n : Nat} {s : State} (h : s.bs.pos + n ≤ s.bs.cap) :
    bsAdvance n s = { s with bs := { s.bs with pos := s.bs.pos + n } } := by
  unfold bsAdvance
  split
  · rename_i h0; subst h0; rfl
  · simp [statusAfter, Nat.min_eq_left h, Nat.not_lt.mpr h]

/-- A read that passes the end. -/
theorem bsAdvance_past {n : Nat} {s : State} (h0 : 0 < n) (h : s.bs.cap < s.bs.pos + n) :
    bsAdvance n s =
      { s with bs := { s.bs with pos := s.bs.cap, status := .overflow }, free := s.free + 1 } := by
  unfold bsAdvance
  simp [Nat.ne_of_gt h0, statusAfter, h, Nat.min_eq_right (Nat.le_of_lt h)]

/-- A skip that stays inside the stream. -/
theorem bsSkip_inside {n : Nat} {s : State} (h : s.bs.pos + n ≤ s.bs.cap) :
    bsSkip n s = { s with bs := { s.bs with pos := s.bs.pos + n } } := by
  simp [bsSkip, Nat.min_eq_left h]

/-! ## Writes of the stream -/

@[simp] theorem bsWrite_cfg (v n : Nat) (s : State) : (bsWrite v n s).cfg = s.cfg := by unfold bsWrite; split; rfl; split <;> simp
@[simp] theorem bsWrite_run (v n : Nat) (s : State) : (bsWrite v n s).run = s.run := by unfold bsWrite; split; rfl; split <;> simp
@[simp] theorem bsWrite_encI (v n : Nat) (s : State) : (bsWrite v n s).encI = s.encI := by unfold bsWrite; split; rfl; split <;> simp
@[simp] theorem bsWrite_dec (v n : Nat) (s : State) : (bsWrite v n s).dec = s.dec := by unfold bsWrite; split; rfl; split <;> simp
@[simp] theorem bsWrite_pal (v n : Nat) (s : State) : (bsWrite v n s).pal = s.pal := by unfold bsWrite; split; rfl; split <;> simp
@[simp] theorem bsWrite_ctrl (v n : Nat) (s : State) : (bsWrite v n s).ctrl = s.ctrl := by unfold bsWrite; split; rfl; split <;> simp
@[simp] theorem bsWrite_res (v n : Nat) (s : State) : (bsWrite v n s).res = s.res := by unfold bsWrite; split; rfl; split <;> simp
@[simp] theorem bsWrite_job (v n : Nat) (s : State) : (bsWrite v n s).job = s.job := by unfold bsWrite; split; rfl; split <;> simp
@[simp] theorem bsWrite_objs (v n : Nat) (s : State) : (bsWrite v n s).objs = s.objs := by unfold bsWrite; split; rfl; split <;> simp
@[simp] theorem bsWrite_phase (v n : Nat) (s : State) : (bsWrite v n s).phase = s.phase := by unfold bsWrite; split; rfl; split <;> simp
@[simp] theorem bsWrite_pending (v n : Nat) (s : State) : (bsWrite v n s).pending = s.pending := by unfold bsWrite; split; rfl; split <;> simp
@[simp] theorem bsWrite_ret (v n : Nat) (s : State) : (bsWrite v n s).ret = s.ret := by unfold bsWrite; split; rfl; split <;> simp

@[simp] theorem bsWriteFields_cfg (fs : List Field) (s : State) : (bsWriteFields fs s).cfg = s.cfg := by induction fs generalizing s with | nil => rfl | cons f rest ih => simp [bsWriteFields, ih]
@[simp] theorem bsWriteFields_run (fs : List Field) (s : State) : (bsWriteFields fs s).run = s.run := by induction fs generalizing s with | nil => rfl | cons f rest ih => simp [bsWriteFields, ih]
@[simp] theorem bsWriteFields_encI (fs : List Field) (s : State) : (bsWriteFields fs s).encI = s.encI := by induction fs generalizing s with | nil => rfl | cons f rest ih => simp [bsWriteFields, ih]
@[simp] theorem bsWriteFields_dec (fs : List Field) (s : State) : (bsWriteFields fs s).dec = s.dec := by induction fs generalizing s with | nil => rfl | cons f rest ih => simp [bsWriteFields, ih]
@[simp] theorem bsWriteFields_pal (fs : List Field) (s : State) : (bsWriteFields fs s).pal = s.pal := by induction fs generalizing s with | nil => rfl | cons f rest ih => simp [bsWriteFields, ih]
@[simp] theorem bsWriteFields_ctrl (fs : List Field) (s : State) : (bsWriteFields fs s).ctrl = s.ctrl := by induction fs generalizing s with | nil => rfl | cons f rest ih => simp [bsWriteFields, ih]
@[simp] theorem bsWriteFields_res (fs : List Field) (s : State) : (bsWriteFields fs s).res = s.res := by induction fs generalizing s with | nil => rfl | cons f rest ih => simp [bsWriteFields, ih]
@[simp] theorem bsWriteFields_job (fs : List Field) (s : State) : (bsWriteFields fs s).job = s.job := by induction fs generalizing s with | nil => rfl | cons f rest ih => simp [bsWriteFields, ih]
@[simp] theorem bsWriteFields_objs (fs : List Field) (s : State) : (bsWriteFields fs s).objs = s.objs := by induction fs generalizing s with | nil => rfl | cons f rest ih => simp [bsWriteFields, ih]
@[simp] theorem bsWriteFields_phase (fs : List Field) (s : State) : (bsWriteFields fs s).phase = s.phase := by induction fs generalizing s with | nil => rfl | cons f rest ih => simp [bsWriteFields, ih]
@[simp] theorem bsWriteFields_pending (fs : List Field) (s : State) : (bsWriteFields fs s).pending = s.pending := by induction fs generalizing s with | nil => rfl | cons f rest ih => simp [bsWriteFields, ih]
@[simp] theorem bsWriteFields_ret (fs : List Field) (s : State) : (bsWriteFields fs s).ret = s.ret := by induction fs generalizing s with | nil => rfl | cons f rest ih => simp [bsWriteFields, ih]

theorem bsWrite_zero (v : Nat) (s : State) : bsWrite v 0 s = s := rfl

/-- A write that fits. -/
theorem bsWrite_fits {v n : Nat} {s : State} (h : s.bs.pos + n ≤ s.bs.cap) :
    bsWrite v n s =
      { s.setBuf s.bs.buf ((s.buf s.bs.buf).setBits s.cfg.bitOrder s.bs.pos (fieldBits s.cfg.bitOrder v n)) with
        bs := { s.bs with pos := s.bs.pos + n } } := by
  by_cases h0 : n = 0
  · subst h0
    have : fieldBits s.cfg.bitOrder v 0 = [] := List.length_eq_zero_iff.mp (fieldBits_length _ _ _)
    rw [this, Buffer.setBits, setBuf_buf]
    rfl
  · simp [bsWrite, h0, h]

/-- A write that passes the capacity. -/
theorem bsWrite_past {v n : Nat} {s : State} (h0 : 0 < n) (h : s.bs.cap < s.bs.pos + n) :
    bsWrite v n s =
      { s.setBuf s.bs.buf ((s.buf s.bs.buf).forget s.free) with
        bs := { s.bs with pos := s.bs.pos + n, status := .overflow }
        free := s.free + 1 } := by
  simp [bsWrite, Nat.ne_of_gt h0, Nat.not_le.mpr h, statusAfter, h]

/-- The stream registers after a write, whether it fits or not. -/
theorem bsWrite_bs (v n : Nat) (s : State) :
    (bsWrite v n s).bs = { s.bs with
      pos := s.bs.pos + n
      status := if n = 0 then s.bs.status else statusAfter s.bs.cap s.bs.pos n s.bs.status } := by
  unfold bsWrite
  split
  · rename_i h; subst h; rfl
  · rename_i h
    split
    · rename_i hf; simp [statusAfter, Nat.not_lt.mpr hf]
    · simp

theorem bsWrite_size (v n : Nat) (s : State) (id : BufId) : ((bsWrite v n s).buf id).size = (s.buf id).size := by
  unfold bsWrite
  split
  · rfl
  · split
    · exact size_setBuf s (by simp) id
    · exact size_setBuf s (by simp) id

theorem bsWrite_memWf (v n : Nat) {s : State} (h : s.memWf) : (bsWrite v n s).memWf := by
  unfold bsWrite
  split
  · exact h
  · split
    · exact memWf_setBuf h (setBits_wf _ ((memWf_iff s).mp h _) _ _)
    · exact memWf_setBuf h (forget_wf _ _)

/-- A write leaves every other buffer alone, and nothing but memory, `BS` and the counter changes. -/
theorem bsWrite_buf_other (v n : Nat) (s : State) {id : BufId} (h : id ≠ s.bs.buf) :
    (bsWrite v n s).buf id = s.buf id := by
  unfold bsWrite
  split
  · rfl
  · split
    · exact buf_setBuf_other s _ h
    · exact buf_setBuf_other s _ h

theorem bsWriteFields_append (fs gs : List Field) (s : State) :
    bsWriteFields (fs ++ gs) s = bsWriteFields gs (bsWriteFields fs s) := by
  induction fs generalizing s with
  | nil => rfl
  | cons f rest ih => simp [bsWriteFields, ih]

theorem bsWriteFields_size (fs : List Field) (s : State) (id : BufId) :
    ((bsWriteFields fs s).buf id).size = (s.buf id).size := by
  induction fs generalizing s with
  | nil => rfl
  | cons f rest ih => rw [bsWriteFields, ih, bsWrite_size]

theorem bsWriteFields_memWf (fs : List Field) {s : State} (h : s.memWf) : (bsWriteFields fs s).memWf := by
  induction fs generalizing s with
  | nil => exact h
  | cons f rest ih => exact ih (bsWrite_memWf _ _ h)

theorem bsWriteFields_pos (fs : List Field) (s : State) :
    (bsWriteFields fs s).bs.pos = s.bs.pos + fieldsWidth fs := by
  induction fs generalizing s with
  | nil => rfl
  | cons f rest ih => rw [bsWriteFields, ih, bsWrite_bs, fieldsWidth, Nat.add_assoc]

@[simp] theorem bsWriteFields_bsbuf (fs : List Field) (s : State) : (bsWriteFields fs s).bs.buf = s.bs.buf := by
  induction fs generalizing s with
  | nil => rfl
  | cons f rest ih => rw [bsWriteFields, ih, bsWrite_bs]

@[simp] theorem bsWriteFields_cap (fs : List Field) (s : State) : (bsWriteFields fs s).bs.cap = s.bs.cap := by
  induction fs generalizing s with
  | nil => rfl
  | cons f rest ih => rw [bsWriteFields, ih, bsWrite_bs]

@[simp] theorem bsWriteFields_ro (fs : List Field) (s : State) : (bsWriteFields fs s).bs.ro = s.bs.ro := by
  induction fs generalizing s with
  | nil => rfl
  | cons f rest ih => rw [bsWriteFields, ih, bsWrite_bs]

theorem bsWriteFields_buf_other (fs : List Field) (s : State) {id : BufId} (h : id ≠ s.bs.buf) :
    (bsWriteFields fs s).buf id = s.buf id := by
  induction fs generalizing s with
  | nil => rfl
  | cons f rest ih =>
    rw [bsWriteFields, ih _ (by rw [bsWrite_bs]; exact h), bsWrite_buf_other _ _ _ h]

/-! ## `BS.INIT` -/

@[simp] theorem bsInit_cfg (id : BufId) (size : Nat) (ro : Bool) (s : State) : (bsInit id size ro s).cfg = s.cfg := by unfold bsInit; split; rfl; split <;> simp
@[simp] theorem bsInit_run (id : BufId) (size : Nat) (ro : Bool) (s : State) : (bsInit id size ro s).run = s.run := by unfold bsInit; split; rfl; split <;> simp
@[simp] theorem bsInit_encI (id : BufId) (size : Nat) (ro : Bool) (s : State) : (bsInit id size ro s).encI = s.encI := by unfold bsInit; split; rfl; split <;> simp
@[simp] theorem bsInit_dec (id : BufId) (size : Nat) (ro : Bool) (s : State) : (bsInit id size ro s).dec = s.dec := by unfold bsInit; split; rfl; split <;> simp
@[simp] theorem bsInit_pal (id : BufId) (size : Nat) (ro : Bool) (s : State) : (bsInit id size ro s).pal = s.pal := by unfold bsInit; split; rfl; split <;> simp
@[simp] theorem bsInit_ctrl (id : BufId) (size : Nat) (ro : Bool) (s : State) : (bsInit id size ro s).ctrl = s.ctrl := by unfold bsInit; split; rfl; split <;> simp
@[simp] theorem bsInit_res (id : BufId) (size : Nat) (ro : Bool) (s : State) : (bsInit id size ro s).res = s.res := by unfold bsInit; split; rfl; split <;> simp
@[simp] theorem bsInit_job (id : BufId) (size : Nat) (ro : Bool) (s : State) : (bsInit id size ro s).job = s.job := by unfold bsInit; split; rfl; split <;> simp
@[simp] theorem bsInit_objs (id : BufId) (size : Nat) (ro : Bool) (s : State) : (bsInit id size ro s).objs = s.objs := by unfold bsInit; split; rfl; split <;> simp
@[simp] theorem bsInit_phase (id : BufId) (size : Nat) (ro : Bool) (s : State) : (bsInit id size ro s).phase = s.phase := by unfold bsInit; split; rfl; split <;> simp
@[simp] theorem bsInit_pending (id : BufId) (size : Nat) (ro : Bool) (s : State) : (bsInit id size ro s).pending = s.pending := by unfold bsInit; split; rfl; split <;> simp
@[simp] theorem bsInit_ret (id : BufId) (size : Nat) (ro : Bool) (s : State) : (bsInit id size ro s).ret = s.ret := by unfold bsInit; split; rfl; split <;> simp
@[simp] theorem bsInit_free (id : BufId) (size : Nat) (ro : Bool) (s : State) : (bsInit id size ro s).free = s.free := by unfold bsInit; split; rfl; split <;> simp

theorem bsInit_bs (id : BufId) (size : Nat) (ro : Bool) (s : State) :
    (bsInit id size ro s).bs = { buf := id, cap := size * 8, ro := ro, pos := 0, status := .ok } := by
  unfold bsInit; simp

theorem bsInit_readOnly (id : BufId) (size : Nat) (s : State) :
    bsInit id size true s = { s with bs := { buf := id, cap := size * 8, ro := true, pos := 0, status := .ok } } := rfl

theorem bsInit_buf_other (id : BufId) (size : Nat) (ro : Bool) (s : State) {id' : BufId} (h : id' ≠ id) :
    (bsInit id size ro s).buf id' = s.buf id' := by
  unfold bsInit
  cases ro
  · cases id <;> exact buf_setBuf_other s _ h
  · rfl

theorem bsInit_memWf (id : BufId) (size : Nat) (ro : Bool) {s : State} (h : s.memWf) : (bsInit id size ro s).memWf := by
  unfold bsInit
  cases ro
  · cases id with
    | host n => exact memWf_setBuf (id := .host n) h (clear_wf ((memWf_iff s).mp h _) size)
    | scratch => exact memWf_setBuf (id := .scratch) h (zeros_wf size)
    | lc => exact memWf_setBuf (id := .lc) h (zeros_wf size)
  · exact h

end Sys2Proof.Laws
end

