-- ==== Sys2Proof/Laws/Stream.lean ====
section
/-! SUPPORT. The laws of the bit stream: what reads return, what writes leave, the invariant of its registers. -/

namespace Sys2Proof.Laws

open Sys2Proof.Machine

/-! ## Bits read -/

@[simp] theorem streamBits_length (s : State) (p n : Nat) : (s.streamBits p n).length = n := by
  induction n generalizing p with
  | zero => rfl
  | succ n ih => simp [State.streamBits, ih]

theorem streamBits_getElem (s : State) {p n i : Nat} (h : i < (s.streamBits p n).length) :
    (s.streamBits p n)[i] = s.streamBit (p + i) := by
  induction n generalizing p i with
  | zero => simp at h
  | succ n ih =>
    cases i with
    | zero => rfl
    | succ i =>
      simp only [streamBits_length] at h
      simp only [State.streamBits, List.getElem_cons_succ]
      rw [ih]
      congr 1; omega

theorem streamBits_add (s : State) (p m n : Nat) :
    s.streamBits p (m + n) = s.streamBits p m ++ s.streamBits (p + m) n := by
  apply List.ext_getElem (by simp)
  intro i h1 h2
  rw [streamBits_getElem]
  by_cases h : i < m
  · rw [List.getElem_append_left (by simpa using h), streamBits_getElem]
  · rw [List.getElem_append_right (by simp; omega), streamBits_getElem]
    congr 1; simp; omega

/-- Two states that agree on the stream read the same bits inside it. -/
theorem streamBits_congr {s t : State} (hc : t.cfg = s.cfg) (hb : t.buf t.bs.buf = s.buf s.bs.buf)
    (hcap : t.bs.cap = s.bs.cap) {p n : Nat} (h : p + n ≤ s.bs.cap) : t.streamBits p n = s.streamBits p n := by
  apply List.ext_getElem (by simp)
  intro i h1 h2
  simp only [streamBits_length] at h1
  rw [streamBits_getElem, streamBits_getElem]
  simp only [State.streamBit, hcap, hc, hb]
  rw [if_pos (by omega), if_pos (by omega)]

/-- Bits inside the capacity are the buffer's. -/
theorem streamBit_inside {s : State} {p : Nat} (h : p < s.bs.cap) :
    s.streamBit p = (s.buf s.bs.buf).bit s.cfg.bitOrder p := if_pos h

theorem readValue_lt (s : State) (n : Nat) : s.readValue n < 2 ^ n := by
  have := fieldValue_lt s.cfg.bitOrder (s.streamBits s.bs.pos n)
  rwa [streamBits_length] at this

/-! ## Bits of a buffer in a row -/

@[simp] theorem bitList_length (b : Buffer) (order : BitOrder) (p n : Nat) : (b.bitList order p n).length = n := by
  induction n generalizing p with
  | zero => rfl
  | succ n ih => simp [Buffer.bitList, ih]

theorem bitList_getElem (b : Buffer) (order : BitOrder) {p n i : Nat} (h : i < (b.bitList order p n).length) :
    (b.bitList order p n)[i] = b.bit order (p + i) := by
  induction n generalizing p i with
  | zero => simp at h
  | succ n ih =>
    cases i with
    | zero => rfl
    | succ i =>
      simp only [bitList_length] at h
      simp only [Buffer.bitList, List.getElem_cons_succ]
      rw [ih]
      congr 1; omega

theorem bitList_add (b : Buffer) (order : BitOrder) (p m n : Nat) :
    b.bitList order p (m + n) = b.bitList order p m ++ b.bitList order (p + m) n := by
  apply List.ext_getElem (by simp)
  intro i h1 h2
  rw [bitList_getElem]
  by_cases h : i < m
  · rw [List.getElem_append_left (by simpa using h), bitList_getElem]
  · rw [List.getElem_append_right (by simp; omega), bitList_getElem]
    congr 1; simp; omega

theorem bitList_congr {b c : Buffer} {order : BitOrder} {p q n : Nat}
    (h : ∀ i, i < n → b.bit order (p + i) = c.bit order (q + i)) : b.bitList order p n = c.bitList order q n := by
  apply List.ext_getElem (by simp)
  intro i h1 h2
  simp only [bitList_length] at h1
  rw [bitList_getElem, bitList_getElem, h i h1]

/-- Bits that were set, read in a row. -/
theorem bitList_setBits (bits : List Bool) (b : Buffer) (order : BitOrder) {p : Nat}
    (h : p + bits.length ≤ 8 * b.size) : (b.setBits order p bits).bitList order p bits.length = bits := by
  apply List.ext_getElem (by simp)
  intro i h1 h2
  rw [bitList_getElem, bit_setBits_same _ _ _ h2 h]

/-- Inside the capacity a read sees the bits of the buffer. -/
theorem streamBits_inside {s : State} {p n : Nat} (h : p + n ≤ s.bs.cap) :
    s.streamBits p n = (s.buf s.bs.buf).bitList s.cfg.bitOrder p n := by
  apply List.ext_getElem (by simp)
  intro i h1 h2
  simp only [streamBits_length] at h1
  rw [streamBits_getElem, bitList_getElem, streamBit_inside (by omega)]

/-- Bytes that agree give bits that agree. -/
theorem bit_congr {b c : Buffer} {p : Nat} (h : b.read (p / 8) = c.read (p / 8)) (order : BitOrder) :
    b.bit order p = c.bit order p := by
  unfold Buffer.bit; rw [h]

/-! ## Fields written -/

/-- Fields that fit are written as one string of bits at the cursor. -/
theorem bsWriteFields_fits {fs : List Field} {s : State} (h : s.bs.pos + fieldsWidth fs ≤ s.bs.cap)
    (hb : s.bsBound = true) :
    bsWriteFields fs s =
      { s.setBuf s.bs.buf ((s.buf s.bs.buf).setBits s.cfg.bitOrder s.bs.pos (fieldsBits s.cfg.bitOrder fs)) with
        bs := { s.bs with pos := s.bs.pos + fieldsWidth fs } } := by
  induction fs generalizing s with
  | nil => simp only [fieldsBits, Buffer.setBits, setBuf_buf, fieldsWidth]; rfl
  | cons f rest ih =>
    obtain ⟨v, n⟩ := f
    simp only [fieldsWidth] at h
    have h1 := bsWrite_fits (v := v) (n := n) (s := s) (by omega)
    have hs : (bsWrite v n s).bsBound = true := by
      simp only [State.bsBound, bsWrite_bs, bsWrite_size]; exact hb
    rw [bsWriteFields, ih (by rw [bsWrite_bs]; simp only; omega) hs]
    simp only [bsWrite_bs, bsWrite_cfg]
    rw [h1]
    by_cases hg : s.given s.bs.buf
    · have hbuf : ∀ bs, ({ s.setBuf s.bs.buf ((s.buf s.bs.buf).setBits s.cfg.bitOrder s.bs.pos
          (fieldBits s.cfg.bitOrder v n)) with bs := bs } : State).buf s.bs.buf =
          (s.buf s.bs.buf).setBits s.cfg.bitOrder s.bs.pos (fieldBits s.cfg.bitOrder v n) :=
        fun bs => buf_setBuf_same s _ hg
      rw [hbuf]
      simp only [fieldsBits, setBits_append, fieldBits_length, fieldsWidth]
      have hset : ∀ (b c : Buffer) bs,
          ({ s.setBuf s.bs.buf b with bs := bs } : State).setBuf s.bs.buf c =
            { s.setBuf s.bs.buf c with bs := bs } := by
        intro b c bs
        have := setBuf_setBuf s s.bs.buf b c
        rcases hid : s.bs.buf with (_ | _ | _ | _ | j) | _ | _ <;> rw [hid] at this <;> try rfl
        simp [State.setBuf, List.set_set]
      rw [hset]
      have hst : (if n = 0 then s.bs.status else statusAfter s.bs.cap s.bs.pos n s.bs.status) = s.bs.status := by
        split
        · rfl
        · rw [statusAfter, if_neg (by omega)]
      simp only [hst, Nat.add_assoc]
    · have hset : ∀ (c : Buffer) bs, ({ s with bs := bs } : State).setBuf s.bs.buf c = { s with bs := bs } :=
        fun c bs => setBuf_not_given _ c hg
      simp only [setBuf_not_given s _ hg, hset, fieldsWidth]
      have hst : (if n = 0 then s.bs.status else statusAfter s.bs.cap s.bs.pos n s.bs.status) = s.bs.status := by
        split
        · rfl
        · rw [statusAfter, if_neg (by omega)]
      simp only [hst, Nat.add_assoc]

/-! ## The invariant of the registers -/

theorem bsBound_iff (s : State) : s.bsBound = true ↔ s.bs.cap ≤ 8 * (s.buf s.bs.buf).size := by simp [State.bsBound]

theorem bsGood_congr {s t : State} (hb : t.bs = s.bs) (hs : (t.buf s.bs.buf).size = (s.buf s.bs.buf).size)
    (h : s.bsGood) : t.bsGood := by
  simp only [State.bsGood, bsBound_iff, hb, hs] at *
  exact h

theorem bsAdvance_bsGood (n : Nat) {s : State} (h : s.bsGood) : (bsAdvance n s).bsGood := by
  by_cases h0 : n = 0
  · rw [h0]; exact h
  · simp only [State.bsGood, bsBound_iff, bsAdvance_bs (Nat.pos_of_ne_zero h0), bsAdvance_buf] at *
    exact ⟨h.1, fun _ => Nat.min_le_right _ _, fun hc => absurd hc (by omega)⟩

theorem bsSkip_bsGood (n : Nat) {s : State} (h : s.bsGood) : (bsSkip n s).bsGood := by
  simp only [State.bsGood, bsBound_iff, bsSkip] at *
  exact ⟨h.1, fun _ => Nat.min_le_right _ _, fun hc => absurd hc (by omega)⟩

theorem bsWrite_bsGood (v n : Nat) {s : State} (hr : s.bs.ro = false) (h : s.bsGood) : (bsWrite v n s).bsGood := by
  simp only [State.bsGood, bsBound_iff, bsWrite_bs, bsWrite_size, hr] at *
  refine ⟨h.1, fun h => absurd h (by simp), fun hc => ?_⟩
  split
  · exact h.2.2 (by omega)
  · rw [statusAfter, if_pos hc]

theorem bsWriteFields_bsGood (fs : List Field) {s : State} (hr : s.bs.ro = false) (h : s.bsGood) :
    (bsWriteFields fs s).bsGood := by
  induction fs generalizing s with
  | nil => exact h
  | cons f rest ih => exact ih (by rw [bsWrite_bs]; exact hr) (bsWrite_bsGood _ _ hr h)

theorem bsInit_bsGood {id : BufId} {size : Nat} {ro : Bool} {s : State} (h : initFits id size ro s = true) :
    (bsInit id size ro s).bsGood := by
  refine ⟨?_, fun _ => Nat.zero_le _, fun hc => ?_⟩
  · rw [bsBound_iff, bsInit_bs]
    simp only [initFits] at h
    cases ro
    · cases id with
      | host n =>
        simp only [decide_eq_true_eq] at h
        have hs : ((bsInit (.host n) size false s).buf (.host n)).size = (s.buf (.host n)).size :=
          size_setBuf s (clear_size _ _) _
        rw [hs]
        show size * 8 ≤ 8 * _
        omega
      | scratch => show size * 8 ≤ 8 * (Buffer.zeros size).size; simp [Buffer.zeros, Nat.mul_comm]
      | lc => show size * 8 ≤ 8 * (Buffer.zeros size).size; simp [Buffer.zeros, Nat.mul_comm]
    · have hb : (bsInit id size true s).buf id = s.buf id := rfl
      rw [hb]
      cases id <;> simp_all <;> omega
  · rw [bsInit_bs] at hc
    exact absurd hc (by simp)

end Sys2Proof.Laws
end

