-- ==== Sys2Proof/Laws/Palette.lean ====
section
/-! SUPPORT. The laws of the palette cache (42_palette.md): what a search finds, what a push and a promotion leave. -/

namespace Sys2Proof.Laws

open Sys2Proof.Machine

/-- A search finds the least slot of the Color. -/
theorem slotOf_some {c : Color} {l : List Color} {j : Nat} : slotOf c l = some j ↔ l[j]? = some c ∧ ∀ i, i < j →
    l[i]? ≠ some c := by
  induction l generalizing j with
  | nil => simp [slotOf]
  | cons d rest ih =>
    unfold slotOf
    split
    · rename_i h; subst h
      cases j with
      | zero => simp
      | succ j => simp; intro _; exact ⟨0, by omega, by simp⟩
    · rename_i h
      cases j with
      | zero => simp [h]
      | succ j =>
        simp only [Option.map_eq_some_iff, Nat.add_right_cancel_iff, exists_eq_right, ih, List.getElem?_cons_succ]
        refine and_congr Iff.rfl ⟨fun hh i hi => ?_, fun hh i hi => ?_⟩
        · cases i with
          | zero => simp [h]
          | succ i => simp; exact hh i (by omega)
        · have := hh (i+1) (by omega); simpa using this

theorem slotOf_none {c : Color} {l : List Color} : slotOf c l = none ↔ c ∉ l := by
  induction l with
  | nil => simp [slotOf]
  | cons d rest ih =>
    unfold slotOf
    split
    · rename_i h; subst h; simp
    · rename_i h; simp [ih]; intro _ hh; exact h hh.symm

theorem pushColor_eq (c : Color) (l : List Color) (h : l ≠ []) : pushColor c l = c :: l.dropLast := by
  cases l with
  | nil => simp at h
  | cons d r => simp [pushColor, List.dropLast_eq_take]

@[simp] theorem pushColor_length (c : Color) (l : List Color) : (pushColor c l).length = l.length := by
  simp [pushColor]

theorem promote_some {j : Nat} {c : Color} {l : List Color} (h : l[j]? = some c) :
    promote j l = c :: l.eraseIdx j := by
  simp [promote, h]

@[simp] theorem promote_length (j : Nat) (l : List Color) : (promote j l).length = l.length := by
  unfold promote
  split
  · rename_i c h
    have hj : j < l.length := (List.getElem?_eq_some_iff.mp h).1
    simp [List.length_eraseIdx, hj]; omega
  · rfl

/-! ## The slots of the register file -/

theorem slotsFor_length (k : Nat) (pal : List Color) : (slotsFor k pal).length = max pal.length k := by
  simp [slotsFor]; omega

theorem slotsFor_of_le {k : Nat} {pal : List Color} (h : k ≤ pal.length) : slotsFor k pal = pal := by
  simp [slotsFor, Nat.sub_eq_zero_of_le h]

/-- Every slot of a cache that `PAL.INIT` made for `K` has been written. -/
theorem ctxSlots_eq {cx : Ctx} {pal : List Color} (h : cx.palEn = true → cx.k ≤ pal.length) : cx.slots pal = pal := by
  unfold Ctx.slots
  split
  · rename_i hp; exact slotsFor_of_le (h hp)
  · rfl

theorem ctxSlots_off {cx : Ctx} (h : cx.palEn = false) (pal : List Color) : cx.slots pal = pal := by simp [Ctx.slots, h]

theorem ctxSlots_length {cx : Ctx} (h : cx.palEn = true) (pal : List Color) :
    (cx.slots pal).length = max pal.length cx.k := by
  simp [Ctx.slots, h, slotsFor_length]

/-- The slots of a state are those of its context. -/
theorem stateSlots_eq (s : State) (f : Fmt) : (s.ctxOf f).slots s.pal = s.slots := rfl

theorem stateSlots_written {s : State} (h : s.palEn = true → s.palSize ≤ s.pal.length) : s.slots = s.pal :=
  ctxSlots_eq (cx := s.ctxOf .argb8888) h

/-- There are slots where palette mode is enabled, or where some were made. -/
theorem stateSlots_ne_nil {s : State} (h : s.palEn = true ∨ s.pal ≠ []) : s.slots ≠ [] := by
  by_cases hp : s.palEn = true
  · have hl := ctxSlots_length (cx := s.ctxOf .argb8888) hp s.pal
    have hk : 1 < (s.ctxOf .argb8888).k := of_decide_eq_true hp
    intro hn
    rw [stateSlots_eq, hn, List.length_nil] at hl
    omega
  · rw [State.slots, if_neg hp]
    exact h.resolve_left hp

/-! ## A lookup -/

theorem lookupPalette_length (c : Color) (pal : List Color) : (lookupPalette c pal).length = pal.length := by
  unfold lookupPalette
  split
  · rename_i j h
    have hj := (slotOf_some.mp h).1
    rw [promote_some hj]
    have : j < pal.length := by
      by_contra hn; rw [List.getElem?_eq_none (by omega)] at hj; cases hj
    rw [List.length_cons, List.length_eraseIdx_of_lt this]; omega
  · simp [pushColor]

end Sys2Proof.Laws
end

