-- ==== Sys2Proof/Laws/Encoder.lean ====
section
/-! SUPPORT. The laws of the encoder's operations (43_encoder.md): what an emission writes, what a scan leaves alone. -/

namespace Sys2Proof.Laws

open Sys2Proof.Machine

/-! ## Dispatch and refusals -/

theorem withCtx_some {s : State} {f : Fmt} (h : s.fmt? = some f) (k : Ctx →
    Result) : withCtx s k = k (s.ctxOf f) := by
  simp [withCtx, State.ctx?, h]

/-- Where `CTRL.FMT` names a format, a dispatch goes on with it. -/
theorem dispatching_some {s : State} {f : Fmt} (h : s.fmt? = some f) (reaches : Bool) (k : Ctx → Result) :
    dispatching reaches s k = k (s.ctxOf f) := by
  unfold dispatching State.anyCtx
  rw [h]
  split
  · exact withCtx_some h k
  · rfl

/-- Where it names none, a dispatch that is reached stops. -/
theorem dispatching_none {s : State} (h : s.fmt? = none) (k : Ctx → Result) :
    dispatching true s k = .fault .formatDispatch := by
  simp [dispatching, withCtx, State.ctx?, h]

/-- A dispatch that is not reached goes on, whatever `CTRL.FMT` holds. -/
theorem dispatching_free (s : State) (k : Ctx → Result) : dispatching false s k = k s.anyCtx := rfl

/-- All that a dispatch does: it goes on, or it is reached where there is no format. -/
theorem dispatching_cases (reaches : Bool) (s : State) (k : Ctx → Result) :
    dispatching reaches s k = k s.anyCtx
      ∨ (reaches = true ∧ s.fmt? = none ∧ dispatching reaches s k = .fault .formatDispatch) := by
  cases h : s.fmt? with
  | some f =>
    refine .inl ((dispatching_some h reaches k).trans ?_)
    rw [State.anyCtx, h, Option.getD_some]
  | none =>
    cases reaches with
    | false => exact .inl rfl
    | true => exact .inr ⟨rfl, rfl, dispatching_none h k⟩

/-- A run that starts with a hit looks at no format. -/
theorem encStartRun_format {c : Color} {s : State} (h : startRunDispatches c s = false) (f g : Fmt) :
    encStartRun (s.ctxOf f) c s = encStartRun (s.ctxOf g) c s := by
  simp only [startRunDispatches, Bool.not_eq_false', Bool.and_eq_true, State.slots] at h
  have hp : ∀ f : Fmt, (s.ctxOf f).palEn = true := fun _ => h.1
  have hs : ∀ f : Fmt, (s.ctxOf f).slots s.pal = slotsFor s.palSize s.pal := fun f => by rw [Ctx.slots, if_pos (hp f)]; rfl
  rw [if_pos h.1] at h
  obtain ⟨j, hj⟩ := Option.isSome_iff_exists.1 h.2
  simp only [encStartRun, hp, if_true, hs, hj]

/-- The emission of an index looks at no format. -/
theorem encSyntax_format {mode : Mode} {s : State} (h : syntaxDispatches mode s = false) (n : Nat) (code : Word)
    (f g : Fmt) (u : State) : encSyntax (s.ctxOf f) mode n code u = encSyntax (s.ctxOf g) mode n code u := by
  simp only [syntaxDispatches, Bool.not_eq_false', Bool.and_eq_true, decide_eq_true_eq] at h
  obtain ⟨hp, rfl⟩ := h
  have hp : ∀ f : Fmt, (s.ctxOf f).palEn = true := fun _ => hp
  simp only [encSyntax, syntaxEntry, hp, if_true]
  split <;> rfl

/-- An emission that nothing refuses. -/
theorem emitting_next {cx : Ctx} {n : Nat} {s t : State} (h1 : 1 ≤ n) (h2 : n ≤ cx.maxRun) (hr : s.bs.ro = false)
    (hl : cx.rl ≤ 16)
    (hb : s.bsBound = true) : emitting cx n s t = .next t := by
  simp only [emitting, emissionRefusal]
  rw [if_neg (by omega), if_neg (by simp [hr]), if_neg (by omega), if_neg (by simp [hb])]

/-! ## Fields written, whether they fit or not -/

theorem withMem_writeFields (fs : List Field) (s : State) :
    (bsWriteFields fs s).withMem s = { s with bs := (bsWriteFields fs s).bs, free := (bsWriteFields fs s).free } := by
  simp [State.withMem]

theorem bs_ext {a b : BitStreamRegs} (h1 : a.buf = b.buf) (h2 : a.cap = b.cap) (h3 : a.ro = b.ro)
    (h4 : a.pos = b.pos) (h5 : a.status = b.status) : a = b := by
  cases a; cases b; simp_all

theorem writeFields_keeps (fs : List Field) (s : State) :
    s.keepsBytes (bsWriteFields fs s) fun id _ => id = s.bs.buf := by
  refine ⟨bsWriteFields_size fs s, fun id off h => ?_⟩
  simp only [State.byteAt, bsWriteFields_buf_other fs s h]

/-- Fields that do not fit set the flag. -/
theorem writeFields_past {fs : List Field} {s : State} (h : s.bs.cap < s.bs.pos + fieldsWidth fs)
    (hp : s.bs.pos ≤ s.bs.cap ∨ 0 < fieldsWidth fs) :
    (bsWriteFields fs s).bs.status = .overflow := by
  induction fs generalizing s with
  | nil => simp [fieldsWidth] at h hp; omega
  | cons f rest ih =>
    obtain ⟨v, n⟩ := f
    simp only [fieldsWidth] at h hp
    have keep : ∀ (gs : List Field) (s : State), s.bs.status = .overflow →
        (bsWriteFields gs s).bs.status = .overflow := by
      intro gs
      induction gs with
      | nil => intro s h; exact h
      | cons g gs ih =>
        intro s h
        rw [bsWriteFields]
        refine ih _ ?_
        rw [bsWrite_bs]; simp [h, statusAfter]
    rw [bsWriteFields]
    by_cases hn : n ≠ 0 ∧ s.bs.cap < s.bs.pos + n
    · refine keep _ _ ?_
      rw [bsWrite_bs]; simp [hn, statusAfter]
    · refine ih (by rw [bsWrite_bs]; simp only; omega) ?_
      rw [bsWrite_bs]; simp only; omega

/-! ## An entry has at least one bit -/

theorem fieldsWidth_codeFields' (cx : Ctx) (w : Word) : fieldsWidth (codeFields cx.pixBits w) = cx.pixBits :=
    fieldsWidth_codeFields _ _

theorem clog2Search_pos (k fuel n : Nat) (h : 2 ^ n < k) (hf : 0 < fuel) : n < clog2Search k fuel n := by
  induction fuel generalizing n with
  | zero => omega
  | succ m ih =>
    simp only [clog2Search]
    rw [if_neg (by omega)]
    by_cases hm : 0 < m
    · by_cases h2 : 2 ^ (n+1) < k
      · have := ih (n+1) h2 hm; omega
      · cases m with
        | zero => omega
        | succ m => simp only [clog2Search]; rw [if_pos (by omega)]; omega
    · have : m = 0 := by omega
      subst this; simp [clog2Search]

theorem idxBits_pos (cx : Ctx) (h : cx.palEn = true) : 0 < cx.idxBits := by
  simp [Ctx.palEn] at h
  exact clog2Search_pos cx.k cx.k 0 (by simpa using h) (by omega)

theorem width_pos (cx : Ctx) (e : Entry) (h : cx.palEn = true ∨ ∀ i n, e ≠ .pal i
    ∧ e ≠ .palr n i) (hr : ∀ b, e ≠ .reserved011 b) : 0 < Entry.width cx e := by
  have hb := bits_pos cx.fmt
  have : cx.pixBits = cx.fmt.bits := rfl
  cases e <;> simp only [Entry.width, Entry.fields, fieldsWidth_append, fieldsWidth_stringFields, fieldsWidth,
      fieldsWidth_codeFields'] <;> try omega
  · exact absurd rfl (hr _)
  · rcases h with h | h
    · have := idxBits_pos cx h; omega
    · exact absurd rfl (h _ 0).1
  · rcases h with h | h
    · have := idxBits_pos cx h; omega
    · exact absurd rfl (h _ _).2

theorem syntaxEntry_width_pos (cx : Ctx) (mode : Mode) (n : Nat)
    (code : Word) : 0 < Entry.width cx (syntaxEntry cx mode n code) := by
  refine width_pos _ _ ?_ ?_
  · by_cases h : cx.palEn = true
    · exact .inl h
    · right; simp only [syntaxEntry, h]; intro i m; simp; split <;> simp
  · intro b; simp only [syntaxEntry]; split <;> (try split) <;> (try split) <;> simp

/-! ## Emission -/

/-- All that an emission does: the cursor past the entry, its bits where they fit, the flag where they do not. -/
theorem encSyntax_spec (cx : Ctx) (mode : Mode) (n : Nat) (code : Word) (s : State) (hcx : cx.cfg = s.cfg)
    (hb : s.bsBound = true) :
    let e := syntaxEntry cx mode n code
    let t := encSyntax cx mode n code s
    t.withMem s = { s with
          bs := { s.bs with pos := s.bs.pos + e.width cx, status := t.bs.status }
          free := t.free }
      ∧ (s.bs.pos + e.width cx ≤ s.bs.cap →
          t.bs.status = s.bs.status
            ∧ (t.buf s.bs.buf).bitList s.cfg.bitOrder s.bs.pos (e.width cx) = encodeEntry cx e
            ∧ s.keepsBytes t (bytesOfBitsFrom s.bs.buf s.bs.pos (e.width cx)))
      ∧ (s.bs.cap < s.bs.pos + e.width cx →
          t.bs.status = .overflow ∧ s.keepsBytes t fun id _ => id = s.bs.buf) := by
  intro e t
  have ht : t = bsWriteFields (e.fields cx) s := rfl
  have hw : e.width cx = fieldsWidth (e.fields cx) := rfl
  refine ⟨?_, fun hfit => ?_, fun hpast => ?_⟩
  · rw [ht, withMem_writeFields]
    congr 1
    apply bs_ext <;> simp [bsWriteFields_pos, hw]
  · have heq : t = _ := ht.trans (bsWriteFields_fits (fs := e.fields cx) (by rw [← hw]; exact hfit) hb)
    have hg : s.given s.bs.buf := given_of_size (by
      have := syntaxEntry_width_pos cx mode n code
      have h2 := (bsBound_iff s).mp hb
      have h3 : 0 < e.width cx := this
      omega)
    have hbuf : t.buf s.bs.buf = (s.buf s.bs.buf).setBits s.cfg.bitOrder s.bs.pos (fieldsBits s.cfg.bitOrder
        (e.fields cx)) := by
      rw [heq]; exact buf_setBuf_same s _ hg
    have hlen : e.width cx = (fieldsBits s.cfg.bitOrder (e.fields cx)).length := by simp [hw]
    have hbd := (bsBound_iff s).mp hb
    refine ⟨by rw [heq], ?_, ?_, ?_⟩
    · rw [hbuf, hlen, bitList_setBits _ _ _ (by omega), encodeEntry, hcx]
    · intro id; rw [ht, bsWriteFields_size]
    · intro id off h
      by_cases hid : id = s.bs.buf
      · subst hid
        simp only [State.byteAt, hbuf]
        refine read_setBits_other _ _ _ ?_
        rw [← hlen]
        exact fun hh => h ⟨rfl, hh⟩
      · rw [ht]; simp only [State.byteAt, bsWriteFields_buf_other _ s hid]
  · rw [ht]
    exact ⟨writeFields_past hpast (.inr (syntaxEntry_width_pos cx mode n code)), writeFields_keeps _ _⟩

/-! ## What the operations of a pass leave alone -/

/-- What no operation of a pass changes. -/
structure EncFrame (s t : State) : Prop where
  cfg : t.cfg = s.cfg
  dec : t.dec = s.dec
  ctrl : t.ctrl = s.ctrl
  res : t.res = s.res
  job : t.job = s.job
  objs : t.objs = s.objs
  phase : t.phase = s.phase
  pending : t.pending = s.pending
  ret : t.ret = s.ret
  bsbuf : t.bs.buf = s.bs.buf
  bscap : t.bs.cap = s.bs.cap
  bsro : t.bs.ro = s.bs.ro
  size : ∀ id, (t.buf id).size = (s.buf id).size

theorem EncFrame.refl (s : State) : EncFrame s s := ⟨rfl, rfl, rfl, rfl, rfl, rfl, rfl, rfl, rfl, rfl, rfl, rfl,
    fun _ => rfl⟩

theorem EncFrame.trans {s t u : State} (a : EncFrame s t) (b : EncFrame t u) : EncFrame s u :=
  ⟨b.1.trans a.1, b.2.trans a.2, b.3.trans a.3, b.4.trans a.4, b.5.trans a.5, b.6.trans a.6, b.7.trans a.7,
      b.8.trans a.8, b.9.trans a.9,
   b.10.trans a.10, b.11.trans a.11, b.12.trans a.12, fun id => (b.13 id).trans (a.13 id)⟩

theorem startRun_frame (cx : Ctx) (c : Color) (s : State) : EncFrame s (encStartRun cx c s) := by
  unfold encStartRun
  split
  · split <;> exact ⟨rfl, rfl, rfl, rfl, rfl, rfl, rfl, rfl, rfl, rfl, rfl, rfl, fun _ => rfl⟩
  · exact ⟨rfl, rfl, rfl, rfl, rfl, rfl, rfl, rfl, rfl, rfl, rfl, rfl, fun _ => rfl⟩

theorem startRun_mem (cx : Ctx) (c : Color) (s : State) (id : BufId) : (encStartRun cx c s).buf id = s.buf id := by
  unfold encStartRun
  split
  · split <;> rfl
  · rfl

theorem startRun_bs (cx : Ctx) (c : Color) (s : State) : (encStartRun cx c s).bs = s.bs := by
  unfold encStartRun
  split
  · split <;> rfl
  · rfl

theorem startRun_encI (cx : Ctx) (c : Color) (s : State) : (encStartRun cx c s).encI = s.encI := by
  unfold encStartRun
  split
  · split <;> rfl
  · rfl

theorem writeFields_frame (fs : List Field) (s : State) : EncFrame s (bsWriteFields fs s) := by
  constructor <;> simp [bsWriteFields_size]

theorem flush_frame (cx : Ctx) (s : State) : EncFrame s (encFlush cx s) := writeFields_frame _ _

theorem flush_other (cx : Ctx) (s : State) {id : BufId} (h : id ≠ s.bs.buf) :
    (encFlush cx s).buf id = s.buf id := bsWriteFields_buf_other _ _ h

theorem encPixel_frame (cx : Ctx) (c : Color) (s : State) : EncFrame s (encPixel cx c s) := by
  unfold encPixel
  split
  · exact startRun_frame _ _ _
  · split
    · exact (flush_frame _ _).trans (startRun_frame _ _ _)
    · exact ⟨rfl, rfl, rfl, rfl, rfl, rfl, rfl, rfl, rfl, rfl, rfl, rfl, fun _ => rfl⟩

theorem encPixel_other (cx : Ctx) (c : Color) (s : State) {id : BufId} (h : id ≠ s.bs.buf) :
    (encPixel cx c s).buf id = s.buf id := by
  unfold encPixel
  split
  · exact startRun_mem _ _ _ _
  · split
    · rw [startRun_mem, flush_other _ _ h]
    · rfl

theorem encPixel_encI (cx : Ctx) (c : Color) (s : State) : (encPixel cx c s).encI = s.encI := by
  unfold encPixel
  split
  · exact startRun_encI _ _ _
  · split
    · rw [startRun_encI]; simp [encFlush, encSyntax]
    · rfl

theorem setBuf_frame (s : State) (id : BufId) (b : Buffer)
    (h : b.size = (s.buf id).size) : EncFrame s (s.setBuf id b) := by
  constructor <;> simp [size_setBuf s h]

end Sys2Proof.Laws
end

