-- ==== Sys2Proof/Laws/Header.lean ====
section
/-! SUPPORT. The laws of the header codec (45_header.md) inside the stream: what the reads, skips and writes leave. -/

namespace Sys2Proof.Laws

open Sys2Proof.Machine

/-- The state with the cursor at a position. -/
def streamAt (s : State) (p : Nat) : State := { s with bs := { s.bs with pos := p } }

theorem streamAt_bits (s : State) (q p n : Nat) : (streamAt s q).streamBits p n = s.streamBits p n := by
  induction n generalizing p with
  | zero => rfl
  | succ n ih => simp only [State.streamBits, ih]; rfl

theorem streamAt_value (s : State) (p n : Nat) : (streamAt s p).readValue n = fieldValue s.cfg.bitOrder (s.streamBits
    p n) := by
  unfold State.readValue; rw [streamAt_bits]; rfl

theorem streamAt_advance {s : State} {p n : Nat} (h : p + n ≤ s.bs.cap) :
    bsAdvance n (streamAt s p) = streamAt s (p + n) := bsAdvance_inside h

theorem streamAt_skip {s : State} {p n : Nat} (h : p + n ≤ s.bs.cap) :
    bsSkip n (streamAt s p) = streamAt s (p + n) := bsSkip_inside h

/-- Inside the stream the header is 64 bits. -/
theorem hdrWalk_inside (rsv : HdrRsv0) {s : State} (h : s.bs.pos + 64 ≤ s.bs.cap) :
    hdrWalk rsv s = streamAt s (s.bs.pos + 64) := by
  have hr : rsv.bits ≤ 4 := by cases rsv <;> decide
  unfold hdrWalk
  rw [show bsAdvance 8 s = streamAt s (s.bs.pos + 8) from bsAdvance_inside (by omega)]
  generalize s.bs.pos = p at *
  generalize rsv.bits = r at *
  rw [streamAt_advance (n := 4) (by omega), streamAt_skip (n := r) (by omega), streamAt_advance (n := 8) (by omega),
      streamAt_advance (n := 2) (by omega), streamAt_skip (n := 2) (by omega),
    streamAt_advance (n := 2) (by omega), streamAt_skip (n := 2) (by omega), streamAt_advance (n := 16) (by omega),
        streamAt_advance (n := 16) (by omega), streamAt_skip (n := 4 - r) (by omega)]
  have : p + 8 + 4 + r + 8 + 2 + 2 + 2 + 2 + 16 + 16 + (4 - r) = p + 64 := by omega
  rw [this]

/-- A dimension is one more than what the header holds. -/
theorem dim_toNat (v : BitVec 16) : (v.setWidth 17 + 1).toNat = v.toNat + 1 := by
  have := v.isLt
  simp [BitVec.toNat_add, BitVec.toNat_setWidth]; omega

theorem takeField_split (order : BitOrder) {n : Nat} {bits : List Bool} (rest : List Bool) (h : bits.length = n) :
    takeField order n (bits ++ rest) = .ok (fieldValue order bits, rest) := by
  subst h; unfold takeField; rw [splitBits_append]

/-- The values of fields at a position of the bound stream. -/
def valuesAt (s : State) : Nat → List Nat → List Nat
  | _, [] => []
  | p, n :: ns => fieldValue s.cfg.bitOrder (s.streamBits p n) :: valuesAt s (p + n) ns

theorem takeValues_stream (s : State) (ns : List Nat) (p : Nat) (tail : List Bool) :
    takeValues s.cfg.bitOrder ns (s.streamBits p ns.sum ++ tail) = .ok (valuesAt s p ns, tail) := by
  induction ns generalizing p with
  | nil => rfl
  | cons n ns ih =>
    simp only [List.sum_cons, streamBits_add, List.append_assoc, takeValues]
    rw [takeField_split _ _ (by simp)]
    simp only [ih]; rfl

/-- 64 bits are always a header. -/
theorem decodeHeader_stream (s : State) :
    decodeHeader s.cfg.hdrRsv0 s.cfg.bitOrder (s.streamBits s.bs.pos 64)
      = .ok (headerOfValues (valuesAt s s.bs.pos (headerWidths s.cfg.hdrRsv0)), []) := by
  have := takeValues_stream s (headerWidths s.cfg.hdrRsv0) s.bs.pos []
  rw [headerWidths_sum, List.append_nil] at this
  unfold decodeHeader
  rw [this]

theorem fetchHeader_eq (s : State) :
    fetchHeader s = headerOfValues (valuesAt s s.bs.pos (headerWidths s.cfg.hdrRsv0)) := by
  rw [fetchHeader, decodeHeader_stream]

/-- The header that the decoder reads is the one that is fetched. -/
theorem fetchHeader_of_decode {s : State} {h : Header} {rest : List Bool}
    (hd : decodeHeader s.cfg.hdrRsv0 s.cfg.bitOrder (s.streamBits s.bs.pos 64) = .ok (h, rest)) : fetchHeader s = h := by
  rw [fetchHeader, hd]

/-- `HDR.DECODE` inside the stream fills `CTRL` from the values at the cursor. -/
theorem hdrDecode_inside {s : State} (h : s.bs.pos + 64 ≤ s.bs.cap) :
    hdrDecode s = fillCtrl (headerOfValues (valuesAt s s.bs.pos (headerWidths s.cfg.hdrRsv0)))
        (hdrWalk s.cfg.hdrRsv0 s) := by
  rw [hdrWalk_inside _ h]
  have hr : s.cfg.hdrRsv0.bits ≤ 4 := by cases s.cfg.hdrRsv0 <;> decide
  have hs : s = streamAt s s.bs.pos := rfl
  unfold hdrDecode
  generalize hp : s.bs.pos = p at *
  have hcfg : ∀ q, (streamAt s q).cfg = s.cfg := fun _ => rfl
  generalize hrr : s.cfg.hdrRsv0.bits = r at *
  rw [show bsAdvance 8 s = streamAt s (p + 8) by rw [hs]; exact streamAt_advance (by omega)]
  simp only []
  rw [streamAt_advance (n := 4) (by omega), streamAt_skip (n := r) (by omega), streamAt_advance (n := 8) (by omega),
      streamAt_advance (n := 2) (by omega), streamAt_skip (n := 2) (by omega),
    streamAt_advance (n := 2) (by omega), streamAt_skip (n := 2) (by omega), streamAt_advance (n := 16) (by omega),
        streamAt_advance (n := 16) (by omega), streamAt_skip (n := 4 - r) (by omega)]
  have h0 : s.readValue 8 = fieldValue s.cfg.bitOrder (s.streamBits p 8) := by unfold State.readValue; rw [hp]
  simp only [streamAt_value, h0]
  have : p + 8 + 4 + r + 8 + 2 + 2 + 2 + 2 + 16 + 16 + (4 - r) = p + 64 := by omega
  rw [this]
  subst hrr
  rfl

theorem fieldBits_zero (order : BitOrder) (n : Nat) : fieldBits order 0 n = List.replicate n false := by
  have : ∀ n, bitsOfNat n 0 = List.replicate n false := by
    intro n; induction n with
    | zero => rfl
    | succ n ih => simp [bitsOfNat, ih, List.replicate_succ]
  cases order <;> simp [fieldBits, this]

theorem hdrSteps_sum (rsv : HdrRsv0) (h : Header) : ((hdrSteps rsv h).map Prod.snd).sum = 64 := by cases rsv <;> rfl

/-- A dimension that is not 0 is written as one less, in 16 bits. -/
theorem dimM1_toNat (open0 : BitVec 16) {dim : BitVec 17} (h : dim ≠ 0) :
    (dimM1 open0 dim).toNat = (dim.toNat - 1) % 2 ^ 16 := by
  have h0 : dim.toNat ≠ 0 := fun hh => h (BitVec.eq_of_toNat_eq hh)
  have := dim.isLt
  rw [dimM1, if_neg h]
  simp [BitVec.toNat_sub, BitVec.toNat_setWidth]; omega

theorem setWidth_pred (w : BitVec 17) : (w - 1).setWidth 16 = BitVec.ofNat 16 (w.toNat + 65535) := by
  apply BitVec.eq_of_toNat_eq
  have := w.isLt
  simp [BitVec.toNat_sub, BitVec.toNat_setWidth]; omega

end Sys2Proof.Laws
end

