-- ==== Sys2Proof/Laws/Decoder.lean ====
section
/-! SUPPORT. The laws of the decoder's operations (44_decoder.md): what an entry emits, what a step of `DECODE` is. -/

namespace Sys2Proof.Laws

open Sys2Proof.Machine

/-! ## Emission of pixels -/

theorem pack_lt (sc : ChannelScale) (f : Fmt) (c : Color) : (pack sc f c).toNat < 2 ^ f.bits := by
  cases f
  · exact BitVec.isLt _
  · simp only [pack, pack4444, BitVec.toNat_setWidth, Fmt.bits]
    exact lt_of_le_of_lt (Nat.mod_le _ _) (BitVec.isLt _)
  · simp only [pack, pack1555, BitVec.toNat_setWidth, Fmt.bits]
    exact lt_of_le_of_lt (Nat.mod_le _ _) (BitVec.isLt _)
  · simp only [pack, packLut8, BitVec.toNat_setWidth, Fmt.bits]
    exact lt_of_le_of_lt (Nat.mod_le _ _) (BitVec.isLt _)
  · simp only [pack, packLut4, BitVec.toNat_setWidth, Fmt.bits]
    exact lt_of_le_of_lt (Nat.mod_le _ _) (by have := c.a.isLt; omega)

theorem pixelOffset_lt (f : Fmt) (i n : Nat) : 0 < n → pixelOffset f i < f.pixbytes (i + n) := by
  cases f <;> simp only [pixbytes_eq, pixelOffset_eq] <;> omega

theorem emit_next {cx : Ctx} {s : State} (h : cx.fmt.pixbytes (s.dec.outpix + s.dec.len) ≤ (s.buf (.host
    s.job.dst)).size) : emitOrRefuse cx s = .next (decEmit cx s) := by
  unfold emitOrRefuse
  rw [if_pos]
  rw [emitInside, decide_eq_true h, Bool.or_true]

/-- All that `DEC.EMIT` does where its pixels lie inside the output. -/
theorem decEmit_spec (cx : Ctx) (s : State) (hc : cx.cfg = s.cfg)
    (h : cx.fmt.pixbytes (s.dec.outpix + s.dec.len) ≤ (s.buf (.host s.job.dst)).size) :
   let t := decEmit cx s
   t.withMem s = { s with
          dec := { s.dec with outpix := s.dec.outpix + s.dec.len, remaining := s.dec.remaining - s.dec.len } }
      ∧ (∀ i, s.dec.outpix ≤ i → i < s.dec.outpix + s.dec.len →
          pixRead s.cfg cx.fmt (t.buf (.host s.job.dst)) i = pack s.cfg.channelScale cx.fmt s.dec.color)
      ∧ (∀ i, ¬(s.dec.outpix ≤ i ∧ i < s.dec.outpix + s.dec.len) →
          pixRead s.cfg cx.fmt (t.buf (.host s.job.dst)) i = pixRead s.cfg cx.fmt (s.buf (.host s.job.dst)) i)
      ∧ s.keepsBytes t fun id off => id = .host s.job.dst ∧ pixelOffset cx.fmt s.dec.outpix ≤ off
          ∧ off < cx.fmt.pixbytes (s.dec.outpix + s.dec.len) := by
  intro t
  have hb : t.buf (.host s.job.dst) = pixFill cx.cfg cx.fmt (s.buf (.host s.job.dst)) s.dec.outpix (pack
      cx.cfg.channelScale cx.fmt s.dec.color) s.dec.len := by
    by_cases hl : s.dec.len = 0
    · have : t = { s.setBuf (.host s.job.dst) (s.buf (.host s.job.dst)) with
          dec := {
            s.dec with
            outpix := s.dec.outpix + s.dec.len
            remaining := s.dec.remaining - s.dec.len } } := by
        show decEmit cx s = _
        simp [decEmit, hl, pixFill]
      rw [this, hl, pixFill, setBuf_buf]
      cases s.job.dst <;> rfl
    · have hg : s.given (.host s.job.dst) := given_of_size (by
        have := pixelOffset_lt cx.fmt s.dec.outpix s.dec.len (by omega); omega)
      have := buf_setBuf_same s (pixFill cx.cfg cx.fmt (s.buf (.host s.job.dst)) s.dec.outpix (pack
          cx.cfg.channelScale cx.fmt s.dec.color) s.dec.len) hg
      rw [← this]
      show (decEmit cx s).buf _ = _
      unfold decEmit
      cases s.job.dst <;> rfl
  refine ⟨?_, fun i h1 h2 => ?_, fun i hi => ?_, fun id => ?_, fun id off ho => ?_⟩
  · show (decEmit cx s).withMem s = _
    simp [decEmit, State.withMem]
  · rw [hb, ← hc, pixRead_pixFill_same _ _ _ _ _ h1 h2 h, Nat.mod_eq_of_lt (pack_lt _ _ _), BitVec.ofNat_toNat]; simp
  · rw [hb, ← hc, pixRead_pixFill_other _ _ _ _ _ hi]
  · have : ∀ id, (t.buf id).size = ((s.setBuf (.host s.job.dst)
        (pixFill cx.cfg cx.fmt (s.buf (.host s.job.dst)) s.dec.outpix (pack cx.cfg.channelScale cx.fmt s.dec.color)
        s.dec.len)).buf id).size := by
      intro id; show ((decEmit cx s).buf id).size = _
      unfold decEmit
      rcases id with (_ | _ | _ | _ | j) | _ | _ <;> rfl
    rw [this, size_setBuf s (by simp)]
  · by_cases hid : id = .host s.job.dst
    · subst hid
      simp only [State.byteAt, hb]
      exact read_pixFill_other _ _ _ _ _ (fun hh => ho ⟨rfl, hh⟩)
    · have : ∀ id, t.buf id = (s.setBuf (.host s.job.dst)
          (pixFill cx.cfg cx.fmt (s.buf (.host s.job.dst)) s.dec.outpix (pack cx.cfg.channelScale cx.fmt s.dec.color)
          s.dec.len)).buf id := by
        intro id; show (decEmit cx s).buf id = _
        unfold decEmit
        rcases id with (_ | _ | _ | _ | j) | _ | _ <;> rfl
      simp only [State.byteAt]
      rw [this, buf_setBuf_other s _ hid]

/-! ## Entries -/

theorem toInstr_inj {a b : Entry} (h : a.toInstr = b.toInstr) : a = b := by
  cases a <;> cases b <;> simp [Entry.toInstr] at h ⊢ <;> exact h

theorem runEntry_exec (e : Entry) (s : State) : runEntry e s = exec e.toInstr s := by cases e <;> rfl

theorem runHeader_exec (rsv : HdrRsv0) (h : Header) (s : State) :
    runHeader rsv h s = exec (headerInstr rsv h) s := by cases rsv <;> rfl

/-- The state in which an entry emits its pixels, every slot of the cache having been written. -/
def resolved (cx : Ctx) (e : Entry) (s : State) : State :=
  { s with
    bs := { s.bs with pos := s.bs.pos + e.width cx }
    dec := { s.dec with mode := e.mode, len := e.runLength, code := e.code, color := entryColor cx s.pal e }
    pal := cacheAfterEntry cx s.pal e }

theorem resolved_buf (cx : Ctx) (e : Entry) (s : State) (id : BufId) : (resolved cx e s).buf id = s.buf id := by
  rcases id with (_ | _ | _ | _ | j) | _ | _ <;> rfl

theorem cacheAfterEntry_length (cx : Ctx) (pal : List Color)
    (e : Entry) : (cacheAfterEntry cx pal e).length = pal.length := by
  cases e <;> simp [cacheAfterEntry]

theorem runLength_pos {cx : Ctx} {e : Entry} (h : e.wf cx = true) : 1 ≤ e.runLength := by
  cases e <;> simp_all [Entry.wf, runFits, Entry.runLength]

/-! ## The fetch -/

/-- The window always holds an entry, and it is the one that is fetched. -/
theorem fetchEntry_decodes (cx : Ctx) (s : State) :
    ∃ rest, decodeEntry cx (s.streamBits s.bs.pos cx.window) = .ok (fetchEntry cx s, rest) := by
  obtain ⟨e, rest, h⟩ := decodeEntry_window cx (bits := s.streamBits s.bs.pos cx.window) (by simp)
  exact ⟨rest, by rw [fetchEntry, h]⟩

theorem fetchEntry_of_decode {cx : Ctx} {s : State} {e : Entry} {rest : List Bool}
    (h : decodeEntry cx (s.streamBits s.bs.pos cx.window) = .ok (e, rest)) : fetchEntry cx s = e := by
  rw [fetchEntry, h]

/-- The bits at the cursor always have a kind, and it is the one that `DEC.PREFIX` sees. -/
theorem leadKind_reads (cx : Ctx) (s : State) :
    cx.kindOf (s.streamBits s.bs.pos cx.leadWindow) = some (leadKind cx s) := by
  obtain ⟨kind, n, h, -⟩ := kindOf_window cx (bits := s.streamBits s.bs.pos cx.leadWindow) (by simp)
  rw [leadKind, h, Option.getD_some]

/-- The kind of an entry does not depend on the format. -/
theorem leadKind_format (s : State) (f g : Fmt) : leadKind (s.ctxOf f) s = leadKind (s.ctxOf g) s := rfl

/-- A prefix without an error looks at no format. -/
theorem prefixOutcome_format {kind : EntryKind} {s : State} (h : prefixCause kind s = none) (cx : Ctx) :
    prefixOutcome cx kind s = { s with ret := .kind kind } := by rw [prefixOutcome, h]

/-! ## Steps of a DECODE -/

theorem decRun_succ (n : Nat) (s : State) : decRun (n + 1) s = if s.phase = .idle then .next s
    else match decStep s with
      | .next t => decRun n t
      | .fault r => .fault r
      | .refused r => .refused r := rfl

theorem decRun_idle (n : Nat) (s : State) (h : s.phase = .idle) : decRun n s = .next s := by
  cases n <;> simp [decRun, h]

theorem step_eq_decStep {s : State} (h : s.phase ≠ .idle) : step s = decStep s := by
  unfold step decStep
  cases hp : s.phase with
  | idle => exact absurd hp h
  | header => simp only [runHeader_exec]
  | setup => rfl
  | entries =>
    simp only
    by_cases hr : s.dec.remaining = 0
    · rw [if_pos hr]
    · simp only [if_neg hr, decLoopStep, runEntry_exec]

end Sys2Proof.Laws
end

