-- ==== Sys2Proof/Laws/PerInstr.lean ====
section
/-! SUPPORT. The family `EncodingShape`, one lemma for each constructor of `Instr`: which instructions have stream bits,
how many, and at which point of a stream they stand (30_encoding.md R91, R96, R118). -/

namespace Sys2Proof.Laws.EncodingShape

/-- An operation has no stream bits; a header has 64, at the header's point; an entry has as many as its width says, at
the body's. -/
def Statement (i : Instr) : Prop :=
  ∀ cx : Ctx, match encode cx i with
    | none => (∀ e : Entry, i ≠ e.toInstr) ∧ ∀ h, i ≠ .hdr3 h ∧ i ≠ .hdr4 h
    | some bits => (∃ h, (i = .hdr3 h ∨ i = .hdr4 h) ∧ bits.length = 64 ∧ pointOf i = .header)
        ∨ ∃ e : Entry, i = e.toInstr ∧ bits.length = e.width cx ∧ pointOf i = .body

/-- An instruction that is an operation. -/
theorem of_operation {i : Instr} (henc : ∀ cx, encode cx i = none) (he : ∀ e : Entry, i ≠ e.toInstr)
    (hh : ∀ h, i ≠ .hdr3 h ∧ i ≠ .hdr4 h) : Statement i := by
  intro cx
  rw [henc cx]
  exact ⟨he, hh⟩

/-- An instruction that is an entry. -/
theorem of_entry {i : Instr} (e : Entry) (hi : i = e.toInstr) (henc : ∀ cx, encode cx i = some (encodeEntry cx e))
    (hp : pointOf i = .body) : Statement i := by
  intro cx
  rw [henc cx]
  exact .inr ⟨e, hi, width_eq_length cx e, hp⟩

theorem hdr3 (h : Header) : Statement (.hdr3 h) :=
  fun _ => .inl ⟨h, .inl rfl, by simp [encodeHeader, Header.fields, fieldsWidth, HdrRsv0.bits], rfl⟩

theorem hdr4 (h : Header) : Statement (.hdr4 h) :=
  fun _ => .inl ⟨h, .inr rfl, by simp [encodeHeader, Header.fields, fieldsWidth, HdrRsv0.bits], rfl⟩

theorem lit (c : Word) : Statement (.lit c) :=
  of_entry (.lit c) rfl (fun _ => rfl) rfl

theorem litr (n : Nat) (c : Word) : Statement (.litr n c) :=
  of_entry (.litr n c) rfl (fun _ => rfl) rfl

theorem reserved011 (bits : List Bool) : Statement (.reserved011 bits) :=
  of_entry (.reserved011 bits) rfl (fun _ => rfl) rfl

theorem pal (i : Nat) : Statement (.pal i) :=
  of_entry (.pal i) rfl (fun _ => rfl) rfl

theorem palr (n i : Nat) : Statement (.palr n i) :=
  of_entry (.palr n i) rfl (fun _ => rfl) rfl

theorem nlit (c : Word) : Statement (.nlit c) :=
  of_entry (.nlit c) rfl (fun _ => rfl) rfl

theorem nrun (n : Nat) (c : Word) : Statement (.nrun n c) :=
  of_entry (.nrun n c) rfl (fun _ => rfl) rfl

theorem bsInit (buf : BufId) (size : Nat) (readOnly : Bool) : Statement (.bsInit buf size readOnly) :=
  of_operation (fun _ => rfl) (fun e => by cases e <;> nofun) (fun _ => ⟨nofun, nofun⟩)

theorem bsWrite (v n : Nat) : Statement (.bsWrite v n) :=
  of_operation (fun _ => rfl) (fun e => by cases e <;> nofun) (fun _ => ⟨nofun, nofun⟩)

theorem bsRead (n : Nat) : Statement (.bsRead n) :=
  of_operation (fun _ => rfl) (fun e => by cases e <;> nofun) (fun _ => ⟨nofun, nofun⟩)

theorem bsSkip (n : Nat) : Statement (.bsSkip n) :=
  of_operation (fun _ => rfl) (fun e => by cases e <;> nofun) (fun _ => ⟨nofun, nofun⟩)

theorem pixGet8888 (buf : BufId) (i : Nat) : Statement (.pixGet8888 buf i) :=
  of_operation (fun _ => rfl) (fun e => by cases e <;> nofun) (fun _ => ⟨nofun, nofun⟩)

theorem pixGet4444 (buf : BufId) (i : Nat) : Statement (.pixGet4444 buf i) :=
  of_operation (fun _ => rfl) (fun e => by cases e <;> nofun) (fun _ => ⟨nofun, nofun⟩)

theorem pixGet1555 (buf : BufId) (i : Nat) : Statement (.pixGet1555 buf i) :=
  of_operation (fun _ => rfl) (fun e => by cases e <;> nofun) (fun _ => ⟨nofun, nofun⟩)

theorem pixGetLut8 (buf : BufId) (i : Nat) : Statement (.pixGetLut8 buf i) :=
  of_operation (fun _ => rfl) (fun e => by cases e <;> nofun) (fun _ => ⟨nofun, nofun⟩)

theorem pixGetLut4 (buf : BufId) (i : Nat) : Statement (.pixGetLut4 buf i) :=
  of_operation (fun _ => rfl) (fun e => by cases e <;> nofun) (fun _ => ⟨nofun, nofun⟩)

theorem pixSet8888 (buf : BufId) (i : Nat) (c : Color) : Statement (.pixSet8888 buf i c) :=
  of_operation (fun _ => rfl) (fun e => by cases e <;> nofun) (fun _ => ⟨nofun, nofun⟩)

theorem pixSet4444 (buf : BufId) (i : Nat) (c : Color) : Statement (.pixSet4444 buf i c) :=
  of_operation (fun _ => rfl) (fun e => by cases e <;> nofun) (fun _ => ⟨nofun, nofun⟩)

theorem pixSet1555 (buf : BufId) (i : Nat) (c : Color) : Statement (.pixSet1555 buf i c) :=
  of_operation (fun _ => rfl) (fun e => by cases e <;> nofun) (fun _ => ⟨nofun, nofun⟩)

theorem pixSetLut8 (buf : BufId) (i : Nat) (c : Color) : Statement (.pixSetLut8 buf i c) :=
  of_operation (fun _ => rfl) (fun e => by cases e <;> nofun) (fun _ => ⟨nofun, nofun⟩)

theorem pixSetLut4 (buf : BufId) (i : Nat) (c : Color) : Statement (.pixSetLut4 buf i c) :=
  of_operation (fun _ => rfl) (fun e => by cases e <;> nofun) (fun _ => ⟨nofun, nofun⟩)

theorem pixPreprocess (buf : BufId) (i : Nat) (fmt : BitVec 4) (rgbTrunc alphaTrunc : BitVec 2) (zeroize : Bool) :
    Statement (.pixPreprocess buf i fmt rgbTrunc alphaTrunc zeroize) :=
  of_operation (fun _ => rfl) (fun e => by cases e <;> nofun) (fun _ => ⟨nofun, nofun⟩)

theorem palInit (k : Nat) : Statement (.palInit k) :=
  of_operation (fun _ => rfl) (fun e => by cases e <;> nofun) (fun _ => ⟨nofun, nofun⟩)

theorem palLookup (c : Color) : Statement (.palLookup c) :=
  of_operation (fun _ => rfl) (fun e => by cases e <;> nofun) (fun _ => ⟨nofun, nofun⟩)

theorem palPush (c : Color) : Statement (.palPush c) :=
  of_operation (fun _ => rfl) (fun e => by cases e <;> nofun) (fun _ => ⟨nofun, nofun⟩)

theorem palLruUpdate (j : Nat) : Statement (.palLruUpdate j) :=
  of_operation (fun _ => rfl) (fun e => by cases e <;> nofun) (fun _ => ⟨nofun, nofun⟩)

theorem palGet (j : Nat) : Statement (.palGet j) :=
  of_operation (fun _ => rfl) (fun e => by cases e <;> nofun) (fun _ => ⟨nofun, nofun⟩)

theorem encPixel (c : Color) : Statement (.encPixel c) :=
  of_operation (fun _ => rfl) (fun e => by cases e <;> nofun) (fun _ => ⟨nofun, nofun⟩)

theorem encStartRun (c : Color) : Statement (.encStartRun c) :=
  of_operation (fun _ => rfl) (fun e => by cases e <;> nofun) (fun _ => ⟨nofun, nofun⟩)

theorem encFlush : Statement (.encFlush) :=
  of_operation (fun _ => rfl) (fun e => by cases e <;> nofun) (fun _ => ⟨nofun, nofun⟩)

theorem encSyntax (mode : Mode) (n : Nat) (code : Word) : Statement (.encSyntax mode n code) :=
  of_operation (fun _ => rfl) (fun e => by cases e <;> nofun) (fun _ => ⟨nofun, nofun⟩)

theorem encFinish (output : HostBuf) (outCap : Nat) : Statement (.encFinish output outCap) :=
  of_operation (fun _ => rfl) (fun e => by cases e <;> nofun) (fun _ => ⟨nofun, nofun⟩)

theorem encode (args : EncodeArgs) : Statement (.encode args) :=
  of_operation (fun _ => rfl) (fun e => by cases e <;> nofun) (fun _ => ⟨nofun, nofun⟩)

theorem decPrefix : Statement (.decPrefix) :=
  of_operation (fun _ => rfl) (fun e => by cases e <;> nofun) (fun _ => ⟨nofun, nofun⟩)

theorem decEmit : Statement (.decEmit) :=
  of_operation (fun _ => rfl) (fun e => by cases e <;> nofun) (fun _ => ⟨nofun, nofun⟩)

theorem decode (args : DecodeArgs) : Statement (.decode args) :=
  of_operation (fun _ => rfl) (fun e => by cases e <;> nofun) (fun _ => ⟨nofun, nofun⟩)

theorem hdrEncode : Statement (.hdrEncode) :=
  of_operation (fun _ => rfl) (fun e => by cases e <;> nofun) (fun _ => ⟨nofun, nofun⟩)

theorem hdrDecode : Statement (.hdrDecode) :=
  of_operation (fun _ => rfl) (fun e => by cases e <;> nofun) (fun _ => ⟨nofun, nofun⟩)

theorem setRect (attrs : CanvasAttrs) (x y w h : Int) (filled : Bool) (t : Int) (color : Nat) :
    Statement (.setRect attrs x y w h filled t color) :=
  of_operation (fun _ => rfl) (fun e => by cases e <;> nofun) (fun _ => ⟨nofun, nofun⟩)

theorem setLine (attrs : CanvasAttrs) (x0 y0 x1 y1 t : Int) (color : Nat) :
    Statement (.setLine attrs x0 y0 x1 y1 t color) :=
  of_operation (fun _ => rfl) (fun e => by cases e <;> nofun) (fun _ => ⟨nofun, nofun⟩)

theorem setBitmap (attrs : CanvasAttrs) (x y w h : Int) (src : HostBuf) (stride : Nat) :
    Statement (.setBitmap attrs x y w h src stride) :=
  of_operation (fun _ => rfl) (fun e => by cases e <;> nofun) (fun _ => ⟨nofun, nofun⟩)

theorem estimate (args : EstimateArgs) : Statement (.estimate args) :=
  of_operation (fun _ => rfl) (fun e => by cases e <;> nofun) (fun _ => ⟨nofun, nofun⟩)

theorem draw (args : DrawArgs) : Statement (.draw args) :=
  of_operation (fun _ => rfl) (fun e => by cases e <;> nofun) (fun _ => ⟨nofun, nofun⟩)

end Sys2Proof.Laws.EncodingShape
end

