-- ==== Sys2Proof/Laws/Raster.lean ====
section
/-! SUPPORT. Which canvases the slices of a canvas allow, that none of them takes more than `mostBits`, and what the result
registers of an estimate hold. -/

namespace Sys2Proof.Laws

open Sys2Proof.Machine

theorem wordStretches_append (a b : List (Bool × Nat)) : wordStretches (a ++ b) = wordStretches a ++ wordStretches b := by
  simp [wordStretches]

theorem mem_canvasesOf_cons {f : Fmt} {n : Nat} {rest : List Nat} {v : Word} {canvas : List Word}
    (hv : v.toNat < 2 ^ f.bits) (h : canvas ∈ canvasesOf f rest) :
    List.replicate n v ++ canvas ∈ canvasesOf f (n :: rest) := by
  simp only [canvasesOf, List.mem_flatMap, List.mem_range, List.mem_map]
  exact ⟨v.toNat, hv, canvas, h, by rw [BitVec.ofNat_toNat]; simp⟩

theorem mem_canvasesOf_append {f : Fmt} {ns ms : List Nat} {a b : List Word} (ha : a ∈ canvasesOf f ns)
    (hb : b ∈ canvasesOf f ms) : a ++ b ∈ canvasesOf f (ns ++ ms) := by
  induction ns generalizing a with
  | nil => rw [canvasesOf, List.mem_singleton] at ha; rw [ha]; exact hb
  | cons n t ih =>
    simp only [canvasesOf, List.cons_append, List.mem_flatMap, List.mem_map] at ha ⊢
    obtain ⟨w, hw, c, hc, rfl⟩ := ha
    exact ⟨w, hw, c ++ b, ih hc, by rw [List.append_assoc]⟩

/-- One slice: any words for a bitmap, one word for the others. -/
theorem mem_canvasesOf_slice {f : Fmt} {constant : Bool} {v : Word} {canvas : List Word}
    (h : ∀ w ∈ canvas, w.toNat < 2 ^ f.bits) (hv : v.toNat < 2 ^ f.bits)
    (hc : constant = true → canvas = List.replicate canvas.length v) :
    canvas ∈ canvasesOf f (wordStretches [(constant, canvas.length)]) := by
  cases constant with
  | false =>
    simp only [wordStretches, List.flatMap_cons, List.flatMap_nil, List.append_nil, Bool.false_eq_true, if_false]
    clear hc
    induction canvas with
    | nil => simp [canvasesOf]
    | cons w t ih => exact mem_canvasesOf_cons (n := 1) (h w (by simp)) (ih fun u hu => h u (by simp [hu]))
  | true =>
    have := mem_canvasesOf_cons (n := canvas.length) (rest := []) (canvas := []) hv (by simp [canvasesOf])
    rw [← hc rfl] at this
    simpa [wordStretches] using this

theorem mem_prepSettings (rgb alpha : BitVec 2) (z : Bool) : (rgb, alpha, z) ∈ prepSettings := by
  revert rgb alpha z; decide

theorem le_greatest {l : List Nat} {x : Nat} (h : x ∈ l) : x ≤ greatest l := by
  unfold greatest
  induction l with
  | nil => simp at h
  | cons a t ih =>
    rw [List.foldr_cons]
    rcases List.mem_cons.1 h with rfl | h
    · exact Nat.le_max_left _ _
    · exact Nat.le_trans (ih h) (Nat.le_max_right _ _)

theorem greatest_le {l : List Nat} {m : Nat} (h : ∀ x ∈ l, x ≤ m) : greatest l ≤ m := by
  unfold greatest
  induction l with
  | nil => exact Nat.zero_le _
  | cons a t ih =>
    rw [List.foldr_cons]
    exact Nat.max_le.2 ⟨h a (by simp), ih fun x hx => h x (by simp [hx])⟩

/-- Every canvas of these slices is one of those whose bits are counted, whatever its words and its preprocessing. -/
theorem mem_canvasCosts {cx : Ctx} {slices : List (Bool × Nat)} {canvas : List Word}
    (h : canvas ∈ canvasesOf cx.fmt (wordStretches slices)) (rgb alpha : BitVec 2) (z : Bool) :
    canvasBits cx (canvas.map fun w => prep (unpack cx.cfg.channelScale cx.fmt w) rgb alpha z) ∈ canvasCosts cx slices :=
  List.mem_flatMap.2 ⟨_, mem_prepSettings rgb alpha z, List.mem_map.2 ⟨canvas, h, rfl⟩⟩

theorem le_mostBits {cx : Ctx} {slices : List (Bool × Nat)} {b : Nat} (h : b ∈ canvasCosts cx slices) :
    b ≤ mostBits cx slices := le_greatest h

/-- The estimate of slices is what the default charges, or at least the most bits that a canvas of them takes. -/
theorem estimateBits_cases (cx : Ctx) (slices : List (Bool × Nat)) :
    estimateBits cx slices = 64 + totalUnits cx.rl slices * cx.maxWidth ∨ mostBits cx slices ≤ estimateBits cx slices := by
  unfold estimateBits
  split
  · exact .inl rfl
  · exact .inr (Nat.le_max_right _ _)

/-! ## The result registers of an estimate -/

theorem max_lt {a b m : Nat} (ha : a < m) (hb : b < m) : max a b < m := Nat.max_lt.2 ⟨ha, hb⟩

theorem greatest_map_lt {α : Type} {w : Nat} (l : List α) (g : α → BitVec w) :
    greatest (l.map fun x => (g x).toNat) < 2 ^ w := by
  have hp := Nat.two_pow_pos w
  have : greatest (l.map fun x => (g x).toNat) ≤ 2 ^ w - 1 := greatest_le fun x hx => by
    obtain ⟨y, -, rfl⟩ := List.mem_map.1 hx
    have := (g y).isLt
    omega
  omega

/-- `RES.SIZE` of an estimate is never below that of a canvas of the slices it was made for, if its bits are not. -/
theorem estimateSizeReg_ge {cx : Ctx} {slices : List (Bool × Nat)} {b bits : Nat} (h : b ∈ canvasCosts cx slices)
    (hb : b ≤ bits) : (sizeReg (emittedSize b)).toNat ≤ (estimateSizeReg cx slices bits).toNat := by
  have hm : emittedSize b ≤ emittedSize bits := by
    have := Nat.div_le_div_right (c := 128) (Nat.add_le_add_right hb 127)
    show 16 * ((b + 127) / 128) ≤ 16 * ((bits + 127) / 128)
    omega
  unfold estimateSizeReg
  split
  · rename_i hf
    rw [toNat_ofNat_holds hf, sizeReg_held _ (by omega)]
    exact hm
  · rw [toNat_ofNat_holds (max_lt (BitVec.isLt _) (greatest_map_lt _ _))]
    exact Nat.le_trans (le_greatest (List.mem_map.2 ⟨b, h, rfl⟩)) (Nat.le_max_right _ _)

/-- `RES.BITS` of an estimate is never below that of a canvas of the slices it was made for, if its bits are not. -/
theorem estimateBitsReg_ge {cx : Ctx} {slices : List (Bool × Nat)} {b bits : Nat} (h : b ∈ canvasCosts cx slices)
    (hb : b ≤ bits) : (bitsReg b).toNat ≤ (estimateBitsReg cx slices bits).toNat := by
  unfold estimateBitsReg
  split
  · rename_i hf
    rw [toNat_ofNat_holds hf, bitsReg_held _ (by omega)]
    exact hb
  · rw [toNat_ofNat_holds (max_lt (BitVec.isLt _) (greatest_map_lt _ _))]
    exact Nat.le_trans (le_greatest (List.mem_map.2 ⟨b, h, rfl⟩)) (Nat.le_max_right _ _)

/-- What the result registers of an estimate report. -/
theorem estimateRegs_reports (cx : Ctx) (slices : List (Bool × Nat)) :
    (estimateRegs cx slices).reports .ok .none (emittedSize (estimateBits cx slices)) (estimateBits cx slices) :=
  ⟨rfl, rfl, fun h => by
    show (estimateSizeReg cx slices (estimateBits cx slices)).toNat = _
    rw [estimateSizeReg, if_pos h]; exact toNat_ofNat_holds h, fun h => by
    show (estimateBitsReg cx slices (estimateBits cx slices)).toNat = _
    rw [estimateBitsReg, if_pos h]; exact toNat_ofNat_holds h⟩

end Sys2Proof.Laws
end

