-- ==== Sys2Proof/Tests/Slice0.lean ====
section
/-! SUPPORT. The model's own tests. Expected values are those of spec/95_test_vectors.md (the vector is named at each test)
or of the examples inside the rules; the last part shows, for each statement of the obligations that has hypotheses, that
they can be met together. -/

namespace Sys2Proof.Tests

open Sys2Proof.Machine

/- One theorem after the other: kernel evaluations side by side need too much memory. -/
set_option Elab.async false

/-! ## Helpers -/

/-- What is seen of a next state. -/
def seen {α : Type} (r : Result) (view : State → α) : Option α :=
  match r with
  | .next t => some (view t)
  | .fault _ => none
  | .refused _ => none

/-- An instruction answers a next state. -/
def completes (r : Result) : Bool := (seen r fun _ => ()).isSome

/-- A buffer of given bytes and `extra` zero bytes after them. -/
def bytes (vs : List Byte) (extra : Nat) : Buffer := (Buffer.zeros (vs.length + extra)).writeBytes 0 vs

/-- Control values. -/
def ctrlArgs (fmt palSize w h rl : Nat) : CtrlArgs where
  version := none
  fmt := fmt
  palSize := palSize
  alphaTrunc := 0
  rgbTrunc := 0
  width := w
  height := h
  runLenBits := rl
  zeroize := 0

/-- A state with buffers of the host. -/
def hostState (canvas out inp dst : Buffer) : State :=
  { State.reset with canvas := canvas, out := out, inp := inp, dst := dst }

/-- A state whose stream is bound to `SCRATCH`. -/
def streamState (scratch : Buffer) (cap pos : Nat) (ro : Bool) : State :=
  { State.reset with
    scratch := scratch
    bs := { buf := .scratch, cap := cap, ro := ro, pos := pos, status := .ok } }

/-- A Color from numbers, in the order a, r, g, b. -/
def color (a r g b : Nat) : Color where
  a := BitVec.ofNat 8 a
  r := BitVec.ofNat 8 r
  g := BitVec.ofNat 8 g
  b := BitVec.ofNat 8 b

def red : Color := color 255 255 0 0

def green : Color := color 255 0 255 0

/-- `P = 16`, `RL = 3`, the context of vectors T1 to T7. -/
def cx16 (k : Nat) : Ctx := { cfg := Config.default, fmt := .argb1555, k := k, rl := 3 }

/-- The stream of program P1. -/
def streamP1 : List Byte :=
  [0x00, 0x00, 0x00, 0x80, 0x00, 0x00, 0x00, 0x00, 0x03, 0x00, 0xE0, 0xFF, 0x1F, 0x00, 0x00, 0x00]

/-- The stream of program P2. -/
def streamP2 : List Byte :=
  [0x00, 0x00, 0x01, 0x80, 0x01, 0x00, 0x00, 0x00, 0x00, 0x00, 0xFC, 0xFF, 0x03, 0xF0, 0x0F, 0xF0, 0xDF, 0x02,
    0, 0, 0, 0, 0, 0, 0, 0, 0, 0, 0, 0, 0, 0]

/-- The canvas of program P2. -/
def canvasP2 : List Byte := [0x00, 0x00, 0xFF, 0xFF, 0x00, 0xFF, 0x00, 0xFF, 0x00, 0x00, 0xFF, 0xFF, 0x00, 0xFF, 0x00, 0xFF]

/-- The canvas of program P3. -/
def canvasP3 : List Byte := [0xFF, 0xFF, 0xDE, 0xFB, 0xFF, 0xFF, 0xFF, 0xFF, 0xFF, 0xFF, 0xFF, 0xFF, 0x1F, 0x7C]

def stateP1 : State :=
  hostState (bytes [0x00, 0x00, 0xFF, 0xFF, 0x00, 0x00, 0xFF, 0xFF] 0) (Buffer.zeros 64) (bytes streamP1 0) (Buffer.zeros 8)

def stateP2 : State := hostState (bytes canvasP2 0) (Buffer.zeros 64) (bytes streamP2 0) (Buffer.zeros 16)

def encodeP2 (outCap : Nat) : EncodeArgs where
  ctrl := ctrlArgs 0 2 4 1 4
  canvas := .canvas
  out := .out
  outCap := outCap
  allocOk := true

def decodeArgs (rl inSize dstCap : Nat) : DecodeArgs where
  runLenBits := rl
  inp := .inp
  inSize := inSize
  dst := .dst
  dstCap := dstCap
  expect := none
  allocOk := true

/-- A `DECODE` inside its loop: ARGB1555, `K = 4`, `RL = 3`, eight pixels left of eight, a stream of 10 bytes. -/
def loopState (k : BitVec 8) (pal : List Color) : State :=
  { State.reset with
    inp := Buffer.zeros 10
    dst := Buffer.zeros 16
    bs := { buf := .host .inp, cap := 80, ro := true, pos := 64 - 6, status := .ok }
    ctrl := { State.reset.ctrl with fmt := 2, palSize := k, width := 8, height := 1, runLenBits := 3 }
    job := { dst := .dst, dstCap := 16, expect := none }
    dec := { State.reset.dec with remaining := 8 }
    pal := pal
    phase := .entries }

/-! ## Ill-formed terms are refused -/

theorem test_wf_header_layout : (Instr.hdr4 (headerOfValues [])).wf (cx16 4) = false := by decide

theorem test_wf_lit_without_palette : (Instr.lit 1).wf (cx16 1) = false := by decide

theorem test_wf_lit_word_too_wide : (Instr.lit 0x10000).wf (cx16 4) = false := by decide

theorem test_wf_litr_run_zero : (Instr.litr 0 1).wf (cx16 4) = false := by decide

theorem test_wf_litr_run_too_long : (Instr.litr 9 1).wf (cx16 4) = false := by decide

theorem test_wf_reserved_spells_an_entry : (Instr.reserved011 [false, true, false]).wf (cx16 4) = false := by decide

theorem test_wf_pal_index_too_wide : (Instr.pal 4).wf (cx16 4) = false := by decide

theorem test_wf_palr_run_too_long : (Instr.palr 9 0).wf (cx16 4) = false := by decide

theorem test_wf_nlit_with_palette : (Instr.nlit 1).wf (cx16 4) = false := by decide

theorem test_wf_nrun_run_too_long : (Instr.nrun 9 1).wf (cx16 0) = false := by decide

theorem test_wf_write_too_wide : (Instr.bsWrite 0 17).wf (cx16 4) = false := by decide

theorem test_wf_read_too_wide : (Instr.bsRead 33).wf (cx16 4) = false := by decide

theorem test_wf_preprocess_no_format : (Instr.pixPreprocess .scratch 0 5 0 0 false).wf (cx16 4) = false := by decide

theorem test_wf_palette_capacity : (Instr.palInit 1).wf (cx16 4) = false ∧ (Instr.palInit 256).wf (cx16 4) = false := by
  decide

theorem test_wf_lookup_without_palette : (Instr.palLookup red).wf (cx16 0) = false := by decide

theorem test_wf_push_without_palette : (Instr.palPush red).wf (cx16 0) = false := by decide

theorem test_wf_slot_past_capacity :
    (Instr.palLruUpdate 4).wf (cx16 4) = false ∧ (Instr.palGet 4).wf (cx16 4) = false := by decide

theorem test_wf_syntax_run_zero : (Instr.encSyntax .literal 0 1).wf (cx16 4) = false := by decide

theorem test_wf_encode_same_buffer :
    (Instr.encode { encodeP2 64 with canvas := .out }).wf (cx16 4) = false := by decide

theorem test_wf_control_values :
    [{ ctrlArgs 5 2 4 1 4 with version := some 0 }, { ctrlArgs 0 2 4 1 4 with version := some 256 }, ctrlArgs 0 256 4 1 4,
      { ctrlArgs 0 2 4 1 4 with alphaTrunc := 4 }, { ctrlArgs 0 2 4 1 4 with rgbTrunc := 4 }, ctrlArgs 0 2 0 1 4,
      ctrlArgs 0 2 65537 1 4, ctrlArgs 0 2 4 0 4, ctrlArgs 0 2 4 65537 4, ctrlArgs 0 2 4 1 0, ctrlArgs 0 2 4 1 17,
      { ctrlArgs 0 2 4 1 4 with zeroize := 2 }].all (fun a => !a.legal Config.default) = true := by decide

theorem test_wf_decode_run_length :
    (Instr.decode (decodeArgs 0 16 8)).wf (cx16 4) = false ∧ (Instr.decode (decodeArgs 17 16 8)).wf (cx16 4) = false := by
  decide

theorem test_wf_decode_same_buffer : (Instr.decode { decodeArgs 4 16 8 with dst := .inp }).wf (cx16 4) = false := by decide

theorem test_wf_decode_expectation :
    (Instr.decode { decodeArgs 4 16 8 with expect := some (0, 1) }).wf (cx16 4) = false
      ∧ (Instr.decode { decodeArgs 4 16 8 with expect := some (1, 65537) }).wf (cx16 4) = false := by decide

theorem test_wf_object_colours :
    (Instr.setRect { fmt := 2, width := 8, height := 8 } 0 0 4 4 true 1 0x10000).wf (cx16 4) = false
      ∧ (Instr.setLine { fmt := 2, width := 8, height := 8 } 0 0 4 4 1 0x10000).wf (cx16 4) = false
      ∧ (Instr.setBitmap { fmt := 5, width := 8, height := 8 } 0 0 4 4 (.bmp 0) 8).wf (cx16 4) = false := by decide

theorem test_wf_background :
    (Instr.estimate { ctrl := ctrlArgs 2 2 4 1 4, bg := 0x10000, allocOk := true }).wf (cx16 4) = false
      ∧ (Instr.draw { ctrl := ctrlArgs 2 2 4 1 4, bg := 0x10000, out := .out, outCap := 0, allocOk := true }).wf (cx16 4)
        = false := by decide

/-! ## Decoding: the bit strings of vectors T1 to T7, the bytes of 45_header.md R265 and of vector H12 -/

/-- A bit string as the vectors write it. -/
def bitString (ds : List Nat) : List Bool := ds.map fun d => decide (d = 1)

/-- The word `8001` in stream order. -/
def word8001 : List Nat := [1, 0, 0, 0, 0, 0, 0, 0, 0, 0, 0, 0, 0, 0, 0, 1]

theorem test_decode_lit : decodeEntry (cx16 4) (bitString ([0, 0] ++ word8001)) = .ok (.lit 0x8001, []) := by decide

theorem test_decode_litr :
    decodeEntry (cx16 4) (bitString ([0, 1, 0] ++ [0, 0, 1] ++ word8001)) = .ok (.litr 5 0x8001, []) := by decide

theorem test_decode_reserved :
    decodeEntry (cx16 4) (bitString [0, 1, 1, 1]) = .ok (.reserved011 [false, true, true], [true]) := by decide

theorem test_decode_pal : decodeEntry (cx16 4) (bitString [1, 0, 0, 1]) = .ok (.pal 2, []) := by decide

theorem test_decode_palr : decodeEntry (cx16 4) (bitString [1, 1, 1, 1, 1, 1, 0]) = .ok (.palr 8 1, []) := by decide

theorem test_decode_nlit : decodeEntry (cx16 0) (bitString ([0] ++ word8001)) = .ok (.nlit 0x8001, []) := by decide

theorem test_decode_nrun :
    decodeEntry (cx16 0) (bitString ([1] ++ [1, 1, 1] ++ word8001)) = .ok (.nrun 8 0x8001, []) := by decide

theorem test_encode_entries :
    encodeEntry (cx16 4) (.litr 5 0x8001) = bitString ([0, 1, 0] ++ [0, 0, 1] ++ word8001)
      ∧ encodeEntry (cx16 4) (.palr 8 1) = bitString [1, 1, 1, 1, 1, 1, 0] := by decide

/-- Bytes as stream bits, bit 0 of each first. -/
def bitsOfBytes (vs : List Nat) : List Bool := vs.flatMap (bitsOfNat 8)

/-- The header of vector H7. -/
def headerH7 : Header where
  version := 0
  format := 2
  palSize := 4
  alphaTrunc := 0
  rgbTrunc := 1
  widthM1 := 6
  heightM1 := 0

/-- The header of vector H10. -/
def headerH10 : Header where
  version := 1
  format := 2
  palSize := 16
  alphaTrunc := 1
  rgbTrunc := 2
  widthM1 := 639
  heightM1 := 479

theorem test_decode_header_three :
    decodeHeader .three .lsbFirst (bitsOfBytes [0x01, 0x02, 0x88, 0x90, 0x3F, 0x81, 0xEF, 0x00]) = .ok (headerH10, []) := by
  decide

theorem test_decode_header_four :
    decodeHeader .four .lsbFirst (bitsOfBytes [0x01, 0x02, 0x10, 0x21, 0x7F, 0x02, 0xDF, 0x01]) = .ok (headerH10, []) := by
  decide

theorem test_decode_header_reserved_bits_ignored :
    decodeHeader .three .lsbFirst (bitsOfBytes [0xA5, 0x72, 0x02, 0x6E, 0x03, 0x00, 0x00, 0x80]) =
      .ok ({ headerH7 with version := 0xA5 }, []) := by decide

theorem test_encode_header :
    encodeHeader .three .lsbFirst headerH10 = bitsOfBytes [0x01, 0x02, 0x88, 0x90, 0x3F, 0x81, 0xEF, 0x00]
      ∧ encodeHeader .four .lsbFirst headerH10 = bitsOfBytes [0x01, 0x02, 0x10, 0x21, 0x7F, 0x02, 0xDF, 0x01] := by decide

theorem test_table_words :
    decodeTableWord 8 0x00 = some (.lit 0) ∧ decodeTableWord 8 0x02 = some (.litr 1 0)
      ∧ decodeTableWord 8 0x06 = some (.reserved011 [false, true, true]) ∧ decodeTableWord 8 0x01 = some (.pal 0)
      ∧ decodeTableWord 8 0x03 = some (.palr 1 0) := by decide

theorem test_fetch_word_runs :
    seen (step (State.reset.withFetchWord 8 0x3C)) (fun t => (t.dec.remaining, t.dst.read 0)) = some (3, 0x0F) := by
  decide +kernel

theorem test_fetch_header_runs :
    seen (step (State.reset.withFetchWord 64 0x0000000308020200)) (fun t => (t.ctrl.width, t.ctrl.palSize, t.phase)) =
      some (7, 4, .setup) := by decide +kernel

/-! ## One step of each instruction -/

/-- Vector H7 read with both layouts. -/
theorem test_hdr3 : seen (exec (.hdr3 headerH7) (streamState (Buffer.zeros 8) 64 0 true))
    (fun t => (t.bs.pos, t.ctrl.fmt, t.ctrl.palSize, t.ctrl.rgbTrunc, t.ctrl.width, t.ctrl.height)) =
      some (64, 2, 4, 1, 7, 1) := by decide

theorem test_hdr4 : seen (exec (.hdr4 headerH7) (streamState (Buffer.zeros 8) 64 0 true))
    (fun t => (t.bs.pos, t.ctrl.version, t.ctrl.width, t.ctrl.height)) = some (64, 0, 7, 1) := by decide

/-- The table "Effect of each kind on the decoder" of section 2.5. -/
theorem test_lit : seen (exec (.lit 0x8001) (loopState 4 (graySeed 4)))
    (fun t => (t.bs.pos, t.pal, t.dst.readBytes 0 4, t.dec.remaining)) =
      some (76, color 1 0 0 1 :: graySeed 4 |>.take 4, [0x01, 0x80, 0, 0], 7) := by decide

theorem test_litr : seen (exec (.litr 2 0x8001) (loopState 4 (graySeed 4)))
    (fun t => (t.bs.pos, t.pal.length, t.dst.readBytes 0 6, t.dec.remaining)) =
      some (80, 4, [0x01, 0x80, 0x01, 0x80, 0, 0], 6) := by decide

/-- Vector F4, and a reserved string that is cut off. -/
theorem test_reserved : seen (exec (.reserved011 [false, true, true]) (loopState 4 (graySeed 4)))
    (fun t => (t.res, t.phase)) =
      some ({ status := .malformed, cause := .reservedPrefix, size := 0, bits := 61 }, .idle) := by decide

theorem test_pal : seen (exec (.pal 2) (loopState 4 [color 1 0 0 0, color 1 1 1 1, color 1 0 0 1, color 0 0 0 0]))
    (fun t => (t.bs.pos, t.pal, t.dst.readBytes 0 4)) =
      some (62, [color 1 0 0 1, color 1 0 0 0, color 1 1 1 1, color 0 0 0 0], [0x01, 0x80, 0, 0]) := by decide

/-- Vector F5: an index without a slot. -/
theorem test_pal_bad_index : seen (exec (.pal 3) (loopState 3 (graySeed 3))) (fun t => (t.res.cause, t.res.bits, t.pal)) =
    some (.badIndex, 62, graySeed 3) := by decide

theorem test_palr : seen (exec (.palr 8 0) (loopState 4 (graySeed 4)))
    (fun t => (t.bs.pos, t.pal, t.dec.remaining, t.dec.outpix)) = some (65, graySeed 4, 0, 8) := by decide

theorem test_nlit : seen (exec (.nlit 0x8001) (loopState 0 [])) (fun t => (t.bs.pos, t.pal, t.dst.readBytes 0 4)) =
    some (75, [], [0x01, 0x80, 0, 0]) := by decide

/-- As vector F6: a run longer than the pixels that remain writes none of them. -/
theorem test_nrun_overrun :
    seen (exec (.nrun 8 0x8001) { loopState 0 [] with dec := { (loopState 0 []).dec with remaining := 7 } })
      (fun t => (t.res.cause, t.res.bits, t.dst.cells, t.dec.remaining)) = some (.runOverrun, 78, [], 7) := by decide

/-- Vectors S1 and S15. -/
theorem test_bsInit : seen (exec (.bsInit .scratch 4 false) State.reset) (fun t => (t.bs, t.scratch)) =
    some ({ buf := .scratch, cap := 32, ro := false, pos := 0, status := .ok }, Buffer.zeros 4) := by decide

/-- Vectors S3 and S5. -/
theorem test_bsWrite : seen (exec (.bsWrite 0xFFFF 16) (streamState (bytes [5, 0, 0, 0] 0) 32 3 false))
    (fun t => (t.scratch.readBytes 0 4, t.bs.pos, t.bs.status)) = some ([0xFD, 0xFF, 0x07, 0x00], 19, .ok) := by
  decide +kernel

theorem test_bsWrite_overflow : seen (exec (.bsWrite 1 1) (streamState (bytes [0xFD, 0xFF, 0xA7, 0x91] 0) 32 32 false))
    (fun t => (t.bs.pos, t.bs.status)) = some (33, .overflow) := by decide

/-- Vectors S11 and S10. -/
theorem test_bsRead : seen (exec (.bsRead 12) (streamState (bytes [0xAB, 0xCD] 0) 16 0 true)) (fun t => (t.ret, t.bs.pos)) =
    some (.bits 0xDAB, 12) := by decide

theorem test_bsRead_past_end : seen (exec (.bsRead 1) (streamState (bytes [0xAB, 0xCD] 0) 16 16 true))
    (fun t => (t.bs.pos, t.bs.status)) = some (16, .overflow) := by decide

/-- Vector S13. -/
theorem test_bsSkip : seen (exec (.bsSkip 9) (streamState (bytes [0xAB, 0xCD] 0) 16 15 true))
    (fun t => (t.bs.pos, t.bs.status)) = some (16, .ok) := by decide

/-- A state with a canvas. -/
def pixelState (vs : List Byte) : State := hostState (bytes vs 0) Buffer.empty Buffer.empty Buffer.empty

/-- Vectors X1 to X7. -/
theorem test_pixGet8888 : seen (exec (.pixGet8888 (.host .canvas) 0) (pixelState [0x56, 0x34, 0x12, 0x80])) State.ret =
    some (.color (color 128 18 52 86)) := by decide

theorem test_pixGet4444 : seen (exec (.pixGet4444 (.host .canvas) 1) (pixelState [0, 0, 0xBC, 0xFA])) State.ret =
    some (.color (color 15 10 11 12)) := by decide

theorem test_pixGet1555 : seen (exec (.pixGet1555 (.host .canvas) 0) (pixelState [0xDE, 0xFB])) State.ret =
    some (.color (color 1 30 30 30)) := by decide

theorem test_pixGetLut8 : seen (exec (.pixGetLut8 (.host .canvas) 0) (pixelState [0xC7])) State.ret =
    some (.color (color 199 0 0 0)) := by decide

theorem test_pixGetLut4 : seen (exec (.pixGetLut4 (.host .canvas) 1) (pixelState [0x73])) State.ret =
    some (.color (color 7 0 0 0)) := by decide

/-- Vectors X1, X11, X3, X10, X8, X9. -/
theorem test_pixSet8888 :
    seen (exec (.pixSet8888 (.host .canvas) 0 (color 128 18 52 86)) (pixelState [0, 0, 0, 0, 9]))
      (fun t => t.canvas.readBytes 0 5) = some [0x56, 0x34, 0x12, 0x80, 9] := by decide

theorem test_pixSet4444 : seen (exec (.pixSet4444 (.host .canvas) 0 (color 0x1F 0x2A 3 4)) (pixelState [0, 0]))
    (fun t => t.canvas.readBytes 0 2) = some [0x34, 0xFA] := by decide

theorem test_pixSet1555 : seen (exec (.pixSet1555 (.host .canvas) 0 (color 1 30 30 30)) (pixelState [0, 0]))
    (fun t => t.canvas.readBytes 0 2) = some [0xDE, 0xFB] := by decide

theorem test_pixSetLut8 : seen (exec (.pixSetLut8 (.host .canvas) 0 (color 200 1 2 3)) (pixelState [0]))
    (fun t => t.canvas.readBytes 0 1) = some [0xC8] := by decide

theorem test_pixSetLut4_high : seen (exec (.pixSetLut4 (.host .canvas) 1 (color 9 0 0 0)) (pixelState [0x73]))
    (fun t => t.canvas.readBytes 0 1) = some [0x93] := by decide

theorem test_pixSetLut4_low : seen (exec (.pixSetLut4 (.host .canvas) 0 (color 9 0 0 0)) (pixelState [0x73]))
    (fun t => t.canvas.readBytes 0 1) = some [0x79] := by decide

/-- Vectors X27 and X20 to X22, X31. -/
theorem test_pixPreprocess : seen (exec (.pixPreprocess (.host .canvas) 0 2 1 0 true) (pixelState [0xFF, 0xFF]))
    (fun t => (t.ret, t.canvas.readBytes 0 2)) = some (.color (color 1 30 30 30), [0xDE, 0xFB]) := by decide

theorem test_prep_vectors :
    prep (color 3 18 52 86) 3 2 true = color 0 0 0 0 ∧ prep (color 3 18 52 86) 3 2 false = color 0 16 48 80
      ∧ prep (color 255 18 52 86) 3 2 true = color 252 16 48 80 ∧ prep (color 199 0 0 0) 0 3 false = color 192 0 0 0 := by
  decide

/-- Vectors A2, and A7 steps 1, 2, 7. -/
theorem test_palInit : seen (exec (.palInit 3) State.reset) State.pal = some [gray 0, gray 85, gray 170] := by decide

theorem test_palLookup_hit : seen (exec (.palLookup (gray 128)) { State.reset with pal := graySeed 4 })
    (fun t => (t.ret, t.pal)) = some (.lookup (some 2), [gray 128, gray 0, gray 64, gray 192]) := by decide

theorem test_palLookup_miss : seen (exec (.palLookup red) { State.reset with pal := [gray 128, gray 0, gray 64, gray 192] })
    (fun t => (t.ret, t.pal)) = some (.lookup none, [red, gray 128, gray 0, gray 64]) := by decide

theorem test_palPush : seen (exec (.palPush red) { State.reset with pal := graySeed 3 }) State.pal =
    some [red, gray 0, gray 85] := by decide

theorem test_palLruUpdate : seen (exec (.palLruUpdate 2) { State.reset with pal := graySeed 4 }) State.pal =
    some [gray 128, gray 0, gray 64, gray 192] := by decide

theorem test_palGet :
    seen (exec (.palGet 2) { State.reset with pal := [color 4 1 2 3, gray 0, gray 192, red] }) (fun t => (t.ret, t.pal)) =
      some (.color (gray 192), [gray 192, color 4 1 2 3, gray 0, red]) := by decide

/-- Palette mode enabled by `CTRL`, no `PAL.INIT` yet: four slots at their reset value (10_state.md R35, log 37). -/
def unseeded : State := { State.reset with ctrl := { State.reset.ctrl with palSize := 4 } }

theorem test_palLookup_unseeded :
    seen (exec (.palLookup red) unseeded) (fun t => (t.ret, t.pal)) =
        some (.lookup none, [red, Color.zero, Color.zero, Color.zero])
      ∧ seen (exec (.palLookup Color.zero) unseeded) State.ret = some (.lookup (some 0)) := by decide

/-- With no slots at all the cache does not exist (42_palette.md section 1). -/
theorem test_pal_stops :
    exec (.palLookup red) State.reset = .refused .noSuchSlot ∧ exec (.palPush red) State.reset = .refused .noSuchSlot
      ∧ exec (.palGet 4) unseeded = .refused .noSuchSlot ∧ completes (exec (.palGet 3) unseeded) = true
      ∧ exec (.palLruUpdate 4) unseeded = .refused .noSuchSlot := ⟨rfl, rfl, rfl, by decide, rfl⟩

/-- Program P2 after its header: ARGB8888, `K = 2`, `RL = 4`, a scratch buffer of 48 bytes. -/
def encState (run : RunRegs) (pal : List Color) : State :=
  { streamState (Buffer.zeros 48) 384 64 false with
    run := run
    pal := pal
    ctrl := ctrlRegsOf Config.default (ctrlArgs 0 2 4 1 4) }

/-- A state whose `CTRL.FMT` is no format's code. -/
def formatless (s : State) : State := { s with ctrl := { s.ctrl with fmt := 5 } }

def runOf (mode : Mode) (len : Nat) (code : Word) (c : Color) : RunRegs where
  valid := true
  mode := mode
  len := len
  code := code
  color := c

/-- Program P2, pixels 0 and 2, and program P1, pixel 1. -/
theorem test_encStartRun : seen (exec (.encStartRun red) (encState State.reset.run (graySeed 2)))
    (fun t => (t.run, t.pal)) = some (runOf .literal 1 0xFFFF0000 red, [red, gray 0]) := by decide

/-- A hit and a miss where there is no format (60_exceptions.md R320). -/
theorem test_encStartRun_formatless :
    seen (exec (.encStartRun red) (formatless (encState State.reset.run [gray 0, red]))) (fun t => (t.run, t.pal)) =
        some (runOf .palette 1 1 red, [red, gray 0])
      ∧ exec (.encStartRun green) (formatless (encState State.reset.run [gray 0, red])) = .fault .formatDispatch :=
  ⟨by decide, rfl⟩

theorem test_encPixel_flushes : seen (exec (.encPixel green) (encState (runOf .literal 1 0xFFFF0000 red) [red, gray 0]))
    (fun t => (t.bs.pos, t.run, t.scratch.readBytes 8 5)) =
      some (98, runOf .literal 1 0xFF00FF00 green, [0x00, 0x00, 0xFC, 0xFF, 0x03]) := by decide +kernel

theorem test_encPixel_extends : seen (exec (.encPixel red) (encState (runOf .literal 1 0xFFFF0000 red) [red, gray 0]))
    (fun t => (t.bs.pos, t.run.len)) = some (64, 2) := by decide

/-- The first entry of M4: `LITR 3, FFFF0000`. -/
theorem test_encFlush : seen (exec .encFlush (encState (runOf .literal 3 0xFFFF0000 red) [red, gray 0]))
    (fun t => (t.bs.pos, t.scratch.readBytes 8 6)) = some (103, [0x12, 0x00, 0x80, 0xFF, 0x7F, 0x00]) := by decide +kernel

theorem test_encSyntax : seen (exec (.encSyntax .palette 1 1) (formatless (encState State.reset.run [])))
    (fun t => (t.bs.pos, t.scratch.readBytes 8 1)) = some (67, [0x05]) := by decide

theorem test_encFinish :
    seen (exec (.encFinish .out 16) { streamState (bytes streamP1 16) 256 101 false with out := Buffer.zeros 64 })
      (fun t => (t.res, t.out.readBytes 0 17)) =
        some ({ status := .ok, cause := .none, size := 16, bits := 101 }, streamP1 ++ [0]) := by decide

theorem test_encFinish_capacity :
    seen (exec (.encFinish .out 15) { streamState (bytes streamP1 16) 256 101 false with out := Buffer.zeros 64 })
      (fun t => (t.res, t.out)) = some ({ status := .capacity, cause := .none, size := 16, bits := 101 }, Buffer.zeros 64) := by
  decide

/-- Program P2, and program P3 (truncation and zeroize). -/
theorem test_encode_P2 : seen (exec (.encode (encodeP2 64)) stateP2)
    (fun t => (t.res, t.out.readBytes 0 32, t.pal, t.run.len)) =
      some ({ status := .ok, cause := .none, size := 32, bits := 138 }, streamP2, [green, red], 1) := by decide +kernel

theorem test_encode_P3 :
    seen (exec (.encode { encodeP2 64 with ctrl := { ctrlArgs 2 4 7 1 2 with rgbTrunc := 1, zeroize := 1 } })
        { stateP2 with canvas := bytes canvasP3 0 })
      (fun t => (t.res.bits, t.out.readBytes 0 16, t.canvas.readBytes 10 4)) =
        some (109, [0x00, 0x02, 0x02, 0x08, 0x03, 0x00, 0x00, 0x00, 0xDA, 0x7B, 0xFF, 0, 0, 0, 0, 0],
          [0xDE, 0xFB, 0x00, 0x00]) := by decide +kernel

/-- 30_encoding.md R107. -/
theorem test_decPrefix :
    seen (exec .decPrefix (formatless { loopState 4 [] with inp := bytes [0, 0, 0, 0, 0, 0, 0, 0x0C] 2 }))
    (fun t => (t.ret, t.bs.pos)) = some (.kind .palr, 60) := by decide

theorem test_decPrefix_reserved : seen (exec .decPrefix { loopState 4 [] with inp := bytes [0, 0, 0, 0, 0, 0, 0, 0x18] 2 })
    (fun t => (t.res.cause, t.res.bits)) = some (.reservedPrefix, 61) := by decide

theorem test_decEmit :
    seen (exec .decEmit { loopState 4 [] with
        dec := { (loopState 4 []).dec with remaining := 3, outpix := 5, len := 2, color := color 1 30 30 30 } })
      (fun t => (t.dst.readBytes 8 7, t.dec.remaining, t.dec.outpix)) =
        some ([0, 0, 0xDE, 0xFB, 0xDE, 0xFB, 0], 1, 7) := by decide

/-- Program P2, and vector F8. -/
theorem test_decode_P2 : seen (exec (.decode (decodeArgs 4 32 16)) stateP2) (fun t => (t.res, t.dst.readBytes 0 16, t.pal)) =
    some ({ status := .ok, cause := .none, size := 16, bits := 138 }, canvasP2, [green, red]) := by decide +kernel

theorem test_decode_truncated :
    seen (exec (.decode (decodeArgs 4 16 16)) stateP2) (fun t => (t.res, t.dst.readBytes 0 8)) =
      some ({ status := .malformed, cause := .truncated, size := 4, bits := 128 }, [0, 0, 0xFF, 0xFF, 0, 0, 0, 0]) := by
  decide +kernel

/-- Vector H10. -/
theorem test_hdrEncode :
    seen (exec .hdrEncode { streamState (Buffer.zeros 8) 64 0 false with ctrl := {
        version := 1
        fmt := 2
        palSize := 16
        alphaTrunc := 1
        rgbTrunc := 2
        width := 640
        height := 480
        runLenBits := 4
        zeroize := 0 } })
      (fun t => (t.bs.pos, t.scratch.readBytes 0 8)) =
        some (64, [0x01, 0x02, 0x88, 0x90, 0x3F, 0x81, 0xEF, 0x00]) := by decide +kernel

/-- `HDR_VERSION` is the version of an operation whose host gives none (92_eei_decisions.md D7). -/
theorem test_hdr_version :
    (ctrlRegsOf { Config.default with hdrVersion := 7 } (ctrlArgs 2 0 1 1 1)).version = 7
      ∧ (ctrlRegsOf { Config.default with hdrVersion := 7 } { ctrlArgs 2 0 1 1 1 with version := some 9 }).version = 9 := by
  decide

theorem test_hdrDecode :
    seen (exec .hdrDecode (streamState (bytes [0x01, 0x02, 0x88, 0x90, 0x3F, 0x81, 0xEF, 0x00] 0) 64 0 true))
      (fun t => (t.bs.pos, t.ctrl)) = some (64, {
        version := 1
        fmt := 2
        palSize := 16
        alphaTrunc := 1
        rgbTrunc := 2
        width := 640
        height := 480
        runLenBits := 0
        zeroize := 0 }) := by decide +kernel

/-- 46_rasterizer.md R271 to R273. -/
theorem test_setRect :
    seen (exec (.setRect { fmt := 0, width := 8, height := 8 } 0 0 4 4 true 1 0xFF0000FF) State.reset) State.ret =
      some (.object (.rect 0 0 4 4 0xFF0000FF)) := by decide

/-- 93_implementation_defined.md U6: a format code of the host that is none is refused. -/
theorem test_setRect_no_format :
    exec (.setRect { fmt := 5, width := 8, height := 8 } 0 0 4 4 true 1 0) State.reset = .refused .illegalControl := rfl

theorem test_setRect_stroke :
    seen (exec (.setRect { fmt := 0, width := 8, height := 8 } 1 1 6 4 false 2 7) State.reset) State.ret =
      some (.object (.strokeRect 1 1 6 4 2 7)) := by decide

theorem test_setLine :
    seen (exec (.setLine { fmt := 1, width := 8, height := 6 } 0 0 7 5 1 0xF00F) State.reset) State.ret =
      some (.object (.line 0 0 7 5 1 0xF00F)) := by decide

theorem test_setBitmap :
    seen (exec (.setBitmap { fmt := 1, width := 8, height := 6 } 5 0 3 2 (.bmp 0) 6) State.reset) State.ret =
      some (.object (.bitmap 5 0 3 2 (.bmp 0) 6)) := by decide

/-- 46_rasterizer.md R289: the line of the seven that goes past its end point, and the wide one. -/
theorem test_line_cover :
    ((List.range 4).flatMap fun y => ((List.range 5).filter fun x => defaultLineCover 0 0 3 3 2 x y).map fun x => (x, y)) =
      [(0, 0), (1, 0), (1, 1), (2, 1), (2, 2), (3, 2), (3, 3)] := by decide

theorem test_stroke_cover :
    ((List.range 5).flatMap fun y =>
      ((List.range 5).filter fun x => !strokeCover .default 0 0 5 5 2 x y).map fun x => (x, y)) = [(2, 2)] := by decide

/-- Program P6. -/
def stateP6 : State :=
  { hostState Buffer.empty (Buffer.zeros 64) Buffer.empty Buffer.empty with
    bmps := [bytes [0x11, 0xF1, 0x22, 0xF2, 0x33, 0xF3, 0x22, 0xF2, 0x22, 0xF2, 0x44, 0xF4] 0]
    objs := [.strokeRect 1 1 6 4 1 0xFF00, .line 0 0 7 5 1 0xF00F, .bitmap 5 0 3 2 (.bmp 0) 6, .rect 6 4 5 5 0x0000] }

def drawP6 (outCap : Nat) : DrawArgs where
  ctrl := ctrlArgs 1 4 8 6 3
  bg := 0xF000
  out := .out
  outCap := outCap
  allocOk := true

def estimateP6 : EstimateArgs where
  ctrl := ctrlArgs 1 4 8 6 3
  bg := 0xF000
  allocOk := true

theorem test_estimate_P6 : seen (exec (.estimate estimateP6) stateP6) State.res =
    some { status := .ok, cause := .none, size := 96, bits := 746 } := by decide +kernel

/-- By hand from 30_encoding.md R105: three pixels of one word are an `NRUN` of 1 + 2 + 4 bits, one pixel of a bitmap is an
`NLIT` of 1 + 4. -/
theorem test_mostBits_lut4 :
    let cx : Ctx := { cfg := Config.default, fmt := .lut4, k := 0, rl := 2 }
    mostBits cx [(true, 3)] = 64 + 7 ∧ mostBits cx [(false, 1)] = 64 + 5 := by decide +kernel

theorem test_draw_P6 : seen (exec (.draw (drawP6 64)) stateP6) (fun t => (t.res, t.out.readBytes 8 40)) =
    some ({ status := .ok, cause := .none, size := 64, bits := 385 },
      [0x3C, 0xC0, 0x6B, 0x00, 0xF0, 0x44, 0xC4, 0x23, 0x22, 0xCF, 0xCC, 0x7C, 0x2B, 0x0F, 0xF0, 0x0A, 0xC0, 0xBF, 0x22,
        0x22, 0x0F, 0x11, 0x3D, 0x00, 0xF0, 0x5D, 0x3C, 0xC0, 0x9F, 0xF2, 0x54, 0xA7, 0xAC, 0x3C, 0xBD, 0x52, 0x01, 0x00,
        0xB8, 0x9F]) := by decide +kernel

theorem test_draw_P6_capacity : seen (exec (.draw (drawP6 48)) stateP6) (fun t => (t.res, t.out)) =
    some ({ status := .capacity, cause := .none, size := 64, bits := 385 }, Buffer.zeros 64) := by decide +kernel

/-! ## The hypotheses of the statements can be met, at the boundary of each clause

One theorem for each statement of Certificates/Slice0/Obligations.lean that has hypotheses, named after it. -/

/-- A scratch stream of 4 bytes with the cursor at `pos`. -/
def stream4 (pos : Nat) (ro : Bool) : State := streamState (bytes [0xFD, 0xFF, 0xA7, 0x91] 0) 32 pos ro

theorem met_DecodeOfEncode :
    (cx16 4).cfg.legal = true ∧ (Instr.litr 8 0xFFFF).wf (cx16 4) = true
      ∧ encode (cx16 4) (.litr 8 0xFFFF) = some ([false, true, false] ++ List.replicate 19 true)
      ∧ (Instr.hdr3 headerH7).wf (cx16 4) = true ∧ (encode (cx16 4) (.hdr3 headerH7)).isSome = true
      ∧ (Instr.reserved011 [false, true, true]).wf (cx16 4) = true ∧ (Instr.nrun 8 0xFFFF).wf (cx16 1) = true := by decide

theorem met_EncodeOfDecode : decodeEntry (cx16 4) [true, false, true, true, false] = .ok (.pal 3, [false]) := by decide

theorem met_EntryWidths : (cx16 4).cfg.entryCodes = Config.default.entryCodes := rfl

theorem met_BsInitResult :
    initFits (.host .inp) 16 true stateP1 = true ∧ initFits (.host .out) 64 false stateP1 = true
      ∧ initFits .scratch 5 false stateP1 = true ∧ initFits .scratch 0 true stateP1 = true := by decide

theorem met_BsWriteResult :
    (stream4 16 false).bs.ro = false ∧ (stream4 16 false).bsBound = true ∧ 16 ≤ 16
      ∧ (stream4 16 false).bs.pos + 16 = (stream4 16 false).bs.cap
      ∧ (stream4 17 false).bs.cap < (stream4 17 false).bs.pos + 16 ∧ (stream4 17 false).bsBound = true := by decide

theorem met_BsReadResult :
    (stream4 0 true).bsBound = true ∧ (stream4 0 true).bs.pos + 31 < (stream4 0 true).bs.cap
      ∧ (stream4 1 true).bsBound = true ∧ (stream4 1 true).bs.cap < (stream4 1 true).bs.pos + 32 := by decide

theorem met_BsSkipResult :
    (stream4 32 true).bs.pos ≤ (stream4 32 true).bs.cap ∧ (stream4 33 false).bs.cap < (stream4 33 false).bs.pos := by decide

theorem met_BsLaws :
    (stream4 8 false).cfg.bitOrder = .lsbFirst ∧ (stream4 8 false).bsBound = true
      ∧ (stream4 8 false).bs.pos + (11 + 13) = (stream4 8 false).bs.cap
      ∧ initFits .scratch 4 false (stream4 0 false) = true
      ∧ (bsWriteFields [(5, 3), (0xFFFF, 16), (0x1234, 13)] (bsInit .scratch 4 false (stream4 0 false))).bs.status = .ok := by
  decide +kernel

theorem met_StreamOnlyForward : exec (.bsSkip 40) (stream4 0 true) = .next (bsSkip 40 (stream4 0 true)) := rfl

/-- A canvas of 16 bytes, whose last pixel of each format is inside. -/
def canvas16 : State := pixelState canvasP2

theorem met_PixGetResult :
    pixInside .argb8888 (canvas16.buf (.host .canvas)) 3 = true ∧ pixInside .argb4444 (canvas16.buf (.host .canvas)) 7 = true
      ∧ pixInside .argb1555 (canvas16.buf (.host .canvas)) 7 = true ∧ pixInside .lut8 (canvas16.buf (.host .canvas)) 15 = true
      ∧ pixInside .lut4 (canvas16.buf (.host .canvas)) 31 = true := by decide

theorem met_PixGetBytes :
    pixInside .lut4 (canvas16.buf (.host .canvas)) 31 = true ∧ canvas16.cfg.pixelByteOrder = .le
      ∧ canvas16.cfg.channelScale = .raw ∧ canvas16.cfg.lut4Nibbles = .lowFirst := by decide

theorem met_PixSetResult : pixInside .lut4 (canvas16.buf (.host .canvas)) 31 = true
    ∧ pixInside .argb8888 (canvas16.buf (.host .canvas)) 3 = true := by decide

theorem met_PixSetBytes :
    pixInside .argb1555 (canvas16.buf (.host .canvas)) 7 = true ∧ canvas16.cfg.pixelByteOrder = .le
      ∧ canvas16.cfg.channelScale = .raw ∧ canvas16.cfg.lut4Nibbles = .lowFirst := by decide

theorem met_PixPreprocessResult :
    canvas16.cfg.fmtOf 4 = some .lut4 ∧ pixInside .lut4 (canvas16.buf (.host .canvas)) 31 = true
      ∧ canvas16.cfg.fmtOf 5 = none := by decide

theorem met_PrepIdempotent :
    ∃ t, exec (.pixPreprocess (.host .canvas) 31 4 3 3 true) canvas16 = .next t := ⟨_, rfl⟩

theorem met_TranscoderLaws :
    (0xFFFF#32).toNat < 2 ^ Fmt.argb1555.bits ∧ (color 1 31 0 31).fits .argb1555 ∧ (color 15 0 15 15).fits .argb4444
      ∧ (color 15 0 0 0).fits .lut4 ∧ (color 255 0 0 0).fits .lut8 ∧ (color 255 255 255 255).fits .argb8888 := by
  simp only [Color.fits]
  decide

theorem met_PalInitResult :
    (2 ≤ 2 ∧ 255 ≤ 255) ∧ State.reset.cfg.palSeed = .gray ∧ State.reset.cfg.palSeed.legal = true := by decide

/-- A cache with a Color in two slots, as a decoder's can be. -/
def cache : State := { State.reset with pal := [gray 0, red, red, green] }

theorem met_PalLookupResult :
    cache.pal ≠ [] ∧ (cache.slots[1]? = some red ∧ ∀ i, i < 1 → cache.slots[i]? ≠ some red)
      ∧ (cache.slots[3]? = some green ∧ ∀ i, i < 3 → cache.slots[i]? ≠ some green) ∧ gray 64 ∉ cache.slots
      ∧ unseeded.palEn = true ∧ red ∉ unseeded.slots ∧ unseeded.slots[0]? = some Color.zero := by decide

theorem met_PalSlotMoves :
    cache.pal ≠ [] ∧ cache.slots[0]? = some (gray 0) ∧ cache.slots[3]? = some green ∧ unseeded.palEn = true
      ∧ unseeded.slots[3]? = some Color.zero := by decide

theorem met_MirrorLaw :
    cache.pal ≠ [] ∧ unseeded.palEn = true ∧ seen (exec (.palLookup red) cache) State.ret = some (.lookup (some 1))
      ∧ seen (exec (.palLookup (gray 64)) cache) State.ret = some (.lookup none) := by decide

theorem met_PaletteNoDuplicates :
    let s := encState State.reset.run (graySeed 2)
    s.slots.Nodup ∧ s.palEn = true ∧ s.pal.length = s.palSize ∧ unseeded.palEn = true
      ∧ completes (exec (.palLookup red) s) = true ∧ completes (exec (.encStartRun red) s) = true
      ∧ completes (exec (.encPixel red) s) = true := by decide

theorem met_LruProperty : [red, green, gray 64].Nodup ∧ (graySeed 3).length ≤ [red, green, gray 64].length := by decide

theorem met_EncStartRunResult :
    (encState State.reset.run [gray 0, red]).fmt? = some .argb8888 ∧ (encState State.reset.run [gray 0, red]).palEn = true
      ∧ green ∉ (encState State.reset.run [gray 0, red]).slots ∧ (encState State.reset.run [gray 0, red]).slots[1]? = some red
      ∧ (∀ i, i < 1 → (encState State.reset.run [gray 0, red]).slots[i]? ≠ some red)
      ∧ { encState State.reset.run [] with ctrl := ctrlRegsOf Config.default (ctrlArgs 0 1 4 1 4) }.palEn = false
      ∧ (formatless (encState State.reset.run [gray 0, red])).fmt? = none
      ∧ (formatless (encState State.reset.run [gray 0, red])).palEn = true := by decide

theorem met_EncPixelResult :
    (encState State.reset.run (graySeed 2)).fmt? = some .argb8888 ∧ (encState State.reset.run (graySeed 2)).run.valid = false
      ∧ (encState (runOf .literal 15 0 red) []).run.len ≠ 2 ^ (encState (runOf .literal 15 0 red) []).rl
      ∧ (encState (runOf .literal 16 0 red) []).run.len = 2 ^ (encState (runOf .literal 16 0 red) []).rl
      ∧ (encState (runOf .literal 16 0 red) []).run.valid = true ∧ (encState (runOf .literal 16 0 red) []).bs.ro = false
      ∧ (encState (runOf .literal 16 0 red) []).rl ≤ 16 ∧ (encState (runOf .literal 16 0 red) []).bsBound = true
      ∧ (formatless (encState (runOf .palette 16 1 red) [gray 0, red])).fmt? = none
      ∧ (formatless (encState (runOf .palette 16 1 red) [gray 0, red])).palEn = true
      ∧ red ∈ (formatless (encState (runOf .palette 16 1 red) [gray 0, red])).slots := by decide

theorem met_EncSyntaxResult :
    (encState State.reset.run []).fmt? = some .argb8888 ∧ 16 = 2 ^ (encState State.reset.run []).rl
      ∧ (encState State.reset.run []).bs.ro = false ∧ (encState State.reset.run []).rl ≤ 16
      ∧ (encState State.reset.run []).bsBound = true
      ∧ { encState State.reset.run [] with bs := { (encState State.reset.run []).bs with pos := 345 } }.bs.pos
          + Entry.width ((encState State.reset.run []).ctxOf .argb8888) (.litr 16 0) = (encState State.reset.run []).bs.cap
      ∧ (formatless (encState State.reset.run [])).fmt? = none ∧ (formatless (encState State.reset.run [])).palEn = true := by
  decide

theorem met_EncFlushResult :
    (encState (runOf .palette 16 1 red) []).fmt? = some .argb8888 ∧ (encState (runOf .palette 16 1 red) []).run.valid = true
      ∧ (encState (runOf .palette 16 1 red) []).run.len ≤ 2 ^ (encState (runOf .palette 16 1 red) []).rl
      ∧ (encState (runOf .palette 16 1 red) []).bsBound = true
      ∧ (encState State.reset.run []).run.valid = false
      ∧ (formatless (encState (runOf .palette 16 1 red) [])).palEn = true
      ∧ (formatless (encState (runOf .palette 16 1 red) [])).fmt? = none := by decide

/-- A stream of 256 bits in a scratch buffer of 32 bytes, written up to `pos`. -/
def finishState (pos : Nat) : State := { streamState (Buffer.zeros 32) 256 pos false with out := Buffer.zeros 32 }

theorem met_EncFinishResult :
    (finishState 256).bs.pos ≤ (finishState 256).bs.cap ∧ 16 * (((finishState 256).bs.pos + 127) / 128) ≤ 32
      ∧ 16 * (((finishState 256).bs.pos + 127) / 128) ≤ (finishState 256).scratch.size
      ∧ (finishState 257).bs.cap < (finishState 257).bs.pos ∧ 31 < 16 * (((finishState 256).bs.pos + 127) / 128) := by
  decide

theorem met_EncodeResult :
    (encodeP2 64).accepted .argb8888 stateP2 ∧ (encodeP2 64).allocOk = true ∧ (encodeP2 31).accepted .argb8888 stateP2
      ∧ (seen (exec (.encode (encodeP2 31)) stateP2) fun t => t.res.status) = some .capacity := by
  simp only [EncodeArgs.accepted]
  decide +kernel

theorem met_EncodeStream :
    stateP2.cfg.legal = true ∧ (encodeP2 32).accepted .argb8888 stateP2 ∧ (encodeP2 32).allocOk = true
      ∧ (seen (exec (.encode (encodeP2 32)) stateP2) fun t => t.res.status) = some .ok := by
  simp only [EncodeArgs.accepted]
  decide +kernel

theorem met_RunsCut : 1 ≤ 1 ∧ 1 ≤ 2 ^ 16 ∧ [green, red].head? ≠ some red ∧ ([] : List Color).head? ≠ some red := by decide

theorem met_AllocationFails :
    EncodeArgs.accepted { encodeP2 64 with allocOk := false } .argb8888 stateP2
      ∧ EstimateArgs.accepted { estimateP6 with allocOk := false } .argb4444 stateP6
      ∧ DrawArgs.accepted { drawP6 64 with allocOk := false } .argb4444 stateP6
      ∧ DecodeArgs.accepted { decodeArgs 4 32 16 with allocOk := false } stateP2 ∧ stateP2.phase = .idle := by
  simp only [EncodeArgs.accepted, EstimateArgs.accepted, DrawArgs.accepted, DecodeArgs.accepted]
  decide +kernel

theorem met_NamedStops :
    (formatless (encState (runOf .palette 16 1 red) [gray 0, red])).fmt? = none
      ∧ green ∉ (formatless (encState (runOf .palette 16 1 red) [gray 0, red])).slots
      ∧ (formatless (encState (runOf .literal 16 1 red) [])).run.valid = true
      ∧ (formatless (encState State.reset.run [gray 0, red])).run.valid = false
      ∧ { formatless (loopState 4 []) with dec := { (loopState 4 []).dec with len := 1 } }.dec.len ≠ 0
      ∧ exec (.encode { encodeP2 64 with canvas := .out }) stateP2 = .refused .buffersOverlap
      ∧ ¬(decodeArgs 17 32 16).accepted stateP2 :=
  ⟨by decide, by decide, by decide, by decide, by decide, rfl, by simp only [DecodeArgs.accepted]; decide⟩

theorem met_DecPrefixResult :
    (loopState 4 []).fmt? = some .argb1555 ∧ (loopState 4 []).bsBound = true ∧ (loopState 4 []).palEn = true
      ∧ (loopState 4 []).cfg.entryCodes = Config.default.entryCodes ∧ (loopState 4 []).bs.pos + 3 ≤ (loopState 4 []).bs.cap
      ∧ (loopState 4 []).bs.status = .ok ∧ (loopState 1 []).palEn = false ∧ (loopState 1 []).cfg.plainCodes = .lit0Run1
      ∧ { loopState 4 [] with inp := bytes [0, 0, 0, 0, 0, 0, 0, 0x18] 2 }.inp.bit .lsbFirst 59 = true
      ∧ { loopState 4 [] with bs := { (loopState 4 []).bs with cap := 60 } }.bs.cap = (loopState 4 []).bs.pos + 2
      ∧ { loopState 4 [] with bs := { (loopState 4 []).bs with cap := 60 } }.bsBound = true
      ∧ (formatless (loopState 4 [])).fmt? = none ∧ (formatless (loopState 4 [])).palEn = true := by decide

theorem met_DecEmitResult :
    { formatless (loopState 4 []) with dec := { (loopState 4 []).dec with len := 0 } }.dec.len = 0
      ∧ { loopState 4 [] with dec := { (loopState 4 []).dec with len := 8 } }.dec.len ≤ (loopState 4 []).dec.remaining
      ∧ (loopState 4 []).fmt? = some .argb1555
      ∧ Fmt.argb1555.pixbytes ((loopState 4 []).dec.outpix + 8) = ((loopState 4 []).buf (.host (loopState 4 []).job.dst)).size := by
  decide

theorem met_LiteralEntryResult :
    (loopState 4 []).fmt? = some .argb1555 ∧ (0xFFFF#32).toNat < 2 ^ Fmt.argb1555.bits ∧ (loopState 4 []).bs.status = .ok
      ∧ (loopState 4 []).bs.pos + Entry.width ((loopState 4 []).ctxOf .argb1555) (.litr 8 0xFFFF) = (loopState 4 []).bs.cap
      ∧ (Entry.litr 8 0xFFFF).runLength = (loopState 4 []).dec.remaining
      ∧ Fmt.argb1555.pixbytes ((loopState 4 []).dec.outpix + 8) = ((loopState 4 []).buf (.host (loopState 4 []).job.dst)).size
      ∧ (loopState 4 []).bs.pos + Entry.width ((loopState 4 []).ctxOf .argb1555) (.lit 0xFFFF) ≤ (loopState 4 []).bs.cap
      ∧ (loopState 1 []).bs.pos + Entry.width ((loopState 1 []).ctxOf .argb1555) (.nrun 8 0xFFFF) ≤ (loopState 1 []).bs.cap
      ∧ (loopState 1 []).bs.pos + Entry.width ((loopState 1 []).ctxOf .argb1555) (.nlit 0xFFFF) ≤ (loopState 1 []).bs.cap := by
  decide

theorem met_PaletteEntryResult :
    (loopState 4 (graySeed 4)).fmt? = some .argb1555 ∧ 3 < (loopState 4 (graySeed 4)).palSize
      ∧ (loopState 4 (graySeed 4)).slots[3]? = some (gray 192) ∧ (loopState 4 (graySeed 4)).bs.status = .ok
      ∧ (loopState 4 []).bs.pos + Entry.width ((loopState 4 []).ctxOf .argb1555) (.palr 8 3) ≤ (loopState 4 []).bs.cap
      ∧ (Entry.palr 8 3).runLength = (loopState 4 []).dec.remaining
      ∧ Fmt.argb1555.pixbytes ((loopState 4 []).dec.outpix + 8) = ((loopState 4 []).buf (.host (loopState 4 []).job.dst)).size := by
  decide

theorem met_ReservedEntryResult :
    (loopState 4 []).fmt? = some .argb1555 ∧ (loopState 4 []).bs.status = .ok
      ∧ (loopState 4 []).bs.pos + [false, true, true].length ≤ (loopState 4 []).bs.cap := by decide

theorem met_EntryErrors :
    (loopState 3 []).fmt? = some .argb1555 ∧ 0 < Entry.width ((loopState 3 []).ctxOf .argb1555) (.pal 3)
      ∧ (loopState 3 []).palSize ≤ 3 ∧ (loopState 3 []).bs.status = .ok
      ∧ (loopState 3 []).bs.pos + Entry.width ((loopState 3 []).ctxOf .argb1555) (.pal 3) ≤ (loopState 3 []).bs.cap
      ∧ { loopState 4 [] with bs := { (loopState 4 []).bs with pos := 59 } }.bs.cap <
          59 + Entry.width ((loopState 4 []).ctxOf .argb1555) (.litr 8 0)
      ∧ { loopState 4 [] with dec := { (loopState 4 []).dec with remaining := 7 } }.dec.remaining <
          (Entry.litr 8 0).runLength := by decide

theorem met_HeaderLayoutResult :
    (streamState (Buffer.zeros 8) 64 0 true).bs.pos + 64 = (streamState (Buffer.zeros 8) 64 0 true).bs.cap := by decide

theorem met_HdrDecodeResult :
    (streamState (Buffer.zeros 8) 64 0 true).bsBound = true
      ∧ (streamState (Buffer.zeros 8) 64 0 true).bs.pos + 64 = (streamState (Buffer.zeros 8) 64 0 true).bs.cap := by decide

theorem met_HdrEncodeResult :
    let s := { streamState (Buffer.zeros 8) 64 0 false with ctrl := ctrlRegsOf Config.default (ctrlArgs 0 2 65536 1 4) }
    s.bs.ro = false ∧ s.bsBound = true ∧ s.bs.pos + 64 = s.bs.cap ∧ s.ctrl.width ≠ 0 ∧ s.ctrl.height ≠ 0
      ∧ s.scratch.bitList .lsbFirst 0 64 = List.replicate 64 false := by decide

theorem met_HeaderRoundTrip :
    let s := { State.reset with ctrl := { State.reset.ctrl with width := 65536, height := 1 } }
    8 ≤ 8 ∧ initFits .scratch 8 false s = true ∧ 1 ≤ s.ctrl.width.toNat ∧ s.ctrl.width.toNat ≤ 65536
      ∧ 1 ≤ s.ctrl.height.toNat ∧ s.ctrl.height.toNat ≤ 65536 := by decide

theorem met_DecodeHeaderErrors :
    (decodeArgs 4 7 8).accepted stateP1 ∧ (decodeArgs 4 8 7).accepted stateP1 ∧ (decodeArgs 4 8 7).allocOk = true
      ∧ decodeHeader stateP1.cfg.hdrRsv0 stateP1.cfg.bitOrder ((stateP1.buf (.host .inp)).bitList stateP1.cfg.bitOrder 0 64)
          = .ok ({ headerH7 with format := 0, palSize := 0, rgbTrunc := 0, widthM1 := 1 }, [])
      ∧ stateP1.cfg.fmtOf 0 = some .argb8888 ∧ 7 < Fmt.argb8888.pixbytes ((1 + 1) * (0 + 1))
      ∧ decodeHeader .three .lsbFirst ((bytes [0, 5, 0, 0, 0, 0, 0, 0] 0).bitList .lsbFirst 0 64)
          = .ok ({ headerH7 with format := 5, palSize := 0, rgbTrunc := 0, widthM1 := 0 }, [])
      ∧ stateP1.cfg.fmtOf 5 = none := by
  simp only [DecodeArgs.accepted]
  decide +kernel

theorem reset_memWf (canvas out inp dst : Buffer) (h1 : canvas.wf = true) (h2 : out.wf = true) (h3 : inp.wf = true)
    (h4 : dst.wf = true) : (hostState canvas out inp dst).memWf :=
  ⟨h1, h2, h3, h4, rfl, rfl, nofun⟩

/-- The state of program P1 satisfies the invariant. -/
theorem stateP1_inv : stateP1.Inv where
  cfg := by decide
  mem := reset_memWf _ _ _ _ (by decide) (by decide) (by decide) (by decide)
  bs := by simp only [State.bsGood]; decide
  header := nofun
  setup := nofun
  loop := nofun

theorem met_DecodeEnds :
    stateP1.Inv ∧ stateP1.phase = .idle ∧ (decodeArgs 4 16 8).accepted stateP1 ∧ (decodeArgs 4 16 8).allocOk = true := by
  refine ⟨stateP1_inv, ?_⟩
  simp only [DecodeArgs.accepted]
  decide

theorem met_DecodeStream :
    let h : Header := { headerH7 with format := 0, palSize := 0, rgbTrunc := 0, widthM1 := 1 }
    let cx : Ctx := { cfg := stateP1.cfg, fmt := .argb8888, k := 0, rl := 4 }
    stateP1.cfg.legal = true ∧ (decodeArgs 4 16 8).accepted stateP1 ∧ stateP1.cfg.fmtOf h.format = some .argb8888
      ∧ Fmt.argb8888.pixbytes ((h.widthM1.toNat + 1) * (h.heightM1.toNat + 1)) = 8
      ∧ (Entry.nrun 2 0xFFFF0000).executable cx = true ∧ coveredPixels [.nrun 2 0xFFFF0000] = 2
      ∧ (stateP1.buf (.host .inp)).bitList stateP1.cfg.bitOrder 0 (8 * 16) =
          streamOf cx h [.nrun 2 0xFFFF0000] ++ List.replicate 27 false := by
  simp only [DecodeArgs.accepted]
  decide +kernel

theorem met_DecodeIsSteps :
    stateP1.Inv ∧ stateP1.phase = .idle
      ∧ ∃ t, decStart (decodeArgs 4 16 8) stateP1 = .next t ∧ t.phase = .header :=
  ⟨stateP1_inv, rfl, _, rfl, rfl⟩

theorem met_StepRunsDecoded :
    (State.reset.withFetchWord 64 0).phase = .header ∧ (State.reset.withFetchWord 8 0).phase = .entries
      ∧ (State.reset.withFetchWord 8 0).dec.remaining ≠ 0 ∧ (State.reset.withFetchWord 8 0).fmt? = some .lut4
      ∧ (∃ rest, decode ((State.reset.withFetchWord 64 0).ctxOf .lut4) .header
          ((State.reset.withFetchWord 64 0).streamBits 0 64) = .ok (.hdr3 (headerOfValues []), rest))
      ∧ (∃ rest, decode ((State.reset.withFetchWord 8 0x3C).ctxOf .lut4) .body
          ((State.reset.withFetchWord 8 0x3C).streamBits 64 12) = .ok (.lit 15, rest))
      ∧ { State.reset with pending := [.decEmit] }.phase = .idle :=
  ⟨rfl, rfl, by decide, by decide, ⟨[], by decide +kernel⟩, ⟨List.replicate 6 false, by decide +kernel⟩, rfl⟩

theorem met_ConstructorsResult :
    State.reset.cfg.fmtOfNat 2 = some .argb1555 ∧ 0xFFFF < 2 ^ Fmt.argb1555.bits ∧ 2 ^ Fmt.argb1555.bits ≤ 0x10000
      ∧ State.reset.cfg.fmtOfNat 5 = none := by
  decide

/-- Program P6 with one colour for all objects and empty sources. -/
def recolouredP6 : State := { stateP6 with objs := stateP6.objs.map DrawObject.shape, bmps := [] }

theorem met_EstimateResult :
    estimateP6.accepted .argb4444 stateP6 ∧ estimateP6.allocOk = true ∧ stateP6.cfg.estCost = .default
      ∧ EstimateArgs.accepted { estimateP6 with bg := 1 } .argb4444 recolouredP6
      ∧ recolouredP6.objs.map DrawObject.shape = stateP6.objs.map DrawObject.shape ∧ recolouredP6.objs ≠ stateP6.objs := by
  simp only [EstimateArgs.accepted]
  decide

theorem met_SlicesPartition :
    ∀ o', [none, some (0, DrawObject.rect 0 0 1 1 7)].head? = some o' →
      o'.map Prod.fst ≠ (some (1, DrawObject.line 0 0 1 1 1 7)).map Prod.fst := by decide

/-- In program P6 the bitmap is topmost at its first and at its last pixel, and nothing covers the corner of the canvas but
the line. -/
theorem met_OwnerIsTopmost :
    owner stateP6.cfg stateP6.objs 5 0 = some (2, .bitmap 5 0 3 2 (.bmp 0) 6)
      ∧ owner stateP6.cfg stateP6.objs 7 1 = some (2, .bitmap 5 0 3 2 (.bmp 0) 6)
      ∧ owner stateP6.cfg stateP6.objs 0 0 = some (1, .line 0 0 7 5 1 0xF00F) ∧ owner stateP6.cfg stateP6.objs 0 5 = none
      ∧ stateP6.cfg.pixelByteOrder = .le ∧ stateP6.cfg.lut4Nibbles = .lowFirst ∧ (1 : Int) = 0 + (1 : Nat)
      ∧ (7 : Int) = 5 + (2 : Nat) := by decide

theorem met_Coverage :
    (Config.default.strokeCover = .default ∧ Config.default.lineCover = .default ∧ (1 ≤ (2 : Int) ∧ (4 : Int) ≤ 2 * 2))
      ∧ ((1 - 0 : Int).natAbs ≤ (3 - 0 : Int).natAbs ∧ min 0 3 ≤ (3 : Int) ∧ (3 : Int) ≤ max 0 3)
      ∧ ((1 - 0 : Int).natAbs < (3 - 0 : Int).natAbs) := by decide

theorem met_DrawStream :
    stateP6.cfg.legal = true ∧ (drawP6 64).accepted .argb4444 stateP6 ∧ (drawP6 64).allocOk = true := by
  simp only [DrawArgs.accepted]
  decide +kernel

/-- The estimate is asked for before the sources are given. -/
theorem met_DrawWithinEstimate :
    stateP6.cfg.legal = true ∧ (drawP6 48).accepted .argb4444 stateP6 ∧ estimateP6.ctrl = (drawP6 48).ctrl
      ∧ completes (exec (.draw (drawP6 48)) stateP6) = true
      ∧ completes (exec (.estimate estimateP6) { stateP6 with bmps := [] }) = true := by
  simp only [DrawArgs.accepted]
  decide +kernel

theorem met_StepKeepsInv :
    State.Inv { stateP1 with pending := [.bsSkip 0] } ∧ completes (step { stateP1 with pending := [.bsSkip 0] }) = true :=
  ⟨⟨stateP1_inv.cfg, stateP1_inv.mem, stateP1_inv.bs, nofun, nofun, nofun⟩, by decide⟩

theorem met_RoundTrip :
    let u := { stateP2 with cfg := stateP2.cfg }
    stateP2.cfg.legal = true ∧ (encodeP2 32).accepted .argb8888 stateP2
      ∧ seen (exec (.encode (encodeP2 32)) stateP2) (fun t => (t.res.status, t.res.bits)) = some (.ok, 138)
      ∧ (streamOf ((encodeP2 32).ctrl.ctx stateP2.cfg .argb8888) ((encodeP2 32).ctrl.header stateP2.cfg)
          (canvasEntries ((encodeP2 32).ctrl.ctx stateP2.cfg .argb8888)
            ((encodeP2 32).canvasColors .argb8888 stateP2))).length = 138
      ∧ (decodeArgs 4 32 16).accepted u ∧ (decodeArgs 4 32 16).inSize = 16 * ((138 + 127) / 128)
      ∧ Fmt.argb8888.pixbytes (encodeP2 32).ctrl.pixels = (decodeArgs 4 32 16).dstCap
      ∧ seen (exec (.encode (encodeP2 32)) stateP2) (fun t => t.out.readBytes 0 32) = some (u.inp.readBytes 0 32) := by
  simp only [EncodeArgs.accepted, DecodeArgs.accepted]
  decide +kernel

end Sys2Proof.Tests
end

section
/-! PROOFS. The bit stream operations (40_bitstream.md): what `exec` answers for `BS.SKIP`. -/

namespace Sys2Proof.Proofs

open Sys2Proof.Machine

theorem exec_bsSkip (n : Nat) (s : State) : exec (.bsSkip n) s = execBsSkip n s := rfl

/-- The guard of R134 lets every skip through that starts at or below the capacity, whatever its length. -/
theorem exec_bsSkip_of_le_cap (n : Nat) {s : State} (h : s.bs.pos ≤ s.bs.cap) :
    exec (.bsSkip n) s = .next (bsSkip n s) := by
  rw [exec_bsSkip, execBsSkip, if_neg (Nat.not_lt.mpr h)]

theorem exec_bsSkip_of_cap_lt (n : Nat) {s : State} (h : s.bs.cap < s.bs.pos) :
    exec (.bsSkip n) s = .refused .skipPastCapacity := by
  rw [exec_bsSkip, execBsSkip, if_pos h]

/-- The skip's whole effect, and with it its frame: one field of the state is written. -/
theorem bsSkip_eq (n : Nat) (s : State) :
    bsSkip n s = { s with bs := { s.bs with pos := min (s.bs.pos + n) s.bs.cap } } := rfl

/-- Settles O9: R134 on both sides of its guard. -/
theorem bsSkipResult : Obligations.BsSkipResult := by
  intro n s
  constructor
  · intro h
    rw [exec_bsSkip_of_le_cap n h, bsSkip_eq]
  · exact exec_bsSkip_of_cap_lt n

end Sys2Proof.Proofs
end

section
/-! PROOFS. Preprocessing (41_pixelformat.md R160 to R162): the function `prep`, what a format's fields keep of a Color,
and the operation `PIX.PREPROCESS` done twice. -/

namespace Sys2Proof.Proofs

open Sys2Proof.Machine Sys2Proof.Laws

/-! ## Truncated channels -/

/-- R161's `trunc` as a number: the remainder modulo `2 ^ n` is taken away. -/
theorem toNat_truncChannel (v : Byte) (n : BitVec 2) :
    (truncChannel v n).toNat = v.toNat - v.toNat % 2 ^ n.toNat := by
  have hdiv : v.toNat / 2 ^ n.toNat * 2 ^ n.toNat = v.toNat - v.toNat % 2 ^ n.toNat := Nat.div_mul_self_eq_mod_sub_self
  have hlt : v.toNat - v.toNat % 2 ^ n.toNat < 2 ^ 8 := lt_of_le_of_lt (Nat.sub_le _ _) v.isLt
  rw [truncChannel, BitVec.toNat_shiftLeft, BitVec.toNat_ushiftRight, Nat.shiftRight_eq_div_pow,
    Nat.shiftLeft_eq, hdiv, Nat.mod_eq_of_lt hlt]

theorem truncChannel_eq_zero_iff (v : Byte) (n : BitVec 2) :
    truncChannel v n = 0 ↔ v.toNat - v.toNat % 2 ^ n.toNat = 0 := by
  rw [← toNat_truncChannel, ← BitVec.toNat_inj]
  rfl

/-- `trunc` clears the low `n` bits and keeps the others. -/
theorem getLsbD_truncChannel (v : Byte) (n : BitVec 2) (i : Nat) :
    (truncChannel v n).getLsbD i = (decide (n.toNat ≤ i) && v.getLsbD i) := by
  by_cases hn : n.toNat ≤ i
  · by_cases hi : i < 8
    · simp [truncChannel, hn, hi, Nat.not_lt.mpr hn]
    · simp [truncChannel, hi, BitVec.getLsbD_of_ge v i (Nat.not_lt.mp hi)]
  · simp [truncChannel, hn, Nat.not_le.mp hn]

@[simp] theorem truncChannel_zero (n : BitVec 2) : truncChannel 0#8 n = 0#8 := by
  simp [truncChannel]

@[simp] theorem truncChannel_truncChannel (v : Byte) (n : BitVec 2) :
    truncChannel (truncChannel v n) n = truncChannel v n := by
  apply BitVec.eq_of_getLsbD_eq
  intro i _
  simp only [getLsbD_truncChannel, ← Bool.and_assoc, Bool.and_self]

@[simp] theorem trunc_trunc (c : Color) (rt at' : BitVec 2) : (c.trunc rt at').trunc rt at' = c.trunc rt at' := by
  simp [Color.trunc]

@[simp] theorem trunc_zero (rt at' : BitVec 2) : Color.zero.trunc rt at' = Color.zero := by
  simp [Color.trunc, Color.zero]

/-! ## The two outcomes of `prep` (R161) -/

theorem prep_of_zeroized {c : Color} {rt at' : BitVec 2} {z : Bool} (h : z = true ∧ truncChannel c.a at' = 0) :
    prep c rt at' z = Color.zero := if_pos h

theorem prep_of_kept {c : Color} {rt at' : BitVec 2} {z : Bool} (h : ¬(z = true ∧ truncChannel c.a at' = 0)) :
    prep c rt at' z = c.trunc rt at' := if_neg h

/-- R162 as a law of the function: a zeroized Color and a truncated one are both left as they are. -/
theorem prep_prep (c : Color) (rt at' : BitVec 2) (z : Bool) : prep (prep c rt at' z) rt at' z = prep c rt at' z := by
  by_cases h : z = true ∧ truncChannel c.a at' = 0
  · rw [prep_of_zeroized h, prep, trunc_zero, ite_self]
  · rw [prep_of_kept h, prep, trunc_trunc]
    exact if_neg h

/-- Settles O17: both outcomes of `prep`, each channel read as a number. -/
theorem prepChannels : Obligations.PrepChannels := by
  intro c rt at' z
  simp only [← truncChannel_eq_zero_iff]
  split
  next h => exact prep_of_zeroized h
  next h =>
    rw [prep_of_kept h]
    exact ⟨toNat_truncChannel _ _, toNat_truncChannel _ _, toNat_truncChannel _ _, toNat_truncChannel _ _⟩

/-! ## What a format's fields keep of a Color -/

/-- What is left of a channel that was stored in a field of width `n`. -/
def storedChannel (sc : ChannelScale) (n : Nat) (v : Byte) : Byte := sc.channelIn n (sc.channelOut n v)

/-- What is left of a Color that was stored as a pixel of the format. -/
def storedColor (sc : ChannelScale) : Fmt → Color → Color
  | .argb8888, c => c
  | .argb4444, c =>
    { a := storedChannel sc 4 c.a, r := storedChannel sc 4 c.r, g := storedChannel sc 4 c.g, b := storedChannel sc 4 c.b }
  | .argb1555, c =>
    { a := storedChannel sc 1 c.a, r := storedChannel sc 5 c.r, g := storedChannel sc 5 c.g, b := storedChannel sc 5 c.b }
  | .lut8, c => { a := c.a, r := 0, g := 0, b := 0 }
  | .lut4, c => { a := storedChannel .raw 4 c.a, r := 0, g := 0, b := 0 }

/-- Four fields side by side in a word, the first of a width of its own, taken out again. -/
theorem extract_fields {m n : Nat} {w : Word} {a : BitVec m} {r g b : BitVec n} (hw : w = (a ++ r ++ g ++ b).setWidth 32)
    (h : m + 3 * n ≤ 32) :
    w.extractLsb' (3 * n) m = a ∧ w.extractLsb' (2 * n) n = r ∧ w.extractLsb' n n = g ∧ w.extractLsb' 0 n = b := by
  subst hw
  refine ⟨?_, ?_, ?_, ?_⟩ <;> ext i hi <;>
    simp only [BitVec.getElem_extractLsb', BitVec.getLsbD_setWidth, BitVec.getLsbD_append] <;> grind

/-- Every field that `pack` writes stands where `unpack` reads it, in every configuration. -/
theorem unpack_pack (sc : ChannelScale) (f : Fmt) (c : Color) : unpack sc f (pack sc f c) = storedColor sc f c := by
  cases f with
  | argb8888 =>
    obtain ⟨ha, hr, hg, hb⟩ := extract_fields (w := pack8888 c) (BitVec.setWidth_eq _).symm (by decide)
    exact (Color.mk.injEq ..).mpr ⟨ha, hr, hg, hb⟩
  | argb4444 =>
    obtain ⟨ha, hr, hg, hb⟩ := extract_fields (w := pack4444 sc c) rfl (by decide)
    exact (Color.mk.injEq ..).mpr ⟨congrArg _ ha, congrArg _ hr, congrArg _ hg, congrArg _ hb⟩
  | argb1555 =>
    obtain ⟨ha, hr, hg, hb⟩ := extract_fields (w := pack1555 sc c) rfl (by decide)
    exact (Color.mk.injEq ..).mpr ⟨congrArg _ ha, congrArg _ hr, congrArg _ hg, congrArg _ hb⟩
  | lut8 => simp [unpack, pack, unpackLut8, packLut8, storedColor, BitVec.extractLsb'_setWidth_of_le]
  | lut4 =>
    simp [unpack, pack, unpackLut4, packLut4, storedColor, storedChannel, ChannelScale.channelIn,
      ChannelScale.channelOut, BitVec.extractLsb'_setWidth_of_le, BitVec.setWidth_eq_extractLsb']

/-- A field of width `n` keeps the low `n` bits of a channel, or the high `n` bits under `LEFT_ALIGNED`. -/
theorem getLsbD_storedChannel (sc : ChannelScale) {n : Nat} (hn : n ≤ 8) (v : Byte) (i : Nat) :
    (storedChannel sc n v).getLsbD i =
      (match sc with
        | .raw => decide (i < n) && v.getLsbD i
        | .leftAligned => decide (8 - n ≤ i) && v.getLsbD i) := by
  by_cases hi : i < 8
  · cases sc with
    | raw => simp [storedChannel, ChannelScale.channelIn, ChannelScale.channelOut, hi]
    | leftAligned =>
      by_cases hl : 8 - n ≤ i
      · have hw : i - (8 - n) < n := by omega
        simp [storedChannel, ChannelScale.channelIn, ChannelScale.channelOut, hi, hl, hw, Nat.not_lt.mpr hl]
      · simp [storedChannel, ChannelScale.channelIn, ChannelScale.channelOut, hl]
  · cases sc <;> simp [BitVec.getLsbD_of_ge _ i (Nat.not_lt.mp hi)]

/-- A channel taken from a field goes back into it whole. -/
theorem storedChannel_channelIn (sc : ChannelScale) {n : Nat} (hn : n ≤ 8) (x : BitVec n) :
    storedChannel sc n (sc.channelIn n x) = sc.channelIn n x := by
  rw [storedChannel, channelOut_channelIn sc hn]

theorem storedChannel_truncChannel (sc : ChannelScale) {n : Nat} (hn : n ≤ 8) (v : Byte) (k : BitVec 2) :
    storedChannel sc n (truncChannel v k) = truncChannel (storedChannel sc n v) k := by
  apply BitVec.eq_of_getLsbD_eq
  intro i _
  rw [getLsbD_storedChannel sc hn, getLsbD_truncChannel, getLsbD_truncChannel, getLsbD_storedChannel sc hn]
  cases sc <;> exact Bool.and_left_comm _ _ _

@[simp] theorem storedChannel_zero (sc : ChannelScale) (n : Nat) : storedChannel sc n 0#8 = 0#8 := by
  cases sc <;> simp [storedChannel, ChannelScale.channelIn, ChannelScale.channelOut]

/-- A Color taken from a pixel goes back into it whole, in every format and configuration. -/
theorem storedColor_unpack (sc : ChannelScale) (f : Fmt) (w : Word) :
    storedColor sc f (unpack sc f w) = unpack sc f w := by
  cases f with
  | argb8888 => rfl
  | argb4444 => simp [storedColor, unpack, unpack4444, storedChannel_channelIn]
  | argb1555 => simp [storedColor, unpack, unpack1555, storedChannel_channelIn]
  | lut8 => rfl
  | lut4 => exact (Color.mk.injEq ..).mpr ⟨storedChannel_channelIn .raw (by decide) _, rfl, rfl, rfl⟩

theorem storedColor_zero (sc : ChannelScale) (f : Fmt) : storedColor sc f Color.zero = Color.zero := by
  cases f <;> simp [storedColor, Color.zero]

/-- Truncation and storing both clear bits of each channel, so they commute. -/
theorem storedColor_trunc (sc : ChannelScale) (f : Fmt) (c : Color) (rt at' : BitVec 2) :
    storedColor sc f (c.trunc rt at') = (storedColor sc f c).trunc rt at' := by
  cases f with
  | argb8888 => rfl
  | argb4444 => simp [storedColor, Color.trunc, storedChannel_truncChannel]
  | argb1555 => simp [storedColor, Color.trunc, storedChannel_truncChannel]
  | lut8 => simp [storedColor, Color.trunc]
  | lut4 => simp [storedColor, Color.trunc, storedChannel_truncChannel]

/-- What a format stores whole it still stores whole after preprocessing. -/
theorem storedColor_prep {sc : ChannelScale} {f : Fmt} {c : Color} (h : storedColor sc f c = c) (rt at' : BitVec 2)
    (z : Bool) : storedColor sc f (prep c rt at' z) = prep c rt at' z := by
  by_cases hz : z = true ∧ truncChannel c.a at' = 0
  · rw [prep_of_zeroized hz, storedColor_zero]
  · rw [prep_of_kept hz, storedColor_trunc, h]

/-! ## A pixel written and read as a Color, and written twice -/

/-- The Color written to a pixel, as much of it as the format stores. -/
theorem pixelColor_setPixelColor (cfg : Config) (f : Fmt) (b : Buffer) {i : Nat} (c : Color)
    (h : pixInside f b i = true) :
    pixelColor cfg f (setPixelColor cfg f b i c) i = storedColor cfg.channelScale f c := by
  rw [pixelColor, setPixelColor, pixRead_pixWrite_same _ _ _ _ h, Nat.mod_eq_of_lt (pack_lt _ _ _),
    BitVec.ofNat_toNat, BitVec.setWidth_eq, unpack_pack]

/-- Bytes written a second time read as after the first. -/
theorem read_writeBytes_twice (vs : List Byte) (b : Buffer) {off : Nat} (h : off + vs.length ≤ b.size) (k : Nat) :
    ((b.writeBytes off vs).writeBytes off vs).read k = (b.writeBytes off vs).read k := by
  by_cases hk : off ≤ k ∧ k < off + vs.length
  · obtain ⟨hlow, hhigh⟩ := hk
    obtain ⟨j, rfl⟩ := Nat.exists_eq_add_of_le hlow
    have hj : j < vs.length := by omega
    rw [read_writeBytes_same vs _ hj (by simpa using h), read_writeBytes_same vs _ hj h]
  · exact read_writeBytes_other _ _ hk

theorem byteWithNibble_twice (high : Bool) (v : Byte) (x : BitVec 4) :
    byteWithNibble high (byteWithNibble high v x) x = byteWithNibble high v x := by
  cases high with
  | true => exact congrArg (x ++ ·) BitVec.extractLsb'_append_eq_right
  | false => exact congrArg (· ++ x) BitVec.extractLsb'_append_eq_left

/-- A pixel written a second time with the same word leaves every byte as after the first. -/
theorem read_pixWrite_twice (cfg : Config) (f : Fmt) (b : Buffer) {i : Nat} (w : Word) (h : pixInside f b i = true)
    (k : Nat) : (pixWrite cfg f (pixWrite cfg f b i w) i w).read k = (pixWrite cfg f b i w).read k := by
  simp only [pixInside, decide_eq_true_eq] at h
  cases f <;> simp only [pixbytes_eq] at h <;> simp only [pixWrite]
  case argb8888 => exact read_writeBytes_twice _ b (by simp; omega) k
  case argb4444 => exact read_writeBytes_twice _ b (by simp; omega) k
  case argb1555 => exact read_writeBytes_twice _ b (by simp; omega) k
  case lut8 => exact read_writeBytes_twice _ b (by simp; omega) k
  case lut4 =>
    have hs : i / 2 < b.size := by omega
    by_cases hk : k = i / 2
    · rw [hk, read_write_same _ _ (by simpa using hs), read_write_same _ _ hs, byteWithNibble_twice]
    · rw [read_write_other _ _ hk]

/-! ## `PIX.PREPROCESS` -/

/-- The state after `PIX.PREPROCESS` of a pixel inside its buffer (R160). -/
def preprocessed (f : Fmt) (id : BufId) (i : Nat) (rt at' : BitVec 2) (z : Bool) (s : State) : State :=
  { prepPixel f id i rt at' z s with ret := .color (preppedColor f id i rt at' z s) }

theorem exec_pixPreprocess (id : BufId) (i : Nat) (code : BitVec 4) (rt at' : BitVec 2) (z : Bool) (s : State) :
    exec (.pixPreprocess id i code rt at' z) s = execPixPreprocess id i code rt at' z s := rfl

/-- `PIX.PREPROCESS` answers a next state for a pixel of a known format inside its buffer, and for no other. -/
theorem exec_pixPreprocess_next_iff {id : BufId} {i : Nat} {code : BitVec 4} {rt at' : BitVec 2} {z : Bool} {s t : State} :
    exec (.pixPreprocess id i code rt at' z) s = .next t ↔
      ∃ f, s.cfg.fmtOf code = some f ∧ pixInside f (s.buf id) i = true ∧ t = preprocessed f id i rt at' z s := by
  rw [exec_pixPreprocess, execPixPreprocess]
  constructor
  · intro hexec
    split at hexec
    next => exact nomatch hexec
    next f hf =>
      split at hexec
      next hp => exact ⟨f, hf, hp, (Host.Outcome.next.inj hexec).symm⟩
      next => exact nomatch hexec
  · rintro ⟨f, hf, hp, rfl⟩
    rw [hf]
    exact if_pos hp

section
variable (f : Fmt) (id : BufId) (i : Nat) (rt at' : BitVec 2) (z : Bool) (s : State)

@[simp] theorem preprocessed_cfg : (preprocessed f id i rt at' z s).cfg = s.cfg := setBuf_cfg _ _ _

@[simp] theorem preprocessed_ret : (preprocessed f id i rt at' z s).ret = .color (preppedColor f id i rt at' z s) := rfl

/-- Preprocessing touches one buffer. -/
theorem preprocessed_buf (id' : BufId) :
    (preprocessed f id i rt at' z s).buf id' = (prepPixel f id i rt at' z s).buf id' := buf_congr rfl id'

end

/-- A pixel inside its buffer is a pixel of a buffer that is given. -/
theorem given_of_pixInside {f : Fmt} {id : BufId} {i : Nat} {s : State} (h : pixInside f (s.buf id) i = true) :
    s.given id := by
  apply given_of_size
  simp only [pixInside, decide_eq_true_eq] at h
  cases f <;> simp only [pixbytes_eq] at h <;> omega

section
variable {f : Fmt} {id : BufId} {i : Nat} {s : State} (h : pixInside f (s.buf id) i = true) (rt at' : BitVec 2) (z : Bool)
include h

/-- The buffer of the pixel, after its preprocessing. -/
theorem preprocessed_buf_same :
    (preprocessed f id i rt at' z s).buf id =
      setPixelColor s.cfg f (s.buf id) i (preppedColor f id i rt at' z s) := by
  rw [preprocessed_buf, prepPixel, buf_setBuf_same _ _ (given_of_pixInside h)]

theorem pixInside_preprocessed : pixInside f ((preprocessed f id i rt at' z s).buf id) i = true := by
  rw [preprocessed_buf_same h, setPixelColor, pixInside_congr (pixWrite_size _ _ _ _ _), h]

/-- The pixel that was written back reads as the Color that was returned. -/
theorem pixelColor_preprocessed :
    pixelColor s.cfg f ((preprocessed f id i rt at' z s).buf id) i = preppedColor f id i rt at' z s := by
  rw [preprocessed_buf_same h, pixelColor_setPixelColor _ _ _ _ h]
  exact storedColor_prep (storedColor_unpack _ _ _) rt at' z

/-- R162 for the Color that a second `PIX.PREPROCESS` returns. -/
theorem preppedColor_preprocessed :
    preppedColor f id i rt at' z (preprocessed f id i rt at' z s) = preppedColor f id i rt at' z s := by
  rw [preppedColor, preprocessed_cfg, pixelColor_preprocessed h, preppedColor, prep_prep]

/-- R162 for the memories: the second `PIX.PREPROCESS` writes the word that the first one wrote. -/
theorem byteAt_preprocessed_twice (id' : BufId) (off : Nat) :
    (preprocessed f id i rt at' z (preprocessed f id i rt at' z s)).byteAt id' off =
      (preprocessed f id i rt at' z s).byteAt id' off := by
  rw [State.byteAt, preprocessed_buf, prepPixel, preppedColor_preprocessed h, preprocessed_cfg, buf_setBuf]
  split
  next hid =>
    obtain ⟨rfl, _⟩ := hid
    rw [State.byteAt, preprocessed_buf_same h]
    exact read_pixWrite_twice _ _ _ _ h off
  next => rfl

end

/-- Settles O18: the pixel holds the preprocessed Color after the first operation, and `prep` leaves that Color alone. -/
theorem prepIdempotent : Obligations.PrepIdempotent := by
  refine ⟨prep_prep, ?_⟩
  intro id i code rt at' z s t hexec
  obtain ⟨f, hf, hp, rfl⟩ := exec_pixPreprocess_next_iff.mp hexec
  refine ⟨preprocessed f id i rt at' z (preprocessed f id i rt at' z s), ?_, ?_, ?_⟩
  · exact exec_pixPreprocess_next_iff.mpr ⟨f, by rw [preprocessed_cfg, hf], pixInside_preprocessed hp rt at' z, rfl⟩
  · rw [preprocessed_ret, preprocessed_ret, preppedColor_preprocessed hp]
  · exact byteAt_preprocessed_twice hp rt at' z

end Sys2Proof.Proofs
end

section
/-! PROOFS. The palette cache (42_palette.md): what a series of pushes leaves in the slots. -/

namespace Sys2Proof.Proofs

open Sys2Proof.Machine Sys2Proof.Laws

/-- Pushes put their Colors, latest first, in front of the old slots, and keep as many slots as there were (R180, R183). -/
theorem foldl_pushColor (cs pal : List Color) :
    cs.foldl (fun p c => pushColor c p) pal = (cs.reverse ++ pal).take pal.length := by
  induction cs generalizing pal with
  | nil => simp
  | cons c cs ih =>
    calc (c :: cs).foldl (fun p c => pushColor c p) pal
        = (cs.reverse ++ (c :: pal).take pal.length).take pal.length := by
          rw [List.foldl_cons, ih, pushColor_length, pushColor]
      _ = (cs.reverse ++ c :: pal).take pal.length := by
          simp only [List.take_append, List.take_take, Nat.sub_le, inf_of_le_left]
      _ = ((c :: cs).reverse ++ pal).take pal.length := by
          rw [List.reverse_cons, List.append_assoc, List.singleton_append]

/-- As many pushes as there are slots leave nothing of the old slots. -/
theorem foldl_pushColor_of_length_le {cs pal : List Color} (h : pal.length ≤ cs.length) :
    cs.foldl (fun p c => pushColor c p) pal = cs.reverse.take pal.length := by
  rw [foldl_pushColor, List.take_append_of_le_length (by rwa [List.length_reverse])]

theorem slotOf_isSome {c : Color} {l : List Color} : (slotOf c l).isSome = true ↔ c ∈ l := by
  rw [Option.isSome_iff_ne_none, ne_eq, slotOf_none, not_not]

/-- Settles O25: the slots hold the latest pushes, and a Color that is pushed once is not both among them and older. -/
theorem lruProperty : Obligations.LruProperty := by
  intro pal cs hnodup hlen
  have hafter := foldl_pushColor_of_length_le hlen
  refine ⟨hafter, ?latestFound, ?olderMissed⟩
  case latestFound =>
    intro c hlatest
    rwa [hafter, slotOf_isSome]
  case olderMissed =>
    intro c holder
    have hdisjoint := List.disjoint_take_drop (List.nodup_reverse.mpr hnodup) (le_refl pal.length)
    rw [hafter, slotOf_none]
    exact fun hlatest => hdisjoint hlatest holder

end Sys2Proof.Proofs
end

section
/-! PROOFS. The decoder on the encoder's bits (30_encoding.md R96 to R107, 45_header.md R261): the fields of an entry or of
a header, taken from the bits written of them, whatever follows. -/

namespace Sys2Proof.Proofs

open Sys2Proof.Machine Sys2Proof.Laws

/-! ## Leading bits (30_encoding.md R107, R112) -/

/-- A string that is apart from another one does not begin what begins with that other one. -/
theorem isPrefixOf_append_of_apart {a b : List Bool} (h : apart a b = true) (rest : List Bool) :
    a.isPrefixOf (b ++ rest) = false ∧ b.isPrefixOf (a ++ rest) = false := by
  simp only [apart, Bool.and_eq_true, Bool.not_eq_true', ← Bool.not_eq_true, List.isPrefixOf_iff_prefix] at h
  obtain ⟨hab, hba⟩ := h
  simp only [← Bool.not_eq_true, List.isPrefixOf_iff_prefix]
  constructor <;> intro hp
  · exact (List.prefix_or_prefix_of_prefix hp (List.prefix_append b rest)).elim hab hba
  · exact (List.prefix_or_prefix_of_prefix hp (List.prefix_append a rest)).elim hba hab

/-- The strings of a legal `SYNTAX_PE`, pair by pair (D9). -/
theorem apart_of_legal {codes : EntryCodes} (h : codes.legal = true) :
    apart codes.lit codes.litr = true ∧ apart codes.lit codes.pal = true ∧ apart codes.lit codes.palr = true
      ∧ apart codes.litr codes.pal = true ∧ apart codes.litr codes.palr = true ∧ apart codes.pal codes.palr = true := by
  simp only [EntryCodes.legal, Bool.and_eq_true] at h
  obtain ⟨⟨⟨⟨⟨⟨h1, h2⟩, h3⟩, h4⟩, h5⟩, h6⟩, -⟩ := h
  exact ⟨h1, h2, h3, h4, h5, h6⟩

/-- The leading bits of an entry of a kind; the reserved strings have none of their own. -/
def leadString (cx : Ctx) : EntryKind → List Bool
  | .lit => cx.cfg.entryCodes.lit
  | .litr => cx.cfg.entryCodes.litr
  | .pal => cx.cfg.entryCodes.pal
  | .palr => cx.cfg.entryCodes.palr
  | .nlit => [!cx.cfg.plainCodes.runBit]
  | .nrun => [cx.cfg.plainCodes.runBit]
  | .reserved => []

/-- The kind is one of the set of entries that `PAL_EN` selects (30_encoding.md R106), and no reserved string. -/
def kindSelected (cx : Ctx) : EntryKind → Bool
  | .lit => cx.palEn
  | .litr => cx.palEn
  | .pal => cx.palEn
  | .palr => cx.palEn
  | .nlit => !cx.palEn
  | .nrun => !cx.palEn
  | .reserved => false

/-- Leading bits say their kind, whatever follows them: no string of `SYNTAX_PE` begins another one. -/
theorem kindOf_leadString {cx : Ctx} (hcfg : cx.cfg.legal = true) {kind : EntryKind} (hkind : kindSelected cx kind = true)
    (rest : List Bool) :
    cx.kindOf (leadString cx kind ++ rest) = some (kind, (leadString cx kind).length) := by
  have hcodes : cx.cfg.entryCodes.legal = true := by
    simp only [Config.legal, Bool.and_eq_true] at hcfg
    exact hcfg.1.1
  obtain ⟨h1, h2, h3, h4, h5, h6⟩ := apart_of_legal hcodes
  have self (a : List Bool) : a.isPrefixOf (a ++ rest) = true := List.isPrefixOf_iff_prefix.mpr (List.prefix_append a rest)
  cases kind <;> simp only [kindSelected, Bool.not_eq_true'] at hkind <;> simp only [Ctx.kindOf, leadString, hkind, if_true]
  case lit => simp [self]
  case litr => simp [self, isPrefixOf_append_of_apart h1]
  case pal => simp [self, isPrefixOf_append_of_apart h2, isPrefixOf_append_of_apart h4]
  case palr => simp [self, isPrefixOf_append_of_apart h3, isPrefixOf_append_of_apart h5, isPrefixOf_append_of_apart h6]
  case nlit => simp
  case nrun => simp
  case reserved => cases hkind

/-- After its leading bits an entry is the fields of its kind. -/
theorem decodeEntry_leadString {cx : Ctx} (hcfg : cx.cfg.legal = true) {kind : EntryKind}
    (hkind : kindSelected cx kind = true) (rest : List Bool) :
    decodeEntry cx (leadString cx kind ++ rest) = takeFields cx kind (leadString cx kind) rest := by
  simp only [decodeEntry, kindOf_leadString hcfg hkind, List.take_left, List.drop_left]

/-! ## The fields of an entry -/

/-- A pixel word is taken from its own bits, in one field or in two halves (D11). -/
theorem takeCode_append (order : BitOrder) (f : Fmt) {w : Word} (hw : w.toNat < 2 ^ f.bits) (rest : List Bool) :
    takeCode order f.bits (fieldsBits order (codeFields f.bits w) ++ rest) = .ok (w, rest) := by
  unfold takeCode codeFields
  split
  · simp only [fieldsBits, List.append_nil, takeField_append, Nat.mod_eq_of_lt hw, BitVec.ofNat_toNat,
      BitVec.setWidth_eq]
  · have hhigh : w.toNat / 2 ^ 16 < 2 ^ 16 := by have := w.isLt; omega
    simp only [fieldsBits, List.append_nil, List.append_assoc, takeField_append, Nat.mod_mod, Nat.mod_eq_of_lt hhigh,
      Nat.mod_add_div, BitVec.ofNat_toNat, BitVec.setWidth_eq]

theorem takeLiteral_append (cx : Ctx) (mk : Word → Entry) {c : Word} (hc : wordFits cx.pixBits c = true)
    (rest : List Bool) :
    takeLiteral cx mk (fieldsBits cx.cfg.bitOrder (codeFields cx.pixBits c) ++ rest) = .ok (mk c, rest) := by
  have h := takeCode_append cx.cfg.bitOrder cx.fmt (of_decide_eq_true hc) rest
  simp only [takeLiteral, Ctx.pixBits, h]

theorem takeIndex_append (cx : Ctx) (mk : Nat → Entry) {i : Nat} (hi : i < 2 ^ cx.idxBits) (rest : List Bool) :
    takeIndex cx mk (fieldBits cx.cfg.bitOrder i cx.idxBits ++ rest) = .ok (mk i, rest) := by
  simp only [takeIndex, takeField_append, Nat.mod_eq_of_lt hi]

/-- A run field holds one less than the run length (44_decoder.md R233). -/
theorem takeRun_append (cx : Ctx) (k : Nat → List Bool → Except DecodeError (Entry × List Bool)) {n : Nat}
    (hn : runFits cx.rl n = true) (rest : List Bool) :
    takeRun cx k (fieldBits cx.cfg.bitOrder (n - 1) cx.rl ++ rest) = k n rest := by
  obtain ⟨hpos, hmax⟩ : 1 ≤ n ∧ n ≤ 2 ^ cx.rl := of_decide_eq_true hn
  have hlt : n - 1 < 2 ^ cx.rl := by omega
  simp only [takeRun, takeField_append, Nat.mod_eq_of_lt hlt, Nat.sub_add_cancel hpos]

theorem wf_of_executable {cx : Ctx} {e : Entry} (he : e.executable cx = true) : e.wf cx = true := by
  simp only [Entry.executable, Bool.and_eq_true] at he
  exact he.1

/-- An executable entry is decoded from its own bits, whatever follows them (30_encoding.md R96 to R107). -/
theorem decodeEntry_encodeEntry {cx : Ctx} (hcfg : cx.cfg.legal = true) {e : Entry} (he : e.executable cx = true)
    (rest : List Bool) : decodeEntry cx (encodeEntry cx e ++ rest) = .ok (e, rest) := by
  have hwf := wf_of_executable he
  have lead (kind : EntryKind) (hkind : kindSelected cx kind = true) (tail : List Field) :
      decodeEntry cx (fieldsBits cx.cfg.bitOrder (stringFields (leadString cx kind) ++ tail) ++ rest) =
        takeFields cx kind (leadString cx kind) (fieldsBits cx.cfg.bitOrder tail ++ rest) := by
    rw [fieldsBits_append, fieldsBits_stringFields, List.append_assoc, decodeEntry_leadString hcfg hkind]
  cases e <;> simp only [Entry.wf, Bool.and_eq_true, decide_eq_true_eq] at hwf
  case lit c => exact (lead .lit hwf.1 _).trans (takeLiteral_append cx _ hwf.2 rest)
  case litr n c =>
    obtain ⟨⟨hp, hn⟩, hc⟩ := hwf
    refine (lead .litr hp _).trans ?_
    rw [takeFields, fieldsBits, List.append_assoc, takeRun_append cx _ hn, takeLiteral_append cx _ hc]
  case reserved011 bits => simp [Entry.executable] at he
  case pal i =>
    refine (lead .pal hwf.1 _).trans ?_
    rw [takeFields, fieldsBits, fieldsBits, List.append_nil, takeIndex_append cx _ hwf.2]
  case palr n i =>
    obtain ⟨⟨hp, hn⟩, hi⟩ := hwf
    refine (lead .palr hp _).trans ?_
    rw [takeFields, fieldsBits, List.append_assoc, takeRun_append cx _ hn, fieldsBits, fieldsBits, List.append_nil,
      takeIndex_append cx _ hi]
  case nlit c => exact (lead .nlit hwf.1 _).trans (takeLiteral_append cx _ hwf.2 rest)
  case nrun n c =>
    obtain ⟨⟨hp, hn⟩, hc⟩ := hwf
    refine (lead .nrun hp _).trans ?_
    rw [takeFields, fieldsBits, List.append_assoc, takeRun_append cx _ hn, takeLiteral_append cx _ hc]

/-! ## The header -/

/-- Fields are taken from their own bits. -/
theorem takeValues_append (order : BitOrder) (fs : List Field) (rest : List Bool) :
    takeValues order (fs.map Prod.snd) (fieldsBits order fs ++ rest) = .ok (fs.map fun f => f.1 % 2 ^ f.2, rest) := by
  induction fs with
  | nil => rfl
  | cons f fs ih =>
    simp only [List.map_cons, takeValues, fieldsBits, List.append_assoc, takeField_append, ih]

/-- A header is decoded from its own bits, in either layout (45_header.md R261). -/
theorem decodeHeader_encodeHeader (rsv : HdrRsv0) (order : BitOrder) (h : Header) (rest : List Bool) :
    decodeHeader rsv order (encodeHeader rsv order h ++ rest) = .ok (h, rest) := by
  have hv := takeValues_append order (h.fields rsv) rest
  rw [show (h.fields rsv).map Prod.snd = headerWidths rsv from rfl] at hv
  rw [decodeHeader, encodeHeader, hv]
  simp only [Header.fields, List.map_cons, List.map_nil, headerOfValues, BitVec.ofNat_toNat,
    Nat.mod_eq_of_lt (BitVec.isLt _), BitVec.setWidth_eq]

@[simp] theorem encodeHeader_length (rsv : HdrRsv0) (order : BitOrder) (h : Header) :
    (encodeHeader rsv order h).length = 64 := by
  rw [encodeHeader, fieldsBits_length]
  cases rsv <;> rfl

end Sys2Proof.Proofs
end

section
/-! PROOFS. The entries of a canvas (43_encoder.md R203 to R210): its runs cover it in order, each entry stands for its run,
and both caches go the same way, so the entries expand to the canvas again. -/

namespace Sys2Proof.Proofs

open Sys2Proof.Machine Sys2Proof.Laws

/-! ## Runs -/

/-- The runs that begin inside a run cover the rest of it and what follows, in order. -/
theorem runsFrom_flatMap (maxRun : Nat) (c : Color) (n : Nat) (cs : List Color) :
    (runsFrom maxRun c n cs).flatMap (fun r => List.replicate r.1 r.2) = List.replicate n c ++ cs := by
  induction cs generalizing c n with
  | nil => simp [runsFrom]
  | cons d rest ih =>
    unfold runsFrom
    split
    next h => rw [ih, h.1, List.replicate_succ', List.append_assoc, List.singleton_append]
    next => rw [List.flatMap_cons, ih]; rfl

theorem runsOf_flatMap (maxRun : Nat) (cs : List Color) :
    (runsOf maxRun cs).flatMap (fun r => List.replicate r.1 r.2) = cs := by
  cases cs with
  | nil => rfl
  | cons c rest => exact runsFrom_flatMap maxRun c 1 rest

/-- A run length the encoder can emit, and a Color of the canvas (43_encoder.md R210). -/
theorem mem_runsFrom {maxRun : Nat} {c : Color} {n : Nat} {cs : List Color} {r : Nat × Color} (hn : 1 ≤ n)
    (hmax : n ≤ maxRun) (hr : r ∈ runsFrom maxRun c n cs) : (1 ≤ r.1 ∧ r.1 ≤ maxRun) ∧ r.2 ∈ c :: cs := by
  induction cs generalizing c n with
  | nil =>
    obtain rfl := List.mem_singleton.mp hr
    exact ⟨⟨hn, hmax⟩, List.mem_cons_self⟩
  | cons d rest ih =>
    unfold runsFrom at hr
    split at hr
    next h =>
      obtain ⟨hlen, hmem⟩ := ih (by omega) (by omega) hr
      exact ⟨hlen, List.mem_cons.mpr ((List.mem_cons.mp hmem).imp_right (List.mem_cons_of_mem d))⟩
    next =>
      rcases List.mem_cons.mp hr with rfl | hr
      · exact ⟨⟨hn, hmax⟩, List.mem_cons_self⟩
      · obtain ⟨hlen, hmem⟩ := ih (le_refl 1) (le_trans hn hmax) hr
        exact ⟨hlen, List.mem_cons_of_mem c hmem⟩

theorem mem_runsOf {maxRun : Nat} {cs : List Color} {r : Nat × Color} (hmax : 1 ≤ maxRun)
    (hr : r ∈ runsOf maxRun cs) : (1 ≤ r.1 ∧ r.1 ≤ maxRun) ∧ r.2 ∈ cs := by
  cases cs with
  | nil => cases hr
  | cons c rest => exact mem_runsFrom (le_refl 1) hmax hr

/-! ## The width of an index (00_scope.md R9) -/

theorem le_two_pow_clog2Search {k fuel n : Nat} (h : k ≤ 2 ^ (n + fuel)) : k ≤ 2 ^ clog2Search k fuel n := by
  induction fuel generalizing n with
  | zero => exact h
  | succ fuel ih =>
    unfold clog2Search
    split
    next hk => exact hk
    next => exact ih (by rwa [Nat.add_assoc, Nat.add_comm 1])

theorem le_two_pow_clog2 (k : Nat) : k ≤ 2 ^ clog2 k :=
  le_two_pow_clog2Search (by rw [Nat.zero_add]; exact Nat.lt_two_pow_self.le)

/-! ## The seed (42_palette.md R181) -/

theorem seedRow_length {k : Nat} {rows : List (Nat × List Color)} {cs : List Color}
    (hlegal : ∀ row ∈ rows, row.2.length = row.1) (h : seedRow k rows = some cs) : cs.length = k := by
  induction rows with
  | nil => cases h
  | cons row rest ih =>
    unfold seedRow at h
    split at h
    next hk =>
      obtain rfl := Option.some.inj h
      rw [← hk]
      exact hlegal _ List.mem_cons_self
    next => exact ih (fun row hrow => hlegal row (List.mem_cons_of_mem _ hrow)) h

/-- A legal seed has as many Colors as the cache has slots. -/
theorem seedColors_length {seed : PalSeed} (hlegal : seed.legal = true) (k : Nat) : (seed.colors k).length = k := by
  have hgray : (graySeed k).length = k := by simp [graySeed]
  cases seed with
  | gray => exact hgray
  | table rows =>
    simp only [PalSeed.legal, List.all_eq_true, Bool.and_eq_true, decide_eq_true_eq] at hlegal
    simp only [PalSeed.colors]
    cases hrow : seedRow k rows with
    | none => exact hgray
    | some cs => exact seedRow_length (fun row hmem => (hlegal row hmem).1) hrow

/-- A cache of a legal frame: `K` slots where palette mode is enabled (10_state.md R35). -/
def CacheFull (cx : Ctx) (pal : List Color) : Prop := cx.palEn = true → pal.length = cx.k

theorem cacheFull_seed {cx : Ctx} (hcfg : cx.cfg.legal = true) : CacheFull cx cx.seed := by
  intro hp
  simp only [Config.legal, Bool.and_eq_true] at hcfg
  rw [Ctx.seed, if_pos hp, seedColors_length hcfg.2]

theorem CacheFull.slots {cx : Ctx} {pal : List Color} (h : CacheFull cx pal) : cx.slots pal = pal :=
  ctxSlots_eq fun hp => (h hp).ge

theorem CacheFull.afterRun {cx : Ctx} {pal : List Color} (h : CacheFull cx pal) (c : Color) :
    CacheFull cx (cacheAfterRun cx pal c) := by
  intro hp
  rw [← h hp, cacheAfterRun, if_pos hp]
  split
  · exact promote_length _ _
  · exact pushColor_length _ _

theorem CacheFull.afterEntry {cx : Ctx} {pal : List Color} (h : CacheFull cx pal) (e : Entry) :
    CacheFull cx (cacheAfterEntry cx pal e) := fun hp => (cacheAfterEntry_length cx pal e).trans (h hp)

/-! ## The entry of a run -/

/-- The entry of a run, case by case: the cache is consulted in palette mode alone, and the single form is taken for one
pixel (43_encoder.md R204, R206). -/
theorem entryOf_cases (cx : Ctx) (pal : List Color) (run : Nat × Color) :
    (cx.palEn = true ∧ ∃ j, slotOf run.2 pal = some j
        ∧ entryOf cx pal run = if run.1 = 1 then .pal j else .palr run.1 j)
      ∨ (cx.palEn = true ∧ slotOf run.2 pal = none
        ∧ entryOf cx pal run = if run.1 = 1 then .lit (pack cx.cfg.channelScale cx.fmt run.2)
            else .litr run.1 (pack cx.cfg.channelScale cx.fmt run.2))
      ∨ (cx.palEn = false
        ∧ entryOf cx pal run = if run.1 = 1 then .nlit (pack cx.cfg.channelScale cx.fmt run.2)
            else .nrun run.1 (pack cx.cfg.channelScale cx.fmt run.2)) := by
  cases hp : cx.palEn with
  | false => exact .inr (.inr ⟨rfl, by simp [entryOf, hp]⟩)
  | true =>
    cases hs : slotOf run.2 pal with
    | some j => exact .inl ⟨rfl, j, rfl, by simp [entryOf, hp, hs]⟩
    | none => exact .inr (.inl ⟨rfl, rfl, by simp [entryOf, hp, hs]⟩)

theorem entryOf_runLength (cx : Ctx) (pal : List Color) (run : Nat × Color) :
    (entryOf cx pal run).runLength = run.1 := by
  rcases entryOf_cases cx pal run with ⟨-, j, -, he⟩ | ⟨-, -, he⟩ | ⟨-, he⟩ <;> rw [he] <;> split <;>
    simp_all [Entry.runLength]

section
variable {cx : Ctx} {pal : List Color} {run : Nat × Color}

/-- The decoder gives the entry of a run the Color of the run, if the format stores that Color whole. -/
theorem entryColor_entryOf (hc : storedColor cx.cfg.channelScale cx.fmt run.2 = run.2) :
    entryColor cx pal (entryOf cx pal run) = run.2 := by
  rcases entryOf_cases cx pal run with ⟨-, j, hj, he⟩ | ⟨-, -, he⟩ | ⟨-, he⟩ <;> rw [he]
  · have hget : pal.getD j Color.zero = run.2 := by rw [List.getD_eq_getElem?_getD, (slotOf_some.mp hj).1]; rfl
    split <;> exact hget
  · split <;> exact (unpack_pack _ _ _).trans hc
  · split <;> exact (unpack_pack _ _ _).trans hc

/-- The decoder's cache after the entry is the encoder's after the run (42_palette.md R186). -/
theorem cacheAfterEntry_entryOf (hc : storedColor cx.cfg.channelScale cx.fmt run.2 = run.2) :
    cacheAfterEntry cx pal (entryOf cx pal run) = cacheAfterRun cx pal run.2 := by
  have hpush : pushColor (unpack cx.cfg.channelScale cx.fmt (pack cx.cfg.channelScale cx.fmt run.2)) pal =
      pushColor run.2 pal := by rw [unpack_pack, hc]
  rcases entryOf_cases cx pal run with ⟨hp, j, hj, he⟩ | ⟨hp, hn, he⟩ | ⟨hp, he⟩ <;> rw [he] <;>
    simp only [cacheAfterRun, hp, if_true, Bool.false_eq_true, if_false]
  · rw [hj]; split <;> rfl
  · rw [hn]; split <;> exact hpush
  · split <;> rfl

/-- The entry of a run that the encoder makes is one that the decoder executes. -/
theorem entryOf_executable (hfull : CacheFull cx pal) (hn : 1 ≤ run.1 ∧ run.1 ≤ cx.maxRun) :
    (entryOf cx pal run).executable cx = true := by
  have hrun : runFits cx.rl run.1 = true := decide_eq_true hn
  have hword : wordFits cx.pixBits (pack cx.cfg.channelScale cx.fmt run.2) = true := decide_eq_true (pack_lt _ _ _)
  rcases entryOf_cases cx pal run with ⟨hp, j, hj, he⟩ | ⟨hp, hn, he⟩ | ⟨hp, he⟩ <;> rw [he]
  · have hlt : j < cx.k := by
      rw [← hfull hp]
      exact (List.getElem?_eq_some_iff.mp (slotOf_some.mp hj).1).1
    have hidx : j < 2 ^ cx.idxBits := hlt.trans_le (le_two_pow_clog2 cx.k)
    split <;> simp [Entry.executable, Entry.wf, hp, hlt, hidx, hrun]
  · split <;> simp [Entry.executable, Entry.wf, hp, hword, hrun]
  · split <;> simp [Entry.executable, Entry.wf, hp, hword, hrun]

end

/-! ## The entries of runs -/

theorem coveredPixels_entriesOf (cx : Ctx) (pal : List Color) (runs : List (Nat × Color)) :
    coveredPixels (entriesOf cx pal runs) = (runs.flatMap fun r => List.replicate r.1 r.2).length := by
  induction runs generalizing pal with
  | nil => rfl
  | cons run rest ih =>
    have hrest := ih (cacheAfterRun cx pal run.2)
    simp only [coveredPixels] at hrest
    simp only [coveredPixels, entriesOf, List.map_cons, List.sum_cons, entryOf_runLength, hrest, List.flatMap_cons,
      List.length_append, List.length_replicate]

/-- The entries of runs stand for the Colors of the runs (44_decoder.md R231). -/
theorem expand_entriesOf {cx : Ctx} {runs : List (Nat × Color)} (pal : List Color)
    (hc : ∀ r ∈ runs, storedColor cx.cfg.channelScale cx.fmt r.2 = r.2) :
    expand cx pal (entriesOf cx pal runs) = runs.flatMap fun r => List.replicate r.1 r.2 := by
  induction runs generalizing pal with
  | nil => rfl
  | cons run rest ih =>
    have hrun := hc run List.mem_cons_self
    rw [entriesOf, expand, entryOf_runLength, entryColor_entryOf hrun, cacheAfterEntry_entryOf hrun,
      ih _ fun r hr => hc r (List.mem_cons_of_mem _ hr), List.flatMap_cons]

theorem entriesOf_executable {cx : Ctx} {runs : List (Nat × Color)} {pal : List Color} (hfull : CacheFull cx pal)
    (hn : ∀ r ∈ runs, 1 ≤ r.1 ∧ r.1 ≤ cx.maxRun) : ∀ e ∈ entriesOf cx pal runs, e.executable cx = true := by
  induction runs generalizing pal with
  | nil => intro e he; cases he
  | cons run rest ih =>
    intro e he
    rcases List.mem_cons.mp he with rfl | he
    · exact entryOf_executable hfull (hn run List.mem_cons_self)
    · exact ih (hfull.afterRun run.2) (fun r hr => hn r (List.mem_cons_of_mem _ hr)) e he

/-! ## The entries of a canvas -/

theorem one_le_maxRun (cx : Ctx) : 1 ≤ cx.maxRun := Nat.one_le_two_pow

theorem coveredPixels_canvasEntries (cx : Ctx) (cs : List Color) : coveredPixels (canvasEntries cx cs) = cs.length := by
  rw [canvasEntries, coveredPixels_entriesOf, runsOf_flatMap]

/-- What the encoder makes of a canvas expands to the canvas, if the format stores its Colors whole. -/
theorem expand_canvasEntries {cx : Ctx} {cs : List Color}
    (hc : ∀ c ∈ cs, storedColor cx.cfg.channelScale cx.fmt c = c) : expand cx cx.seed (canvasEntries cx cs) = cs := by
  rw [canvasEntries, expand_entriesOf _ fun r hr => hc _ (mem_runsOf (one_le_maxRun cx) hr).2, runsOf_flatMap]

theorem canvasEntries_executable {cx : Ctx} (hcfg : cx.cfg.legal = true) (cs : List Color) :
    ∀ e ∈ canvasEntries cx cs, e.executable cx = true :=
  entriesOf_executable (cacheFull_seed hcfg) fun _ hr => (mem_runsOf (one_le_maxRun cx) hr).1

end Sys2Proof.Proofs
end

section
/-! PROOFS. What `ENCODE` writes (43_encoder.md R201 to R216): the stream in `SCRATCH` so far, the stream that the run in
progress will become, and the canvas that the scan leaves. -/

namespace Sys2Proof.Proofs

open Sys2Proof.Machine Sys2Proof.Laws

/-! ## The stream written so far -/

/-- Bits set behind the bits that a buffer holds, zeros after both. -/
theorem bit_setBits_getD {b : Buffer} {order : BitOrder} {old : List Bool} (hold : ∀ p, b.bit order p = old.getD p false)
    {new : List Bool} (hfit : old.length + new.length ≤ 8 * b.size) (p : Nat) :
    (b.setBits order old.length new).bit order p = (old ++ new).getD p false := by
  by_cases hnew : old.length ≤ p ∧ p < old.length + new.length
  · obtain ⟨i, rfl⟩ := Nat.exists_eq_add_of_le hnew.1
    have hi : i < new.length := by omega
    rw [bit_setBits_same new b order hi hfit, List.getD_append_right _ _ _ _ (Nat.le_add_right _ _),
      Nat.add_sub_cancel_left, List.getD_eq_getElem _ _ hi]
  · rw [bit_setBits_other _ _ _ hnew, hold]
    by_cases hp : p < old.length
    · rw [List.getD_append _ _ _ _ hp]
    · rw [List.getD_eq_default _ _ (by omega), List.getD_eq_default _ _ (by rw [List.length_append]; omega)]

theorem getD_append_replicate_false (bits : List Bool) (n p : Nat) :
    (bits ++ List.replicate n false).getD p false = bits.getD p false := by
  by_cases hp : p < bits.length
  · rw [List.getD_append _ _ _ _ hp]
  · rw [List.getD_append_right _ _ _ _ (by omega), List.getD_eq_default bits _ (by omega)]
    simp only [List.getD_eq_getElem?_getD, List.getElem?_replicate]
    split <;> rfl

/-- `bits` have been written into the scratch stream. Where they fit, `SCRATCH` holds them and zeros after them; where
they do not, its contents are unspecified and the cursor alone counts them (40_bitstream.md R132, R133). -/
structure Emitted (bits : List Bool) (s : State) : Prop where
  bound : s.bs.buf = .scratch
  size : s.bs.cap ≤ 8 * s.scratch.size
  pos : s.bs.pos = bits.length
  held : bits.length ≤ s.bs.cap → ∀ p, s.scratch.bit s.cfg.bitOrder p = bits.getD p false

theorem Emitted.congr {bits : List Bool} {s t : State} (h : Emitted bits s) (hcfg : t.cfg = s.cfg) (hbs : t.bs = s.bs)
    (hmem : t.scratch = s.scratch) : Emitted bits t :=
  ⟨by rw [hbs, h.bound], by rw [hbs, hmem]; exact h.size, by rw [hbs, h.pos], by rw [hbs, hmem, hcfg]; exact h.held⟩

theorem Emitted.bsInit (size : Nat) (s : State) : Emitted [] (bsInit .scratch size false s) :=
  ⟨rfl, (Nat.mul_comm size 8).le, rfl, fun _ _ => BitVec.getLsbD_zero⟩

/-- Fields go behind what has been written, whether they fit or not. -/
theorem Emitted.writeFields {bits : List Bool} {s : State} (h : Emitted bits s) (fs : List Field) :
    Emitted (bits ++ fieldsBits s.cfg.bitOrder fs) (bsWriteFields fs s) := by
  have hsize : (bsWriteFields fs s).scratch.size = s.scratch.size := bsWriteFields_size fs s .scratch
  have hbound : s.bsBound = true := by rw [bsBound_iff, h.bound]; exact h.size
  refine ⟨?_, ?_, ?_, fun hfit => ?_⟩
  · rw [bsWriteFields_bsbuf, h.bound]
  · rw [bsWriteFields_cap, hsize]; exact h.size
  · rw [bsWriteFields_pos, h.pos, List.length_append, fieldsBits_length]
  · rw [bsWriteFields_cap, List.length_append] at hfit
    have hheld := h.held (by omega)
    rw [bsWriteFields_fits (by rwa [h.pos, ← fieldsBits_length s.cfg.bitOrder]) hbound, h.bound, h.pos]
    exact bit_setBits_getD hheld (hfit.trans h.size)

/-- A skip inside the stream leaves zeros. -/
theorem Emitted.skip {bits : List Bool} {s : State} (h : Emitted bits s) {n : Nat} (hfit : bits.length + n ≤ s.bs.cap) :
    Emitted (bits ++ List.replicate n false) (bsSkip n s) := by
  rw [bsSkip_inside (by rwa [h.pos])]
  refine ⟨h.bound, h.size, ?_, fun _ p => ?_⟩
  · simp [h.pos]
  · rw [getD_append_replicate_false]
    exact h.held (by omega) p

/-! ## What an access of the stream leaves alone -/

/-- Nothing but the stream's registers, the bound buffer and the counter of free values has changed. -/
structure OnlyStream (s t : State) : Prop where
  frame : EncFrame s t
  run : t.run = s.run
  encI : t.encI = s.encI
  pal : t.pal = s.pal
  other : ∀ id, id ≠ s.bs.buf → t.buf id = s.buf id

theorem OnlyStream.refl (s : State) : OnlyStream s s := ⟨.refl s, rfl, rfl, rfl, fun _ _ => rfl⟩

theorem OnlyStream.trans {s t u : State} (a : OnlyStream s t) (b : OnlyStream t u) : OnlyStream s u :=
  ⟨a.frame.trans b.frame, b.run.trans a.run, b.encI.trans a.encI, b.pal.trans a.pal,
    fun id h => (b.other id (by rwa [a.frame.bsbuf])).trans (a.other id h)⟩

theorem bsWriteFields_onlyStream (fs : List Field) (s : State) : OnlyStream s (bsWriteFields fs s) :=
  ⟨writeFields_frame fs s, bsWriteFields_run fs s, bsWriteFields_encI fs s, bsWriteFields_pal fs s,
    fun _ h => bsWriteFields_buf_other fs s h⟩

theorem bsSkip_onlyStream (n : Nat) (s : State) : OnlyStream s (bsSkip n s) :=
  ⟨⟨rfl, rfl, rfl, rfl, rfl, rfl, rfl, rfl, rfl, rfl, rfl, rfl, fun _ => rfl⟩, rfl, rfl, rfl, fun _ _ => rfl⟩

/-! ## The header -/

/-- A step of `HDR.ENCODE` as the field that it leaves in a fresh stream. -/
def stepField (st : HdrStep) : Field := (st.1.getD 0, st.2)

/-- The steps of `HDR.ENCODE` inside the stream leave their fields. -/
theorem Emitted.runHdrSteps {bits : List Bool} {s : State} (h : Emitted bits s) {steps : List HdrStep}
    (hfit : bits.length + fieldsWidth (steps.map stepField) ≤ s.bs.cap) :
    Emitted (bits ++ fieldsBits s.cfg.bitOrder (steps.map stepField)) (runHdrSteps steps s)
      ∧ OnlyStream s (runHdrSteps steps s) := by
  induction steps generalizing bits s with
  | nil => exact ⟨by rw [List.map_nil, fieldsBits, List.append_nil]; exact h, .refl s⟩
  | cons st rest ih =>
    obtain ⟨v, n⟩ := st
    simp only [List.map_cons, stepField, fieldsWidth] at hfit
    have hstep : Emitted (bits ++ fieldBits s.cfg.bitOrder (v.getD 0) n) (hdrStep (v, n) s)
        ∧ OnlyStream s (hdrStep (v, n) s) := by
      cases v with
      | some v =>
        have hwrite := h.writeFields [(v, n)]
        rw [fieldsBits, fieldsBits, List.append_nil] at hwrite
        exact ⟨hwrite, bsWriteFields_onlyStream [(v, n)] s⟩
      | none =>
        refine ⟨?_, bsSkip_onlyStream n s⟩
        rw [Option.getD_none, fieldBits_zero]
        exact h.skip (by omega)
    obtain ⟨hemit, honly⟩ := hstep
    obtain ⟨hemit', honly'⟩ := ih hemit (by
      rw [honly.frame.bscap, List.length_append, fieldBits_length]
      simpa [Nat.add_assoc] using hfit)
    refine ⟨?_, honly.trans honly'⟩
    rw [honly.frame.cfg, List.append_assoc] at hemit'
    exact hemit'

/-- `HDR.ENCODE` into a fresh stream of at least 8 bytes writes the header that `CTRL` describes (45_header.md R262). -/
theorem Emitted.hdrEncode {s : State} (h : Emitted [] s) (hcap : 64 ≤ s.bs.cap) :
    Emitted (encodeHeader s.cfg.hdrRsv0 s.cfg.bitOrder (headerOfCtrl s.ctrl)) (hdrEncode s)
      ∧ OnlyStream s (hdrEncode s) := by
  have hfields : (hdrSteps s.cfg.hdrRsv0 (headerOfCtrl s.ctrl)).map stepField =
      (headerOfCtrl s.ctrl).fields s.cfg.hdrRsv0 := rfl
  have hwidth : fieldsWidth ((headerOfCtrl s.ctrl).fields s.cfg.hdrRsv0) = 64 := by
    rw [← fieldsBits_length s.cfg.bitOrder]
    exact encodeHeader_length _ _ _
  have := h.runHdrSteps (steps := hdrSteps s.cfg.hdrRsv0 (headerOfCtrl s.ctrl)) (by
    rw [hfields, hwidth, List.length_nil, Nat.zero_add]; exact hcap)
  rwa [hfields, List.nil_append] at this

/-! ## The run in progress -/

/-- A run is in progress that started with the cache `pal`: the cache has been moved on for its Color, and mode and code
make the entry of the run, however long it becomes (43_encoder.md R204, R206). -/
structure MidRun (cx : Ctx) (pal : List Color) (s : State) : Prop where
  valid : s.run.valid = true
  full : CacheFull cx pal
  cache : s.pal = cacheAfterRun cx pal s.run.color
  entry : ∀ n, syntaxEntry cx s.run.mode n s.run.code = entryOf cx pal (n, s.run.color)

theorem encStartRun_midRun {cx : Ctx} {s : State} (hfull : CacheFull cx s.pal) (hk : cx.k < 2 ^ 32) (c : Color) :
    MidRun cx s.pal (encStartRun cx c s) ∧ (encStartRun cx c s).run.color = c ∧ (encStartRun cx c s).run.len = 1 := by
  have hslots := hfull.slots
  cases hp : cx.palEn with
  | false =>
    have heq : encStartRun cx c s = { s with run := {
        valid := true, mode := .literal, len := 1, code := pack cx.cfg.channelScale cx.fmt c, color := c } } := by
      simp [encStartRun, hp]
    rw [heq]
    exact ⟨⟨rfl, hfull, by simp [cacheAfterRun, hp], fun n => by simp [syntaxEntry, entryOf, hp]⟩, rfl, rfl⟩
  | true =>
    cases hs : slotOf c s.pal with
    | none =>
      have heq : encStartRun cx c s = { s with
          pal := pushColor c s.pal
          run := {
            valid := true, mode := .literal, len := 1, code := pack cx.cfg.channelScale cx.fmt c, color := c } } := by
        simp [encStartRun, hp, hslots, hs, lookupPalette]
      rw [heq]
      exact ⟨⟨rfl, hfull, by simp [cacheAfterRun, hp, hs], fun n => by simp [syntaxEntry, entryOf, hp, hs]⟩, rfl, rfl⟩
    | some j =>
      have heq : encStartRun cx c s = { s with
          pal := promote j s.pal
          run := { valid := true, mode := .palette, len := 1, code := BitVec.ofNat 32 j, color := c } } := by
        simp [encStartRun, hp, hslots, hs, lookupPalette]
      have hj : (BitVec.ofNat 32 j).toNat = j := by
        have hlt : j < s.pal.length := (List.getElem?_eq_some_iff.mp (slotOf_some.mp hs).1).1
        rw [hfull hp] at hlt
        rw [BitVec.toNat_ofNat, Nat.mod_eq_of_lt (hlt.trans hk)]
      rw [heq]
      refine ⟨⟨rfl, hfull, by simp [cacheAfterRun, hp, hs], fun n => ?_⟩, rfl, rfl⟩
      simp only [syntaxEntry, entryOf, hp, hs, if_true, hj]

/-- The bits of the entries of runs. -/
def runBits (cx : Ctx) (pal : List Color) (runs : List (Nat × Color)) : List Bool :=
  (entriesOf cx pal runs).flatMap (encodeEntry cx)

/-- The scan is inside a run, and the stream will be `stream cs` if the Colors `cs` are still to come. -/
def Writing (cx : Ctx) (stream : List Color → List Bool) (s : State) : Prop :=
  ∃ pal bits, cx.cfg = s.cfg ∧ MidRun cx pal s ∧ Emitted bits s
    ∧ ∀ cs, stream cs = bits ++ runBits cx pal (runsFrom cx.maxRun s.run.color s.run.len cs)

theorem Writing.congr {cx : Ctx} {stream : List Color → List Bool} {s t : State} (h : Writing cx stream s)
    (hcfg : t.cfg = s.cfg) (hbs : t.bs = s.bs) (hmem : t.scratch = s.scratch) (hrun : t.run = s.run)
    (hpal : t.pal = s.pal) : Writing cx stream t := by
  obtain ⟨pal, bits, hcx, hmid, hemit, hstream⟩ := h
  refine ⟨pal, bits, hcx.trans hcfg.symm, ?_, hemit.congr hcfg hbs hmem, by rwa [hrun]⟩
  exact ⟨by rw [hrun, hmid.valid], hmid.full, by rw [hpal, hrun, hmid.cache], by rw [hrun]; exact hmid.entry⟩

/-- The run in progress is emitted as its entry (43_encoder.md R205). -/
theorem Emitted.flush {cx : Ctx} {pal : List Color} {bits : List Bool} {s : State} (h : Emitted bits s)
    (hcx : cx.cfg = s.cfg) (hmid : MidRun cx pal s) :
    Emitted (bits ++ encodeEntry cx (entryOf cx pal (s.run.len, s.run.color))) (encFlush cx s) := by
  rw [encFlush, encSyntax, hmid.entry, encodeEntry, hcx]
  exact h.writeFields _

/-- A run that starts with the stream `bits` written and the cache as it is. -/
theorem Writing.startRun {cx : Ctx} {s : State} {bits : List Bool} (hcx : cx.cfg = s.cfg) (hfull : CacheFull cx s.pal)
    (hk : cx.k < 2 ^ 32) (hemit : Emitted bits s) (c : Color) :
    Writing cx (fun cs => bits ++ runBits cx s.pal (runsFrom cx.maxRun c 1 cs)) (encStartRun cx c s) := by
  obtain ⟨hmid, hcolor, hlen⟩ := encStartRun_midRun hfull hk c
  have hcfg : (encStartRun cx c s).cfg = s.cfg := (startRun_frame cx c s).cfg
  refine ⟨s.pal, bits, hcx.trans hcfg.symm, hmid, ?_, fun cs => by rw [hcolor, hlen]⟩
  exact hemit.congr hcfg (startRun_bs cx c s) (startRun_mem cx c s .scratch)

/-- One more Color of the canvas (43_encoder.md R203): it extends the run, or the run is emitted and another one starts. -/
theorem Writing.pixel {cx : Ctx} {stream : List Color → List Bool} {s : State} (h : Writing cx stream s)
    (hk : cx.k < 2 ^ 32) (c : Color) : Writing cx (fun cs => stream (c :: cs)) (encPixel cx c s) := by
  obtain ⟨pal, bits, hcx, hmid, hemit, hstream⟩ := h
  by_cases hext : c = s.run.color ∧ s.run.len ≠ cx.maxRun
  · have heq : encPixel cx c s = { s with run := { s.run with len := s.run.len + 1 } } := by
      simp [encPixel, hmid.valid, runEnds, hext]
    rw [heq]
    refine ⟨pal, bits, hcx, ⟨hmid.valid, hmid.full, hmid.cache, hmid.entry⟩, hemit.congr rfl rfl rfl, fun cs => ?_⟩
    simp only [hstream, runsFrom, if_pos hext]
  · have heq : encPixel cx c s = encStartRun cx c (encFlush cx s) := by
      have hends : runEnds cx c s = true := by
        rw [not_and_or, not_not] at hext
        rw [runEnds, Bool.or_eq_true, decide_eq_true_eq, decide_eq_true_eq]
        exact hext
      simp [encPixel, hmid.valid, hends]
    have hpal : (encFlush cx s).pal = cacheAfterRun cx pal s.run.color :=
      (bsWriteFields_pal _ _).trans hmid.cache
    have hfull : CacheFull cx (encFlush cx s).pal := by rw [hpal]; exact hmid.full.afterRun _
    have hstart := Writing.startRun (hcx.trans (flush_frame cx s).cfg.symm) hfull hk (hemit.flush hcx hmid) c
    rw [heq]
    convert hstart using 2 with cs
    rw [hstream, runsFrom, if_neg hext, runBits, entriesOf, List.flatMap_cons, ← List.append_assoc, hpal]
    rfl

/-- The last run emitted, the stream is complete (43_encoder.md R201 step 4). -/
theorem Writing.flush {cx : Ctx} {stream : List Color → List Bool} {s : State} (h : Writing cx stream s) :
    Emitted (stream []) (encFlush cx s) := by
  obtain ⟨pal, bits, hcx, hmid, hemit, hstream⟩ := h
  have := hemit.flush hcx hmid
  rw [hstream]
  simpa [runBits, runsFrom, entriesOf] using this

/-! ## The scan -/

/-- The preprocessed Color of a pixel, with the control values of the state. -/
def scanColor (cx : Ctx) (canvas : BufId) (s : State) (i : Nat) : Color :=
  preppedColor cx.fmt canvas i s.ctrl.rgbTrunc s.ctrl.alphaTrunc (s.ctrl.zeroize == 1) s

/-- The Colors of the `n` pixels that a scan comes to next. -/
def scanColors (cx : Ctx) (canvas : BufId) (s : State) (n : Nat) : List Color :=
  (List.range' s.encI n).map (scanColor cx canvas s)

/-- `n` pixels of the canvas are left to be scanned, and all of them exist. -/
structure Scanning (canvas : BufId) (cx : Ctx) (n : Nat) (s : State) : Prop where
  bound : s.bs.buf = .scratch
  apart : canvas ≠ .scratch
  room : cx.fmt.pixbytes (s.encI + n) ≤ (s.buf canvas).size

section
variable {cx : Ctx} {canvas : BufId} {n : Nat} {s : State}

theorem Scanning.pixInside (h : Scanning canvas cx (n + 1) s) : pixInside cx.fmt (s.buf canvas) s.encI = true :=
  decide_eq_true ((pixbytes_mono cx.fmt (by omega)).trans h.room)

/-- The state in which a step of the scan comes to `ENC.PIXEL`. -/
def scanPrepped (cx : Ctx) (canvas : BufId) (s : State) : State :=
  s.setBuf canvas (setPixelColor s.cfg cx.fmt (s.buf canvas) s.encI (scanColor cx canvas s s.encI))

theorem encScanStep_eq (cx : Ctx) (canvas : BufId) (s : State) :
    encScanStep cx canvas s =
      { encPixel cx (scanColor cx canvas s s.encI) (scanPrepped cx canvas s) with encI := s.encI + 1 } := by
  have hencI : (encPixel cx (scanColor cx canvas s s.encI) (scanPrepped cx canvas s)).encI = s.encI := by
    rw [encPixel_encI, scanPrepped, setBuf_encI]
  exact congrArg (fun i => ({ encPixel cx (scanColor cx canvas s s.encI) (scanPrepped cx canvas s) with
    encI := i + 1 } : State)) hencI

theorem encScanStep_encI (cx : Ctx) (canvas : BufId) (s : State) : (encScanStep cx canvas s).encI = s.encI + 1 := by
  rw [encScanStep_eq]

theorem encScanStep_frame (cx : Ctx) (canvas : BufId) (s : State) : EncFrame s (encScanStep cx canvas s) := by
  have hprep : EncFrame s (scanPrepped cx canvas s) := setBuf_frame s canvas _ (pixWrite_size _ _ _ _ _)
  have hpixel := hprep.trans (encPixel_frame cx (scanColor cx canvas s s.encI) (scanPrepped cx canvas s))
  rw [encScanStep_eq]
  exact ⟨hpixel.cfg, hpixel.dec, hpixel.ctrl, hpixel.res, hpixel.job, hpixel.objs, hpixel.phase, hpixel.pending,
    hpixel.ret, hpixel.bsbuf, hpixel.bscap, hpixel.bsro, hpixel.size⟩

/-- A step leaves the canvas with one pixel preprocessed. -/
theorem encScanStep_buf_canvas (h : Scanning canvas cx (n + 1) s) :
    (encScanStep cx canvas s).buf canvas =
      setPixelColor s.cfg cx.fmt (s.buf canvas) s.encI (scanColor cx canvas s s.encI) := by
  calc (encScanStep cx canvas s).buf canvas
      = (encPixel cx (scanColor cx canvas s s.encI) (scanPrepped cx canvas s)).buf canvas := by rw [encScanStep_eq]; rfl
    _ = (scanPrepped cx canvas s).buf canvas :=
        encPixel_other _ _ _ (by rw [scanPrepped, setBuf_bs, h.bound]; exact h.apart)
    _ = _ := buf_setBuf_same s _ (given_of_pixInside h.pixInside)

theorem Scanning.step (h : Scanning canvas cx (n + 1) s) : Scanning canvas cx n (encScanStep cx canvas s) := by
  have hframe := encScanStep_frame cx canvas s
  refine ⟨hframe.bsbuf.trans h.bound, h.apart, ?_⟩
  rw [hframe.size, encScanStep_encI, Nat.add_assoc, Nat.add_comm 1]
  exact h.room

theorem pixRead_encScanStep (h : Scanning canvas cx (n + 1) s) (i : Nat) :
    pixRead s.cfg cx.fmt ((encScanStep cx canvas s).buf canvas) i =
      if i = s.encI then pack s.cfg.channelScale cx.fmt (scanColor cx canvas s i)
      else pixRead s.cfg cx.fmt (s.buf canvas) i := by
  rw [encScanStep_buf_canvas h, setPixelColor]
  split
  next hi =>
    rw [hi, pixRead_pixWrite_same _ _ _ _ h.pixInside, Nat.mod_eq_of_lt (pack_lt _ _ _), BitVec.ofNat_toNat,
      BitVec.setWidth_eq]
  next hi => exact pixRead_pixWrite_other _ _ _ _ hi

/-- The pixels still to come keep their Colors. -/
theorem scanColor_encScanStep (h : Scanning canvas cx (n + 1) s) {i : Nat} (hi : i ≠ s.encI) :
    scanColor cx canvas (encScanStep cx canvas s) i = scanColor cx canvas s i := by
  have hframe := encScanStep_frame cx canvas s
  simp only [scanColor, preppedColor, pixelColor, hframe.cfg, hframe.ctrl, pixRead_encScanStep h, if_neg hi]

theorem scanColors_succ (h : Scanning canvas cx (n + 1) s) :
    scanColors cx canvas s (n + 1) =
      scanColor cx canvas s s.encI :: scanColors cx canvas (encScanStep cx canvas s) n := by
  rw [scanColors, List.range'_succ, List.map_cons, scanColors, encScanStep_encI]
  congr 1
  refine List.map_congr_left fun i hi => (scanColor_encScanStep h ?_).symm
  have := (List.mem_range'_1.mp hi).1
  omega

/-- A step of the scan writes what `ENC.PIXEL` writes: the canvas is no part of the stream. -/
theorem Writing.of_encPixel (h : Scanning canvas cx (n + 1) s) {stream : List Color → List Bool}
    (hw : ∀ t : State, t.cfg = s.cfg → t.bs = s.bs → t.scratch = s.scratch → t.run = s.run → t.pal = s.pal →
      Writing cx stream (encPixel cx (scanColor cx canvas s s.encI) t)) : Writing cx stream (encScanStep cx canvas s) := by
  have hpixel := hw (scanPrepped cx canvas s) (setBuf_cfg _ _ _) (setBuf_bs _ _ _)
    (buf_setBuf_other s (id' := .scratch) _ h.apart.symm) (setBuf_run _ _ _) (setBuf_pal _ _ _)
  rw [encScanStep_eq]
  exact hpixel.congr rfl rfl rfl rfl rfl

/-- The scan writes the stream on by the Colors of its pixels. -/
theorem Writing.scan (h : Scanning canvas cx n s) (hk : cx.k < 2 ^ 32) {stream : List Color → List Bool}
    (hw : Writing cx stream s) :
    Writing cx (fun cs => stream (scanColors cx canvas s n ++ cs)) (encScan cx canvas n s) := by
  induction n generalizing s stream with
  | zero => exact hw
  | succ n ih =>
    have hstep : Writing cx (fun cs => stream (scanColor cx canvas s s.encI :: cs)) (encScanStep cx canvas s) :=
      .of_encPixel h fun t hcfg hbs hmem hrun hpal => (hw.congr hcfg hbs hmem hrun hpal).pixel hk _
    rw [scanColors_succ h]
    exact ih h.step hstep

/-- The scan of a canvas of at least one pixel, and the flush after it, write the entries of its runs. -/
theorem Emitted.scan {bits : List Bool} (hemit : Emitted bits s) (h : Scanning canvas cx (n + 1) s)
    (hcx : cx.cfg = s.cfg) (hfull : CacheFull cx s.pal) (hk : cx.k < 2 ^ 32) (hrun : s.run.valid = false) :
    Emitted (bits ++ runBits cx s.pal (runsOf cx.maxRun (scanColors cx canvas s (n + 1))))
      (encFlush cx (encScan cx canvas (n + 1) s)) := by
  have hstep : Writing cx (fun cs => bits ++ runBits cx s.pal (runsFrom cx.maxRun (scanColor cx canvas s s.encI) 1 cs))
      (encScanStep cx canvas s) := .of_encPixel h fun t hcfg hbs hmem hrunt hpal => by
    rw [encPixel, if_pos (by rw [hrunt, hrun]), ← hpal]
    exact .startRun (hcx.trans hcfg.symm) (by rwa [hpal]) hk (hemit.congr hcfg hbs hmem) _
  have := (hstep.scan h.step hk).flush
  rw [List.append_nil] at this
  rw [scanColors_succ h]
  exact this

/-- What the scan leaves: the pixels it came to are preprocessed, the others stay. -/
theorem pixRead_encScan (h : Scanning canvas cx n s) (i : Nat) :
    pixRead s.cfg cx.fmt ((encScan cx canvas n s).buf canvas) i =
      if s.encI ≤ i ∧ i < s.encI + n then pack s.cfg.channelScale cx.fmt (scanColor cx canvas s i)
      else pixRead s.cfg cx.fmt (s.buf canvas) i := by
  induction n generalizing s with
  | zero => rw [if_neg (by omega)]; rfl
  | succ n ih =>
    have hrest := ih h.step
    rw [(encScanStep_frame cx canvas s).cfg, encScanStep_encI, pixRead_encScanStep h] at hrest
    rw [encScan, hrest]
    by_cases hi : i = s.encI
    · rw [if_neg (by omega), if_pos hi, if_pos (by omega)]
    · rw [scanColor_encScanStep h hi, if_neg hi]
      exact if_congr (by omega) rfl rfl

theorem encScan_frame (cx : Ctx) (canvas : BufId) (n : Nat) (s : State) : EncFrame s (encScan cx canvas n s) := by
  induction n generalizing s with
  | zero => exact .refl s
  | succ n ih => exact (encScanStep_frame cx canvas s).trans (ih _)

end

/-! ## The pass -/

/-- What the pass has written when it comes to `ENC.FINISH`, from a state with the control values set. -/
structure PassWritten (cx : Ctx) (canvas : BufId) (s t : State) : Prop where
  cfg : t.cfg = s.cfg
  size : ∀ h : HostBuf, (t.buf (.host h)).size = (s.buf (.host h)).size
  emitted : Emitted (streamOf cx (headerOfCtrl s.ctrl)
    (canvasEntries cx ((List.range s.pixels).map (scanColor cx canvas s)))) t
  pixels : ∀ i, i < s.pixels →
    pixRead s.cfg cx.fmt (t.buf canvas) i = pack s.cfg.channelScale cx.fmt (scanColor cx canvas s i)

/-- The resets of `ENCODE` (43_encoder.md R201 step 1). -/
def encFresh (cx : Ctx) (s : State) : State :=
  encReset (seedPalette (bsInit .scratch (scratchBytes s.cfg s.pixels cx.pixBits) false s))

theorem encBegin_eq (cx : Ctx) (s : State) : encBegin cx s = hdrEncode (encFresh cx s) := rfl

theorem encFresh_emitted (cx : Ctx) (s : State) : Emitted [] (encFresh cx s) :=
  (Emitted.bsInit (scratchBytes s.cfg s.pixels cx.pixBits) s).congr rfl rfl rfl

/-- The scratch stream holds a header at least (R214). -/
theorem encFresh_cap (cx : Ctx) (s : State) : 64 ≤ (encFresh cx s).bs.cap := by
  show 64 ≤ scratchBytes s.cfg s.pixels cx.pixBits * 8
  simp only [scratchBytes, roundup16, ceilDiv]
  omega

@[simp] theorem encFresh_cfg (cx : Ctx) (s : State) : (encFresh cx s).cfg = s.cfg := rfl
@[simp] theorem encFresh_ctrl (cx : Ctx) (s : State) : (encFresh cx s).ctrl = s.ctrl := rfl
@[simp] theorem encFresh_valid (cx : Ctx) (s : State) : (encFresh cx s).run.valid = false := rfl
@[simp] theorem encFresh_encI (cx : Ctx) (s : State) : (encFresh cx s).encI = 0 := rfl
@[simp] theorem encFresh_bsbuf (cx : Ctx) (s : State) : (encFresh cx s).bs.buf = .scratch := rfl

theorem encFresh_pal (f : Fmt) (s : State) : (encFresh (s.ctxOf f) s).pal = (s.ctxOf f).seed := rfl

theorem encFresh_buf_host (cx : Ctx) (s : State) (h : HostBuf) : (encFresh cx s).buf (.host h) = s.buf (.host h) := by
  cases h <;> rfl

/-- The resets and the header (43_encoder.md R201 steps 1 and 2). -/
theorem encBegin_spec (f : Fmt) (s : State) :
    Emitted (encodeHeader s.cfg.hdrRsv0 s.cfg.bitOrder (headerOfCtrl s.ctrl)) (encBegin (s.ctxOf f) s)
      ∧ (encBegin (s.ctxOf f) s).cfg = s.cfg ∧ (encBegin (s.ctxOf f) s).ctrl = s.ctrl
      ∧ (encBegin (s.ctxOf f) s).run.valid = false ∧ (encBegin (s.ctxOf f) s).encI = 0
      ∧ (encBegin (s.ctxOf f) s).pal = (s.ctxOf f).seed
      ∧ ∀ h : HostBuf, (encBegin (s.ctxOf f) s).buf (.host h) = s.buf (.host h) := by
  obtain ⟨hheader, honly⟩ := (encFresh_emitted (s.ctxOf f) s).hdrEncode (encFresh_cap _ s)
  rw [encBegin_eq]
  rw [encFresh_cfg, encFresh_ctrl] at hheader
  refine ⟨hheader, by rw [honly.frame.cfg, encFresh_cfg], by rw [honly.frame.ctrl, encFresh_ctrl],
    by rw [honly.run, encFresh_valid], by rw [honly.encI, encFresh_encI], by rw [honly.pal, encFresh_pal], fun h => ?_⟩
  rw [honly.other _ (by rw [encFresh_bsbuf]; rintro ⟨⟩), encFresh_buf_host]

/-- Steps 1 to 4 of `ENCODE` (43_encoder.md R201) on a canvas that holds its pixels. -/
theorem encodeStream_spec {cx : Ctx} {f : Fmt} {src : HostBuf} {s : State} (hcx : cx = s.ctxOf f)
    (hcfg : s.cfg.legal = true) (hpos : 0 < s.pixels)
    (hroom : f.pixbytes s.pixels ≤ (s.buf (.host src)).size) :
    PassWritten cx (.host src) s (encodeStream cx (.host src) s) := by
  obtain ⟨hemit, hcfgb, hctrl, hrun, hencI, hpal, hbuf⟩ := encBegin_spec f s
  rw [← hcx] at hemit hcfgb hctrl hrun hencI hpal hbuf
  have hfmt : cx.fmt = f := by rw [hcx]; rfl
  have hcxb : cx.cfg = (encBegin cx s).cfg := by rw [hcfgb, hcx]; rfl
  have hk : cx.k < 2 ^ 32 := by rw [hcx]; exact lt_trans s.ctrl.palSize.isLt (by norm_num)
  obtain ⟨n, hn⟩ := Nat.exists_eq_succ_of_ne_zero hpos.ne'
  have hend : encodeStream cx (.host src) s = encFlush cx (encScan cx (.host src) (n + 1) (encBegin cx s)) := by
    rw [encodeStream, hn]
  have hscan : Scanning (.host src) cx (n + 1) (encBegin cx s) :=
    ⟨hemit.bound, by rintro ⟨⟩, by rw [hencI, Nat.zero_add, ← Nat.succ_eq_add_one, ← hn, hfmt, hbuf]; exact hroom⟩
  have hcolor (i : Nat) : scanColor cx (.host src) (encBegin cx s) i = scanColor cx (.host src) s i := by
    simp only [scanColor, preppedColor, hcfgb, hctrl, hbuf]
  have hcolors : scanColors cx (.host src) (encBegin cx s) (n + 1) =
      (List.range s.pixels).map (scanColor cx (.host src) s) := by
    rw [scanColors, hencI, hn, List.range_eq_range']
    exact List.map_congr_left fun i _ => hcolor i
  have hframe := encScan_frame cx (.host src) (n + 1) (encBegin cx s)
  have hflush := flush_frame cx (encScan cx (.host src) (n + 1) (encBegin cx s))
  rw [hend]
  refine ⟨?cfg, fun h => ?size, ?emitted, fun i hi => ?pixels⟩
  case cfg => rw [hflush.cfg, hframe.cfg, hcfgb]
  case size => rw [hflush.size, hframe.size, hbuf]
  case emitted =>
    have hfull : CacheFull cx (encBegin cx s).pal := by
      rw [hpal]; exact cacheFull_seed (by rw [hcxb, hcfgb]; exact hcfg)
    have hstream := hemit.scan hscan hcxb hfull hk hrun
    rw [hcolors, hpal] at hstream
    rw [streamOf, hcxb, hcfgb]
    exact hstream
  case pixels =>
    have hpixel := pixRead_encScan hscan i
    rw [hencI, hcfgb, hbuf, hcolor, if_pos (by omega)] at hpixel
    rw [flush_other cx _ (by rw [hframe.bsbuf, hemit.bound]; exact hscan.apart), hpixel]

end Sys2Proof.Proofs
end

section
/-! PROOFS. What `DECODE` reads (44_decoder.md R231 to R244): the entries at the cursor one by one, the pixels they leave, and
the steps before the loop. -/

namespace Sys2Proof.Proofs

open Sys2Proof.Machine Sys2Proof.Laws

/-! ## The fetch of an entry -/

/-- The leading bits of every entry fit the window in which its kind is told. -/
theorem lead_length_le (cx : Ctx) :
    cx.cfg.entryCodes.lit.length ≤ cx.leadWindow ∧ cx.cfg.entryCodes.litr.length ≤ cx.leadWindow
      ∧ cx.cfg.entryCodes.pal.length ≤ cx.leadWindow ∧ cx.cfg.entryCodes.palr.length ≤ cx.leadWindow
      ∧ 1 ≤ cx.leadWindow := by
  simp only [Ctx.leadWindow]
  omega

/-- The window holds every entry that is no reserved string. -/
theorem width_le_window {cx : Ctx} {e : Entry} (h : ∀ bits, e ≠ .reserved011 bits) : e.width cx ≤ cx.window := by
  obtain ⟨hlit, hlitr, hpal, hpalr, hplain⟩ := lead_length_le cx
  cases e <;> simp only [Entry.width, Entry.fields, fieldsWidth_append, fieldsWidth_stringFields, fieldsWidth,
    fieldsWidth_codeFields', Ctx.window, List.length_cons, List.length_nil]
  case reserved011 bits => exact absurd rfl (h bits)
  all_goals omega

theorem executable_ne_reserved {cx : Ctx} {e : Entry} (h : e.executable cx = true) (bits : List Bool) :
    e ≠ .reserved011 bits := by
  rintro rfl
  simp [Entry.executable] at h

/-- An executable entry whose bits stand at the cursor, inside the stream, is the one that is fetched, whatever the bits
after it are. -/
theorem fetchEntry_of_bits {cx : Ctx} {s : State} {e : Entry} (hcfg : cx.cfg.legal = true)
    (he : e.executable cx = true) (hfit : s.bs.pos + e.width cx ≤ s.bs.cap)
    (hbits : (s.buf s.bs.buf).bitList s.cfg.bitOrder s.bs.pos (e.width cx) = encodeEntry cx e) :
    fetchEntry cx s = e := by
  obtain ⟨k, hk⟩ := Nat.exists_eq_add_of_le (width_le_window (executable_ne_reserved he))
  refine fetchEntry_of_decode (rest := s.streamBits (s.bs.pos + e.width cx) k) ?_
  rw [hk, streamBits_add, streamBits_inside hfit, hbits]
  exact decodeEntry_encodeEntry hcfg he _

/-! ## The execution of an entry -/

/-- None of the checks of R231 fails. -/
theorem entryFault_none {cx : Ctx} {slot : Option Nat} {s : State} (hok : s.bs.status = .ok)
    (hslot : ∀ i, slot = some i → i < cx.k) (hlen : s.dec.len ≤ s.dec.remaining) : entryFault cx slot s = none := by
  have hany : (slot.any fun i => decide (cx.k ≤ i)) = false := by
    cases slot with
    | none => rfl
    | some i => exact decide_eq_false (Nat.not_le.mpr (hslot i rfl))
  rw [entryFault, if_neg (by rw [hok]; rintro ⟨⟩), if_neg (by rw [hany]; exact Bool.false_ne_true),
    if_neg (Nat.not_lt.mpr hlen)]

/-- An executable entry at the cursor, inside the stream and inside what remains of the frame. -/
structure EntryFits (cx : Ctx) (e : Entry) (s : State) : Prop where
  fmt : s.fmt? = some cx.fmt
  ctx : s.ctxOf cx.fmt = cx
  full : CacheFull cx s.pal
  ok : s.bs.status = .ok
  executable : e.executable cx = true
  inside : s.bs.pos + e.width cx ≤ s.bs.cap
  length : e.runLength ≤ s.dec.remaining
  room : cx.fmt.pixbytes (s.dec.outpix + e.runLength) ≤ (s.buf (.host s.job.dst)).size

section
variable {cx : Ctx} {e : Entry} {s : State}

theorem EntryFits.readEntry (h : EntryFits cx e s) :
    readEntry cx e s = { s with
      bs := { s.bs with pos := s.bs.pos + e.width cx }
      dec := { s.dec with mode := e.mode, len := e.runLength, code := e.code } } := by
  rw [Machine.readEntry, bsAdvance_inside h.inside]

theorem EntryFits.noFault (h : EntryFits cx e s) {slot : Option Nat} (hslot : ∀ i, slot = some i → i < cx.k) :
    entryFault cx slot (Machine.readEntry cx e s) = none :=
  entryFault_none (by rw [h.readEntry]; exact h.ok) hslot (by rw [h.readEntry]; exact h.length)

/-- The pixels of the entry are emitted with its Color. -/
theorem EntryFits.emit (h : EntryFits cx e s) :
    emitOrRefuse cx (resolved cx e s) = .next (decEmit cx (resolved cx e s)) :=
  emit_next (by rw [resolved_buf]; exact h.room)

/-- A literal entry, with the push of palette mode or without. -/
theorem EntryFits.literalEntry (h : EntryFits cx e s) {c : Word} {push : Bool}
    (hcolor : entryColor cx s.pal e = unpack cx.cfg.channelScale cx.fmt c)
    (hcache : cacheAfterEntry cx s.pal e =
      if push then pushColor (unpack cx.cfg.channelScale cx.fmt c) s.pal else s.pal) :
    literalEntry e c push s = .next (decEmit cx (resolved cx e s)) := by
  have hresolve : resolveLiteral cx c push (Machine.readEntry cx e s) = resolved cx e s := by
    rw [h.readEntry, resolveLiteral, resolved, hcolor, hcache, h.full.slots]
  rw [Machine.literalEntry, withCtx_some h.fmt, h.ctx]
  simp only [h.noFault (slot := none) (by rintro i ⟨⟩), hresolve, h.emit]

/-- A palette entry of a slot that exists. -/
theorem EntryFits.paletteEntry (h : EntryFits cx e s) {i : Nat} (hi : i < cx.k) (hp : cx.palEn = true)
    (hcolor : entryColor cx s.pal e = s.pal.getD i Color.zero) (hcache : cacheAfterEntry cx s.pal e = promote i s.pal) :
    paletteEntry e i s = .next (decEmit cx (resolved cx e s)) := by
  have hlt : i < s.pal.length := by rwa [h.full hp]
  have hresolve : ({ Machine.readEntry cx e s with
      dec := { (Machine.readEntry cx e s).dec with color := s.pal[i] }
      pal := promote i s.pal } : State) = resolved cx e s := by
    rw [h.readEntry, resolved, hcolor, hcache, List.getD_eq_getElem _ _ hlt]
  rw [Machine.paletteEntry, withCtx_some h.fmt, h.ctx]
  simp only [h.noFault (slot := some i) (by rintro j ⟨⟩; exact hi), h.full.slots, List.getElem?_eq_getElem hlt,
    hresolve, h.emit]

/-- What the execution of an entry leaves (44_decoder.md R236 to R241). -/
theorem EntryFits.runEntry (h : EntryFits cx e s) : runEntry e s = .next (decEmit cx (resolved cx e s)) := by
  have he := h.executable
  cases e <;> simp only [Entry.executable, Entry.wf, Bool.and_eq_true, decide_eq_true_eq] at he
  case lit c => exact h.literalEntry rfl rfl
  case litr n c => exact h.literalEntry rfl rfl
  case reserved011 bits => exact nomatch he.2
  case pal i => exact h.paletteEntry he.2 he.1.1 rfl rfl
  case palr n i => exact h.paletteEntry he.2 he.1.1.1 rfl rfl
  case nlit c => exact h.literalEntry rfl rfl
  case nrun n c => exact h.literalEntry rfl rfl

end

/-! ## The loop -/

/-- Inside the loop of a `DECODE`: executable entries that cover the rest of the frame stand at the cursor. -/
structure Reading (cx : Ctx) (es : List Entry) (s : State) : Prop where
  phase : s.phase = .entries
  fmt : s.fmt? = some cx.fmt
  ctx : s.ctxOf cx.fmt = cx
  full : CacheFull cx s.pal
  ok : s.bs.status = .ok
  apart : s.bs.buf ≠ .host s.job.dst
  executable : ∀ e ∈ es, e.executable cx = true
  remaining : s.dec.remaining = coveredPixels es
  room : cx.fmt.pixbytes (s.dec.outpix + coveredPixels es) ≤ (s.buf (.host s.job.dst)).size
  inside : s.bs.pos + (es.flatMap (encodeEntry cx)).length ≤ s.bs.cap
  stream : (s.buf s.bs.buf).bitList s.cfg.bitOrder s.bs.pos (es.flatMap (encodeEntry cx)).length =
    es.flatMap (encodeEntry cx)

/-- Bits in a row, cut in two. -/
theorem bitList_eq_append {b : Buffer} {order : BitOrder} {p : Nat} {xs ys : List Bool}
    (h : b.bitList order p (xs ++ ys).length = xs ++ ys) :
    b.bitList order p xs.length = xs ∧ b.bitList order (p + xs.length) ys.length = ys := by
  rw [List.length_append, bitList_add] at h
  exact List.append_inj h (bitList_length _ _ _ _)

theorem coveredPixels_cons (e : Entry) (es : List Entry) : coveredPixels (e :: es) = e.runLength + coveredPixels es := rfl

section
variable {cx : Ctx} {e : Entry} {es : List Entry} {s : State}

theorem Reading.cfg (h : Reading cx es s) : cx.cfg = s.cfg := by rw [← h.ctx]; rfl

theorem Reading.entryFits (h : Reading cx (e :: es) s) : EntryFits cx e s := by
  have hinside := h.inside
  have hroom := h.room
  rw [List.flatMap_cons, List.length_append, width_eq_length] at hinside
  rw [coveredPixels_cons] at hroom
  exact ⟨h.fmt, h.ctx, h.full, h.ok, h.executable e List.mem_cons_self, by omega,
    by rw [h.remaining, coveredPixels_cons]; omega, (pixbytes_mono _ (by omega)).trans hroom⟩

/-- What the emission of an entry's pixels leaves of the state. -/
theorem EntryFits.emitted (h : EntryFits cx e s) (hcx : cx.cfg = s.cfg) :
    let t := decEmit cx (resolved cx e s)
    t.withMem s = { resolved cx e s with
        dec := {
          (resolved cx e s).dec with
          outpix := s.dec.outpix + e.runLength
          remaining := s.dec.remaining - e.runLength } }
      ∧ (∀ i, s.dec.outpix ≤ i → i < s.dec.outpix + e.runLength →
          pixRead s.cfg cx.fmt (t.buf (.host s.job.dst)) i =
            pack s.cfg.channelScale cx.fmt (entryColor cx s.pal e))
      ∧ (∀ i, ¬(s.dec.outpix ≤ i ∧ i < s.dec.outpix + e.runLength) →
          pixRead s.cfg cx.fmt (t.buf (.host s.job.dst)) i = pixRead s.cfg cx.fmt (s.buf (.host s.job.dst)) i)
      ∧ (∀ id, (t.buf id).size = (s.buf id).size)
      ∧ ∀ id, id ≠ .host s.job.dst → ∀ p, (t.buf id).bit s.cfg.bitOrder p = (s.buf id).bit s.cfg.bitOrder p := by
  have hspec := decEmit_spec cx (resolved cx e s) hcx (by rw [resolved_buf]; exact h.room)
  simp only [resolved_buf] at hspec
  obtain ⟨hregs, hin, hout, hsize, hbytes⟩ := hspec
  refine ⟨hregs, hin, hout, fun id => (hsize id).trans ?_, fun id hid p => bit_congr ?_ _⟩
  · rw [resolved_buf]
  · have := hbytes id (p / 8) fun hstored => hid hstored.1
    simp only [State.byteAt, resolved_buf] at this
    exact this

/-- The loop fetches and executes the entry at the cursor (44_decoder.md R231 step 3). -/
theorem Reading.decStep_cons (h : Reading cx (e :: es) s) (hcfg : cx.cfg.legal = true) :
    decStep s = .next (decEmit cx (resolved cx e s)) := by
  have hfits := h.entryFits
  have hstream := h.stream
  rw [List.flatMap_cons] at hstream
  obtain ⟨hbits, -⟩ := bitList_eq_append hstream
  rw [width_eq_length] at hbits
  have hfetch : fetchEntry cx s = e := fetchEntry_of_bits hcfg hfits.executable hfits.inside hbits
  have hpos : 1 ≤ e.runLength := runLength_pos (wf_of_executable hfits.executable)
  have hmore : s.dec.remaining ≠ 0 := by have := hfits.length; omega
  simp only [decStep, h.phase, decLoopStep, withCtx_some h.fmt, h.ctx, if_neg hmore, hfetch, hfits.runEntry]

/-- The entries that follow stand at the cursor then. -/
theorem Reading.next (h : Reading cx (e :: es) s) : Reading cx es (decEmit cx (resolved cx e s)) := by
  obtain ⟨hregs, -, -, hsize, hbit⟩ := h.entryFits.emitted h.cfg
  generalize decEmit cx (resolved cx e s) = t at hregs hsize hbit
  have hcfg : t.cfg = s.cfg := (congrArg State.cfg hregs :)
  have hctrl : t.ctrl = s.ctrl := (congrArg State.ctrl hregs :)
  have hjob : t.job = s.job := (congrArg State.job hregs :)
  have hbs : t.bs = { s.bs with pos := s.bs.pos + e.width cx } := (congrArg State.bs hregs :)
  have hpal : t.pal = cacheAfterEntry cx s.pal e := (congrArg State.pal hregs :)
  have houtpix : t.dec.outpix = s.dec.outpix + e.runLength := (congrArg (fun x : State => x.dec.outpix) hregs :)
  have hrem : t.dec.remaining = s.dec.remaining - e.runLength := (congrArg (fun x : State => x.dec.remaining) hregs :)
  have hinside := h.inside
  have hroom := h.room
  have hstream := h.stream
  rw [List.flatMap_cons, List.length_append, width_eq_length] at hinside
  rw [coveredPixels_cons] at hroom
  rw [List.flatMap_cons] at hstream
  obtain ⟨-, hrest⟩ := bitList_eq_append hstream
  rw [width_eq_length] at hrest
  refine {
    phase := (congrArg State.phase hregs).trans h.phase
    fmt := by rw [State.fmt?, hcfg, hctrl]; exact h.fmt
    ctx := ?ctx
    full := by rw [hpal]; exact h.full.afterEntry e
    ok := by rw [hbs]; exact h.ok
    apart := by rw [hbs, hjob]; exact h.apart
    executable := fun e' he' => h.executable e' (List.mem_cons_of_mem e he')
    remaining := by rw [hrem, h.remaining, coveredPixels_cons]; omega
    room := by rw [houtpix, hjob, hsize, Nat.add_assoc]; exact hroom
    inside := by rw [hbs]; simp only; omega
    stream := ?stream }
  case ctx =>
    rw [← h.ctx]
    simp only [State.ctxOf, State.palSize, State.rl, hcfg, hctrl]
  case stream =>
    rw [hbs, hcfg, bitList_congr fun i _ => hbit s.bs.buf h.apart (s.bs.pos + e.width cx + i)]
    exact hrest

/-- With no entry left the frame is complete, and the loop ends (44_decoder.md R231 last line). -/
theorem Reading.decStep_nil (h : Reading cx [] s) : decStep s = .next (endDecode cx.fmt s) := by
  have hdone : s.dec.remaining = 0 := h.remaining
  simp only [decStep, h.phase, decLoopStep, withCtx_some h.fmt, h.ctx, if_pos hdone]

/-- Each entry covers a pixel at least. -/
theorem Reading.length_le (h : Reading cx es s) : es.length ≤ coveredPixels es := by
  have hpos : ∀ e ∈ es, 1 ≤ e.runLength := fun e he => runLength_pos (wf_of_executable (h.executable e he))
  have := List.card_nsmul_le_sum (es.map Entry.runLength) 1 (by simpa using hpos)
  simpa [coveredPixels] using this

/-- What the loop leaves of a state before entries that cover the rest of the frame. -/
structure Decoded (cx : Ctx) (es : List Entry) (s t : State) : Prop where
  res : t.res = resRegs .ok .none (cx.fmt.pixbytes s.pixels) (s.bs.pos + (es.flatMap (encodeEntry cx)).length)
  pixels : ∀ i, i < coveredPixels es → ∃ c, (expand cx s.pal es)[i]? = some c
    ∧ pixRead s.cfg cx.fmt (t.buf (.host s.job.dst)) (s.dec.outpix + i) = pack s.cfg.channelScale cx.fmt c
  kept : ∀ i, i < s.dec.outpix →
    pixRead s.cfg cx.fmt (t.buf (.host s.job.dst)) i = pixRead s.cfg cx.fmt (s.buf (.host s.job.dst)) i

/-- The first entry's pixels, and after them those of the others. -/
theorem Decoded.cons {t : State} (h : Reading cx (e :: es) s) (hrest : Decoded cx es (decEmit cx (resolved cx e s)) t) :
    Decoded cx (e :: es) s t := by
  obtain ⟨hregs, hin, hout, -, -⟩ := h.entryFits.emitted h.cfg
  generalize decEmit cx (resolved cx e s) = u at hregs hin hout hrest
  have hcfg : u.cfg = s.cfg := (congrArg State.cfg hregs :)
  have hctrl : u.ctrl = s.ctrl := (congrArg State.ctrl hregs :)
  have hdst : u.job.dst = s.job.dst := (congrArg (fun x : State => x.job.dst) hregs :)
  have hpos : u.bs.pos = s.bs.pos + e.width cx := (congrArg (fun x : State => x.bs.pos) hregs :)
  have hpal : u.pal = cacheAfterEntry cx s.pal e := (congrArg State.pal hregs :)
  have houtpix : u.dec.outpix = s.dec.outpix + e.runLength := (congrArg (fun x : State => x.dec.outpix) hregs :)
  have hpixels : u.pixels = s.pixels := by rw [State.pixels, hctrl, State.pixels]
  obtain ⟨hres, hnew, hkept⟩ := hrest
  rw [hcfg, hdst, houtpix] at hkept
  rw [hcfg, hdst, houtpix, hpal] at hnew
  refine ⟨?_, fun i hi => ?_, fun i hi => ?_⟩
  · rw [hres, hpixels, hpos, List.flatMap_cons, List.length_append, width_eq_length, Nat.add_assoc]
  · rw [coveredPixels_cons] at hi
    by_cases hfirst : i < e.runLength
    · refine ⟨entryColor cx s.pal e, ?_, ?_⟩
      · rw [expand, List.getElem?_append_left (by rwa [List.length_replicate]), List.getElem?_replicate, if_pos hfirst]
      · rw [hkept _ (by omega), hin _ (by omega) (by omega)]
    · obtain ⟨k, rfl⟩ := Nat.exists_eq_add_of_le (Nat.not_lt.mp hfirst)
      obtain ⟨c, hc, hpixel⟩ := hnew k (by omega)
      refine ⟨c, ?_, ?_⟩
      · rw [expand, List.getElem?_append_right (by rw [List.length_replicate]; omega), List.length_replicate,
          Nat.add_sub_cancel_left, hc]
      · rw [← Nat.add_assoc, hpixel]
  · rw [hkept i (by omega), hout i (by omega)]

/-- The loop runs through the entries and ends with `ST_OK`. -/
theorem Reading.decRun (h : Reading cx es s) (hcfg : cx.cfg.legal = true) {fuel : Nat} (hfuel : es.length < fuel) :
    ∃ t, decRun fuel s = .next t ∧ Decoded cx es s t := by
  induction es generalizing s fuel with
  | nil =>
    obtain ⟨fuel, rfl⟩ := Nat.exists_eq_add_of_lt hfuel
    refine ⟨endDecode cx.fmt s, ?_, rfl, nofun, fun i _ => rfl⟩
    rw [decRun_succ, if_neg (by rw [h.phase]; rintro ⟨⟩), h.decStep_nil]
    exact decRun_idle _ _ rfl
  | cons e es ih =>
    obtain ⟨fuel, rfl⟩ := Nat.exists_eq_succ_of_ne_zero (Nat.ne_zero_of_lt hfuel)
    obtain ⟨t, hrun, hdecoded⟩ := ih h.next (Nat.lt_of_succ_lt_succ hfuel)
    refine ⟨t, ?_, .cons h hdecoded⟩
    rw [decRun_succ, if_neg (by rw [h.phase]; rintro ⟨⟩), h.decStep_cons hcfg]
    exact hrun

end

/-! ## The steps before the loop -/

/-- The state of a `DECODE` that waits for its header (44_decoder.md R231 steps 0 and 1). -/
def decStarted (a : DecodeArgs) (s : State) : State :=
  { bsInit (.host a.inp) a.inSize true s with
    ctrl := { s.ctrl with runLenBits := BitVec.ofNat 5 a.runLenBits }
    res := { s.res with size := 0, cause := .none }
    job := { dst := a.dst, dstCap := a.dstCap, expect := a.expect }
    phase := .header }

theorem decStart_accepted {a : DecodeArgs} {s : State} (hacc : a.accepted s) (halloc : a.allocOk = true)
    (hsize : 8 ≤ a.inSize) : decStart a s = .next (decStarted a s) := by
  obtain ⟨hrl, hin, hdst, hne, hexp⟩ := hacc
  rw [decStart, if_neg (not_not.mpr hrl), if_neg (Nat.not_lt.mpr hin), if_neg (Nat.not_lt.mpr hdst), if_neg hne,
    if_neg (by rw [hexp]; rintro ⟨⟩), if_neg (by rw [halloc]; rintro ⟨⟩), if_neg (Nat.not_lt.mpr hsize)]
  rfl

/-- An accepted `DECODE` of a stream that can hold a header comes to its header. -/
theorem exec_decode_started {a : DecodeArgs} {s : State} (hacc : a.accepted s) (halloc : a.allocOk = true)
    (hsize : 8 ≤ a.inSize) : exec (.decode a) s = decRun decFuel (decStarted a s) := by
  have hstart : decStart a { s with phase := .idle } = .next (decStarted a s) :=
    decStart_accepted (s := { s with phase := .idle }) hacc halloc hsize
  show execDecode a s = _
  rw [execDecode, hstart]

/-- The header at the start of a stream is read into `CTRL`. -/
theorem decStep_header {s : State} {h : Header} {rest : List Bool} (hphase : s.phase = .header)
    (hpos : s.bs.pos + 64 ≤ s.bs.cap)
    (hd : decodeHeader s.cfg.hdrRsv0 s.cfg.bitOrder (s.streamBits s.bs.pos 64) = .ok (h, rest)) :
    decStep s = .next (fillCtrl h (streamAt s (s.bs.pos + 64))) := by
  have hrun (rsv : HdrRsv0) : runHeader rsv h s = .next (fillCtrl h (streamAt s (s.bs.pos + 64))) := by
    rw [← hdrWalk_inside rsv hpos]
    cases rsv <;> rfl
  simp only [decStep, hphase, fetchHeader_of_decode hd, hrun]

/-- A header of a known format, with the expected dimensions and room for the frame, passes the checks (44_decoder.md
R231 steps 1 and 2). -/
theorem decSetup_passes {s : State} {f : Fmt} (hfmt : s.fmt? = some f) (hexp : expectationFails s = false)
    (hroom : f.pixbytes s.pixels ≤ s.job.dstCap) : decSetup s = decReset s := by
  simp only [decSetup, hfmt, hexp, Bool.false_eq_true, if_false, if_neg (Nat.not_lt.mpr hroom)]

/-! ## A whole stream -/

@[simp] theorem decStarted_bs (a : DecodeArgs) (s : State) :
    (decStarted a s).bs = { buf := .host a.inp, cap := a.inSize * 8, ro := true, pos := 0, status := .ok } := rfl

@[simp] theorem decStarted_buf (a : DecodeArgs) (s : State) (id : BufId) : (decStarted a s).buf id = s.buf id :=
  buf_congr rfl id

/-- The state of a `DECODE` that has read its header. -/
def decHeaderRead (a : DecodeArgs) (h : Header) (s : State) : State := fillCtrl h (streamAt (decStarted a s) 64)

section
variable (a : DecodeArgs) (h : Header) (s : State)

@[simp] theorem decHeaderRead_phase : (decHeaderRead a h s).phase = .setup := rfl

@[simp] theorem decHeaderRead_job :
    (decHeaderRead a h s).job = { dst := a.dst, dstCap := a.dstCap, expect := a.expect } := rfl

@[simp] theorem decHeaderRead_width : (decHeaderRead a h s).ctrl.width.toNat = h.widthM1.toNat + 1 := dim_toNat _

@[simp] theorem decHeaderRead_height : (decHeaderRead a h s).ctrl.height.toNat = h.heightM1.toNat + 1 := dim_toNat _

@[simp] theorem decHeaderRead_pixels :
    (decHeaderRead a h s).pixels = (h.widthM1.toNat + 1) * (h.heightM1.toNat + 1) := by
  rw [State.pixels, decHeaderRead_width, decHeaderRead_height]

theorem decHeaderRead_buf (id : BufId) : (decHeaderRead a h s).buf id = s.buf id := buf_congr rfl id

theorem decReset_buf (id : BufId) : (decReset s).buf id = s.buf id := buf_congr rfl id

theorem decReset_pixels : (decReset s).pixels = s.pixels := rfl

end

/-- The context in which a `DECODE` reads the entries after a header (10_state.md R31). -/
def decodeCtx (a : DecodeArgs) (cfg : Config) (f : Fmt) (h : Header) : Ctx :=
  { cfg := cfg, fmt := f, k := h.palSize.toNat, rl := a.runLenBits }

theorem decHeaderRead_ctxOf {a : DecodeArgs} (hrl : a.runLenBits ≤ 16) (f : Fmt) (h : Header) (s : State) :
    (decHeaderRead a h s).ctxOf f = decodeCtx a s.cfg f h := by
  have hrl' : (BitVec.ofNat 5 a.runLenBits).toNat = a.runLenBits := toNat_ofNat_holds (by omega)
  show ({ cfg := s.cfg, fmt := f, k := h.palSize.toNat, rl := (BitVec.ofNat 5 a.runLenBits).toNat } : Ctx) = _
  rw [hrl', decodeCtx]

/-- The header and the entries of a stream, each where it stands. -/
theorem bitList_stream {b : Buffer} {order : BitOrder} {n : Nat} {cx : Ctx} {h : Header} {es : List Entry}
    {rest : List Bool} (hbits : b.bitList order 0 n = streamOf cx h es ++ rest) :
    64 + (es.flatMap (encodeEntry cx)).length ≤ n
      ∧ b.bitList order 0 64 = encodeHeader cx.cfg.hdrRsv0 cx.cfg.bitOrder h
      ∧ b.bitList order 64 (es.flatMap (encodeEntry cx)).length = es.flatMap (encodeEntry cx) := by
  have hlen := congrArg List.length hbits
  rw [bitList_length] at hlen
  rw [hlen] at hbits
  obtain ⟨hstream, -⟩ := bitList_eq_append hbits
  obtain ⟨hheader, hentries⟩ := bitList_eq_append hstream
  rw [encodeHeader_length] at hheader hentries
  rw [Nat.zero_add] at hentries
  rw [streamOf, List.length_append, List.length_append, encodeHeader_length] at hlen
  exact ⟨by omega, hheader, hentries⟩

theorem decRun_step {s t : State} {n : Nat} (hphase : s.phase ≠ .idle) (hstep : decStep s = .next t) :
    decRun (n + 1) s = decRun n t := by
  rw [decRun_succ, if_neg hphase, hstep]

/-- The header at the start of the stream is read. -/
theorem decStep_decStarted {a : DecodeArgs} {h : Header} {s : State} (hsize : 64 ≤ 8 * a.inSize)
    (hheader : (s.buf (.host a.inp)).bitList s.cfg.bitOrder 0 64 = encodeHeader s.cfg.hdrRsv0 s.cfg.bitOrder h) :
    decStep (decStarted a s) = .next (decHeaderRead a h s) := by
  have hpos : (decStarted a s).bs.pos + 64 ≤ (decStarted a s).bs.cap := by rw [decStarted_bs]; simp only; omega
  have hdecode := decodeHeader_encodeHeader s.cfg.hdrRsv0 s.cfg.bitOrder h []
  rw [List.append_nil, ← hheader] at hdecode
  refine decStep_header (rest := []) rfl hpos ?_
  rw [streamBits_inside hpos, decStarted_buf]
  exact hdecode

/-- The checks after the header are passed, and the registers of the loop are reset. -/
theorem decStep_decHeaderRead {a : DecodeArgs} {f : Fmt} {h : Header} {s : State}
    (hfmt : s.cfg.fmtOf h.format = some f)
    (hexp : a.expect = none ∨ a.expect = some (h.widthM1.toNat + 1, h.heightM1.toNat + 1))
    (hroom : f.pixbytes ((h.widthM1.toNat + 1) * (h.heightM1.toNat + 1)) ≤ a.dstCap) :
    decStep (decHeaderRead a h s) = .next (decReset (decHeaderRead a h s)) := by
  have hexpected : expectationFails (decHeaderRead a h s) = false := by
    rw [expectationFails, decHeaderRead_job, decHeaderRead_width, decHeaderRead_height]
    rcases hexp with hexp | hexp <;> simp [hexp]
  have hpass : decSetup (decHeaderRead a h s) = decReset (decHeaderRead a h s) :=
    decSetup_passes (f := f) hfmt hexpected (by rw [decHeaderRead_pixels]; exact hroom)
  simp only [decStep, decHeaderRead_phase, hpass]

/-- Then the loop comes to the entries, with the seed in the cache. -/
theorem reading_decReset {a : DecodeArgs} {f : Fmt} {h : Header} {cx : Ctx} {es : List Entry} {s : State}
    (hcfg : s.cfg.legal = true) (hacc : a.accepted s) (hcx : decodeCtx a s.cfg f h = cx)
    (hfmt : s.cfg.fmtOf h.format = some f)
    (hroom : f.pixbytes ((h.widthM1.toNat + 1) * (h.heightM1.toNat + 1)) ≤ a.dstCap)
    (hexec : ∀ e ∈ es, e.executable cx = true)
    (hcover : coveredPixels es = (h.widthM1.toNat + 1) * (h.heightM1.toNat + 1))
    (hsize : 64 + (es.flatMap (encodeEntry cx)).length ≤ 8 * a.inSize)
    (hentries : (s.buf (.host a.inp)).bitList s.cfg.bitOrder 64 (es.flatMap (encodeEntry cx)).length =
      es.flatMap (encodeEntry cx)) :
    Reading cx es (decReset (decHeaderRead a h s)) ∧ (decReset (decHeaderRead a h s)).pal = cx.seed := by
  obtain ⟨⟨-, hrl⟩, -, hdst, hne, -⟩ := hacc
  have hctx : (decHeaderRead a h s).ctxOf f = cx := (decHeaderRead_ctxOf hrl f h s).trans hcx
  have hcxfmt : cx.fmt = f := by rw [← hcx, decodeCtx]
  have hpal : (decReset (decHeaderRead a h s)).pal = cx.seed := by rw [← hctx]; rfl
  refine ⟨{
    phase := rfl
    fmt := by rw [hcxfmt]; exact hfmt
    ctx := by rw [hcxfmt]; exact hctx
    full := by rw [hpal]; exact cacheFull_seed (by rw [← hcx]; exact hcfg)
    ok := rfl
    apart := fun heq => hne (BufId.host.inj heq)
    executable := hexec
    remaining := by rw [hcover, ← decHeaderRead_pixels a h s]; rfl
    room := ?room
    inside := ?inside
    stream := by rw [decReset_buf, decHeaderRead_buf]; exact hentries }, hpal⟩
  case room =>
    rw [hcover, hcxfmt, decReset_buf, decHeaderRead_buf]
    show f.pixbytes (0 + _) ≤ (s.buf (.host a.dst)).size
    rw [Nat.zero_add]
    exact hroom.trans hdst
  case inside =>
    show 64 + _ ≤ a.inSize * 8
    omega

/-- Dimensions of 16 bits allow no more entries than the loop has steps for (44_decoder.md R242). -/
theorem Reading.length_lt_fuel {cx : Ctx} {es : List Entry} {s : State} (hread : Reading cx es s) {h : Header}
    (hcover : coveredPixels es = (h.widthM1.toNat + 1) * (h.heightM1.toNat + 1)) : es.length < 2 ^ 32 + 1 := by
  have hframe : (h.widthM1.toNat + 1) * (h.heightM1.toNat + 1) ≤ 2 ^ 16 * 2 ^ 16 :=
    Nat.mul_le_mul h.widthM1.isLt h.heightM1.isLt
  have := hread.length_le
  omega

/-- `DECODE` of a header of a known format and of executable entries that cover its frame, whatever follows them: it ends
with `ST_OK`, has read exactly these, and `DST` holds the Colors they stand for (44_decoder.md R231). -/
theorem exec_decode_stream {a : DecodeArgs} {f : Fmt} {h : Header} {cx : Ctx} {es : List Entry} {rest : List Bool}
    {s : State} (hcfg : s.cfg.legal = true) (hacc : a.accepted s) (halloc : a.allocOk = true)
    (hcx : decodeCtx a s.cfg f h = cx) (hfmt : s.cfg.fmtOf h.format = some f)
    (hexp : a.expect = none ∨ a.expect = some (h.widthM1.toNat + 1, h.heightM1.toNat + 1))
    (hroom : f.pixbytes ((h.widthM1.toNat + 1) * (h.heightM1.toNat + 1)) ≤ a.dstCap)
    (hexec : ∀ e ∈ es, e.executable cx = true)
    (hcover : coveredPixels es = (h.widthM1.toNat + 1) * (h.heightM1.toNat + 1))
    (hbits : (s.buf (.host a.inp)).bitList s.cfg.bitOrder 0 (8 * a.inSize) = streamOf cx h es ++ rest) :
    ∃ t, exec (.decode a) s = .next t
      ∧ t.res = resRegs .ok .none (f.pixbytes ((h.widthM1.toNat + 1) * (h.heightM1.toNat + 1)))
          (streamOf cx h es).length
      ∧ ∀ i, i < (h.widthM1.toNat + 1) * (h.heightM1.toNat + 1) → ∃ c, (expand cx cx.seed es)[i]? = some c
          ∧ pixRead s.cfg f (t.buf (.host a.dst)) i = pack s.cfg.channelScale f c := by
  have hcxcfg : cx.cfg = s.cfg := by rw [← hcx, decodeCtx]
  have hcxfmt : cx.fmt = f := by rw [← hcx, decodeCtx]
  obtain ⟨hfits, hheader, hentries⟩ := bitList_stream hbits
  rw [hcxcfg] at hheader
  obtain ⟨hread, hpal⟩ := reading_decReset hcfg hacc hcx hfmt hroom hexec hcover hfits hentries
  obtain ⟨t, hrun, hres, hpixels, -⟩ := hread.decRun (by rw [hcxcfg]; exact hcfg) (hread.length_lt_fuel hcover)
  refine ⟨t, ?_, ?_, fun i hi => ?_⟩
  · rw [exec_decode_started hacc halloc (by omega), show decFuel = 2 ^ 32 + 1 + 1 + 1 from rfl,
      decRun_step (by rintro ⟨⟩) (decStep_decStarted (by omega) hheader),
      decRun_step (by rintro ⟨⟩) (decStep_decHeaderRead hfmt hexp hroom), hrun]
  · rw [hres, hcxfmt, decReset_pixels, decHeaderRead_pixels, streamOf, List.length_append, encodeHeader_length]
    rfl
  · obtain ⟨c, hc, hpixel⟩ := hpixels i (by rwa [hcover])
    rw [hpal] at hc
    rw [hcxfmt, show (decReset (decHeaderRead a h s)).dec.outpix = 0 from rfl, Nat.zero_add] at hpixel
    exact ⟨c, hc, hpixel⟩

end Sys2Proof.Proofs
end

section
/-! PROOFS. The round trip (43_encoder.md R218): what an accepted `ENCODE` that ends with `ST_OK` leaves, read by an accepted
`DECODE` with the same `RUN_LEN_BITS`. -/

namespace Sys2Proof.Proofs

open Sys2Proof.Machine Sys2Proof.Laws

/-! ## The control values of the host (10_state.md R30, 60_exceptions.md R311) -/

/-- Legal control values fit the control registers. -/
structure CtrlFits (a : CtrlArgs) : Prop where
  palSize : a.palSize < 256
  width : 1 ≤ a.width ∧ a.width ≤ 65536
  height : 1 ≤ a.height ∧ a.height ≤ 65536
  runLenBits : 1 ≤ a.runLenBits ∧ a.runLenBits ≤ 16
  zeroize : a.zeroize < 2

theorem ctrlFits_of_legal {a : CtrlArgs} {cfg : Config} (h : a.legal cfg = true) : CtrlFits a := by
  simp only [CtrlArgs.legal, Bool.and_eq_true, decide_eq_true_eq] at h
  obtain ⟨⟨⟨⟨⟨⟨⟨-, hpal⟩, -⟩, -⟩, hwidth⟩, hheight⟩, hrl⟩, hzero⟩ := h
  exact ⟨hpal, hwidth, hheight, hrl, hzero⟩

/-- A legal dimension is one more than what the header holds of it. -/
theorem dimM1_ofNat (open0 : BitVec 16) {n : Nat} (hn : 1 ≤ n ∧ n ≤ 65536) :
    (dimM1 open0 (BitVec.ofNat 17 n)).toNat + 1 = n := by
  have hreg : (BitVec.ofNat 17 n).toNat = n := toNat_ofNat_holds (by omega)
  have hne : BitVec.ofNat 17 n ≠ 0 := fun h0 => by
    have hzero : n = 0 := hreg.symm.trans (congrArg BitVec.toNat h0)
    omega
  rw [dimM1_toNat open0 hne, hreg]
  omega

/-- The format that the host's code names is the one that the header names. -/
theorem header_format {a : CtrlArgs} {cfg : Config} {f : Fmt} (h : cfg.fmtOfNat a.fmt = some f) :
    cfg.fmtOf (a.header cfg).format = some f := by
  unfold Config.fmtOfNat at h
  split at h
  next => exact h
  next => cases h

/-- The state with the host's control values in `CTRL` (R47). -/
def latched (a : CtrlArgs) (s : State) : State := { s with ctrl := ctrlRegsOf s.cfg a }

theorem latched_buf (a : CtrlArgs) (s : State) (id : BufId) : (latched a s).buf id = s.buf id := buf_congr rfl id

section
variable {a : CtrlArgs} (h : CtrlFits a)
include h

theorem latched_ctxOf (f : Fmt) (s : State) : (latched a s).ctxOf f = a.ctx s.cfg f := by
  have hk : (BitVec.ofNat 8 a.palSize).toNat = a.palSize := toNat_ofNat_holds h.palSize
  have hrl : (BitVec.ofNat 5 a.runLenBits).toNat = a.runLenBits := toNat_ofNat_holds (by have := h.runLenBits.2; omega)
  show ({ cfg := s.cfg, fmt := f, k := (BitVec.ofNat 8 a.palSize).toNat, rl := (BitVec.ofNat 5 a.runLenBits).toNat } :
    Ctx) = _
  rw [hk, hrl, CtrlArgs.ctx]

theorem latched_pixels (s : State) : (latched a s).pixels = a.pixels := by
  have hw : (BitVec.ofNat 17 a.width).toNat = a.width := toNat_ofNat_holds (by have := h.width.2; omega)
  have hh : (BitVec.ofNat 17 a.height).toNat = a.height := toNat_ofNat_holds (by have := h.height.2; omega)
  show (BitVec.ofNat 17 a.width).toNat * (BitVec.ofNat 17 a.height).toNat = _
  rw [hw, hh, CtrlArgs.pixels]

theorem pixels_pos : 0 < a.pixels := Nat.mul_pos h.width.1 h.height.1

/-- `CTRL.ZEROIZE` is the host's switch. -/
theorem zeroize_latched : (BitVec.ofNat 1 a.zeroize == 1) = decide (a.zeroize = 1) := by
  have hz := h.zeroize
  generalize a.zeroize = z at hz
  interval_cases z <;> rfl

/-- The scan of an `ENCODE` comes to the canvas's preprocessed Colors. -/
theorem scanColor_latched (f : Fmt) (id : BufId) (s : State) (i : Nat) :
    scanColor (a.ctx s.cfg f) id (latched a s) i = a.prep (pixelColor s.cfg f (s.buf id) i) := by
  rw [scanColor, preppedColor, latched_buf]
  show Sys2Proof.prep _ _ _ (BitVec.ofNat 1 a.zeroize == 1) = _
  rw [zeroize_latched h]
  rfl

/-- A dimension goes through the header unharmed (45_header.md R262, R263). -/
theorem header_width (cfg : Config) : (a.header cfg).widthM1.toNat + 1 = a.width := dimM1_ofNat _ h.width

theorem header_height (cfg : Config) : (a.header cfg).heightM1.toNat + 1 = a.height := dimM1_ofNat _ h.height

/-- The pixels of the header are those of the host's control values. -/
theorem header_pixels (cfg : Config) :
    ((a.header cfg).widthM1.toNat + 1) * ((a.header cfg).heightM1.toNat + 1) = a.pixels := by
  rw [header_width h, header_height h, CtrlArgs.pixels]

/-- `ENCODE` and a `DECODE` with the same `RUN_LEN_BITS` read the entries in the same context. -/
theorem decodeCtx_header {b : DecodeArgs} (hrl : b.runLenBits = a.runLenBits) (cfg : Config) (f : Fmt) :
    decodeCtx b cfg f (a.header cfg) = a.ctx cfg f := by
  have hk : (a.header cfg).palSize.toNat = a.palSize := toNat_ofNat_holds h.palSize
  rw [decodeCtx, CtrlArgs.ctx, hk, hrl]

end

/-! ## The end of an `ENCODE` (43_encoder.md R215) -/

/-- `ENC.FINISH` ends with `ST_OK` only where the stream fits. -/
theorem encFinish_of_ok {output : HostBuf} {outCap : Nat} {s : State} (h : (encFinish output outCap s).res.status = .ok) :
    (s.bs.pos ≤ s.bs.cap ∧ emittedSize s.bs.pos ≤ outCap)
      ∧ encFinish output outCap s =
          { copyOut output s with res := resRegs .ok .none (emittedSize s.bs.pos) s.bs.pos } := by
  unfold encFinish at h ⊢
  split at h
  next hfits =>
    rw [if_pos hfits]
    simp only [streamFits, Bool.and_eq_true, decide_eq_true_eq] at hfits
    exact ⟨hfits, rfl⟩
  next => cases h

/-- The bytes copied out. -/
theorem read_copyOut {output : HostBuf} {s : State} (hroom : emittedSize s.bs.pos ≤ (s.buf (.host output)).size)
    {off : Nat} (hoff : off < emittedSize s.bs.pos) :
    ((copyOut output s).buf (.host output)).read off = s.scratch.read off := by
  have hlen : (s.scratch.readBytes 0 (emittedSize s.bs.pos)).length = emittedSize s.bs.pos := readBytes_length _ _ _
  have hread := read_writeBytes_same (s.scratch.readBytes 0 (emittedSize s.bs.pos)) (s.buf (.host output)) (off := 0)
    (i := off) (by rwa [hlen]) (by rwa [hlen, Nat.zero_add])
  rw [Nat.zero_add] at hread
  rw [copyOut, buf_setBuf_same s _ (given_of_size (by omega)), hread, readBytes_getElem, Nat.zero_add]

/-- An accepted `ENCODE` does the pass on the state with its control values. -/
theorem exec_encode_accepted {a : EncodeArgs} {f : Fmt} {s : State} (hacc : a.accepted f s) (halloc : a.allocOk = true) :
    exec (.encode a) s = .next (encodePass (a.ctrl.ctx s.cfg f) (.host a.canvas) a.out a.outCap (latched a.ctrl s)) := by
  obtain ⟨hfmt, hlegal, hcanvas, hne, hout⟩ := hacc
  show execEncode a s = _
  simp only [execEncode, hfmt]
  rw [if_neg (by rw [hlegal]; rintro ⟨⟩), if_neg (Nat.not_lt.mpr hcanvas), if_neg hne, if_neg (Nat.not_lt.mpr hout),
    if_neg (by rw [halloc]; rintro ⟨⟩), ← latched_ctxOf (ctrlFits_of_legal hlegal)]
  rfl

/-- The stream of an accepted `ENCODE` (43_encoder.md R201). -/
def encodedStream (a : EncodeArgs) (f : Fmt) (s : State) : List Bool :=
  streamOf (a.ctrl.ctx s.cfg f) (a.ctrl.header s.cfg) (canvasEntries (a.ctrl.ctx s.cfg f) (a.canvasColors f s))

/-- What an accepted `ENCODE` that ends with `ST_OK` leaves: the registers, its stream and zeros after it in `OUT`, and the
preprocessed canvas. -/
structure Encoded (a : EncodeArgs) (f : Fmt) (s t : State) : Prop where
  res : t.res.reports .ok .none (emittedSize (encodedStream a f s).length) (encodedStream a f s).length
  stream : ∀ p, p < 8 * emittedSize (encodedStream a f s).length →
    (t.buf (.host a.out)).bit s.cfg.bitOrder p = (encodedStream a f s).getD p false
  canvas : ∀ i, i < a.ctrl.pixels → pixRead s.cfg f (t.buf (.host a.canvas)) i =
    pack s.cfg.channelScale f (a.ctrl.prep (pixelColor s.cfg f (s.buf (.host a.canvas)) i))

/-- What the pass of an accepted `ENCODE` has written when it comes to `ENC.FINISH`. -/
theorem passWritten_of_accepted {a : EncodeArgs} {f : Fmt} {s u : State} (hcfg : s.cfg.legal = true)
    (hacc : a.accepted f s)
    (hu : u = encodeStream (a.ctrl.ctx s.cfg f) (.host a.canvas) (latched a.ctrl s)) :
    u.cfg = s.cfg ∧ (∀ h : HostBuf, (u.buf (.host h)).size = (s.buf (.host h)).size) ∧ Emitted (encodedStream a f s) u
      ∧ ∀ i, i < a.ctrl.pixels → pixRead s.cfg f (u.buf (.host a.canvas)) i =
          pack s.cfg.channelScale f (a.ctrl.prep (pixelColor s.cfg f (s.buf (.host a.canvas)) i)) := by
  obtain ⟨-, hlegal, hcanvas, -, -⟩ := hacc
  have hfits := ctrlFits_of_legal hlegal
  have hpixels := latched_pixels hfits s
  have hcolors : (List.range (latched a.ctrl s).pixels).map
      (scanColor (a.ctrl.ctx s.cfg f) (.host a.canvas) (latched a.ctrl s)) = a.canvasColors f s := by
    rw [hpixels, EncodeArgs.canvasColors]
    exact List.map_congr_left fun i _ => scanColor_latched hfits f _ s i
  obtain ⟨hucfg, husize, hemit, hupixels⟩ :=
    encodeStream_spec (src := a.canvas) (latched_ctxOf hfits f s).symm hcfg (by rw [hpixels]; exact pixels_pos hfits)
      (by rw [hpixels, latched_buf]; exact hcanvas)
  rw [← hu] at hucfg husize hemit hupixels
  rw [hcolors] at hemit
  refine ⟨hucfg, fun h => by rw [husize, latched_buf], hemit, fun i hi => ?_⟩
  rw [← scanColor_latched hfits]
  exact hupixels i (by rwa [hpixels])

/-- An accepted `ENCODE` that ends with `ST_OK` has copied its stream out (43_encoder.md R201, R215). -/
theorem exec_encode_ok {a : EncodeArgs} {f : Fmt} {s t : State} (hcfg : s.cfg.legal = true) (hacc : a.accepted f s)
    (halloc : a.allocOk = true) (hexec : exec (.encode a) s = .next t) (hok : t.res.status = .ok) :
    Encoded a f s t := by
  rw [exec_encode_accepted hacc halloc, encodePass] at hexec
  obtain rfl := Host.Outcome.next.inj hexec
  generalize hu : encodeStream (a.ctrl.ctx s.cfg f) (.host a.canvas) (latched a.ctrl s) = u at hok
  obtain ⟨hucfg, husize, hemit, hupixels⟩ := passWritten_of_accepted hcfg hacc hu.symm
  obtain ⟨-, -, -, hne, hout⟩ := hacc
  obtain ⟨⟨hcap, hsize⟩, hend⟩ := encFinish_of_ok hok
  have hroom : emittedSize u.bs.pos ≤ (u.buf (.host a.out)).size := by
    rw [husize]
    exact hsize.trans hout
  have hbuf (r : ResRegs) (id : BufId) : ({ copyOut a.out u with res := r } : State).buf id = (copyOut a.out u).buf id :=
    buf_congr rfl id
  rw [hend]
  refine ⟨?registers, fun p hp => ?stream, fun i hi => ?pixels⟩
  case registers => rw [← hemit.pos]; exact resRegs_reports _ _ _ _
  case stream =>
    rw [← hemit.pos] at hp
    rw [hbuf, ← hemit.held (by rwa [← hemit.pos]) p, hucfg]
    exact bit_congr (read_copyOut hroom (Nat.div_lt_of_lt_mul hp)) _
  case pixels =>
    rw [hbuf, copyOut, buf_setBuf_other u _ fun heq => hne (BufId.host.inj heq)]
    exact hupixels i hi

/-! ## The round trip -/

/-- The format stores the preprocessed Colors of a canvas whole (41_pixelformat.md R164). -/
theorem canvasColors_stored {a : EncodeArgs} {f : Fmt} {s : State} {c : Color} (hc : c ∈ a.canvasColors f s) :
    storedColor s.cfg.channelScale f c = c := by
  obtain ⟨i, -, rfl⟩ := List.mem_map.mp hc
  exact storedColor_prep (storedColor_unpack _ _ _) _ _ _

/-- Bits followed by zeros, in a buffer. -/
theorem bitList_of_getD {b : Buffer} {order : BitOrder} {bits : List Bool} {n : Nat} (hlen : bits.length ≤ n)
    (hbits : ∀ p, p < n → b.bit order p = bits.getD p false) :
    b.bitList order 0 n = bits ++ List.replicate (n - bits.length) false := by
  apply List.ext_getElem
  · rw [bitList_length, List.length_append, List.length_replicate]
    omega
  · intro p hp hp'
    rw [bitList_length] at hp
    rw [bitList_getElem, Nat.zero_add, hbits p hp, ← getD_append_replicate_false bits (n - bits.length),
      List.getD_eq_getElem _ _ hp']

/-- The stream of a frame fills the emitted bytes up to less than 16 of them (D20). -/
theorem length_le_emittedSize (n : Nat) : n ≤ 8 * emittedSize n := by
  rw [emittedSize, ceilDiv]
  omega

/-- The input of a `DECODE` that holds the bytes of an `ENCODE` is its stream and zeros after it. -/
theorem Encoded.input {a : EncodeArgs} {f : Fmt} {s t : State} (h : Encoded a f s t) {b : Buffer} {n : Nat}
    (hn : n = emittedSize (encodedStream a f s).length)
    (hbytes : ∀ off, off < n → b.read off = (t.buf (.host a.out)).read off) :
    b.bitList s.cfg.bitOrder 0 (8 * n) =
      encodedStream a f s ++ List.replicate (8 * n - (encodedStream a f s).length) false := by
  refine bitList_of_getD (by rw [hn]; exact length_le_emittedSize _) fun p hp => ?_
  rw [← h.stream p (by rwa [← hn])]
  exact bit_congr (hbytes (p / 8) (Nat.div_lt_of_lt_mul hp)) _

/-- Settles O60: the entries that `ENCODE` writes are executable and cover the frame, so `DECODE` reads exactly these, and
they expand to the preprocessed Colors, which are what the canvas holds. -/
theorem roundTrip : Obligations.RoundTrip := by
  intro a b f s t u hcfg hacc halloc hexec hok cx bits hucfg hbacc hballoc hrl hsize hexp hroom hbytes
  have hencoded := exec_encode_ok hcfg hacc halloc hexec hok
  obtain ⟨hfmt, hlegal, -, -, -⟩ := hacc
  have hfits := ctrlFits_of_legal hlegal
  have hframe := header_pixels hfits s.cfg
  have hcx : decodeCtx b u.cfg f (a.ctrl.header s.cfg) = cx := by rw [hucfg]; exact decodeCtx_header hfits hrl s.cfg f
  have hinput := hencoded.input hsize hbytes
  have hcover : coveredPixels (canvasEntries cx (a.canvasColors f s)) = a.ctrl.pixels := by
    rw [coveredPixels_canvasEntries, EncodeArgs.canvasColors, List.length_map, List.length_range]
  have hexpand : expand cx cx.seed (canvasEntries cx (a.canvasColors f s)) = a.canvasColors f s :=
    expand_canvasEntries fun c hc => canvasColors_stored hc
  obtain ⟨v, hv, hres, hpixels⟩ := exec_decode_stream (by rw [hucfg]; exact hcfg) hbacc hballoc hcx
    (by rw [hucfg]; exact header_format hfmt) (by rw [header_width hfits, header_height hfits]; exact hexp)
    (by rw [hframe]; exact hroom) (canvasEntries_executable (cx := cx) hcfg _) (hcover.trans hframe.symm)
    (by rw [hucfg]; exact hinput)
  rw [hframe] at hres hpixels
  refine ⟨?encodeReports, v, hv, ?decodeReports, fun i hi => ?pixels⟩
  case encodeReports => rw [hsize]; exact hencoded.res
  case decodeReports => rw [hres]; exact resRegs_reports _ _ _ _
  case pixels =>
    obtain ⟨c, hc, hpixel⟩ := hpixels i hi
    rw [hexpand, EncodeArgs.canvasColors, List.getElem?_map, List.getElem?_range hi] at hc
    obtain rfl := Option.some.inj hc
    rw [hencoded.canvas i hi, ← hucfg, hpixel, hucfg]

end Sys2Proof.Proofs
end

section
/-! PROOFS. The owner of a canvas position and its pixel word (46_rasterizer.md R279, R280, R282): what the search from the
top finds, and the bytes or the nibble that a bitmap's pixel is read from. -/

namespace Sys2Proof.Proofs

open Sys2Proof.Machine Sys2Proof.Laws

/-! ## The owner (R280) -/

/-- The object at `k` covers the position and none above it does: R280's greatest index, without the search for it. -/
def IsTopmost (cfg : Config) (px py : Int) (objs : List DrawObject) (k : Nat) (o : DrawObject) : Prop :=
  objs[k]? = some o ∧ covers cfg o px py = true ∧ ∀ m o', k < m → objs[m]? = some o' → covers cfg o' px py = false

section
variable {cfg : Config} {px py : Int}

theorem isTopmost_cons_zero {a o : DrawObject} {rest : List DrawObject} :
    IsTopmost cfg px py (a :: rest) 0 o ↔
      (∀ o' ∈ rest, covers cfg o' px py = false) ∧ a = o ∧ covers cfg o px py = true := by
  rw [IsTopmost, ← Nat.and_forall_add_one]
  simp only [Nat.lt_irrefl, Nat.succ_pos, List.getElem?_cons_zero, List.getElem?_cons_succ, List.mem_iff_getElem?]
  grind

theorem isTopmost_cons_succ {a o : DrawObject} {rest : List DrawObject} {k : Nat} :
    IsTopmost cfg px py (a :: rest) (k + 1) o ↔ IsTopmost cfg px py rest k o := by
  rw [IsTopmost, IsTopmost, ← Nat.and_forall_add_one]
  simp

/-- The search asks the objects above first. -/
theorem ownerFrom_cons (i : Nat) (o : DrawObject) (rest : List DrawObject) :
    ownerFrom cfg px py i (o :: rest) =
      (ownerFrom cfg px py (i + 1) rest).or (if covers cfg o px py then some (i, o) else none) := by
  rw [ownerFrom]
  cases ownerFrom cfg px py (i + 1) rest <;> rfl

theorem ownerFrom_eq_none_iff {objs : List DrawObject} {i : Nat} :
    ownerFrom cfg px py i objs = none ↔ ∀ o ∈ objs, covers cfg o px py = false := by
  induction objs generalizing i with
  | nil => simp [ownerFrom]
  | cons o rest ih => simp [ownerFrom_cons, Option.or_eq_none_iff, ih, and_comm]

/-- The topmost of `a :: rest` is the topmost of `rest`, or `a` where `rest` leaves the position free. -/
theorem ownerFrom_eq_some_iff {objs : List DrawObject} {i j : Nat} {o : DrawObject} :
    ownerFrom cfg px py i objs = some (j, o) ↔ ∃ k, j = i + k ∧ IsTopmost cfg px py objs k o := by
  induction objs generalizing i with
  | nil => simp [ownerFrom, IsTopmost]
  | cons a rest ih =>
    have hhead : (if covers cfg a px py then some (i, a) else none) = some (j, o) ↔
        j = i ∧ a = o ∧ covers cfg o px py = true := by
      simp only [Option.ite_none_right_eq_some, Option.some_inj, Prod.mk_inj]
      grind
    calc ownerFrom cfg px py i (a :: rest) = some (j, o)
      _ ↔ (∃ k, j = i + 1 + k ∧ IsTopmost cfg px py rest k o)
          ∨ (∀ o' ∈ rest, covers cfg o' px py = false) ∧ j = i ∧ a = o ∧ covers cfg o px py = true := by
        rw [ownerFrom_cons, Option.or_eq_some_iff, ih, ownerFrom_eq_none_iff, hhead]
      _ ↔ (j = i + 0 ∧ IsTopmost cfg px py (a :: rest) 0 o)
          ∨ ∃ k, j = i + (k + 1) ∧ IsTopmost cfg px py (a :: rest) (k + 1) o := by
        simp only [isTopmost_cons_zero, isTopmost_cons_succ, Nat.add_assoc, Nat.add_comm 1, Nat.add_zero]
        rw [or_comm, and_left_comm]
      _ ↔ ∃ k, j = i + k ∧ IsTopmost cfg px py (a :: rest) k o :=
        Nat.or_exists_add_one (p := fun k => j = i + k ∧ IsTopmost cfg px py (a :: rest) k o)

end

/-! ## The pixel word (R282) -/

theorem canvasPixel_of_no_owner {f : Fmt} {bg : Nat} {s : State} {px py : Int} (h : owner s.cfg s.objs px py = none) :
    canvasPixel f bg s px py = BitVec.ofNat 32 bg := by
  rw [canvasPixel, h]

theorem canvasPixel_of_owner {f : Fmt} {bg : Nat} {s : State} {px py : Int} {j : Nat} {o : DrawObject}
    (h : owner s.cfg s.objs px py = some (j, o)) : canvasPixel f bg s px py = objectPixel f s o px py := by
  rw [canvasPixel, h]

/-! ## The source of a bitmap (R279) -/

theorem foldr_bytes_lt (bytes : List Byte) : bytes.foldr (fun v acc => v.toNat + 256 * acc) 0 < 256 ^ bytes.length := by
  induction bytes with
  | nil => simp
  | cons v rest ih =>
    have hv := v.isLt
    rw [List.foldr_cons, List.length_cons, Nat.pow_succ]
    omega

/-- A word of at most four bytes loses none of them. -/
theorem toNat_wordOfBytes_le {bytes : List Byte} (h : bytes.length ≤ 4) :
    (wordOfBytes .le bytes).toNat = bytes.foldr (fun v acc => v.toNat + 256 * acc) 0 := by
  have hfits : 256 ^ bytes.length ≤ 256 ^ 4 := Nat.pow_le_pow_right (by decide) h
  exact Nat.mod_eq_of_lt (lt_of_lt_of_le (foldr_bytes_lt bytes) hfits)

theorem toNat_wordOfBytes_readBytes (b : Buffer) (off : Nat) {n : Nat} (h : n ≤ 4) :
    (wordOfBytes .le (b.readBytes off n)).toNat = ∑ k ∈ Finset.range n, 2 ^ (8 * k) * (b.read (off + k)).toNat := by
  rw [toNat_wordOfBytes_le (by rwa [readBytes_length])]
  clear h
  induction n generalizing off with
  | zero => rfl
  | succ n ih =>
    rw [Buffer.readBytes, List.foldr_cons, ih, Finset.sum_range_succ', Finset.mul_sum, Nat.add_comm]
    congr 1
    · refine Finset.sum_congr rfl fun k _ => ?_
      rw [Nat.mul_succ, Nat.pow_add, Nat.mul_comm _ (2 ^ 8), Nat.mul_assoc, Nat.add_assoc, Nat.add_comm 1]
    · rw [Nat.mul_zero, Nat.pow_zero, Nat.one_mul, Nat.add_zero]

theorem toNat_nibbleOf (high : Bool) (v : Byte) :
    (nibbleOf high v).toNat = if high then v.toNat / 16 else v.toNat % 16 := by
  have hv := v.isLt
  cases high
  · simp [nibbleOf]
  · simp [nibbleOf, Nat.shiftRight_eq_div_pow]; omega

theorem toNat_nibble_lowFirst (b : Buffer) (i : Nat) :
    (b.nibble .lowFirst i).toNat = if i % 2 = 0 then (b.read (i / 2)).toNat % 16 else (b.read (i / 2)).toNat / 16 := by
  rw [Buffer.nibble, BitVec.toNat_setWidth_of_le (by decide), toNat_nibbleOf]
  rcases Nat.mod_two_eq_zero_or_one i with h | h <;> simp [nibbleIsHigh, h]

theorem toNat_sub_left (x : Int) (n : Nat) : (x + n - x).toNat = n := by omega

/-- Settles O54: the owner by induction over the objects from the top, the pixel word by what the owner is, and a bitmap's
pixel by the format. -/
theorem ownerIsTopmost : Obligations.OwnerIsTopmost := by
  refine ⟨fun cfg objs px py => ⟨fun j o => ?owner, ownerFrom_eq_none_iff⟩, fun f bg s px py =>
    ⟨canvasPixel_of_no_owner, fun j o color howner hkind => ?colour, ?bitmap⟩⟩
  case owner => simp only [owner, ownerFrom_eq_some_iff, Nat.zero_add, exists_eq_left', IsTopmost]
  case colour =>
    obtain ⟨x, y, w, h, rfl⟩ | ⟨x, y, w, h, t, rfl⟩ | ⟨x0, y0, x1, y1, t, rfl⟩ := hkind
    all_goals exact canvasPixel_of_owner howner
  case bitmap =>
    intro j x y w h src stride row col howner hpy hpx hbytes hnibbles byte
    subst hpy hpx
    rw [canvasPixel_of_owner howner, objectPixel]
    cases f <;> simp only [bitmapPixel, toNat_sub_left, hbytes, hnibbles]
    case lut4 => exact toNat_nibble_lowFirst _ _
    all_goals
      rw [toNat_wordOfBytes_readBytes _ _ (by decide)]
      simp [Finset.sum_range_succ, byte, State.byteAt, Nat.add_assoc]

end Sys2Proof.Proofs
end

section
/-! PROOFS. The end with `ST_ALLOC` (60_exceptions.md R323): where the checks of R311 pass and the resources are not
granted, each of the four operations comes to `endAlloc` before it reads or writes anything. -/

namespace Sys2Proof.Proofs

open Sys2Proof.Machine Sys2Proof.Laws

/-- The sizes that `ST_ALLOC` reports fit their registers, so it leaves no free value (log 8). -/
theorem endAlloc_eq (s : State) :
    endAlloc s = { s with res := { status := .alloc, cause := .none, size := 0, bits := 0 } } := by
  simp [endAlloc, resRegs, sizeReg, bitsReg]

/-- The checks that `ESTIMATE` and `DRAW` share (R311) find nothing to refuse. -/
theorem objectsRefusal_eq_none_iff {a : CtrlArgs} {bg : Nat} {f : Fmt} {s : State} :
    objectsRefusal a bg f s = none ↔ a.legal s.cfg = true ∧ bg < 2 ^ f.bits
      ∧ s.objs.all (objectColourFits f.bits) = true ∧ s.objs.any isCompressed = false := by
  simp only [objectsRefusal, ite_eq_iff, reduceCtorEq, and_false, false_or, and_true, Bool.not_eq_false,
    Bool.not_eq_true, Nat.not_le]

theorem exec_encode_unallocated {a : EncodeArgs} {f : Fmt} {s : State} (hacc : a.accepted f s)
    (halloc : a.allocOk = false) : exec (.encode a) s = .next (endAlloc s) := by
  obtain ⟨hfmt, hlegal, hcanvas, hne, hout⟩ := hacc
  show execEncode a s = _
  simp only [execEncode, hfmt]
  rw [if_neg (by rw [hlegal]; rintro ⟨⟩), if_neg (Nat.not_lt.mpr hcanvas), if_neg hne, if_neg (Nat.not_lt.mpr hout),
    if_pos halloc]

theorem exec_estimate_unallocated {a : EstimateArgs} {f : Fmt} {s : State} (hacc : a.accepted f s)
    (halloc : a.allocOk = false) : exec (.estimate a) s = .next (endAlloc s) := by
  obtain ⟨hfmt, hobjects⟩ := hacc
  show execEstimate a s = _
  simp only [execEstimate, hfmt, objectsRefusal_eq_none_iff.mpr hobjects]
  rw [if_pos halloc]

theorem exec_draw_unallocated {a : DrawArgs} {f : Fmt} {s : State} (hacc : a.accepted f s)
    (halloc : a.allocOk = false) : exec (.draw a) s = .next (endAlloc s) := by
  obtain ⟨hfmt, hlegal, hbg, hcolours, hcompressed, hsource, hout, hreadable⟩ := hacc
  show execDraw a s = _
  simp only [execDraw, hfmt, objectsRefusal_eq_none_iff.mpr ⟨hlegal, hbg, hcolours, hcompressed⟩]
  rw [if_neg (by rw [hsource]; rintro ⟨⟩), if_neg (Nat.not_lt.mpr hout), if_neg (by rw [hreadable]; rintro ⟨⟩),
    if_pos halloc]

theorem decStart_unallocated {a : DecodeArgs} {s : State} (hacc : a.accepted s) (halloc : a.allocOk = false) :
    decStart a s = .next (endAlloc s) := by
  obtain ⟨hrl, hin, hdst, hne, hexp⟩ := hacc
  rw [decStart, if_neg (not_not.mpr hrl), if_neg (Nat.not_lt.mpr hin), if_neg (Nat.not_lt.mpr hdst), if_neg hne,
    if_neg (by rw [hexp]; rintro ⟨⟩), if_pos halloc]

/-- `ST_ALLOC` leaves the block idle, so no step of the loop follows it. -/
theorem exec_decode_unallocated {a : DecodeArgs} {s : State} (hacc : a.accepted s) (halloc : a.allocOk = false)
    (hidle : s.phase = .idle) : exec (.decode a) s = .next (endAlloc s) := by
  have hstate : { s with phase := .idle } = s := by rw [← hidle]
  show execDecode a s = _
  rw [execDecode, hstate, decStart_unallocated hacc halloc]
  exact decRun_idle decFuel (endAlloc s) hidle

/-- Settles O34, operation by operation: each comes to `endAlloc`, which sets the result registers alone. -/
theorem allocationFails : Obligations.AllocationFails := by
  intro f s failed
  have hfailed : Host.Outcome.next (endAlloc s) = failed := congrArg Host.Outcome.next (endAlloc_eq s)
  rw [← hfailed]
  exact ⟨fun _ => exec_encode_unallocated, fun _ => exec_estimate_unallocated, fun _ => exec_draw_unallocated,
    fun _ => exec_decode_unallocated⟩

end Sys2Proof.Proofs
end

section
/-! PROOFS. The decoder and the encoder are inverse on every entry and header (30_encoding.md R96 to R112): what was encoded
is decoded, what was decoded is encoded, the reserved strings included. -/

namespace Sys2Proof.Proofs

open Sys2Proof.Machine Sys2Proof.Laws

/-! ## The reserved strings (30_encoding.md R108) -/

theorem isPrefixOf_iff_commonLength (a b : List Bool) : a.isPrefixOf b = true ↔ commonLength a b = a.length := by
  induction a generalizing b with
  | nil => simp [commonLength]
  | cons x a ih =>
    cases b with
    | nil => simp [commonLength]
    | cons y b =>
      simp only [List.isPrefixOf, Bool.and_eq_true, beq_iff_eq, ih, commonLength, List.length_cons]
      split
      next h => simp [h]
      next h => simp [h]

theorem commonLength_take (a b : List Bool) (n : Nat) : commonLength a (b.take n) = min (commonLength a b) n := by
  induction a generalizing b n with
  | nil => simp [commonLength]
  | cons x a ih =>
    cases b with
    | nil => simp [commonLength]
    | cons y b =>
      cases n with
      | zero => simp [commonLength]
      | succ n =>
        simp only [List.take_succ_cons, commonLength, ih]
        split <;> omega

/-- A reserved string, read off the definition of `kindOf`. -/
theorem kindOf_reserved_iff {cx : Ctx} {bits : List Bool} {n : Nat} :
    cx.kindOf bits = some (.reserved, n) ↔ cx.palEn = true
      ∧ (¬cx.cfg.entryCodes.lit.isPrefixOf bits = true ∧ ¬cx.cfg.entryCodes.litr.isPrefixOf bits = true
        ∧ ¬cx.cfg.entryCodes.pal.isPrefixOf bits = true ∧ ¬cx.cfg.entryCodes.palr.isPrefixOf bits = true)
      ∧ cx.cfg.entryCodes.deadLength bits ≤ bits.length ∧ cx.cfg.entryCodes.deadLength bits = n := by
  unfold Ctx.kindOf
  split
  next hp => grind
  next hp => cases bits <;> grind

theorem deadLength_take (codes : EntryCodes) (bits : List Bool) (n : Nat) :
    codes.deadLength (bits.take n) = min (codes.deadLength bits) (n + 1) := by
  simp only [EntryCodes.deadLength, commonLength_take, ← Nat.min_max_distrib_right, Nat.add_min_add_right]

/-- As many bits as show a string to be reserved tell it from each of the four strings. -/
theorem isPrefixOf_take_of_deadLength {codes : EntryCodes} {bits a : List Bool} {n : Nat}
    (h : codes.deadLength bits = n) (ha : a ∈ [codes.lit, codes.litr, codes.pal, codes.palr]) :
    a.isPrefixOf (bits.take n) = a.isPrefixOf bits := by
  have hlt : commonLength a bits < n := by
    simp only [List.mem_cons, List.not_mem_nil, or_false] at ha
    simp only [EntryCodes.deadLength] at h
    rcases ha with rfl | rfl | rfl | rfl <;> omega
  rw [Bool.eq_iff_iff, isPrefixOf_iff_commonLength, isPrefixOf_iff_commonLength, commonLength_take,
    Nat.min_eq_left hlt.le]

/-- The bits that show a string to be reserved are the reserved string, whatever follows them. -/
theorem kindOf_reserved_take {cx : Ctx} {bits : List Bool} {n : Nat} (hn : n ≤ bits.length) :
    cx.kindOf (bits.take n) = some (.reserved, n) ↔ cx.kindOf bits = some (.reserved, n) := by
  have hdead : cx.cfg.entryCodes.deadLength (bits.take n) = n ↔ cx.cfg.entryCodes.deadLength bits = n := by
    rw [deadLength_take]
    omega
  rw [kindOf_reserved_iff, kindOf_reserved_iff, hdead, List.length_take, Nat.min_eq_left hn]
  by_cases h : cx.cfg.entryCodes.deadLength bits = n
  · have hsame {a : List Bool} := isPrefixOf_take_of_deadLength (a := a) h
    rw [hsame (by simp), hsame (by simp), hsame (by simp), hsame (by simp), hdead.mpr h, h]
    simp only [hn, le_refl]
  · simp only [h, and_false]

theorem decodeEntry_reserved {cx : Ctx} {bits : List Bool} (h : cx.kindOf bits = some (.reserved, bits.length))
    (rest : List Bool) : decodeEntry cx (bits ++ rest) = .ok (.reserved011 bits, rest) := by
  have hkind : cx.kindOf (bits ++ rest) = some (.reserved, bits.length) :=
    (kindOf_reserved_take (by simp)).mp (by rwa [List.take_left])
  simp only [decodeEntry, hkind, takeFields, List.take_left, List.drop_left]

/-! ## Decoding what was encoded -/

/-- After the leading bits of its kind an entry is its other fields. -/
theorem decodeEntry_fields {cx : Ctx} (hcfg : cx.cfg.legal = true) {kind : EntryKind}
    (hkind : kindSelected cx kind = true) (tail : List Field) (rest : List Bool) :
    decodeEntry cx (fieldsBits cx.cfg.bitOrder (stringFields (leadString cx kind) ++ tail) ++ rest) =
      takeFields cx kind (leadString cx kind) (fieldsBits cx.cfg.bitOrder tail ++ rest) := by
  rw [fieldsBits_append, fieldsBits_stringFields, List.append_assoc, decodeEntry_leadString hcfg hkind]

/-- Every well-formed entry is decoded from its own bits: beside those that `DECODE` executes, the reserved strings and the
indices without a slot. -/
theorem decodeEntry_encodeEntry_of_wf {cx : Ctx} (hcfg : cx.cfg.legal = true) {e : Entry} (he : e.wf cx = true)
    (rest : List Bool) : decodeEntry cx (encodeEntry cx e ++ rest) = .ok (e, rest) := by
  have hwf := he
  cases e <;> simp only [Entry.wf, Bool.and_eq_true, decide_eq_true_eq] at hwf
  case reserved011 bits =>
    rw [encodeEntry, Entry.fields, fieldsBits_stringFields]
    exact decodeEntry_reserved hwf.2 rest
  case pal i =>
    refine (decodeEntry_fields hcfg (kind := .pal) hwf.1 _ rest).trans ?_
    rw [takeFields, fieldsBits, fieldsBits, List.append_nil, takeIndex_append cx _ hwf.2]
  case palr n i =>
    obtain ⟨⟨hp, hn⟩, hi⟩ := hwf
    refine (decodeEntry_fields hcfg (kind := .palr) hp _ rest).trans ?_
    rw [takeFields, fieldsBits, List.append_assoc, takeRun_append cx _ hn, fieldsBits, fieldsBits, List.append_nil,
      takeIndex_append cx _ hi]
  all_goals exact decodeEntry_encodeEntry hcfg (by simp [Entry.executable, he]) rest

theorem decode_entry {cx : Ctx} (hcfg : cx.cfg.legal = true) {e : Entry} (he : e.wf cx = true) (rest : List Bool) :
    decode cx .body (encodeEntry cx e ++ rest) = .ok (e.toInstr, rest) := by
  simp only [decode, decodeEntry_encodeEntry_of_wf hcfg he]

theorem decode_header (cx : Ctx) (h : Header) (rest : List Bool) :
    decode cx .header (encodeHeader cx.cfg.hdrRsv0 cx.cfg.bitOrder h ++ rest)
      = .ok (headerInstr cx.cfg.hdrRsv0 h, rest) := by
  simp only [decode, decodeHeader_encodeHeader]

/-- Settles O1: the instructions with bits are the two headers and the seven entries; each is decoded field by field. -/
theorem decodeOfEncode : Obligations.DecodeOfEncode := by
  intro cx i bits rest hcfg hwf henc
  cases i <;> simp only [encode, Option.some.injEq, reduceCtorEq] at henc <;> subst henc
  case hdr3 h =>
    have hrsv : cx.cfg.hdrRsv0 = .three := of_decide_eq_true hwf
    have := decode_header cx h rest
    rwa [hrsv] at this
  case hdr4 h =>
    have hrsv : cx.cfg.hdrRsv0 = .four := of_decide_eq_true hwf
    have := decode_header cx h rest
    rwa [hrsv] at this
  case lit => exact decode_entry (e := .lit _) hcfg hwf rest
  case litr => exact decode_entry (e := .litr _ _) hcfg hwf rest
  case reserved011 => exact decode_entry (e := .reserved011 _) hcfg hwf rest
  case pal => exact decode_entry (e := .pal _) hcfg hwf rest
  case palr => exact decode_entry (e := .palr _ _) hcfg hwf rest
  case nlit => exact decode_entry (e := .nlit _) hcfg hwf rest
  case nrun => exact decode_entry (e := .nrun _ _) hcfg hwf rest

/-! ## Encoding what was decoded -/

/-- Bits that are told by their leading bits begin with the leading bits of their kind. -/
theorem kindOf_lead {cx : Ctx} {bits : List Bool} {kind : EntryKind} {n : Nat} (h : cx.kindOf bits = some (kind, n))
    (hkind : kind ≠ .reserved) : kindSelected cx kind = true ∧ bits.take n = leadString cx kind := by
  unfold Ctx.kindOf at h
  have lead {a : List Bool} (ha : a.isPrefixOf bits = true) : bits.take a.length = a :=
    (List.prefix_iff_eq_take.mp (List.isPrefixOf_iff_prefix.mp ha)).symm
  split at h
  next hp =>
    split at h
    next ha => cases h; exact ⟨hp, lead ha⟩
    split at h
    next ha => cases h; exact ⟨hp, lead ha⟩
    split at h
    next ha => cases h; exact ⟨hp, lead ha⟩
    split at h
    next ha => cases h; exact ⟨hp, lead ha⟩
    split at h
    next => cases h; exact absurd rfl hkind
    next => cases h
  next hp =>
    have hplain : (!cx.palEn) = true := by simpa using hp
    cases bits with
    | nil => cases h
    | cons b tail =>
      simp only [Option.some.injEq, Prod.mk.injEq] at h
      obtain ⟨rfl, rfl⟩ := h
      split
      next hb => exact ⟨hplain, by simp [leadString, hb]⟩
      next hb => exact ⟨hplain, by simp [leadString, Bool.eq_not_of_ne hb]⟩

/-- What a pixel word taken says of the bits. -/
theorem takeCode_ok {order : BitOrder} {f : Fmt} {w : Word} {bits rest : List Bool}
    (h : takeCode order f.bits bits = .ok (w, rest)) :
    bits = fieldsBits order (codeFields f.bits w) ++ rest ∧ w.toNat < 2 ^ f.bits := by
  unfold takeCode at h
  unfold codeFields
  split at h
  next hp =>
    have h32 : 2 ^ f.bits ≤ 2 ^ 32 := Nat.pow_le_pow_right (by decide) (bits_le f)
    split at h
    next v r hv =>
      cases h
      obtain ⟨hbits, hlt⟩ := takeField_ok hv
      have hw : (BitVec.ofNat 32 v).toNat = v := toNat_ofNat_holds (by omega)
      rw [if_pos hp, hw]
      exact ⟨by simpa [fieldsBits] using hbits, hlt⟩
    next => cases h
  next hp =>
    have hf : f.bits = 32 := by cases f <;> simp_all [Fmt.bits]
    split at h
    next low r hlow =>
      split at h
      next high r' hhigh =>
        cases h
        obtain ⟨hbits, hltlow⟩ := takeField_ok hlow
        obtain ⟨hbits', hlthigh⟩ := takeField_ok hhigh
        have hw : (BitVec.ofNat 32 (low + 2 ^ 16 * high)).toNat = low + 2 ^ 16 * high := toNat_ofNat_holds (by omega)
        have hl : (low + 2 ^ 16 * high) % 2 ^ 16 = low := by omega
        have hh : (low + 2 ^ 16 * high) / 2 ^ 16 = high := by omega
        rw [if_neg hp, hw, hl, hh, hf]
        exact ⟨by simp [fieldsBits, hbits, hbits'], by omega⟩
      next => cases h
    next => cases h

section
variable {cx : Ctx} {e : Entry} {bits rest : List Bool}

theorem takeLiteral_ok {mk : Word → Entry} (h : takeLiteral cx mk bits = .ok (e, rest)) :
    ∃ c, e = mk c ∧ wordFits cx.pixBits c = true
      ∧ bits = fieldsBits cx.cfg.bitOrder (codeFields cx.pixBits c) ++ rest := by
  unfold takeLiteral at h
  split at h
  next c r hc =>
    cases h
    obtain ⟨hbits, hlt⟩ := takeCode_ok (f := cx.fmt) hc
    exact ⟨c, rfl, decide_eq_true hlt, hbits⟩
  next => cases h

theorem takeIndex_ok {mk : Nat → Entry} (h : takeIndex cx mk bits = .ok (e, rest)) :
    ∃ i, e = mk i ∧ i < 2 ^ cx.idxBits ∧ bits = fieldsBits cx.cfg.bitOrder [(i, cx.idxBits)] ++ rest := by
  unfold takeIndex at h
  split at h
  next i r hi =>
    cases h
    obtain ⟨hbits, hlt⟩ := takeField_ok hi
    exact ⟨i, rfl, hlt, by simpa [fieldsBits] using hbits⟩
  next => cases h

theorem takeRun_ok {k : Nat → List Bool → Except DecodeError (Entry × List Bool)}
    (h : takeRun cx k bits = .ok (e, rest)) :
    ∃ n tail, runFits cx.rl n = true ∧ bits = fieldBits cx.cfg.bitOrder (n - 1) cx.rl ++ tail
      ∧ k n tail = .ok (e, rest) := by
  unfold takeRun at h
  split at h
  next m tail hm =>
    obtain ⟨hbits, hlt⟩ := takeField_ok hm
    exact ⟨m + 1, tail, decide_eq_true (by omega), hbits, h⟩
  next => cases h

/-- The fields after the leading bits of a kind, taken, are those of a well-formed entry. -/
theorem takeFields_ok {kind : EntryKind} (hkind : kindSelected cx kind = true)
    (h : takeFields cx kind (leadString cx kind) bits = .ok (e, rest)) :
    e.wf cx = true ∧ encodeEntry cx e ++ rest = leadString cx kind ++ bits := by
  cases kind <;> simp only [takeFields] at h
  case lit =>
    obtain ⟨c, rfl, hc, rfl⟩ := takeLiteral_ok h
    exact ⟨Bool.and_eq_true_iff.mpr ⟨hkind, hc⟩, by simp [encodeEntry, Entry.fields, fieldsBits_append, leadString]⟩
  case litr =>
    obtain ⟨n, tail, hn, rfl, htail⟩ := takeRun_ok h
    obtain ⟨c, rfl, hc, rfl⟩ := takeLiteral_ok htail
    refine ⟨by simp only [Entry.wf, hn, hc, Bool.and_true]; exact hkind, ?_⟩
    simp [encodeEntry, Entry.fields, fieldsBits_append, fieldsBits, leadString]
  case reserved => exact nomatch hkind
  case pal =>
    obtain ⟨i, rfl, hi, rfl⟩ := takeIndex_ok h
    exact ⟨Bool.and_eq_true_iff.mpr ⟨hkind, decide_eq_true hi⟩,
      by simp [encodeEntry, Entry.fields, fieldsBits_append, leadString]⟩
  case palr =>
    obtain ⟨n, tail, hn, rfl, htail⟩ := takeRun_ok h
    obtain ⟨i, rfl, hi, rfl⟩ := takeIndex_ok htail
    refine ⟨by simp only [Entry.wf, hn, hi, decide_true, Bool.and_true]; exact hkind, ?_⟩
    simp [encodeEntry, Entry.fields, fieldsBits_append, fieldsBits, leadString]
  case nlit =>
    obtain ⟨c, rfl, hc, rfl⟩ := takeLiteral_ok h
    exact ⟨Bool.and_eq_true_iff.mpr ⟨hkind, hc⟩, by simp [encodeEntry, Entry.fields, fieldsBits_append, leadString]⟩
  case nrun =>
    obtain ⟨n, tail, hn, rfl, htail⟩ := takeRun_ok h
    obtain ⟨c, rfl, hc, rfl⟩ := takeLiteral_ok htail
    refine ⟨by simp only [Entry.wf, hn, hc, Bool.and_true]; exact hkind, ?_⟩
    simp [encodeEntry, Entry.fields, fieldsBits_append, fieldsBits, leadString]

end

/-- Settles O2: the leading bits are those of the kind or a whole reserved string, and each field taken is the field that
is written. -/
theorem encodeOfDecode : Obligations.EncodeOfDecode := by
  intro cx bits rest e h
  unfold decodeEntry at h
  split at h
  next kind n hkind =>
    by_cases hres : kind = .reserved
    · subst hres
      have hn := kindOf_length hkind
      cases h
      refine ⟨?_, by rw [encodeEntry, Entry.fields, fieldsBits_stringFields, List.take_append_drop]⟩
      have hpal : cx.palEn = true := (kindOf_reserved_iff.mp hkind).1
      rw [Entry.wf, hpal, Bool.true_and, List.length_take, Nat.min_eq_left hn]
      exact decide_eq_true ((kindOf_reserved_take hn).mpr hkind)
    · obtain ⟨hselected, hlead⟩ := kindOf_lead hkind hres
      rw [hlead] at h
      obtain ⟨hwf, hbits⟩ := takeFields_ok hselected h
      exact ⟨hwf, by rw [hbits, ← hlead, List.take_append_drop]⟩
  next => cases h

/-! ## Places and widths (30_encoding.md R92, R93, R105) -/

theorem natOfBits_append (xs ys : List Bool) : natOfBits (xs ++ ys) = natOfBits xs + 2 ^ xs.length * natOfBits ys := by
  induction xs with
  | nil => simp [natOfBits]
  | cons x xs ih =>
    simp only [List.cons_append, natOfBits, ih, List.length_cons, Nat.pow_succ']
    ring

/-- Fields in least-significant-bit-first order, as a number. -/
theorem natOfBits_fieldsBits_cons (v n : Nat) (rest : List Field) :
    natOfBits (fieldsBits .lsbFirst ((v, n) :: rest)) = v % 2 ^ n + 2 ^ n * natOfBits (fieldsBits .lsbFirst rest) := by
  rw [fieldsBits, natOfBits_append, fieldBits_length, fieldBits, natOfBits_bitsOfNat]

theorem natOfBits_fieldsBits_nil (order : BitOrder) : natOfBits (fieldsBits order []) = 0 := rfl

/-- Settles O3: each field stands above the fields before it. -/
theorem headerBitPlaces : Obligations.HeaderBitPlaces := by
  intro h
  refine ⟨?_, ?_, encodeHeader_length _ _ _, encodeHeader_length _ _ _⟩
  all_goals
    simp only [encodeHeader, Header.fields, natOfBits_fieldsBits_cons, Nat.mod_eq_of_lt (BitVec.isLt _), HdrRsv0.bits,
      natOfBits_fieldsBits_nil]
    omega

section
variable (cx : Ctx) (c : Word) (n i : Nat)

theorem width_lit : Entry.width cx (.lit c) = cx.cfg.entryCodes.lit.length + cx.pixBits := by
  simp [Entry.width, Entry.fields, fieldsWidth_codeFields']

theorem width_litr : Entry.width cx (.litr n c) = cx.cfg.entryCodes.litr.length + (cx.rl + cx.pixBits) := by
  simp [Entry.width, Entry.fields, fieldsWidth, fieldsWidth_codeFields']

theorem width_pal : Entry.width cx (.pal i) = cx.cfg.entryCodes.pal.length + cx.idxBits := by
  simp [Entry.width, Entry.fields, fieldsWidth]

theorem width_palr : Entry.width cx (.palr n i) = cx.cfg.entryCodes.palr.length + (cx.rl + cx.idxBits) := by
  simp [Entry.width, Entry.fields, fieldsWidth]

theorem width_nlit : Entry.width cx (.nlit c) = 1 + cx.pixBits := by
  simp [Entry.width, Entry.fields, fieldsWidth_codeFields']

theorem width_nrun : Entry.width cx (.nrun n c) = 1 + (cx.rl + cx.pixBits) := by
  simp [Entry.width, Entry.fields, fieldsWidth, fieldsWidth_codeFields']

end

/-- Settles O4: the default strings have two or three bits. -/
theorem entryWidths : Obligations.EntryWidths := by
  intro cx c n i hcodes
  have hlit : cx.cfg.entryCodes.lit.length = 2 := by rw [hcodes]; rfl
  have hlitr : cx.cfg.entryCodes.litr.length = 3 := by rw [hcodes]; rfl
  have hpal : cx.cfg.entryCodes.pal.length = 2 := by rw [hcodes]; rfl
  have hpalr : cx.cfg.entryCodes.palr.length = 2 := by rw [hcodes]; rfl
  simp only [Ctx.maxWidth, width_lit, width_litr, width_pal, width_palr, width_nlit, width_nrun, hlit, hlitr, hpal,
    hpalr, Nat.add_assoc, true_and]
  split <;> omega

/-- Settles O5: each word is run through the decoder. -/
theorem decodesSpecWords : Obligations.DecodesSpecWords := by
  refine ⟨?_, ?_, ?_, ?_, ?_, ?_, ?_⟩ <;> decide

end Sys2Proof.Proofs
end

section
/-! PROOFS. The bit stream operations (40_bitstream.md R131 to R135): what a fresh stream holds, which bits a write stores and
a read returns, accesses cut in two, and fields read back. -/

namespace Sys2Proof.Proofs

open Sys2Proof.Machine Sys2Proof.Laws

/-! ## Frames -/

/-- A frame depends on the buffers alone. -/
theorem keepsBytes_congr {s t u : State} {stored : BufId → Nat → Prop} (hbuf : ∀ id, u.buf id = t.buf id)
    (h : s.keepsBytes t stored) : s.keepsBytes u stored := by
  obtain ⟨hsize, hbyte⟩ := h
  refine ⟨fun id => by rw [hbuf, hsize], fun id off ho => ?_⟩
  rw [State.byteAt, hbuf]
  exact hbyte id off ho

theorem keepsBytes_mono {s t : State} {p q : BufId → Nat → Prop} (hpq : ∀ id off, p id off → q id off)
    (h : s.keepsBytes t p) : s.keepsBytes t q :=
  ⟨h.1, fun id off ho => h.2 id off fun hp => ho (hpq id off hp)⟩

theorem keepsBytes_of_buf_eq {s t : State} (hbuf : ∀ id, t.buf id = s.buf id) (stored : BufId → Nat → Prop) :
    s.keepsBytes t stored :=
  ⟨fun id => by rw [hbuf], fun id off _ => by rw [State.byteAt, hbuf, State.byteAt]⟩

theorem keepsBytes_trans {s t u : State} {p : BufId → Nat → Prop} (hst : s.keepsBytes t p) (htu : t.keepsBytes u p) :
    s.keepsBytes u p :=
  ⟨fun id => (htu.1 id).trans (hst.1 id), fun id off ho => (htu.2 id off ho).trans (hst.2 id off ho)⟩

/-! ## `BS.INIT` (R131) -/

/-- The buffer of a writable stream as `BS.INIT` leaves it: a host's is cleared, an internal one is made anew. -/
def initBuf (id : BufId) (size : Nat) (s : State) : Buffer :=
  match id with
  | .host h => (s.buf (.host h)).clear size
  | .scratch => Buffer.zeros size
  | .lc => Buffer.zeros size

theorem bsInit_writable_buf (id : BufId) (size : Nat) (s : State) :
    (bsInit id size false s).buf id = initBuf id size s := by
  cases id with
  | host h =>
    have hbuf : (bsInit (.host h) size false s).buf (.host h) =
        (s.setBuf (.host h) ((s.buf (.host h)).clear size)).buf (.host h) := buf_congr rfl _
    rw [hbuf, initBuf]
    by_cases hg : s.given (.host h)
    · exact buf_setBuf_same s _ hg
    · rw [setBuf_not_given s _ hg, buf_not_given s hg]
      rfl
  | scratch => rfl
  | lc => rfl

/-- A fresh writable stream is zero as far as it goes. -/
theorem read_initBuf_same {id : BufId} {size : Nat} {s : State} (h : initFits id size false s = true) {off : Nat}
    (hoff : off < size) : (initBuf id size s).read off = 0 := by
  cases id with
  | host n => exact read_clear_same _ (of_decide_eq_true h) hoff
  | scratch => rfl
  | lc => rfl

/-- Beyond the stream a buffer keeps its bytes. -/
theorem read_initBuf_other {id : BufId} {size : Nat} {s : State} {off : Nat} (hsize : size ≤ off)
    (hoff : off < (initBuf id size s).size) : (initBuf id size s).read off = s.byteAt id off := by
  cases id with
  | host n =>
    rw [initBuf, clear_size] at hoff
    exact read_clear_other _ hsize hoff
  | scratch => exact absurd hoff (Nat.not_lt.mpr hsize)
  | lc => exact absurd hoff (Nat.not_lt.mpr hsize)

theorem bsInit_withMem (id : BufId) (size : Nat) (ro : Bool) (s : State) :
    (bsInit id size ro s).withMem s =
      { s with bs := { buf := id, cap := size * 8, ro := ro, pos := 0, status := .ok } } := by
  simp [State.withMem, bsInit_bs]

theorem exec_bsInit {id : BufId} {size : Nat} {ro : Bool} {s : State} (h : initFits id size ro s = true) :
    exec (.bsInit id size ro) s = .next (bsInit id size ro s) := if_pos h

/-- Settles O6: the registers from `bsInit_withMem`, the bytes by whether the buffer is the one bound. -/
theorem bsInitResult : Obligations.BsInitResult := by
  intro id size ro s h
  have hreadOnly (hro : ro = true) (id' : BufId) : (bsInit id size ro s).buf id' = s.buf id' := by
    subst hro
    exact buf_congr rfl id'
  have hwritable (hro : ro = false) : (bsInit id size ro s).buf id = initBuf id size s := by
    subst hro
    exact bsInit_writable_buf id size s
  refine ⟨_, exec_bsInit h, bsInit_withMem id size ro s, ?readOnly, ?cleared, ?sizes, ?kept⟩
  case readOnly => exact fun hro => keepsBytes_of_buf_eq (hreadOnly hro) _
  case cleared =>
    intro hro off hoff
    rw [State.byteAt, hwritable hro]
    exact read_initBuf_same (by rwa [hro] at h) hoff
  case sizes =>
    intro n
    by_cases hid : BufId.host n = id
    · cases hro : ro with
      | true => rw [← hro, hreadOnly hro]
      | false =>
        subst hid
        rw [← hro, hwritable hro, initBuf, clear_size]
    · rw [bsInit_buf_other _ _ _ _ hid]
  case kept =>
    intro id' off hoff hpast
    by_cases hid : id' = id
    · subst hid
      cases hro : ro with
      | true => rw [← hro, State.byteAt, hreadOnly hro, State.byteAt]
      | false =>
        rw [hwritable hro] at hoff
        rw [← hro, State.byteAt, hwritable hro, read_initBuf_other (hpast rfl) hoff]
    · rw [State.byteAt, bsInit_buf_other _ _ _ _ hid, State.byteAt]

/-! ## The bits of a field (20_memory.md R61) -/

/-- The place in a value of `n` bits of the `k`-th of its stream bits. -/
def fieldPlace (order : BitOrder) (n k : Nat) : Nat :=
  match order with
  | .lsbFirst => k
  | .msbFirst => n - 1 - k

theorem fieldBits_getElem {order : BitOrder} {v n k : Nat} (h : k < (fieldBits order v n).length) :
    (fieldBits order v n)[k] = v.testBit (fieldPlace order n k) := by
  cases order with
  | lsbFirst => exact bitsOfNat_getElem _
  | msbFirst => simp only [fieldBits, fieldPlace, List.getElem_reverse, bitsOfNat_getElem, bitsOfNat_length]

theorem fieldValue_testBit (order : BitOrder) {bits : List Bool} {k : Nat} (h : k < bits.length) :
    (fieldValue order bits).testBit (fieldPlace order bits.length k) = bits[k] := by
  rw [← fieldBits_getElem (by rwa [fieldBits_length])]
  simp only [fieldBits_fieldValue]

/-! ## `BS.WRITE` (R132) -/

theorem bsWrite_eq_fields (v n : Nat) (s : State) : bsWrite v n s = bsWriteFields [(v, n)] s := rfl

theorem exec_bsWrite {v n : Nat} {s : State} (hn : n ≤ 16) (hro : s.bs.ro = false) (hb : s.bsBound = true) :
    exec (.bsWrite v n) s = .next (bsWrite v n s) := by
  show execBsWrite v n s = _
  rw [execBsWrite, if_neg (Nat.not_lt.mpr hn), if_neg (by rw [hro]; exact Bool.false_ne_true), if_pos hb]

section
variable {fs : List Field} {s : State} (hfit : s.bs.pos + fieldsWidth fs ≤ s.bs.cap) (hb : s.bsBound = true)
include hfit hb

/-- The bound buffer after fields that fit. -/
theorem writeFields_buf (hpos : 0 < fieldsWidth fs) :
    (bsWriteFields fs s).buf s.bs.buf =
      (s.buf s.bs.buf).setBits s.cfg.bitOrder s.bs.pos (fieldsBits s.cfg.bitOrder fs) := by
  have hgiven : s.given s.bs.buf := given_of_size (by have := (bsBound_iff s).mp hb; omega)
  rw [bsWriteFields_fits hfit hb]
  exact (buf_congr rfl _).trans (buf_setBuf_same s _ hgiven)

theorem writeFields_keepsBytes :
    s.keepsBytes (bsWriteFields fs s) (bytesOfBitsFrom s.bs.buf s.bs.pos (fieldsWidth fs)) := by
  rw [bsWriteFields_fits hfit hb]
  refine keepsBytes_congr (t := s.setBuf s.bs.buf _) (fun id => buf_congr rfl id)
    (keepsBytes_setBuf s (setBits_size _ _ _ _) fun off ho => read_setBits_other _ _ _ fun hh => ho ?_)
  rw [fieldsBits_length] at hh
  exact ⟨rfl, hh⟩

/-- Fields that fit stand at the cursor. -/
theorem writeFields_bit {k : Nat} (hk : k < (fieldsBits s.cfg.bitOrder fs).length) :
    ((bsWriteFields fs s).buf s.bs.buf).bit s.cfg.bitOrder (s.bs.pos + k) = (fieldsBits s.cfg.bitOrder fs)[k] := by
  have hlen := fieldsBits_length s.cfg.bitOrder fs
  have hcap := (bsBound_iff s).mp hb
  rw [writeFields_buf hfit hb (by omega)]
  exact bit_setBits_same _ _ _ hk (by omega)

theorem writeFields_bitList :
    ((bsWriteFields fs s).buf s.bs.buf).bitList s.cfg.bitOrder s.bs.pos (fieldsWidth fs) =
      fieldsBits s.cfg.bitOrder fs := by
  apply List.ext_getElem (by simp)
  intro k hk hk'
  rw [bitList_getElem, writeFields_bit hfit hb hk']

theorem writeFields_bit_other {q : Nat} (hq : ¬(s.bs.pos ≤ q ∧ q < s.bs.pos + fieldsWidth fs)) :
    ((bsWriteFields fs s).buf s.bs.buf).bit s.cfg.bitOrder q = (s.buf s.bs.buf).bit s.cfg.bitOrder q := by
  rw [bsWriteFields_fits hfit hb]
  have hbuf : ∀ bs : BitStreamRegs, ∀ c : Buffer, ({ s.setBuf s.bs.buf c with bs := bs } : State).buf s.bs.buf =
      (s.setBuf s.bs.buf c).buf s.bs.buf := fun _ _ => buf_congr rfl _
  rw [hbuf, buf_setBuf]
  split
  next => exact bit_setBits_other _ _ _ (by rwa [fieldsBits_length])
  next => rfl

end

/-- Settles O7: the registers in every case, the bits where they fit, the other buffers where they do not. -/
theorem bsWriteResult : Obligations.BsWriteResult := by
  intro v n s hn hro hb
  refine ⟨_, exec_bsWrite hn hro hb, ?registers, fun hfit => ⟨?bytes, fun k hk => ?stored, fun q hq => ?other⟩, ?past⟩
  case registers =>
    rw [bsWrite_eq_fields, withMem_writeFields, ← bsWrite_eq_fields, bsWrite_bs]
    congr 2
    simp only [statusAfter]
    grind
  case bytes => exact writeFields_keepsBytes (fs := [(v, n)]) hfit hb
  case stored =>
    have hbit := writeFields_bit (fs := [(v, n)]) hfit hb (k := k) (by simpa [fieldsWidth] using hk)
    simp only [fieldsBits, List.append_nil, fieldBits_getElem] at hbit
    refine hbit.trans ?_
    generalize s.cfg.bitOrder = order
    cases order <;> rfl
  case other => exact writeFields_bit_other (fs := [(v, n)]) hfit hb hq
  case past =>
    refine ⟨bsWrite_size v n s, fun id off ho => ?_⟩
    by_cases hid : id = s.bs.buf
    · have h0 : n = 0 := by
        by_contra hne
        exact ho ⟨hid, Nat.pos_of_ne_zero hne⟩
      rw [h0, bsWrite_zero]
    · rw [State.byteAt, bsWrite_buf_other _ _ _ hid, State.byteAt]

/-! ## `BS.READ` (R133) -/

theorem exec_bsRead {n : Nat} {s : State} (hn : n ≤ 32) (hb : s.bsBound = true) :
    exec (.bsRead n) s = .next { bsAdvance n s with ret := .bits (BitVec.ofNat 32 (s.readValue n)) } := by
  show execBsRead n s = _
  rw [execBsRead, if_neg (Nat.not_lt.mpr hn), if_pos hb]

/-- The registers of the stream after a read of any number of bits. -/
theorem bsAdvance_regs (n : Nat) (s : State) :
    (bsAdvance n s).bs = { s.bs with
      pos := if n = 0 then s.bs.pos else min (s.bs.pos + n) s.bs.cap
      status := if 0 < n ∧ s.bs.cap < s.bs.pos + n then .overflow else s.bs.status } := by
  rcases Nat.eq_zero_or_pos n with rfl | hpos
  · rfl
  · rw [bsAdvance_bs hpos, if_neg hpos.ne']
    simp only [statusAfter, hpos, true_and]

/-- Settles O8: the cursor and the flag from `bsAdvance_regs`, each returned bit from its place in the field. -/
theorem bsReadResult : Obligations.BsReadResult := by
  intro n s hn hb
  have hvalue : s.readValue n < 2 ^ n := readValue_lt s n
  have hpow : 2 ^ n ≤ 2 ^ 32 := Nat.pow_le_pow_right (by decide) hn
  refine ⟨_, BitVec.ofNat 32 (s.readValue n), exec_bsRead hn hb, ?registers, ?range, fun k hk hin => ?bits⟩
  case registers => rw [bsAdvance_eq, bsAdvance_regs]
  case range => rwa [toNat_ofNat_holds (by omega)]
  case bits =>
    have hbit := fieldValue_testBit s.cfg.bitOrder (bits := s.streamBits s.bs.pos n) (k := k) (by simpa using hk)
    rw [streamBits_getElem, streamBits_length, streamBit_inside hin] at hbit
    have hplace : fieldPlace s.cfg.bitOrder n k < 32 := by
      cases s.cfg.bitOrder <;> simp only [fieldPlace] <;> omega
    have hget : (BitVec.ofNat 32 (s.readValue n)).getLsbD (fieldPlace s.cfg.bitOrder n k) =
        (s.buf s.bs.buf).bit s.cfg.bitOrder (s.bs.pos + k) := by
      rw [BitVec.getLsbD_ofNat, decide_eq_true hplace, Bool.true_and, State.readValue, hbit]
    refine Eq.trans ?_ hget
    generalize s.cfg.bitOrder = order
    cases order <;> rfl

/-! ## Accesses cut in two (R135 (b)) -/

theorem bitsOfNat_add (m n v : Nat) : bitsOfNat (m + n) v = bitsOfNat m v ++ bitsOfNat n (v / 2 ^ m) := by
  induction m generalizing v with
  | zero => simp [bitsOfNat]
  | succ m ih =>
    rw [Nat.add_right_comm, bitsOfNat, ih, bitsOfNat, List.cons_append, Nat.div_div_eq_div_mul, Nat.pow_succ']

section
variable {m n : Nat} {s : State} (hfit : s.bs.pos + (m + n) ≤ s.bs.cap)
include hfit

theorem bsAdvance_bsAdvance : bsAdvance n (bsAdvance m s) = bsAdvance (m + n) s := by
  rw [bsAdvance_inside (n := m) (by omega), bsAdvance_inside hfit, bsAdvance_inside (by simp only; omega)]
  simp only [Nat.add_assoc]

variable (horder : s.cfg.bitOrder = .lsbFirst)
include horder

theorem bsWrite_bsWrite (hb : s.bsBound = true) (v : Nat) : bsWrite (v / 2 ^ m) n (bsWrite v m s) = bsWrite v (m + n) s := by
  have htwo := bsWriteFields_fits (fs := [(v, m), (v / 2 ^ m, n)]) hfit hb
  have hone := bsWriteFields_fits (fs := [(v, m + n)]) hfit hb
  refine htwo.trans (Eq.trans ?_ hone.symm)
  simp only [fieldsBits, horder, fieldBits, bitsOfNat_add, List.append_nil, fieldsWidth, Nat.add_zero]

theorem readValue_add : s.readValue (m + n) = s.readValue m + 2 ^ m * (bsAdvance m s).readValue n := by
  have hadvance := bsAdvance_inside (n := m) (s := s) (by omega)
  have hbits : (bsAdvance m s).streamBits (s.bs.pos + m) n = s.streamBits (s.bs.pos + m) n :=
    streamBits_congr (bsAdvance_cfg m s) (by rw [bsAdvance_buf, hadvance]) (by rw [hadvance]) (by omega)
  have hpos : (bsAdvance m s).bs.pos = s.bs.pos + m := by rw [hadvance]
  simp only [State.readValue, bsAdvance_cfg, horder, fieldValue, hpos, hbits, streamBits_add, natOfBits_append,
    streamBits_length]

end

/-! ## Fields read back (R135 (a)) -/

/-- Reads of the widths of fields whose bits stand at the cursor return the fields. -/
theorem readFields_of_bits {fs : List Field} {s : State} (hfit : s.bs.pos + fieldsWidth fs ≤ s.bs.cap)
    (hbits : s.streamBits s.bs.pos (fieldsWidth fs) = fieldsBits s.cfg.bitOrder fs) :
    readFields (fs.map Prod.snd) s =
      (fs.map (fun f => f.1 % 2 ^ f.2), { s with bs := { s.bs with pos := s.bs.pos + fieldsWidth fs } }) := by
  induction fs generalizing s with
  | nil => rfl
  | cons f rest ih =>
    obtain ⟨v, n⟩ := f
    simp only [fieldsWidth] at hfit
    simp only [fieldsWidth, fieldsBits, streamBits_add] at hbits
    obtain ⟨hfirst, hrest⟩ := List.append_inj hbits (by simp)
    have hadvance := bsAdvance_inside (n := n) (s := s) (by omega)
    have hvalue : s.readValue n = v % 2 ^ n := by rw [State.readValue, hfirst, fieldValue_fieldBits]
    have hnext := ih (s := bsAdvance n s) (by rw [hadvance]; simp only; omega) (by
      rw [bsAdvance_cfg, ← hrest]
      have hpos : (bsAdvance n s).bs.pos = s.bs.pos + n := by rw [hadvance]
      rw [hpos]
      exact streamBits_congr (bsAdvance_cfg n s) (by rw [bsAdvance_buf, hadvance]) (by rw [hadvance]) (by omega))
    simp only [List.map_cons, readFields, hnext, hvalue]
    rw [hadvance]
    simp only [fieldsWidth, Nat.add_assoc]

/-- Settles O10: accesses that fit by their bits; for what is read back, no overflow means that all fields fit. -/
theorem bsLaws : Obligations.BsLaws := by
  refine ⟨fun v m n s horder hb hfit =>
    ⟨bsWrite_bsWrite hfit horder hb v, readValue_add hfit horder, bsAdvance_bsAdvance hfit⟩, ?readBack⟩
  intro id size fs s hinit hok w
  have hinitial := bsInit_bs id size false s
  have hb : (bsInit id size false s).bsBound = true := (bsInit_bsGood hinit).1
  have hfit : (bsInit id size false s).bs.pos + fieldsWidth fs ≤ (bsInit id size false s).bs.cap := by
    by_contra hpast
    have hover := writeFields_past (Nat.lt_of_not_le hpast) (.inl (by rw [hinitial]; exact Nat.zero_le _))
    rw [hok] at hover
    cases hover
  have hstored := writeFields_bitList hfit hb
  have hcap : (bsInit id size true w).bs.pos + fieldsWidth fs ≤ (bsInit id size true w).bs.cap := by
    rw [hinitial] at hfit
    rw [bsInit_bs]
    exact hfit
  have hread := readFields_of_bits hcap (by
    rw [streamBits_inside hcap, bsInit_bs]
    rw [hinitial, bsInit_cfg] at hstored
    have hwcfg : w.cfg = s.cfg := by rw [bsWriteFields_cfg, bsInit_cfg]
    rw [bsInit_cfg, hwcfg, ← hstored]
    exact congrArg (fun b : Buffer => b.bitList s.cfg.bitOrder 0 (fieldsWidth fs)) (buf_congr rfl id))
  rw [hread]
  refine ⟨rfl, by rw [bsInit_bs], ?_⟩
  rw [bsInit_bs, bsWriteFields_pos, hinitial]

end Sys2Proof.Proofs
end

section
/-! PROOFS. The pixel-format transcoder (41_pixelformat.md R150 to R164): the operations on one pixel, the bytes behind its
channels, and the laws of `pack` and `unpack`. -/

namespace Sys2Proof.Proofs

open Sys2Proof.Machine Sys2Proof.Laws

/-! ## One pixel read, one pixel stored -/

theorem exec_pixGet (f : Fmt) {id : BufId} {i : Nat} {s : State} (h : pixInside f (s.buf id) i = true) :
    exec (pixGetInstr f id i) s = .next { s with ret := .color (pixelColor s.cfg f (s.buf id) i) } := by
  have hdispatch : exec (pixGetInstr f id i) s = pixGet f id i s := by cases f <;> rfl
  rw [hdispatch, pixGet, if_pos h]

/-- Settles O12: `PIX.GET` writes the returned value alone. -/
theorem pixGetResult : Obligations.PixGetResult := fun f _ _ _ h => exec_pixGet f h

theorem exec_pixSet (f : Fmt) {id : BufId} {i : Nat} (c : Color) {s : State} (h : pixInside f (s.buf id) i = true) :
    exec (pixSetInstr f id i c) s = .next (s.setBuf id (setPixelColor s.cfg f (s.buf id) i c)) := by
  have hdispatch : exec (pixSetInstr f id i c) s = pixSet f id i c s := by cases f <;> rfl
  rw [hdispatch, pixSet, if_pos h]

section
variable {f : Fmt} {id : BufId} {i : Nat} {s : State} (h : pixInside f (s.buf id) i = true) (c : Color)
include h

theorem buf_setPixel : (s.setBuf id (setPixelColor s.cfg f (s.buf id) i c)).buf id =
    setPixelColor s.cfg f (s.buf id) i c := buf_setBuf_same s _ (given_of_pixInside h)

omit h in
theorem setPixel_keepsBytes : s.keepsBytes (s.setBuf id (setPixelColor s.cfg f (s.buf id) i c))
    (bytesFrom id (pixelOffset f i) (f.pixbytes 1)) :=
  keepsBytes_setBuf s (pixWrite_size _ _ _ _ _) fun _ ho => read_pixWrite_other _ _ _ _ fun hh => ho ⟨rfl, hh⟩

/-- The pixel stored holds the packed Color. -/
theorem pixRead_setPixel_same :
    pixRead s.cfg f (setPixelColor s.cfg f (s.buf id) i c) i = pack s.cfg.channelScale f c := by
  rw [setPixelColor, pixRead_pixWrite_same _ _ _ _ h, Nat.mod_eq_of_lt (pack_lt _ _ _), BitVec.ofNat_toNat,
    BitVec.setWidth_eq]

end

/-- Settles O14: one pixel of one buffer is stored. -/
theorem pixSetResult : Obligations.PixSetResult := by
  intro f id i c s h
  refine ⟨_, exec_pixSet f c h, setBuf_withMem _ _ _, setPixel_keepsBytes c, ?_, fun j hj => ?_⟩
  · rw [buf_setPixel h, pixRead_setPixel_same h]
  · rw [buf_setPixel h]
    exact pixRead_pixWrite_other _ _ _ _ hj

/-- Settles O16: the preprocessed Color is stored as by `PIX.SET` and returned. -/
theorem pixPreprocessResult : Obligations.PixPreprocessResult := by
  intro id i code rt at' z s
  refine ⟨fun f hf h => ⟨_, exec_pixPreprocess_next_iff.mpr ⟨f, hf, h, rfl⟩, ?registers, ?bytes, ?same, fun j hj => ?other⟩,
    fun hnone => ?stop⟩
  case registers => simp [preprocessed, prepPixel, State.withMem, preppedColor]
  case bytes => exact keepsBytes_congr (fun id' => preprocessed_buf f id i rt at' z s id') (setPixel_keepsBytes _)
  case same => rw [preprocessed_buf_same h, pixRead_setPixel_same h, preppedColor]
  case other =>
    rw [preprocessed_buf_same h]
    exact pixRead_pixWrite_other _ _ _ _ hj
  case stop => rw [exec_pixPreprocess, execPixPreprocess, hnone]

/-! ## Words and their fields as numbers -/

/-- Two bit vectors side by side, as a number. -/
theorem toNat_append_eq {m n : Nat} (x : BitVec m) (y : BitVec n) : (x ++ y).toNat = 2 ^ n * x.toNat + y.toNat := by
  rw [BitVec.toNat_append, ← Nat.shiftLeft_add_eq_or_of_lt y.isLt, Nat.shiftLeft_eq, Nat.mul_comm]

theorem toNat_extract (w : Word) (start n : Nat) : (w.extractLsb' start n).toNat = w.toNat / 2 ^ start % 2 ^ n := by
  rw [BitVec.extractLsb'_toNat, Nat.shiftRight_eq_div_pow]

/-- A narrow field as a channel keeps its value where channels are raw (D4). -/
theorem toNat_channelIn_raw {n : Nat} (hn : n ≤ 8) (v : BitVec n) : (ChannelScale.raw.channelIn n v).toNat = v.toNat :=
  BitVec.toNat_setWidth_of_le hn

theorem toNat_channelOut_raw (n : Nat) (c : Byte) : (ChannelScale.raw.channelOut n c).toNat = c.toNat % 2 ^ n :=
  BitVec.toNat_setWidth _ _

theorem toNat_pack8888 (c : Color) :
    (pack8888 c).toNat = 2 ^ 24 * c.a.toNat + 2 ^ 16 * c.r.toNat + 2 ^ 8 * c.g.toNat + c.b.toNat := by
  rw [pack8888, toNat_append_eq, toNat_append_eq, toNat_append_eq]
  omega

theorem toNat_pack4444 (sc : ChannelScale) (c : Color) :
    (pack4444 sc c).toNat = 2 ^ 12 * (sc.channelOut 4 c.a).toNat + 2 ^ 8 * (sc.channelOut 4 c.r).toNat
      + 2 ^ 4 * (sc.channelOut 4 c.g).toNat + (sc.channelOut 4 c.b).toNat := by
  rw [pack4444, BitVec.toNat_setWidth_of_le (by decide), toNat_append_eq, toNat_append_eq, toNat_append_eq]
  omega

theorem toNat_pack1555 (sc : ChannelScale) (c : Color) :
    (pack1555 sc c).toNat = 2 ^ 15 * (sc.channelOut 1 c.a).toNat + 2 ^ 10 * (sc.channelOut 5 c.r).toNat
      + 2 ^ 5 * (sc.channelOut 5 c.g).toNat + (sc.channelOut 5 c.b).toNat := by
  rw [pack1555, BitVec.toNat_setWidth_of_le (by decide), toNat_append_eq, toNat_append_eq, toNat_append_eq]
  omega

theorem toNat_packLut8 (c : Color) : (packLut8 c).toNat = c.a.toNat := BitVec.toNat_setWidth_of_le (by decide)

theorem toNat_packLut4 (c : Color) : (packLut4 c).toNat = c.a.toNat % 16 := by
  rw [packLut4, BitVec.toNat_setWidth_of_le (by decide), BitVec.toNat_setWidth]

/-! ## Channels and bytes (20_memory.md R62 to R65) -/

/-- Four bytes of a pixel word, least significant first. -/
theorem toNat_word4 (b : Buffer) (off : Nat) :
    (wordOfBytes .le (b.readBytes off 4)).toNat = (b.read off).toNat + 2 ^ 8 * (b.read (off + 1)).toNat
      + 2 ^ 16 * (b.read (off + 2)).toNat + 2 ^ 24 * (b.read (off + 3)).toNat := by
  rw [toNat_wordOfBytes_readBytes _ _ (by decide)]
  simp [Finset.sum_range_succ]

theorem toNat_word2 (b : Buffer) (off : Nat) :
    (wordOfBytes .le (b.readBytes off 2)).toNat = (b.read off).toNat + 2 ^ 8 * (b.read (off + 1)).toNat := by
  rw [toNat_wordOfBytes_readBytes _ _ (by decide)]
  simp [Finset.sum_range_succ]

theorem toNat_word1 (b : Buffer) (off : Nat) : (wordOfBytes .le (b.readBytes off 1)).toNat = (b.read off).toNat := by
  rw [toNat_wordOfBytes_readBytes _ _ (by decide)]
  simp

/-- Settles O13: the pixel word from its bytes, each channel a field of it. -/
theorem pixGetBytes : Obligations.PixGetBytes := by
  intro f id i s h hbytes hscale hnibbles
  refine ⟨_, exec_pixGet f h, ?_⟩
  cases f <;> simp only [pixelColor, unpack, pixRead, hbytes, hscale, hnibbles, State.byteAt]
  case argb8888 =>
    have hw := toNat_word4 (s.buf id) (4 * i)
    refine ⟨?_, ?_, ?_, ?_⟩ <;>
      · apply BitVec.eq_of_toNat_eq
        simp only [unpack8888, toNat_extract, hw]
        omega
  case argb4444 =>
    have hw := toNat_word2 (s.buf id) (2 * i)
    refine ⟨?_, ?_, ?_, ?_⟩ <;>
      · simp only [unpack4444, toNat_channelIn_raw (n := 4) (by decide), toNat_extract, hw]
        omega
  case argb1555 =>
    have hw := toNat_word2 (s.buf id) (2 * i)
    refine ⟨?_, ?_, ?_, ?_⟩ <;>
      · simp only [unpack1555, toNat_channelIn_raw (n := 5) (by decide), toNat_channelIn_raw (n := 1) (by decide),
          toNat_extract, hw]
        omega
  case lut8 =>
    have hw := toNat_word1 (s.buf id) i
    refine (Color.mk.injEq ..).mpr ⟨BitVec.eq_of_toNat_eq ?_, rfl, rfl, rfl⟩
    simp only [toNat_extract, hw]
    omega
  case lut4 =>
    refine ⟨rfl, rfl, rfl, ?_⟩
    have hw := toNat_nibble_lowFirst (s.buf id) i
    have hbyte := ((s.buf id).read (i / 2)).isLt
    simp only [unpackLut4, BitVec.toNat_setWidth_of_le (show 4 ≤ 8 by decide), toNat_extract, hw]
    split <;> omega

theorem lowBytes_getElem {n v k : Nat} (h : k < (lowBytes n v).length) :
    (lowBytes n v)[k] = BitVec.ofNat 8 (v / 256 ^ k) := by
  induction n generalizing v k with
  | zero => simp at h
  | succ n ih =>
    cases k with
    | zero => simp [lowBytes]
    | succ k => simp only [lowBytes, List.getElem_cons_succ, ih, Nat.div_div_eq_div_mul, Nat.pow_succ']

/-- The bytes of a word stored least significant first. -/
theorem toNat_read_writeWord {b : Buffer} {off n k : Nat} (w : Word) (hk : k < n) (hfit : off + n ≤ b.size) :
    ((b.writeBytes off (bytesOfWord .le n w)).read (off + k)).toNat = w.toNat / 256 ^ k % 256 := by
  rw [read_writeBytes_same _ b (i := k) (by simpa using hk) (by simpa using hfit)]
  simp only [bytesOfWord, lowBytes_getElem, BitVec.toNat_ofNat]

theorem toNat_byteWithNibble (high : Bool) (v : Byte) (x : BitVec 4) :
    (byteWithNibble high v x).toNat =
      if high then 16 * x.toNat + v.toNat % 16 else 16 * (v.toNat / 16) + x.toNat := by
  have hv := v.isLt
  cases high
  · simp only [byteWithNibble, Bool.false_eq_true, if_false, toNat_append_eq, BitVec.extractLsb'_toNat,
      Nat.shiftRight_eq_div_pow]
    omega
  · simp only [byteWithNibble, if_true, toNat_append_eq, BitVec.extractLsb'_toNat, Nat.shiftRight_zero,
      Nat.reducePow]

/-- Settles O15: the packed Color, byte by byte. -/
theorem pixSetBytes : Obligations.PixSetBytes := by
  intro f id i c s h hbytes hscale hnibbles
  refine ⟨_, exec_pixSet f c h, ?_⟩
  have hbuf := buf_setPixel h c
  generalize s.setBuf id (setPixelColor s.cfg f (s.buf id) i c) = t at hbuf ⊢
  simp only [pixInside, decide_eq_true_eq] at h
  cases f <;> simp only [pixbytes_eq] at h <;>
    simp only [State.byteAt, hbuf, setPixelColor, pixWrite, pack, hbytes, hscale, hnibbles]
  case argb8888 =>
    have hread (k : Nat) (hk : k < 4) := toNat_read_writeWord (b := s.buf id) (off := 4 * i) (pack8888 c) hk (by omega)
    have ha := c.a.isLt
    have hr := c.r.isLt
    have hg := c.g.isLt
    have hb := c.b.isLt
    refine ⟨BitVec.eq_of_toNat_eq ((hread 0 (by decide)).trans ?_), BitVec.eq_of_toNat_eq ((hread 1 (by decide)).trans ?_),
      BitVec.eq_of_toNat_eq ((hread 2 (by decide)).trans ?_), BitVec.eq_of_toNat_eq ((hread 3 (by decide)).trans ?_)⟩ <;>
      · rw [toNat_pack8888]
        omega
  case argb4444 =>
    have hread (k : Nat) (hk : k < 2) :=
      toNat_read_writeWord (b := s.buf id) (off := 2 * i) (pack4444 .raw c) hk (by omega)
    refine ⟨(hread 0 (by decide)).trans ?_, (hread 1 (by decide)).trans ?_⟩ <;>
      · rw [toNat_pack4444]
        simp only [toNat_channelOut_raw]
        omega
  case argb1555 =>
    have hread (k : Nat) (hk : k < 2) :=
      toNat_read_writeWord (b := s.buf id) (off := 2 * i) (pack1555 .raw c) hk (by omega)
    refine ⟨(hread 0 (by decide)).trans ?_, (hread 1 (by decide)).trans ?_⟩ <;>
      · rw [toNat_pack1555]
        simp only [toNat_channelOut_raw]
        omega
  case lut8 =>
    have hread := toNat_read_writeWord (b := s.buf id) (off := i) (n := 1) (k := 0) (packLut8 c) (by decide) (by omega)
    have ha := c.a.isLt
    refine BitVec.eq_of_toNat_eq (hread.trans ?_)
    rw [toNat_packLut8]
    omega
  case lut4 =>
    rw [read_write_same _ _ (by omega), toNat_byteWithNibble, toNat_extract, toNat_packLut4]
    rcases Nat.mod_two_eq_zero_or_one i with hi | hi <;> simp [nibbleIsHigh, hi] <;> omega

/-! ## The laws of the transcoder (R164) -/

/-- R164 (a): the fields that `unpack` takes apart are those that `pack` puts together. -/
theorem pack_unpack (sc : ChannelScale) (f : Fmt) {w : Word} (h : w.toNat < 2 ^ f.bits) : pack sc f (unpack sc f w) = w := by
  apply BitVec.eq_of_toNat_eq
  cases f <;> simp only [Fmt.bits] at h <;> simp only [pack, unpack]
  case argb8888 =>
    simp only [toNat_pack8888, unpack8888, toNat_extract]
    omega
  case argb4444 =>
    simp only [toNat_pack4444, unpack4444, channelOut_channelIn sc (n := 4) (by decide), toNat_extract]
    omega
  case argb1555 =>
    simp only [toNat_pack1555, unpack1555, channelOut_channelIn sc (n := 5) (by decide),
      channelOut_channelIn sc (n := 1) (by decide), toNat_extract]
    omega
  case lut8 =>
    simp only [toNat_packLut8, unpackLut8, toNat_extract]
    omega
  case lut4 =>
    simp only [toNat_packLut4, unpackLut4, BitVec.toNat_setWidth_of_le (show 4 ≤ 8 by decide), toNat_extract]
    omega

theorem unpack_injective {sc : ChannelScale} {f : Fmt} {v w : Word} (hv : v.toNat < 2 ^ f.bits)
    (hw : w.toNat < 2 ^ f.bits) (h : unpack sc f v = unpack sc f w) : v = w := by
  rw [← pack_unpack sc f hv, h, pack_unpack sc f hw]

/-- A raw field of width `n` keeps the low `n` bits of a channel. -/
theorem storedChannel_raw {n : Nat} (hn : n ≤ 8) (v : Byte) :
    storedChannel .raw n v = BitVec.ofNat 8 (v.toNat % 2 ^ n) := by
  apply BitVec.eq_of_toNat_eq
  have hpow : 2 ^ n ≤ 2 ^ 8 := Nat.pow_le_pow_right (by decide) hn
  have hlt : v.toNat % 2 ^ n < 2 ^ n := Nat.mod_lt _ (Nat.two_pow_pos n)
  rw [storedChannel, toNat_channelIn_raw hn, toNat_channelOut_raw, toNat_ofNat_holds (by omega)]

/-- R164 (b): a raw pixel keeps of a Color what its fields hold. -/
theorem storedColor_raw (f : Fmt) (c : Color) : storedColor .raw f c = c.reduce f := by
  cases f <;> simp [storedColor, Color.reduce, storedChannel_raw]

theorem ofNat_mod_eq_self_iff {m : Nat} (hm : m ≤ 256) (hpos : 0 < m) (v : Byte) :
    BitVec.ofNat 8 (v.toNat % m) = v ↔ v.toNat < m := by
  have hlt := Nat.mod_lt v.toNat hpos
  rw [← BitVec.toNat_inj, toNat_ofNat_holds (by omega)]
  exact ⟨fun h => h ▸ hlt, Nat.mod_eq_of_lt⟩

/-- A Color fits a format iff the format's fields hold all of it. -/
theorem reduce_eq_self_iff (f : Fmt) (c : Color) : c.reduce f = c ↔ c.fits f := by
  obtain ⟨a, r, g, b⟩ := c
  cases f <;>
    simp only [Color.reduce, Color.fits, Color.mk.injEq, ofNat_mod_eq_self_iff (m := 16) (by decide) (by decide),
      ofNat_mod_eq_self_iff (m := 2) (by decide) (by decide), ofNat_mod_eq_self_iff (m := 32) (by decide) (by decide),
      true_and, eq_comm (a := (0 : Byte))]

/-- Settles O19: (a) and (c) from `pack_unpack`, (b) and (d) from what a raw pixel keeps. -/
theorem transcoderLaws : Obligations.TranscoderLaws := by
  intro f
  have hreduce (c : Color) : unpack .raw f (pack .raw f c) = c.reduce f := by rw [unpack_pack, storedColor_raw]
  have hstored (c : Color) : storedColor .raw f c = c ↔ c.fits f := by rw [storedColor_raw, reduce_eq_self_iff]
  refine ⟨fun sc w hw => pack_unpack sc f hw, hreduce, fun c => ?_, fun sc v w => unpack_injective, fun c rt at' z hc => ?_⟩
  · rw [hreduce, reduce_eq_self_iff]
  · exact (hstored _).mp (storedColor_prep ((hstored c).mpr hc) rt at' z)

end Sys2Proof.Proofs
end

section
/-! PROOFS. The palette operations (42_palette.md R180 to R186): the seed, what a lookup finds and leaves, slot by slot, and
why the encoder never holds a Color twice. -/

namespace Sys2Proof.Proofs

open Sys2Proof.Machine Sys2Proof.Laws

/-! ## The seed (R181) -/

/-- The grays do not wrap: `K` steps of `floor(256 / K)` stay below 256. -/
theorem gray_step_lt {i k : Nat} (hi : i < k) (hk : k ≤ 255) : i * (256 / k) < 256 := by
  have hstep : 0 < 256 / k := Nat.div_pos (by omega) (by omega)
  calc i * (256 / k) < k * (256 / k) := Nat.mul_lt_mul_of_pos_right hi hstep
    _ ≤ 256 := Nat.mul_div_le 256 k

theorem graySeed_getElem? {i k : Nat} (hi : i < k) : (graySeed k)[i]? = some (gray (i * (256 / k))) := by
  rw [graySeed, List.getElem?_map, List.getElem?_range hi]
  rfl

theorem graySeed_length (k : Nat) : (graySeed k).length = k := by simp [graySeed]

theorem graySeed_nodup {k : Nat} (hk : k ≤ 255) : (graySeed k).Nodup := by
  refine List.nodup_range.map_on fun i hi j hj hij => ?_
  rw [List.mem_range] at hi hj
  have hstep : 0 < 256 / k := Nat.div_pos (by omega) (by omega)
  have hvalue : (BitVec.ofNat 8 (i * (256 / k))).toNat = (BitVec.ofNat 8 (j * (256 / k))).toNat :=
    congrArg (fun c : Color => c.r.toNat) hij
  rw [toNat_ofNat_holds (gray_step_lt hi hk), toNat_ofNat_holds (gray_step_lt hj hk)] at hvalue
  exact Nat.eq_of_mul_eq_mul_right hstep hvalue

theorem seedRow_mem {k : Nat} {rows : List (Nat × List Color)} {cs : List Color} (h : seedRow k rows = some cs) :
    (k, cs) ∈ rows := by
  induction rows with
  | nil => cases h
  | cons row rest ih =>
    unfold seedRow at h
    split at h
    next hk =>
      obtain rfl := Option.some.inj h
      subst hk
      exact List.mem_cons_self
    next => exact List.mem_cons_of_mem _ (ih h)

theorem seedColors_nodup {seed : PalSeed} (hlegal : seed.legal = true) {k : Nat} (hk : k ≤ 255) :
    (seed.colors k).Nodup := by
  cases seed with
  | gray => exact graySeed_nodup hk
  | table rows =>
    simp only [PalSeed.legal, List.all_eq_true, Bool.and_eq_true, decide_eq_true_eq] at hlegal
    simp only [PalSeed.colors]
    cases hrow : seedRow k rows with
    | none => exact graySeed_nodup hk
    | some cs => exact (hlegal _ (seedRow_mem hrow)).2

/-- Settles O20: the default seed by its places, every legal one by the table's own checks. -/
theorem palInitResult : Obligations.PalInitResult := by
  intro k s h2 h255
  have hexec : exec (.palInit k) s = .next { s with pal := s.cfg.palSeed.colors k } := if_pos ⟨h2, h255⟩
  refine ⟨_, hexec, fun hgray => ?_, fun hlegal => ⟨seedColors_length hlegal k, seedColors_nodup hlegal h255⟩⟩
  rw [hgray]
  refine ⟨graySeed_length k, fun i hi => ⟨_, graySeed_getElem? hi, rfl, ?_⟩⟩
  have hvalue : (BitVec.ofNat 8 (i * (256 / k))).toNat = i * (256 / k) := toNat_ofNat_holds (gray_step_lt hi h255)
  exact ⟨hvalue, hvalue, hvalue⟩

/-! ## A lookup (R182) -/

theorem lookupPalette_hit {c : Color} {pal : List Color} {j : Nat} (h : slotOf c pal = some j) :
    lookupPalette c pal = promote j pal := by rw [lookupPalette, h]

theorem lookupPalette_miss {c : Color} {pal : List Color} (h : slotOf c pal = none) :
    lookupPalette c pal = pushColor c pal := by rw [lookupPalette, h]

theorem exec_palLookup {s : State} (h : s.slots ≠ []) (c : Color) :
    exec (.palLookup c) s = .next { s with pal := lookupPalette c s.slots, ret := .lookup (slotOf c s.slots) } := if_neg h

theorem exec_palPush {s : State} (h : s.slots ≠ []) (c : Color) :
    exec (.palPush c) s = .next { s with pal := pushColor c s.slots } := if_neg h

theorem exec_palGet {s : State} {j : Nat} {c : Color} (h : s.slots[j]? = some c) :
    exec (.palGet j) s = .next { s with pal := promote j s.slots, ret := .color c } := by
  show execPalGet j s = _
  rw [execPalGet, h]

theorem exec_palLruUpdate {s : State} {j : Nat} (h : j < s.slots.length) :
    exec (.palLruUpdate j) s = .next { s with pal := promote j s.slots } := if_pos h

/-- Settles O21: the least slot is what the search finds. -/
theorem palLookupResult : Obligations.PalLookupResult := by
  intro c s hcache
  have hslots := stateSlots_ne_nil hcache
  refine ⟨fun j hj hleast => ?hit, fun hmiss => ?miss⟩
  case hit =>
    have hfound : slotOf c s.slots = some j := slotOf_some.mpr ⟨hj, hleast⟩
    rw [exec_palLookup hslots, lookupPalette_hit hfound, promote_some hj, hfound]
  case miss =>
    have hnone : slotOf c s.slots = none := slotOf_none.mpr hmiss
    rw [exec_palLookup hslots, lookupPalette_miss hnone, pushColor_eq _ _ hslots, hnone]

/-! ## Slots (R183 to R185) -/

theorem pushColor_getElem?_succ (c : Color) {l : List Color} {i : Nat} (hi : i + 1 < l.length) :
    (pushColor c l)[i + 1]? = l[i]? := by
  rw [pushColor, List.getElem?_take_of_lt hi, List.getElem?_cons_succ]

section
variable {j : Nat} {c : Color} {l : List Color} (h : l[j]? = some c)
include h

theorem promote_getElem?_zero : (promote j l)[0]? = some c := by rw [promote_some h, List.getElem?_cons_zero]

theorem promote_getElem?_below {i : Nat} (hi : i < j) : (promote j l)[i + 1]? = l[i]? := by
  rw [promote_some h, List.getElem?_cons_succ, List.getElem?_eraseIdx_of_lt hi]

theorem promote_getElem?_above {i : Nat} (hi : j < i) : (promote j l)[i]? = l[i]? := by
  obtain ⟨k, rfl⟩ := Nat.exists_eq_succ_of_ne_zero (Nat.ne_zero_of_lt hi)
  rw [promote_some h, List.getElem?_cons_succ, List.getElem?_eraseIdx_of_ge (by omega)]

end

/-- Settles O22: a push and a promotion, slot by slot. -/
theorem palSlotMoves : Obligations.PalSlotMoves := by
  refine ⟨fun c s hcache => ?push, fun j c s hj => ?promotion⟩
  case push =>
    have hslots := stateSlots_ne_nil hcache
    refine ⟨_, exec_palPush hslots c, pushColor_length _ _, ?_, fun i hi => pushColor_getElem?_succ c hi⟩
    rw [pushColor_eq _ _ hslots, List.getElem?_cons_zero]
  case promotion =>
    have hlt : j < s.slots.length := (List.getElem?_eq_some_iff.mp hj).1
    exact ⟨_, exec_palLruUpdate hlt, exec_palGet hj, promote_length _ _, promote_getElem?_zero hj,
      fun i hi => promote_getElem?_below hj hi, fun i hi => promote_getElem?_above hj hi⟩

/-- Settles O23: a miss pushes, a hit promotes, on both sides (R186). -/
theorem mirrorLaw : Obligations.MirrorLaw := by
  intro c s hcache
  have hslots := stateSlots_ne_nil hcache
  refine ⟨_, exec_palLookup hslots c, fun hmiss => ⟨_, exec_palPush hslots c, ?_⟩, fun j hhit => ?_⟩
  · exact (lookupPalette_miss (RetVal.lookup.inj hmiss)).symm
  · have hfound : slotOf c s.slots = some j := RetVal.lookup.inj hhit
    exact ⟨_, exec_palGet (slotOf_some.mp hfound).1, rfl, (lookupPalette_hit hfound).symm⟩

/-! ## No Color twice (10_state.md R36) -/

theorem promote_perm (j : Nat) (l : List Color) : (promote j l).Perm l := by
  unfold promote
  split
  next c h =>
    obtain ⟨hlt, rfl⟩ := List.getElem?_eq_some_iff.mp h
    exact List.getElem_cons_eraseIdx_perm hlt
  next => exact .refl l

theorem pushColor_nodup {c : Color} {l : List Color} (hc : c ∉ l) (hl : l.Nodup) : (pushColor c l).Nodup :=
  (List.take_sublist _ _).nodup (List.nodup_cons.mpr ⟨hc, hl⟩)

theorem lookupPalette_nodup (c : Color) {l : List Color} (hl : l.Nodup) : (lookupPalette c l).Nodup := by
  cases h : slotOf c l with
  | some j =>
    rw [lookupPalette_hit h]
    exact (promote_perm j l).nodup_iff.mpr hl
  | none =>
    rw [lookupPalette_miss h]
    exact pushColor_nodup (slotOf_none.mp h) hl

theorem palSize_le_slots {s : State} (hp : s.palEn = true) : s.palSize ≤ s.slots.length := by
  have hlen := ctxSlots_length (cx := s.ctxOf .argb8888) hp s.pal
  rw [stateSlots_eq] at hlen
  rw [hlen]
  exact Nat.le_max_right _ _

theorem slots_congr {s t : State} (hctrl : t.ctrl = s.ctrl) (hpal : t.pal = s.pal) : t.slots = s.slots := by
  unfold State.slots State.palEn State.palSize
  rw [hctrl, hpal]

/-- The cache has been left alone, or looked up once. -/
def CacheStep (s t : State) : Prop := t.ctrl = s.ctrl ∧ (t.pal = s.pal ∨ ∃ c, t.pal = lookupPalette c s.slots)

theorem CacheStep.slots {s t : State} (h : CacheStep s t) : t.slots = s.slots ∨ ∃ c, t.slots = lookupPalette c s.slots := by
  obtain ⟨hctrl, hpal | ⟨c, hpal⟩⟩ := h
  · exact .inl (slots_congr hctrl hpal)
  · refine .inr ⟨c, hpal ▸ stateSlots_written fun hp => ?_⟩
    have hsize : t.palSize = s.palSize := by rw [State.palSize, hctrl, State.palSize]
    rw [State.palEn, hsize] at hp
    rw [hsize, hpal, lookupPalette_length]
    exact palSize_le_slots hp

theorem CacheStep.nodup {s t : State} (h : CacheStep s t) (hs : s.slots.Nodup) :
    t.slots.Nodup ∧ t.slots.length = s.slots.length := by
  obtain heq | ⟨c, heq⟩ := h.slots
  · rw [heq]; exact ⟨hs, rfl⟩
  · rw [heq]; exact ⟨lookupPalette_nodup c hs, lookupPalette_length c _⟩

theorem encStartRun_pal (f : Fmt) (c : Color) (s : State) :
    (encStartRun (s.ctxOf f) c s).pal = if s.palEn then lookupPalette c s.slots else s.pal := by
  have hp : (s.ctxOf f).palEn = s.palEn := rfl
  unfold encStartRun
  rw [hp, stateSlots_eq]
  split
  · split <;> rfl
  · rfl

theorem encStartRun_cacheStep (f : Fmt) (c : Color) (s : State) : CacheStep s (encStartRun (s.ctxOf f) c s) := by
  refine ⟨(startRun_frame _ c s).ctrl, ?_⟩
  rw [encStartRun_pal]
  split
  · exact .inr ⟨c, rfl⟩
  · exact .inl rfl

theorem ctxOf_congr {s t : State} (hcfg : t.cfg = s.cfg) (hctrl : t.ctrl = s.ctrl) (f : Fmt) : t.ctxOf f = s.ctxOf f := by
  simp only [State.ctxOf, State.palSize, State.rl, hcfg, hctrl]

theorem encFlush_ctrl (cx : Ctx) (s : State) : (encFlush cx s).ctrl = s.ctrl := (flush_frame cx s).ctrl

theorem encFlush_pal (cx : Ctx) (s : State) : (encFlush cx s).pal = s.pal := bsWriteFields_pal _ _

theorem encPixel_cacheStep (f : Fmt) (c : Color) (s : State) : CacheStep s (encPixel (s.ctxOf f) c s) := by
  unfold encPixel
  split
  next => exact encStartRun_cacheStep f c s
  next =>
    split
    next =>
      have hctrl := encFlush_ctrl (s.ctxOf f) s
      have hpal := encFlush_pal (s.ctxOf f) s
      have hstep := encStartRun_cacheStep f c (encFlush (s.ctxOf f) s)
      rw [ctxOf_congr (flush_frame (s.ctxOf f) s).cfg hctrl f] at hstep
      obtain ⟨hctrl', hcache⟩ := hstep
      rw [slots_congr hctrl hpal, hpal] at hcache
      exact ⟨hctrl'.trans hctrl, hcache⟩
    next => exact ⟨rfl, .inl rfl⟩

/-- An emission answers a next state only where nothing refuses it, and then the one given. -/
theorem emitting_eq_next_iff {cx : Ctx} {n : Nat} {s t u : State} :
    emitting cx n s t = .next u ↔ emissionRefusal cx n s = none ∧ u = t := by
  unfold emitting
  split
  next r h => simp [h]
  next h => simp [h, eq_comm]

/-- What an operation that dispatches does where it answers a next state. -/
theorem dispatching_next {reaches : Bool} {s t : State} {k : Ctx → Result} (h : dispatching reaches s k = .next t) :
    k s.anyCtx = .next t := by
  obtain heq | ⟨-, -, hstop⟩ := dispatching_cases reaches s k
  · rw [← heq, h]
  · rw [hstop] at h
    cases h

theorem exec_encStartRun_next {c : Color} {s t : State} (h : exec (.encStartRun c) s = .next t) :
    t = encStartRun s.anyCtx c s := by
  change execEncStartRun c s = .next t at h
  unfold execEncStartRun at h
  exact (Host.Outcome.next.inj (dispatching_next h)).symm

/-- `ENC.PIXEL` answers what R203 says, and where it ends a run the emission is not refused. -/
theorem exec_encPixel_next {c : Color} {s t : State} (h : exec (.encPixel c) s = .next t) :
    t = encPixel s.anyCtx c s
      ∧ ((s.run.valid && runEnds s.anyCtx c s) = true → emissionRefusal s.anyCtx s.run.len s = none) := by
  change execEncPixel c s = .next t at h
  unfold execEncPixel at h
  have hnext := dispatching_next h
  split at hnext
  next hends =>
    obtain ⟨hrefusal, ht⟩ := emitting_eq_next_iff.mp hnext
    exact ⟨ht, fun _ => hrefusal⟩
  next hends => exact ⟨(Host.Outcome.next.inj hnext).symm, fun hh => absurd hh hends⟩

/-- Settles O24: each of the three operations looks up once or leaves the cache alone. -/
theorem paletteNoDuplicates : Obligations.PaletteNoDuplicates := by
  refine ⟨fun c s t hnodup hexec => ?step, fun s hp => ⟨?count, fun hmade => ?made⟩⟩
  case step =>
    refine CacheStep.nodup (t := t) ?_ hnodup
    rcases hexec with h | h | h
    · by_cases hslots : s.slots = []
      · have hrefused : exec (.palLookup c) s = .refused .noSuchSlot := if_pos hslots
        rw [hrefused] at h
        cases h
      · rw [exec_palLookup hslots] at h
        cases h
        exact ⟨rfl, .inr ⟨c, rfl⟩⟩
    · rw [exec_encStartRun_next h]
      exact encStartRun_cacheStep _ c s
    · rw [(exec_encPixel_next h).1]
      exact encPixel_cacheStep _ c s
  case count => exact ctxSlots_length (cx := s.ctxOf .argb8888) hp s.pal
  case made => exact stateSlots_written fun _ => hmade.ge

end Sys2Proof.Proofs
end

section
/-! PROOFS. The encoder's operations one by one (43_encoder.md R203 to R209, R215): which run starts, when it ends, what an
emission writes, and the end of the pass. -/

namespace Sys2Proof.Proofs

open Sys2Proof.Machine Sys2Proof.Laws

/-! ## Where no format is needed (60_exceptions.md R320) -/

/-- An operation that has its format, or reaches no dispatch, runs. -/
theorem dispatching_runs {reaches : Bool} {s : State} (h : (∃ f, s.fmt? = some f) ∨ reaches = false) (k : Ctx → Result) :
    dispatching reaches s k = k s.anyCtx := by
  obtain heq | ⟨hreach, hnone, -⟩ := dispatching_cases reaches s k
  · exact heq
  · rcases h with ⟨f, hf⟩ | hfree
    · rw [hnone] at hf
      cases hf
    · rw [hreach] at hfree
      cases hfree

theorem anyCtx_of_fmt {s : State} {f : Fmt} (h : s.fmt? = some f) : s.anyCtx = s.ctxOf f := by
  rw [State.anyCtx, h, Option.getD_some]

theorem slotOf_isSome_eq {c : Color} {s : State} : (s.palEn && (slotOf c s.slots).isSome) = true ↔
    s.palEn = true ∧ c ∈ s.slots := by
  rw [Bool.and_eq_true, slotOf_isSome]

theorem startRunDispatches_eq_false_iff {c : Color} {s : State} :
    startRunDispatches c s = false ↔ s.palEn = true ∧ c ∈ s.slots := by
  rw [startRunDispatches, Bool.not_eq_false', slotOf_isSome_eq]

theorem syntaxDispatches_eq_false_iff {mode : Mode} {s : State} :
    syntaxDispatches mode s = false ↔ s.palEn = true ∧ mode = .palette := by
  rw [syntaxDispatches, Bool.not_eq_false', Bool.and_eq_true, decide_eq_true_eq]

/-! ## `ENC.START_RUN` (R204) -/

theorem exec_encStartRun {c : Color} {s : State} (h : (∃ f, s.fmt? = some f) ∨ (s.palEn = true ∧ c ∈ s.slots)) :
    exec (.encStartRun c) s = .next (encStartRun s.anyCtx c s) := by
  show execEncStartRun c s = _
  rw [execEncStartRun, dispatching_runs (h.imp_right startRunDispatches_eq_false_iff.mpr)]

/-- The run that a pixel begins where its Color is written out. -/
def literalRun (cfg : Config) (f : Fmt) (c : Color) : RunRegs :=
  { valid := true, mode := .literal, len := 1, code := pack cfg.channelScale f c, color := c }

section
variable {f : Fmt} {c : Color} {s : State}

theorem encStartRun_plain (hp : s.palEn = false) :
    encStartRun (s.ctxOf f) c s = { s with run := literalRun s.cfg f c } := by
  have hp' : (s.ctxOf f).palEn = false := hp
  rw [encStartRun, hp']
  rfl

theorem encStartRun_miss (hp : s.palEn = true) (hc : slotOf c s.slots = none) :
    encStartRun (s.ctxOf f) c s = { s with run := literalRun s.cfg f c, pal := pushColor c s.slots } := by
  have hp' : (s.ctxOf f).palEn = true := hp
  rw [encStartRun, if_pos hp', stateSlots_eq, hc, lookupPalette_miss hc]
  rfl

theorem encStartRun_hit {j : Nat} (hp : s.palEn = true) (hj : slotOf c s.slots = some j) :
    encStartRun (s.ctxOf f) c s = { s with
      run := { valid := true, mode := .palette, len := 1, code := BitVec.ofNat 32 j, color := c }
      pal := promote j s.slots } := by
  have hp' : (s.ctxOf f).palEn = true := hp
  rw [encStartRun, if_pos hp', stateSlots_eq, hj, lookupPalette_hit hj]

end

/-- Settles O26: the three outcomes of the lookup. -/
theorem encStartRunResult : Obligations.EncStartRunResult := by
  intro c s
  refine ⟨fun f hf => ⟨fun hp => ?plain, fun hp hc => ?miss⟩, fun j hp hj hleast => ?hit⟩
  case plain => rw [exec_encStartRun (.inl ⟨f, hf⟩), anyCtx_of_fmt hf, encStartRun_plain hp]; rfl
  case miss => rw [exec_encStartRun (.inl ⟨f, hf⟩), anyCtx_of_fmt hf, encStartRun_miss hp (slotOf_none.mpr hc)]; rfl
  case hit =>
    have hmem : c ∈ s.slots := List.mem_of_getElem? hj
    rw [exec_encStartRun (.inr ⟨hp, hmem⟩), State.anyCtx, encStartRun_hit hp (slotOf_some.mpr ⟨hj, hleast⟩)]

/-! ## `ENC.SYNTAX` and `ENC.FLUSH` (R205 to R209) -/

section
variable {mode : Mode} {n : Nat} {code : Word} {s : State}
  (h : (∃ f, s.fmt? = some f) ∨ (s.palEn = true ∧ mode = .palette)) (hn : 1 ≤ n ∧ n ≤ 2 ^ s.rl)
  (hro : s.bs.ro = false) (hrl : s.rl ≤ 16) (hb : s.bsBound = true)
include h hn hro hrl hb

theorem exec_encSyntax : exec (.encSyntax mode n code) s = .next (encSyntax s.anyCtx mode n code s) := by
  obtain ⟨hpos, hmax⟩ := hn
  show execEncSyntax mode n code s = _
  rw [execEncSyntax, dispatching_runs (h.imp_right syntaxDispatches_eq_false_iff.mpr),
    emitting_next (cx := s.anyCtx) hpos hmax hro hrl hb]

end

/-- A format that the emission of an index does not look at may stand for the one of `CTRL`. -/
theorem encSyntax_anyCtx {mode : Mode} {n : Nat} {code : Word} {s : State} {f : Fmt}
    (hf : s.fmt? = some f ∨ (s.palEn = true ∧ mode = .palette)) :
    encSyntax s.anyCtx mode n code s = encSyntax (s.ctxOf f) mode n code s := by
  rcases hf with hf | hindex
  · rw [anyCtx_of_fmt hf]
  · exact encSyntax_format (syntaxDispatches_eq_false_iff.mpr hindex) _ _ _ _ _

/-- Settles O28: the entry is `syntaxEntry`, and `encSyntax_spec` says what its emission does. -/
theorem encSyntaxResult : Obligations.EncSyntaxResult := by
  intro mode n code f s hf hpos hmax hro hrl hb e
  have hexec := exec_encSyntax (code := code) (hf.imp_left fun h => ⟨f, h⟩) ⟨hpos, hmax⟩ hro hrl hb
  rw [encSyntax_anyCtx hf] at hexec
  have hentry : e = syntaxEntry (s.ctxOf f) mode n code := by
    have hp : (s.ctxOf f).palEn = s.palEn := rfl
    simp only [e, syntaxEntry, hp]
    cases s.palEn <;> cases mode <;> by_cases h1 : n = 1 <;> simp [h1]
  rw [hentry]
  exact ⟨_, hexec, encSyntax_spec (s.ctxOf f) mode n code s rfl hb⟩

theorem exec_encFlush {s : State} (hvalid : s.run.valid = true) (hn : 1 ≤ s.run.len ∧ s.run.len ≤ 2 ^ s.rl)
    (hro : s.bs.ro = false) (hrl : s.rl ≤ 16) (hb : s.bsBound = true)
    (h : (∃ f, s.fmt? = some f) ∨ (s.palEn = true ∧ s.run.mode = .palette)) :
    exec .encFlush s = .next (encFlush s.anyCtx s) := by
  have hfree : (∃ f, s.fmt? = some f) ∨ (s.run.valid && syntaxDispatches s.run.mode s) = false :=
    h.imp_right fun hindex => by rw [syntaxDispatches_eq_false_iff.mpr hindex, Bool.and_false]
  show execEncFlush s = _
  rw [execEncFlush, dispatching_runs hfree, if_pos hvalid,
    emitting_next (cx := s.anyCtx) hn.1 hn.2 hro hrl hb]

/-- Settles O29: a flush is the emission of the run's own mode, length and code. -/
theorem encFlushResult : Obligations.EncFlushResult := by
  intro s
  refine ⟨fun hvalid hpos hmax hro hrl hb h => ?run, fun hvalid => ?noRun⟩
  case run =>
    refine ⟨_, exec_encFlush hvalid ⟨hpos, hmax⟩ hro hrl hb h, exec_encSyntax h ⟨hpos, hmax⟩ hro hrl hb, ?_, ?_⟩
    · exact bsWriteFields_run _ _
    · exact encFlush_pal _ _
  case noRun =>
    show execEncFlush s = _
    rw [execEncFlush, hvalid, Bool.false_and, dispatching_free]
    rfl

/-! ## `ENC.PIXEL` (R203) -/

theorem runEnds_eq_false {cx : Ctx} {c : Color} {s : State} (hc : c = s.run.color) (hlen : s.run.len ≠ cx.maxRun) :
    runEnds cx c s = false := by
  simp [runEnds, hc, hlen]

theorem runEnds_eq_true {cx : Ctx} {c : Color} {s : State} (h : c ≠ s.run.color ∨ s.run.len = cx.maxRun) :
    runEnds cx c s = true := by
  rw [runEnds, Bool.or_eq_true, decide_eq_true_eq, decide_eq_true_eq]
  exact h

/-- Without a run, `ENC.PIXEL` is `ENC.START_RUN`. -/
theorem exec_encPixel_noRun {s : State} (h : s.run.valid = false) (c : Color) :
    exec (.encPixel c) s = exec (.encStartRun c) s := by
  show execEncPixel c s = execEncStartRun c s
  rw [execEncPixel, execEncStartRun, pixelDispatches, if_pos h]
  simp only [h, Bool.false_and, Bool.false_eq_true, if_false, encPixel, if_true]

/-- A pixel that extends the run. -/
theorem exec_encPixel_extends {s : State} {c : Color} (hvalid : s.run.valid = true) (hc : c = s.run.color)
    (hlen : s.run.len ≠ 2 ^ s.rl) :
    exec (.encPixel c) s = .next { s with run := { s.run with len := s.run.len + 1 } } := by
  have hends : runEnds s.anyCtx c s = false := runEnds_eq_false hc hlen
  have hfree : pixelDispatches c s = false := by
    rw [pixelDispatches, hends, hvalid]
    rfl
  show execEncPixel c s = _
  rw [execEncPixel, hfree, dispatching_free]
  simp only [hends, encPixel, hvalid, Bool.and_false, Bool.false_eq_true, if_false, Bool.true_eq_false]

/-- A pixel that ends the run: the flush, then the start of another one. -/
theorem exec_encPixel_ends {s : State} {c : Color} (hvalid : s.run.valid = true)
    (hends : c ≠ s.run.color ∨ s.run.len = 2 ^ s.rl) (hn : 1 ≤ s.run.len ∧ s.run.len ≤ 2 ^ s.rl)
    (hro : s.bs.ro = false) (hrl : s.rl ≤ 16) (hb : s.bsBound = true)
    (h : (∃ f, s.fmt? = some f) ∨ ((s.palEn = true ∧ c ∈ s.slots) ∧ s.run.mode = .palette)) :
    exec (.encPixel c) s = .next (encStartRun s.anyCtx c (encFlush s.anyCtx s)) := by
  have hends' : runEnds s.anyCtx c s = true := runEnds_eq_true hends
  have hfree : (∃ f, s.fmt? = some f) ∨ pixelDispatches c s = false := by
    refine h.imp_right fun ⟨hhit, hmode⟩ => ?_
    rw [pixelDispatches, if_neg (by rw [hvalid]; rintro ⟨⟩), syntaxDispatches_eq_false_iff.mpr ⟨hhit.1, hmode⟩,
      startRunDispatches_eq_false_iff.mpr hhit]
    exact Bool.and_false _
  show execEncPixel c s = _
  rw [execEncPixel, dispatching_runs hfree]
  simp only [hends', hvalid, Bool.and_true, if_true, encPixel, Bool.true_eq_false, if_false]
  exact emitting_next hn.1 hn.2 hro hrl hb

/-- A flush leaves alone what decides how the next run starts. -/
theorem encFlush_keeps (cx : Ctx) (s : State) :
    (encFlush cx s).fmt? = s.fmt? ∧ (encFlush cx s).anyCtx = s.anyCtx ∧ (encFlush cx s).palEn = s.palEn
      ∧ (encFlush cx s).slots = s.slots := by
  have hcfg := (flush_frame cx s).cfg
  have hctrl := encFlush_ctrl cx s
  have hfmt : (encFlush cx s).fmt? = s.fmt? := by rw [State.fmt?, hcfg, hctrl, State.fmt?]
  refine ⟨hfmt, ?_, ?_, slots_congr hctrl (encFlush_pal cx s)⟩
  · rw [State.anyCtx, hfmt, ctxOf_congr hcfg hctrl, State.anyCtx]
  · rw [State.palEn, State.palSize, hctrl, State.palEn, State.palSize]

/-- Settles O27: a run starts, goes on, or ends and another one starts. -/
theorem encPixelResult : Obligations.EncPixelResult := by
  intro c s hit
  refine ⟨fun hvalid => ⟨exec_encPixel_noRun hvalid c, fun h => ?starts⟩, exec_encPixel_extends, ?ends⟩
  case starts => exact ⟨_, (exec_encPixel_noRun hvalid c).trans (exec_encStartRun h)⟩
  case ends =>
    intro hvalid hends hpos hmax hro hrl hb h
    obtain ⟨hfmt, hctx, hp, hslots⟩ := encFlush_keeps s.anyCtx s
    refine ⟨_, _, exec_encFlush hvalid ⟨hpos, hmax⟩ hro hrl hb (h.imp_right fun hh => ⟨hh.1.1, hh.2⟩),
      exec_encStartRun ?_, ?_⟩
    · rw [hfmt, hp, hslots]
      exact h.imp_right And.left
    · rw [exec_encPixel_ends hvalid hends ⟨hpos, hmax⟩ hro hrl hb h, hctx]

/-! ## `ENC.FINISH` (R215) -/

/-- The stream copied out, and the outcome. -/
theorem encFinish_fits {output : HostBuf} {outCap : Nat} {s : State} (hcap : s.bs.pos ≤ s.bs.cap)
    (hout : emittedSize s.bs.pos ≤ outCap) :
    encFinish output outCap s = { copyOut output s with res := resRegs .ok .none (emittedSize s.bs.pos) s.bs.pos } := by
  rw [encFinish, streamFits, decide_eq_true hcap, decide_eq_true hout]
  rfl

theorem encFinish_past {output : HostBuf} {outCap : Nat} {s : State}
    (h : s.bs.cap < s.bs.pos ∨ outCap < emittedSize s.bs.pos) :
    encFinish output outCap s = { s with res := resRegs .capacity .none (emittedSize s.bs.pos) s.bs.pos } := by
  have hfits : streamFits outCap s = false := by
    rw [streamFits, Bool.and_eq_false_iff, decide_eq_false_iff_not, decide_eq_false_iff_not]
    exact h.imp Nat.not_le.mpr Nat.not_le.mpr
  rw [encFinish, hfits]
  rfl

theorem copyOut_keepsBytes (output : HostBuf) (s : State) :
    s.keepsBytes (copyOut output s) (bytesFrom (.host output) 0 (emittedSize s.bs.pos)) :=
  keepsBytes_setBuf s (writeBytes_size _ _ _) fun off ho => read_writeBytes_other _ _ fun hh => ho (by
    rw [readBytes_length] at hh
    exact ⟨rfl, hh⟩)

/-- Settles O30: the copy where the stream fits, the outcome alone where it does not. -/
theorem encFinishResult : Obligations.EncFinishResult := by
  intro output outCap s size
  have hsize : emittedSize s.bs.pos = size := rfl
  have hexec (t : State) (ht : encFinish output outCap s = t)
      (hroom : streamFits outCap s = true → size ≤ (s.buf (.host output)).size ∧ size ≤ s.scratch.size) :
      exec (.encFinish output outCap) s = .next t := by
    show execEncFinish output outCap s = _
    rw [execEncFinish, ht, if_neg]
    rw [Bool.and_eq_true, Bool.or_eq_true, decide_eq_true_eq, decide_eq_true_eq, hsize]
    rintro ⟨hfits, hpast⟩
    have := hroom hfits
    omega
  refine ⟨fun hcap hout hroom hscratch => ?fits, fun hpast => ?past⟩
  case fits =>
    have hbuf (id : BufId) : (encFinish output outCap s).buf id = (copyOut output s).buf id := by
      rw [encFinish_fits hcap hout]
      exact buf_congr rfl id
    refine ⟨_, hexec _ rfl fun _ => ⟨hroom, hscratch⟩, ?_, ?_, keepsBytes_congr hbuf (copyOut_keepsBytes output s),
      fun off hoff => ?_⟩
    · rw [encFinish_fits hcap hout]
      simp [State.withMem, copyOut]
    · rw [encFinish_fits hcap hout]
      exact resRegs_reports _ _ _ _
    · rw [State.byteAt, hbuf]
      exact read_copyOut hroom hoff
  case past =>
    have hend := encFinish_past (output := output) hpast
    refine ⟨_, hexec _ hend fun hfits => ?_, rfl, resRegs_reports _ _ _ _⟩
    rw [streamFits, Bool.and_eq_true, decide_eq_true_eq, decide_eq_true_eq] at hfits
    omega

end Sys2Proof.Proofs
end

section
/-! PROOFS. Stretches of a line (43_encoder.md R210, 46_rasterizer.md R281): how equal pixels are cut into runs and owners
into slices. -/

namespace Sys2Proof.Proofs

open Sys2Proof.Machine Sys2Proof.Laws

/-! ## Runs (R210) -/

/-- `m` equal pixels cut greedily: full runs, and one of the rest. -/
def greedyCut (maxRun m : Nat) (c : Color) : List (Nat × Color) :=
  List.replicate (m / maxRun) (maxRun, c) ++ if m % maxRun = 0 then [] else [(m % maxRun, c)]

theorem greedyCut_of_le {maxRun n : Nat} (c : Color) (hn : 1 ≤ n) (hmax : n ≤ maxRun) :
    greedyCut maxRun n c = [(n, c)] := by
  rcases hmax.lt_or_eq with hlt | rfl
  · rw [greedyCut, Nat.div_eq_of_lt hlt, Nat.mod_eq_of_lt hlt, if_neg (by omega)]
    rfl
  · rw [greedyCut, Nat.div_self hn, Nat.mod_self, if_pos rfl]
    rfl

theorem greedyCut_add {maxRun : Nat} (hmax : 1 ≤ maxRun) (m : Nat) (c : Color) :
    greedyCut maxRun (maxRun + m) c = (maxRun, c) :: greedyCut maxRun m c := by
  rw [greedyCut, Nat.add_div_left m hmax, Nat.add_mod_left, List.replicate_succ]
  rfl

/-- A run that another Color ends. -/
theorem runsFrom_of_head_ne {maxRun n : Nat} {c : Color} {rest : List Color} (h : rest.head? ≠ some c) :
    runsFrom maxRun c n rest = (n, c) :: runsOf maxRun rest := by
  cases rest with
  | nil => rfl
  | cons d rest =>
    have hne : d ≠ c := fun hd => h (by rw [hd]; rfl)
    rw [runsFrom, if_neg fun hh => hne hh.1, runsOf]

/-- A run of `n` pixels that `k` equal ones follow. -/
theorem runsFrom_replicate {maxRun n : Nat} {c : Color} {rest : List Color} (hn : 1 ≤ n) (hmax : n ≤ maxRun) (k : Nat)
    (h : rest.head? ≠ some c) :
    runsFrom maxRun c n (List.replicate k c ++ rest) = greedyCut maxRun (n + k) c ++ runsOf maxRun rest := by
  induction k generalizing n with
  | zero => rw [List.replicate_zero, List.nil_append, Nat.add_zero, greedyCut_of_le c hn hmax, runsFrom_of_head_ne h]; rfl
  | succ k ih =>
    rw [List.replicate_succ, List.cons_append, runsFrom]
    rcases hmax.lt_or_eq with hlt | rfl
    · rw [if_pos ⟨rfl, hlt.ne⟩, ih (Nat.le_add_left 1 n) hlt, Nat.succ_add_eq_add_succ]
    · rw [if_neg fun hh => hh.2 rfl, ih (le_refl 1) hn, Nat.add_comm 1, greedyCut_add hn, List.cons_append]

/-- Settles O33: cover and bounds of the runs, and the greedy cut. -/
theorem runsCut : Obligations.RunsCut := by
  intro maxRun hmax
  refine ⟨fun cs => ⟨runsOf_flatMap maxRun cs, fun r hr => (mem_runsOf hmax hr).1⟩, fun m c rest hm h => ?_⟩
  obtain ⟨k, rfl⟩ := Nat.exists_eq_add_of_le hm
  rw [Nat.add_comm 1 k, List.replicate_succ, List.cons_append, runsOf, runsFrom_replicate (le_refl 1) hmax k h,
    Nat.add_comm 1 k, greedyCut]

/-! ## Slices (R281) -/

theorem slicesFrom_sum (cur : Option (Nat × DrawObject)) (len : Nat) (os : List (Option (Nat × DrawObject))) :
    ((slicesFrom cur len os).map Prod.snd).sum = len + os.length := by
  induction os generalizing cur len with
  | nil => rfl
  | cons o rest ih =>
    unfold slicesFrom
    split
    · rw [ih, List.length_cons]; omega
    · rw [List.map_cons, List.sum_cons, ih, List.length_cons, Nat.add_comm 1]

theorem mem_slicesFrom {cur : Option (Nat × DrawObject)} {len : Nat} {os : List (Option (Nat × DrawObject))}
    {l : Bool × Nat} (hlen : 1 ≤ len) (h : l ∈ slicesFrom cur len os) : 1 ≤ l.2 := by
  induction os generalizing cur len with
  | nil =>
    obtain rfl := List.mem_singleton.mp h
    exact hlen
  | cons o rest ih =>
    unfold slicesFrom at h
    split at h
    · exact ih (by omega) h
    · rcases List.mem_cons.mp h with rfl | h
      · exact hlen
      · exact ih (le_refl 1) h

/-- A slice that another owner ends. -/
theorem slicesFrom_replicate {o : Option (Nat × DrawObject)} {rest : List (Option (Nat × DrawObject))}
    (h : ∀ o', rest.head? = some o' → o'.map Prod.fst ≠ o.map Prod.fst) (n k : Nat) :
    slicesFrom o n (List.replicate k o ++ rest) = (isConstant o, n + k) :: slicesOf rest := by
  induction k generalizing n with
  | zero =>
    cases rest with
    | nil => rfl
    | cons o' rest => rw [List.replicate_zero, List.nil_append, slicesFrom, if_neg (h o' rfl), slicesOf, Nat.add_zero]
  | succ k ih =>
    rw [List.replicate_succ, List.cons_append, slicesFrom, if_pos rfl, ih, Nat.add_right_comm, Nat.add_assoc]

/-- Settles O53: the lengths by what a slice takes of the line, the cut by its first pixel. -/
theorem slicesPartition : Obligations.SlicesPartition := by
  refine ⟨fun os => ?cover, fun n o rest hn h => ?cut⟩
  case cover =>
    cases os with
    | nil => exact ⟨rfl, nofun⟩
    | cons o rest =>
      refine ⟨?_, fun l hl => mem_slicesFrom (le_refl 1) hl⟩
      rw [slicesOf, slicesFrom_sum, List.length_cons, Nat.add_comm]
  case cut =>
    obtain ⟨k, rfl⟩ := Nat.exists_eq_add_of_le hn
    rw [Nat.add_comm 1 k, List.replicate_succ, List.cons_append, slicesOf, slicesFrom_replicate h, Nat.add_comm 1 k]

end Sys2Proof.Proofs
end

section
/-! PROOFS. Which positions an object covers (46_rasterizer.md R271 to R278): rectangles and strokes by their edges, a line by
its ideal position, an exact rational. -/

namespace Sys2Proof.Proofs

open Sys2Proof.Machine Sys2Proof.Laws

/-! ## The constructors (R271 to R273) -/

theorem returnObject_of_fits {attrs : CanvasAttrs} {f : Fmt} {color : Nat} {s : State}
    (hf : s.cfg.fmtOfNat attrs.fmt = some f) (hcolor : color < 2 ^ f.bits) (o : DrawObject) :
    returnObject attrs color o s = .next { s with ret := .object o } := by
  simp only [returnObject, hf, if_pos hcolor]

theorem returnObject_of_wide {attrs : CanvasAttrs} {f : Fmt} {color : Nat} {s : State}
    (hf : s.cfg.fmtOfNat attrs.fmt = some f) (hcolor : 2 ^ f.bits ≤ color) (o : DrawObject) :
    returnObject attrs color o s = .refused .illegalColour := by
  simp only [returnObject, hf, if_neg (Nat.not_lt.mpr hcolor)]

theorem returnObject_of_noFormat {attrs : CanvasAttrs} {s : State} (hf : s.cfg.fmtOfNat attrs.fmt = none) (color : Nat)
    (o : DrawObject) : returnObject attrs color o s = .refused .illegalControl := by
  simp only [returnObject, hf]

/-- Settles O51: both constructors with a colour answer by `returnObject`. -/
theorem constructorsResult : Obligations.ConstructorsResult := by
  intro attrs f x y w h t filled color src stride s
  exact ⟨rfl, fun hf hcolor => ⟨returnObject_of_fits hf hcolor _, returnObject_of_fits hf hcolor _⟩,
    fun hf hcolor => ⟨returnObject_of_wide hf hcolor _, returnObject_of_wide hf hcolor _⟩,
    fun hf => ⟨returnObject_of_noFormat hf _ _, returnObject_of_noFormat hf _ _⟩⟩

/-! ## Rectangles and strokes (R274, R276) -/

theorem inRect_iff {x y w h px py : Int} :
    inRect x y w h px py = true ↔ (x ≤ px ∧ px < x + w) ∧ y ≤ py ∧ py < y + h := decide_eq_true_iff

theorem strokeCover_default_iff {x y w h t px py : Int} :
    strokeCover .default x y w h t px py = true ↔
      1 ≤ t ∧ ((x ≤ px ∧ px < x + w) ∧ y ≤ py ∧ py < y + h)
        ∧ ¬((x + t ≤ px ∧ px < x + w - t) ∧ y + t ≤ py ∧ py < y + h - t) := by
  simp only [strokeCover, Bool.and_eq_true, Bool.not_eq_true', ← Bool.not_eq_true, inRect_iff, decide_eq_true_eq]
  omega

/-- A stroke at least half as thick as its rectangle leaves no inner rectangle. -/
theorem strokeCover_thick {x y w h t px py : Int} (ht : 1 ≤ t) (hthick : w ≤ 2 * t ∨ h ≤ 2 * t) :
    strokeCover .default x y w h t px py = inRect x y w h px py := by
  rw [Bool.eq_iff_iff, strokeCover_default_iff, inRect_iff]
  omega

/-! ## Lines (R277) -/

/-- The exact minor position of a line at a position of its major axis. -/
def idealAt (p p0 p1 q0 q1 : Int) : Rat := (q0 : Rat) + (q1 - q0 : Rat) * (p - p0 : Rat) / (p1 - p0 : Rat)

/-- Between the ends on the major axis, and less than half the thickness from the ideal position, its lower edge
included. -/
def NearLine (t p p0 p1 q q0 q1 : Int) : Prop :=
  (min p0 p1 ≤ p ∧ p ≤ max p0 p1)
    ∧ -(t : Rat) / 2 ≤ (q : Rat) - idealAt p p0 p1 q0 q1 ∧ (q : Rat) - idealAt p p0 p1 q0 q1 < (t : Rat) / 2

/-- The order of the ends does not matter to the ideal position; a line of one position has equal ends. -/
theorem idealAt_swap {p p0 p1 q0 q1 : Int} (h : p0 = p1 → q0 = q1) : idealAt p p0 p1 q0 q1 = idealAt p p1 p0 q1 q0 := by
  by_cases hp : p0 = p1
  · rw [hp, h hp]
  · have h1 : (p1 - p0 : Rat) ≠ 0 := sub_ne_zero.mpr fun hh => hp (by exact_mod_cast hh.symm)
    have h0 : (p0 - p1 : Rat) ≠ 0 := sub_ne_zero.mpr fun hh => hp (by exact_mod_cast hh)
    unfold idealAt
    field_simp
    ring

theorem nearLine_swap {t p p0 p1 q q0 q1 : Int} (h : p0 = p1 → q0 = q1) :
    NearLine t p p0 p1 q q0 q1 ↔ NearLine t p p1 p0 q q1 q0 := by
  rw [NearLine, NearLine, idealAt_swap h, min_comm, max_comm]

/-- R277's test of integers is the distance from the ideal position, times twice the length of the major axis. -/
theorem majorCover_iff {p0 p1 q0 q1 t p q : Int} (hle : p0 ≤ p1) (h : p0 = p1 → q0 = q1) :
    majorCover p0 q0 (p1 - p0) (q1 - q0) t p q = true ↔ NearLine t p p0 p1 q q0 q1 := by
  have hends : (p0 ≤ p ∧ p ≤ p0 + (p1 - p0)) ↔ min p0 p1 ≤ p ∧ p ≤ max p0 p1 := by omega
  rw [majorCover, NearLine]
  simp only [decide_eq_true_eq, hends]
  refine and_congr_right fun _ => ?_
  by_cases hp : p0 = p1
  · obtain rfl := h hp
    subst hp
    have hideal : idealAt p p0 p0 q0 q0 = q0 := by simp [idealAt]
    have hcast : ((q - q0 : Int) : Rat) = (q : Rat) - q0 := by push_cast; ring
    simp only [sub_self, lt_self_iff_false, if_false, one_mul, zero_mul, sub_zero, mul_one, hideal, ← hcast]
    constructor
    · rintro ⟨hlow, hhigh⟩
      have hlow' : -(t : Rat) ≤ 2 * ((q - q0 : Int) : Rat) := by exact_mod_cast hlow
      have hhigh' : 2 * ((q - q0 : Int) : Rat) < t := by exact_mod_cast hhigh
      constructor <;> linarith
    · rintro ⟨hlow, hhigh⟩
      have hlow' : -(t : Rat) ≤ 2 * ((q - q0 : Int) : Rat) := by linarith
      have hhigh' : 2 * ((q - q0 : Int) : Rat) < t := by linarith
      exact ⟨by exact_mod_cast hlow', by exact_mod_cast hhigh'⟩
  · have hpos : 0 < p1 - p0 := by omega
    have hd : (0 : Rat) < ((p1 - p0 : Int) : Rat) := by exact_mod_cast hpos
    have hscaled : (((p1 - p0) * (q - q0) - (q1 - q0) * (p - p0) : Int) : Rat) =
        ((p1 - p0 : Int) : Rat) * ((q : Rat) - idealAt p p0 p1 q0 q1) := by
      have hne : (p1 - p0 : Rat) ≠ 0 := by
        have := hd.ne'
        push_cast at this
        exact this
      unfold idealAt
      push_cast
      field_simp
      ring
    rw [if_pos hpos]
    generalize (p1 - p0) * (q - q0) - (q1 - q0) * (p - p0) = e at hscaled ⊢
    generalize (q : Rat) - idealAt p p0 p1 q0 q1 = x at hscaled ⊢
    generalize p1 - p0 = d at hd hscaled ⊢
    constructor
    · rintro ⟨hlow, hhigh⟩
      have hlow' : -(t : Rat) * d ≤ 2 * (e : Rat) := by exact_mod_cast hlow
      have hhigh' : 2 * (e : Rat) < t * d := by exact_mod_cast hhigh
      rw [hscaled] at hlow' hhigh'
      constructor
      · refine le_of_mul_le_mul_right ?_ hd
        linarith
      · refine lt_of_mul_lt_mul_right ?_ hd.le
        linarith
    · rintro ⟨hlow, hhigh⟩
      have hlow' := mul_le_mul_of_nonneg_right hlow hd.le
      have hhigh' := mul_lt_mul_of_pos_right hhigh hd
      have hlow'' : -(t : Rat) * d ≤ 2 * (e : Rat) := by rw [hscaled]; linarith
      have hhigh'' : 2 * (e : Rat) < t * d := by rw [hscaled]; linarith
      exact ⟨by exact_mod_cast hlow'', by exact_mod_cast hhigh''⟩

/-- The default `LINE_COVER`, on whichever axis is the major one. -/
theorem defaultLineCover_iff {x0 y0 x1 y1 t px py : Int} :
    defaultLineCover x0 y0 x1 y1 t px py = true ↔
      if (y1 - y0).natAbs ≤ (x1 - x0).natAbs then NearLine t px x0 x1 py y0 y1 else NearLine t py y0 y1 px x0 x1 := by
  have hnegx : -(x1 - x0) = x0 - x1 := by ring
  have hnegy : -(y1 - y0) = y0 - y1 := by ring
  unfold defaultLineCover
  simp only [hnegx, hnegy]
  split
  next hmajor =>
    split
    next hback =>
      rw [majorCover_iff (by omega) (by omega)]
      exact nearLine_swap (by omega)
    next hforth => exact majorCover_iff (by omega) (by omega)
  next hminor =>
    split
    next hback =>
      rw [majorCover_iff (by omega) (by omega)]
      exact nearLine_swap (by omega)
    next hforth => exact majorCover_iff (by omega) (by omega)

theorem defaultLineCover_swap (x0 y0 x1 y1 t px py : Int) :
    defaultLineCover x0 y0 x1 y1 t px py = defaultLineCover x1 y1 x0 y0 t px py := by
  rw [Bool.eq_iff_iff, defaultLineCover_iff, defaultLineCover_iff, ← Int.natAbs_neg (y1 - y0),
    ← Int.natAbs_neg (x1 - x0), neg_sub, neg_sub]
  split
  · exact nearLine_swap (by omega)
  · exact nearLine_swap (by omega)

/-- The positions less than half the thickness from the ideal one are `t` in a row. -/
theorem nearLine_interval {t p p0 p1 q0 q1 : Int} (hlow : min p0 p1 ≤ p) (hhigh : p ≤ max p0 p1) :
    ∃ m : Int, ∀ q, NearLine t p p0 p1 q q0 q1 ↔ m ≤ q ∧ q < m + t := by
  refine ⟨⌈idealAt p p0 p1 q0 q1 - (t : Rat) / 2⌉, fun q => ?_⟩
  have hsum : ⌈idealAt p p0 p1 q0 q1 - (t : Rat) / 2⌉ + t = ⌈idealAt p p0 p1 q0 q1 + (t : Rat) / 2⌉ := by
    rw [← Int.ceil_add_intCast]
    congr 1
    ring
  rw [hsum, Int.ceil_le, Int.lt_ceil, NearLine]
  constructor
  · rintro ⟨-, h1, h2⟩
    constructor <;> linarith
  · rintro ⟨h1, h2⟩
    refine ⟨⟨hlow, hhigh⟩, ?_, ?_⟩ <;> linarith

/-- Settles O55: edges by their inequalities, lines by the ideal position. -/
theorem coverage : Obligations.Coverage := by
  refine ⟨fun cfg x y w h px py color src stride => ⟨inRect_iff, inRect_iff⟩,
    fun cfg x y w h t px py color hrule => ⟨?stroke, fun ht hthick => ?thick⟩,
    fun cfg x0 y0 x1 y1 t px py color hrule => ?line, defaultLineCover_swap,
    fun x0 y0 x1 y1 t px hmajor hlow hhigh => ?columns, fun x0 y0 x1 y1 t py hmajor hlow hhigh => ?rows⟩
  case stroke =>
    rw [covers, hrule]
    exact strokeCover_default_iff
  case thick =>
    have hcover : covers cfg (.strokeRect x y w h t color) px py = strokeCover .default x y w h t px py := by
      rw [covers, hrule]
    exact hcover.trans (strokeCover_thick ht hthick)
  case line =>
    rw [covers, hrule]
    exact defaultLineCover_iff
  case columns =>
    obtain ⟨m, hm⟩ := nearLine_interval (t := t) (q0 := y0) (q1 := y1) hlow hhigh
    refine ⟨m, fun py => ?_⟩
    rw [defaultLineCover_iff, if_pos hmajor, hm]
  case rows =>
    obtain ⟨m, hm⟩ := nearLine_interval (t := t) (q0 := x0) (q1 := x1) hlow hhigh
    refine ⟨m, fun px => ?_⟩
    rw [defaultLineCover_iff, if_neg (Nat.not_le.mpr hmajor), hm]

end Sys2Proof.Proofs
end

section
/-! PROOFS. The step (44_decoder.md R231, 30_encoding.md R90): it runs what the decoder reads at the cursor. -/

namespace Sys2Proof.Proofs

open Sys2Proof.Machine Sys2Proof.Laws

theorem step_header {s : State} (h : s.phase = .header) :
    step s = exec (headerInstr s.cfg.hdrRsv0 (fetchHeader s)) s := by
  unfold step
  rw [h]

theorem step_entries {s : State} (h : s.phase = .entries) (hmore : s.dec.remaining ≠ 0) :
    step s = withCtx s fun cx => exec (fetchEntry cx s).toInstr s := by
  unfold step
  rw [h]
  exact if_neg hmore

/-- Settles O50: the decoder's answer is what is fetched. -/
theorem stepRunsDecoded : Obligations.StepRunsDecoded := by
  intro s i
  refine ⟨fun f rest hphase hd => ?header, fun f rest hphase hmore hf hd => ?entries, fun rest hphase hpending => ?pending,
    fun hphase hpending => ?idle⟩
  case header =>
    simp only [decode] at hd
    split at hd
    next h r hh =>
      cases hd
      rw [step_header hphase, fetchHeader_of_decode hh]
      rfl
    next => cases hd
  case entries =>
    simp only [decode] at hd
    split at hd
    next e r he =>
      cases hd
      rw [step_entries hphase hmore, withCtx_some hf, fetchEntry_of_decode he]
    next => cases hd
  case pending =>
    unfold step
    rw [hphase, hpending]
  case idle =>
    unfold step
    rw [hphase, hpending]

/-- Settles O59: at reset every buffer is empty, nothing is bound beyond it, and no `DECODE` is in progress. -/
theorem resetInv : Obligations.ResetInv where
  cfg := by decide
  mem := ⟨rfl, rfl, rfl, rfl, rfl, rfl, nofun⟩
  bs := ⟨rfl, fun _ => le_refl 0, fun h => absurd h (Nat.lt_irrefl 0)⟩
  header := nofun
  setup := nofun
  loop := nofun

end Sys2Proof.Proofs
end

section
/-! PROOFS. The entries as instructions and `DEC.EMIT` (44_decoder.md R235 to R241), and the errors an entry raises
(60_exceptions.md R316 to R319). -/

namespace Sys2Proof.Proofs

open Sys2Proof.Machine Sys2Proof.Laws

/-! ## `DEC.EMIT` -/

/-- A run of no pixels is emitted as nothing. -/
theorem decEmit_of_len_zero {cx : Ctx} {s : State} (h : s.dec.len = 0) : decEmit cx s = s := by
  obtain ⟨cfg, bs, run, encI, ⟨remaining, outpix, mode, len, code, color⟩⟩ := s
  obtain rfl : len = 0 := h
  simp only [decEmit, pixFill, setBuf_buf, Nat.add_zero, Nat.sub_zero]

theorem exec_decEmit_of_len_zero {s : State} (h : s.dec.len = 0) : exec .decEmit s = .next s := by
  show execDecEmit s = _
  have hin : emitInside s.anyCtx s = true := by simp [emitInside, h]
  rw [execDecEmit, decide_eq_false (by simp [h]), dispatching_free, if_neg (by omega), emitOrRefuse, if_pos hin,
    decEmit_of_len_zero h]

theorem exec_decEmit {f : Fmt} {s : State} (hf : s.fmt? = some f) (hlen : s.dec.len ≤ s.dec.remaining)
    (hroom : f.pixbytes (s.dec.outpix + s.dec.len) ≤ (s.buf (.host s.job.dst)).size) :
    exec .decEmit s = .next (decEmit (s.ctxOf f) s) := by
  show execDecEmit s = _
  rw [execDecEmit, dispatching_some hf, if_neg (Nat.not_lt.mpr hlen)]
  exact emit_next hroom

/-- Settles O37: the pixels are those of the fill, and a run of no pixels is the state itself. -/
theorem decEmitResult : Obligations.DecEmitResult := by
  intro s
  refine ⟨exec_decEmit_of_len_zero, fun f hf hlen hroom => ?_⟩
  exact ⟨_, exec_decEmit hf hlen hroom, decEmit_spec (s.ctxOf f) s rfl hroom⟩

/-! ## The entries -/

/-- An entry with its fields read and its Color resolved, when it comes to `DEC.EMIT`. -/
def entryResolved (cx : Ctx) (e : Entry) (color : Color) (pal : List Color) (s : State) : State :=
  { s with
    bs := { s.bs with pos := s.bs.pos + e.width cx }
    dec := { s.dec with mode := e.mode, len := e.runLength, code := e.code, color := color }
    pal := pal }

/-- Inside the stream the fields of an entry are read past it. -/
theorem readEntry_inside {cx : Ctx} {e : Entry} {s : State} (h : s.bs.pos + e.width cx ≤ s.bs.cap) :
    readEntry cx e s = { s with
      bs := { s.bs with pos := s.bs.pos + e.width cx }
      dec := { s.dec with mode := e.mode, len := e.runLength, code := e.code } } := by
  rw [readEntry, bsAdvance_inside h]

/-- An entry inside the stream and the frame. -/
structure EntryInside (cx : Ctx) (e : Entry) (s : State) : Prop where
  fmt : s.fmt? = some cx.fmt
  ctx : s.ctxOf cx.fmt = cx
  ok : s.bs.status = .ok
  inside : s.bs.pos + e.width cx ≤ s.bs.cap
  length : e.runLength ≤ s.dec.remaining
  room : cx.fmt.pixbytes (s.dec.outpix + e.runLength) ≤ (s.buf (.host s.job.dst)).size

section
variable {cx : Ctx} {e : Entry} {s : State}

theorem EntryInside.noFault (h : EntryInside cx e s) {slot : Option Nat} (hslot : ∀ i, slot = some i → i < cx.k) :
    entryFault cx slot (readEntry cx e s) = none := by
  rw [readEntry_inside h.inside]
  exact entryFault_none h.ok hslot h.length

theorem EntryInside.emit (h : EntryInside cx e s) (color : Color) (pal : List Color) :
    emitOrRefuse cx (entryResolved cx e color pal s) = .next (decEmit cx (entryResolved cx e color pal s)) :=
  emit_next (by rw [buf_congr (s := s) rfl]; exact h.room)

/-- A literal entry emits its own Color, pushed where `push` says so. -/
theorem EntryInside.literalEntry (h : EntryInside cx e s) (c : Word) (push : Bool) :
    literalEntry e c push s = .next (decEmit cx (entryResolved cx e (unpack cx.cfg.channelScale cx.fmt c)
      (if push then pushColor (unpack cx.cfg.channelScale cx.fmt c) (cx.slots s.pal) else s.pal) s)) := by
  have hresolve : resolveLiteral cx c push (readEntry cx e s) = entryResolved cx e (unpack cx.cfg.channelScale cx.fmt c)
      (if push then pushColor (unpack cx.cfg.channelScale cx.fmt c) (cx.slots s.pal) else s.pal) s := by
    rw [readEntry_inside h.inside]; rfl
  rw [Machine.literalEntry, withCtx_some h.fmt, h.ctx]
  simp only [h.noFault (slot := none) (by rintro i ⟨⟩), hresolve, h.emit]

/-- A palette entry emits the Color of its slot, which is promoted. -/
theorem EntryInside.paletteEntry (h : EntryInside cx e s) {i : Nat} {color : Color} (hi : i < cx.k)
    (hslot : (cx.slots s.pal)[i]? = some color) :
    paletteEntry e i s = .next (decEmit cx (entryResolved cx e color (promote i (cx.slots s.pal)) s)) := by
  have hresolve : ({ readEntry cx e s with
      dec := { (readEntry cx e s).dec with color := color }
      pal := promote i (cx.slots s.pal) } : State) = entryResolved cx e color (promote i (cx.slots s.pal)) s := by
    rw [readEntry_inside h.inside]; rfl
  rw [Machine.paletteEntry, withCtx_some h.fmt, h.ctx]
  simp only [h.noFault (slot := some i) (by rintro j ⟨⟩; exact hi), hslot, hresolve, h.emit]

/-- What the emission of an entry of a Color leaves. -/
theorem EntryInside.spec (h : EntryInside cx e s) (color : Color) (pal : List Color) :
    let t := decEmit cx (entryResolved cx e color pal s)
    t.withMem s = { s with
        bs := { s.bs with pos := s.bs.pos + e.width cx }
        dec := {
          remaining := s.dec.remaining - e.runLength
          outpix := s.dec.outpix + e.runLength
          mode := e.mode
          len := e.runLength
          code := e.code
          color := color }
        pal := pal }
      ∧ (∀ i, s.dec.outpix ≤ i → i < s.dec.outpix + e.runLength →
          pixRead s.cfg cx.fmt (t.buf (.host s.job.dst)) i = pack s.cfg.channelScale cx.fmt color)
      ∧ (∀ i, ¬(s.dec.outpix ≤ i ∧ i < s.dec.outpix + e.runLength) →
          pixRead s.cfg cx.fmt (t.buf (.host s.job.dst)) i = pixRead s.cfg cx.fmt (s.buf (.host s.job.dst)) i)
      ∧ s.keepsBytes t fun id off => id = .host s.job.dst ∧ pixelOffset cx.fmt s.dec.outpix ≤ off
          ∧ off < cx.fmt.pixbytes (s.dec.outpix + e.runLength) := by
  have hcfg : cx.cfg = s.cfg := by rw [← h.ctx]; rfl
  have hbuf (id : BufId) : (entryResolved cx e color pal s).buf id = s.buf id := buf_congr rfl id
  obtain ⟨hregs, hrun, hother, hkeeps⟩ := decEmit_spec cx (entryResolved cx e color pal s) hcfg (by
    rw [hbuf]; exact h.room)
  refine ⟨hregs, hrun, fun i hi => ?_, keepsBytes_trans (keepsBytes_of_buf_eq hbuf _) hkeeps⟩
  rw [← hbuf]
  exact hother i hi

end

/-- The literal entries: the word is the code, and the palette mode's two push. -/
theorem exec_literalEntry {e : Entry} {c : Word} {push : Bool} {s : State}
    (he : (e = .lit c ∧ push = true) ∨ (∃ n, e = .litr n c ∧ push = true) ∨ (e = .nlit c ∧ push = false)
      ∨ (∃ n, e = .nrun n c ∧ push = false)) :
    exec e.toInstr s = literalEntry e c push s ∧ e.mode = .literal ∧ e.code = c := by
  obtain ⟨rfl, rfl⟩ | ⟨n, rfl, rfl⟩ | ⟨rfl, rfl⟩ | ⟨n, rfl, rfl⟩ := he <;> exact ⟨rfl, rfl, rfl⟩

/-- Settles O38: the entry's word is `pack` of its Color, which is what `DEC.EMIT` stores. -/
theorem literalEntryResult : Obligations.LiteralEntryResult := by
  intro e c push f s he hf hc hok hin hlen hroom
  obtain ⟨hexec, hmode, hcode⟩ := exec_literalEntry (s := s) he
  have h : EntryInside (s.ctxOf f) e s := ⟨hf, rfl, hok, hin, hlen, hroom⟩
  obtain ⟨hregs, hrun, hother, hkeeps⟩ := h.spec (unpack s.cfg.channelScale f c)
    (if push then pushColor (unpack s.cfg.channelScale f c) s.slots else s.pal)
  refine ⟨_, hexec.trans (h.literalEntry c push), ?_, fun i h1 h2 => ?_, hother, hkeeps⟩
  · rw [hmode, hcode] at hregs
    exact hregs
  · exact (hrun i h1 h2).trans (pack_unpack _ f hc)

/-- Settles O39: the slot's Color is emitted and the slot promoted. -/
theorem paletteEntryResult : Obligations.PaletteEntryResult := by
  intro e i c f s he hf hi hslot hok hin hlen hroom
  have hexec : exec e.toInstr s = paletteEntry e i s ∧ e.mode = .palette ∧ e.code = BitVec.ofNat 32 i := by
    obtain rfl | ⟨n, rfl⟩ := he <;> exact ⟨rfl, rfl, rfl⟩
  obtain ⟨hexec, hmode, hcode⟩ := hexec
  have h : EntryInside (s.ctxOf f) e s := ⟨hf, rfl, hok, hin, hlen, hroom⟩
  obtain ⟨hregs, hrest⟩ := h.spec c (promote i s.slots)
  refine ⟨_, hexec.trans (h.paletteEntry hi hslot), ?_, hrest⟩
  rw [hmode, hcode] at hregs
  exact hregs

/-! ## The errors of an entry -/

theorem exec_reserved {f : Fmt} {s : State} (hf : s.fmt? = some f) (bits : List Bool) :
    exec (.reserved011 bits) s =
      .next (raiseInLoop (if (bsAdvance bits.length s).bs.status = .overflow then .truncated else .reservedPrefix) f
        (bsAdvance bits.length s)) := by
  show execReserved011 bits s = _
  rw [execReserved011, withCtx_some hf]
  split <;> rfl

/-- Settles O40: inside the stream the reading of the string sets no flag. -/
theorem reservedEntryResult : Obligations.ReservedEntryResult := by
  intro bits f s hf hok hin
  refine ⟨_, exec_reserved hf bits, ?_⟩
  rw [bsAdvance_inside hin, if_neg (by rw [hok]; rintro ⟨⟩)]
  exact ⟨rfl, resRegs_reports _ _ _ _⟩

/-- The index of a palette entry. -/
def entrySlot : Entry → Option Nat
  | .pal i => some i
  | .palr _ i => some i
  | .lit _ => none
  | .litr _ _ => none
  | .reserved011 _ => none
  | .nlit _ => none
  | .nrun _ _ => none

/-- The first check that fails is raised, once the fields are read. -/
theorem exec_entry_fault {e : Entry} {f : Fmt} {s : State} {cause : Cause} (hf : s.fmt? = some f)
    (he : ∀ bits, e ≠ .reserved011 bits)
    (hfault : entryFault (s.ctxOf f) (entrySlot e) (readEntry (s.ctxOf f) e s) = some cause) :
    exec e.toInstr s = .next (raiseInLoop cause f (readEntry (s.ctxOf f) e s)) := by
  have literal {c : Word} {push : Bool} (hslot : entrySlot e = none) :
      literalEntry e c push s = .next (raiseInLoop cause f (readEntry (s.ctxOf f) e s)) := by
    rw [hslot] at hfault
    simp only [literalEntry, withCtx_some hf, hfault]
    rfl
  have palette {i : Nat} (hslot : entrySlot e = some i) :
      paletteEntry e i s = .next (raiseInLoop cause f (readEntry (s.ctxOf f) e s)) := by
    rw [hslot] at hfault
    simp only [paletteEntry, withCtx_some hf, hfault]
    rfl
  cases e
  case lit c => exact literal rfl
  case litr n c => exact literal rfl
  case reserved011 bits => exact absurd rfl (he bits)
  case pal i => exact palette rfl
  case palr n i => exact palette rfl
  case nlit c => exact literal rfl
  case nrun n c => exact literal rfl

theorem entryFault_truncated {cx : Ctx} {slot : Option Nat} {s : State} (h : s.bs.status = .overflow) :
    entryFault cx slot s = some .truncated := if_pos h

theorem entryFault_badIndex {cx : Ctx} {i : Nat} {s : State} (hok : s.bs.status = .ok) (hi : cx.k ≤ i) :
    entryFault cx (some i) s = some .badIndex := by
  rw [entryFault, if_neg (by rw [hok]; rintro ⟨⟩), if_pos (by simpa using hi)]

theorem entryFault_runOverrun {cx : Ctx} {slot : Option Nat} {s : State} (hok : s.bs.status = .ok)
    (hslot : ∀ i, slot = some i → i < cx.k) (hlen : s.dec.remaining < s.dec.len) :
    entryFault cx slot s = some .runOverrun := by
  have hany : (slot.any fun i => decide (cx.k ≤ i)) = false := by
    cases slot with
    | none => rfl
    | some i => exact decide_eq_false (Nat.not_le.mpr (hslot i rfl))
  rw [entryFault, if_neg (by rw [hok]; rintro ⟨⟩), if_neg (by rw [hany]; exact Bool.false_ne_true), if_pos hlen]

theorem entrySlot_eq_some {e : Entry} {i : Nat} : entrySlot e = some i ↔ ∃ n, e = .pal i ∨ e = .palr n i := by
  cases e <;> simp [entrySlot]

/-- Settles O41: the reading of the entry sets the flag where it passes the capacity; else the checks come in their
order. -/
theorem entryErrors : Obligations.EntryErrors := by
  intro e f s hf hpos hwidth badIndex raised stop
  refine ⟨fun hpast => ?_, fun hok hin hbad => ?_, fun hok hin hbad he hlen => ?_⟩
  · cases e
    case reserved011 bits =>
      have hbits : (Entry.reserved011 bits).width (s.ctxOf f) = bits.length := fieldsWidth_stringFields bits
      rw [hbits] at hwidth
      replace hpast : s.bs.cap < s.bs.pos + bits.length := hbits ▸ hpast
      refine ⟨_, exec_reserved hf bits, ?_⟩
      rw [bsAdvance_past hwidth hpast]
      exact ⟨resRegs_reports _ _ _ _, rfl, rfl, rfl, rfl, rfl, rfl, rfl⟩
    all_goals
      have hread := bsAdvance_past hwidth hpast
      refine ⟨_, exec_entry_fault hf (by rintro bits ⟨⟩) (entryFault_truncated (by rw [readEntry, hread])), ?_⟩
      rw [readEntry, hread]
      exact ⟨resRegs_reports _ _ _ _, rfl, rfl, rfl, rfl, rfl, rfl, rfl⟩
  · obtain ⟨i, n, hslot, hi⟩ := hbad
    have hread := readEntry_inside (cx := s.ctxOf f) hin
    refine ⟨_, exec_entry_fault (cause := .badIndex) hf (by obtain rfl | rfl := hslot <;> rintro bits ⟨⟩) ?_, ?_⟩
    · rw [entrySlot_eq_some.mpr ⟨n, hslot⟩, hread]
      exact entryFault_badIndex hok hi
    · rw [hread]
      exact ⟨resRegs_reports _ _ _ _, rfl, rfl, rfl, rfl, rfl, rfl, rfl⟩
  · have hread := readEntry_inside (cx := s.ctxOf f) hin
    refine ⟨_, exec_entry_fault (cause := .runOverrun) hf he ?_, ?_⟩
    · rw [hread]
      refine entryFault_runOverrun hok (fun i hi => ?_) hlen
      obtain ⟨n, hi⟩ := entrySlot_eq_some.mp hi
      exact Nat.not_le.mp fun hle => hbad ⟨i, n, hi, hle⟩
    · rw [hread]
      exact ⟨resRegs_reports _ _ _ _, rfl, rfl, rfl, rfl, rfl, rfl, rfl⟩

end Sys2Proof.Proofs
end

section
/-! PROOFS. `DEC.PREFIX` (44_decoder.md R232): the kind by the leading bits, and its two errors. -/

namespace Sys2Proof.Proofs

open Sys2Proof.Machine Sys2Proof.Laws

/-- A kind that raises no error is returned, with a format or without. -/
theorem exec_decPrefix_kind {s : State} {kind : EntryKind} {n : Nat} (hb : s.bsBound = true)
    (hlead : leadKind s.anyCtx s = (kind, n)) (hcause : prefixCause kind (bsAdvance n s) = none) :
    exec .decPrefix s = .next { bsAdvance n s with ret := .kind kind } := by
  show execDecPrefix s = _
  have hfree : prefixDispatches s = false := by simp [prefixDispatches, hlead, hcause]
  rw [execDecPrefix, if_pos hb, hfree, dispatching_free, hlead]
  exact congrArg _ (prefixOutcome_format hcause _)

/-- An error is raised, with the bytes of pixels written so far, where there is a format. -/
theorem exec_decPrefix_raise {s : State} {f : Fmt} {kind : EntryKind} {n : Nat} {cause : Cause} (hb : s.bsBound = true)
    (hf : s.fmt? = some f) (hlead : leadKind s.anyCtx s = (kind, n))
    (hcause : prefixCause kind (bsAdvance n s) = some cause) :
    exec .decPrefix s = .next (raiseInLoop cause f (bsAdvance n s)) := by
  show execDecPrefix s = _
  have hlead' : leadKind (s.ctxOf f) s = (kind, n) := (leadKind_format s f _).trans hlead
  rw [execDecPrefix, if_pos hb, dispatching_some hf, hlead', prefixOutcome, hcause]
  rfl

/-- Where there is none, an error stops. -/
theorem exec_decPrefix_stop {s : State} {kind : EntryKind} {n : Nat} {cause : Cause} (hb : s.bsBound = true)
    (hf : s.fmt? = none) (hlead : leadKind s.anyCtx s = (kind, n))
    (hcause : prefixCause kind (bsAdvance n s) = some cause) : exec .decPrefix s = .fault .formatDispatch := by
  show execDecPrefix s = _
  have hreached : prefixDispatches s = true := by simp [prefixDispatches, hlead, hcause]
  rw [execDecPrefix, if_pos hb, hreached, dispatching_none hf]

/-- In plain mode the first bit says the kind. -/
theorem leadKind_plain {cx : Ctx} (hp : cx.palEn = false) (hcodes : cx.cfg.plainCodes = .lit0Run1) (s : State) :
    leadKind cx s = (if s.streamBit s.bs.pos then .nrun else .nlit, 1) := by
  have hk : cx.kindOf (s.streamBits s.bs.pos cx.leadWindow) =
      some (if s.streamBit s.bs.pos then .nrun else .nlit, 1) := by
    simp only [Ctx.kindOf, hp, Bool.false_eq_true, if_false, Ctx.leadWindow, State.streamBits, hcodes, PlainCodes.runBit]
  rw [leadKind, hk, Option.getD_some]

/-- In palette mode with the default strings the first two bits, or three, say the kind. -/
theorem leadKind_default {cx : Ctx} (hp : cx.palEn = true) (hcodes : cx.cfg.entryCodes = Config.default.entryCodes)
    (s : State) :
    leadKind cx s = match s.streamBit s.bs.pos, s.streamBit (s.bs.pos + 1), s.streamBit (s.bs.pos + 2) with
      | false, false, _ => (.lit, 2)
      | true, false, _ => (.pal, 2)
      | true, true, _ => (.palr, 2)
      | false, true, false => (.litr, 3)
      | false, true, true => (.reserved, 3) := by
  have hw : cx.leadWindow = 4 := by rw [Ctx.leadWindow, hcodes]; rfl
  rw [leadKind, hw]
  simp only [Ctx.kindOf, hp, if_true, hcodes, State.streamBits, Nat.add_assoc]
  generalize s.streamBit (s.bs.pos + (1 + (1 + 1))) = b3
  cases s.streamBit s.bs.pos <;> cases s.streamBit (s.bs.pos + 1) <;> cases s.streamBit (s.bs.pos + (1 + 1)) <;> 
    cases b3 <;> decide

/-- Settles O36: the bits inside the capacity are the buffer's, and a third bit past it raises `TRUNCATED`, whatever kind
it makes. -/
theorem decPrefixResult : Obligations.DecPrefixResult := by
  intro s hb b read
  have bit {k : Nat} (hk : s.bs.pos + k < s.bs.cap) : s.streamBit (s.bs.pos + k) = b k := streamBit_inside hk
  refine ⟨fun hp hcodes hin => ?plain, fun hp hcodes hin => ?_, fun ⟨f, hf⟩ => ?_⟩
  case plain =>
    have hlead := leadKind_plain (cx := s.anyCtx) hp hcodes s
    rw [show s.streamBit s.bs.pos = b 0 from bit (k := 0) (by omega)] at hlead
    have hcause : prefixCause (if b 0 then .nrun else .nlit) (bsAdvance 1 s) = none := by split <;> rfl
    rw [exec_decPrefix_kind hb hlead hcause, bsAdvance_inside hin]
  · have hlead := leadKind_default (cx := s.anyCtx) hp hcodes s
    rw [show s.streamBit s.bs.pos = b 0 from bit (k := 0) (by omega), bit (k := 1) (by omega)] at hlead
    have two {kind : EntryKind} (hl : leadKind s.anyCtx s = (kind, 2))
        (hc : prefixCause kind (bsAdvance 2 s) = none) : exec .decPrefix s = read 2 kind := by
      rw [exec_decPrefix_kind hb hl hc, bsAdvance_inside hin]
    have truncated (h0 : b 0 = false) (h1 : b 1 = true) (hcap : s.bs.cap = s.bs.pos + 2) :
        ∃ kind, leadKind s.anyCtx s = (kind, 3) ∧ prefixCause kind (bsAdvance 3 s) = some .truncated := by
      have hover : (bsAdvance 3 s).bs.status = .overflow := by rw [bsAdvance_past (by decide) (by omega)]
      rw [h0, h1] at hlead
      cases h2 : s.streamBit (s.bs.pos + 2) <;> rw [h2] at hlead <;> exact ⟨_, hlead, if_pos hover⟩
    refine ⟨fun h0 h1 => ?lit, fun h0 h1 => ?pal, fun h0 h1 => ?palr, fun h0 h1 hin3 hok => ⟨fun h2 => ?litr, ?reserved⟩,
      fun h0 h1 hcap f hf => ?truncated, fun h0 h1 h hf => ?stops⟩
    case lit => exact two (by rw [hlead, h0, h1]) rfl
    case pal => exact two (by rw [hlead, h0, h1]) rfl
    case palr => exact two (by rw [hlead, h0, h1]) rfl
    case litr =>
      rw [bit (k := 2) (by omega), h0, h1, h2] at hlead
      have hadv : bsAdvance 3 s = { s with bs := { s.bs with pos := s.bs.pos + 3 } } := bsAdvance_inside hin3
      rw [exec_decPrefix_kind hb hlead (if_neg (by rw [hadv, hok]; rintro ⟨⟩)), hadv]
    case reserved =>
      intro h2 f hf
      rw [bit (k := 2) (by omega), h0, h1, h2] at hlead
      have hadv : bsAdvance 3 s = { s with bs := { s.bs with pos := s.bs.pos + 3 } } := bsAdvance_inside hin3
      refine ⟨_, exec_decPrefix_raise (cause := .reservedPrefix) hb hf hlead (if_neg (by rw [hadv, hok]; rintro ⟨⟩)), ?_⟩
      rw [hadv]
      exact ⟨rfl, resRegs_reports _ _ _ _⟩
    case truncated =>
      obtain ⟨kind, hl, hc⟩ := truncated h0 h1 hcap
      refine ⟨_, exec_decPrefix_raise hb hf hl hc, ?_⟩
      rw [bsAdvance_past (by decide) (by omega)]
      exact ⟨rfl, resRegs_reports _ _ _ _⟩
    case stops =>
      obtain hcap | ⟨hin3, h2⟩ := h
      · obtain ⟨kind, hl, hc⟩ := truncated h0 h1 hcap
        exact exec_decPrefix_stop hb hf hl hc
      · rw [bit (k := 2) (by omega), h0, h1, h2] at hlead
        cases hs : (bsAdvance 3 s).bs.status
        · exact exec_decPrefix_stop (cause := .reservedPrefix) hb hf hlead (if_neg (by rw [hs]; rintro ⟨⟩))
        · exact exec_decPrefix_stop (cause := .truncated) hb hf hlead (if_pos hs)
  · exact ⟨_, (if_pos hb).trans (dispatching_some hf _ _)⟩

end Sys2Proof.Proofs
end

section
/-! PROOFS. The header codec (45_header.md R261 to R264): the header rows, `HDR.DECODE`, `HDR.ENCODE` and the round trip. -/

namespace Sys2Proof.Proofs

open Sys2Proof.Machine Sys2Proof.Laws

/-! ## Headers read -/

/-- Settles O42: inside the stream the reads and skips of a header are 64 bits. -/
theorem headerLayoutResult : Obligations.HeaderLayoutResult := by
  intro h i s hi hin
  have hexec : ∃ rsv, exec i s = .next (fillCtrl h (hdrWalk rsv s)) := by
    obtain rfl | rfl := hi
    · exact ⟨.three, rfl⟩
    · exact ⟨.four, rfl⟩
  obtain ⟨rsv, hexec⟩ := hexec
  refine ⟨_, hexec, ?_⟩
  rw [hdrWalk_inside rsv hin]
  exact ⟨rfl, dim_toNat _, dim_toNat _⟩

/-- A header row that stands in the layout of the configuration. -/
theorem exec_headerInstr (rsv : HdrRsv0) (h : Header) (s : State) :
    exec (headerInstr rsv h) s = .next (fillCtrl h (hdrWalk rsv s)) := by cases rsv <;> rfl

theorem exec_hdrDecode {s : State} (hb : s.bsBound = true) : exec .hdrDecode s = .next (hdrDecode s) := if_pos hb

/-- `HDR.DECODE` inside the stream fills `CTRL` from the header that is fetched. -/
theorem exec_hdrDecode_inside {s : State} (hb : s.bsBound = true) (hin : s.bs.pos + 64 ≤ s.bs.cap) :
    exec .hdrDecode s = .next (fillCtrl (fetchHeader s) (hdrWalk s.cfg.hdrRsv0 s)) := by
  rw [exec_hdrDecode hb, hdrDecode_inside hin, fetchHeader_eq]

/-- Settles O43: both fill `CTRL` from the values at the cursor. -/
theorem hdrDecodeResult : Obligations.HdrDecodeResult := by
  intro s hb
  refine ⟨fun hin => ?_, _, exec_hdrDecode hb⟩
  have hread := decodeHeader_stream s
  rw [← fetchHeader_eq, streamBits_inside hin] at hread
  exact ⟨_, _, hread, exec_hdrDecode_inside hb hin, exec_headerInstr _ _ _⟩

/-! ## Headers written -/

/-- Steps of `HDR.ENCODE` at the cursor: the registers, the bytes they leave, and over zeros the bits of their fields. -/
structure StepsWritten (fs : List Field) (s t : State) : Prop where
  regs : t.withMem s = { s with bs := { s.bs with pos := s.bs.pos + fieldsWidth fs } }
  bytes : s.keepsBytes t (bytesOfBitsFrom s.bs.buf s.bs.pos (fieldsWidth fs))
  outside : ∀ q, ¬(s.bs.pos ≤ q ∧ q < s.bs.pos + fieldsWidth fs) →
    (t.buf s.bs.buf).bit s.cfg.bitOrder q = (s.buf s.bs.buf).bit s.cfg.bitOrder q
  bits : (∀ k, k < fieldsWidth fs → (s.buf s.bs.buf).bit s.cfg.bitOrder (s.bs.pos + k) = false) →
    (t.buf s.bs.buf).bitList s.cfg.bitOrder s.bs.pos (fieldsWidth fs) = fieldsBits s.cfg.bitOrder fs

theorem StepsWritten.cfg {fs : List Field} {s t : State} (h : StepsWritten fs s t) : t.cfg = s.cfg :=
  (congrArg State.cfg h.regs :)

theorem StepsWritten.bs {fs : List Field} {s t : State} (h : StepsWritten fs s t) :
    t.bs = { s.bs with pos := s.bs.pos + fieldsWidth fs } := (congrArg State.bs h.regs :)

theorem StepsWritten.bound {fs : List Field} {s t : State} (h : StepsWritten fs s t) (hb : s.bsBound = true) :
    t.bsBound = true := by
  rw [bsBound_iff, h.bs, h.bytes.1]
  exact (bsBound_iff s).mp hb

theorem StepsWritten.nil (s : State) : StepsWritten [] s s :=
  ⟨rfl, keepsBytes_of_buf_eq (fun _ => rfl) _, fun _ _ => rfl, fun _ => rfl⟩

theorem StepsWritten.trans {fs gs : List Field} {s t u : State} (a : StepsWritten fs s t) (b : StepsWritten gs t u) :
    StepsWritten (fs ++ gs) s u := by
  obtain ⟨hbregs, hbbytes, hbout, hbbits⟩ := b
  rw [a.bs] at hbbytes hbout hbbits
  rw [a.cfg] at hbout hbbits
  simp only at hbbytes hbout hbbits
  refine ⟨?regs, ?bytes, fun q hq => ?outside, fun hzero => ?bits⟩ <;> rw [fieldsWidth_append] at *
  case regs =>
    calc u.withMem s = (u.withMem t).withMem s := rfl
      _ = { t.withMem s with bs := { t.bs with pos := t.bs.pos + fieldsWidth gs } } := by rw [hbregs]; rfl
      _ = _ := by rw [a.regs, a.bs, ← Nat.add_assoc]
  case bytes =>
    refine keepsBytes_trans (keepsBytes_mono ?_ a.bytes) (keepsBytes_mono ?_ hbbytes)
    · rintro id off ⟨rfl, h1, h2⟩
      exact ⟨rfl, h1, by omega⟩
    · rintro id off ⟨rfl, h1, h2⟩
      exact ⟨rfl, by omega, by omega⟩
  case outside => rw [hbout q (by omega), a.outside q (by omega)]
  case bits =>
    have hfirst := a.bits fun k hk => hzero k (by omega)
    have hrest := hbbits fun k hk => by
      rw [a.outside _ (by omega), Nat.add_assoc]
      exact hzero _ (by omega)
    rw [bitList_add, hrest, fieldsBits_append, ← hfirst]
    congr 1
    exact bitList_congr fun k hk => hbout _ (by omega)

theorem bsWrite_written {s : State} (hb : s.bsBound = true) (v : Nat) {n : Nat} (hfit : s.bs.pos + n ≤ s.bs.cap) :
    StepsWritten [(v, n)] s (bsWrite v n s) := by
  rw [bsWrite_eq_fields]
  refine ⟨?_, writeFields_keepsBytes hfit hb, fun q => writeFields_bit_other hfit hb,
    fun _ => writeFields_bitList hfit hb⟩
  rw [bsWriteFields_fits hfit hb]
  simp [State.withMem]

theorem bsSkip_written {s : State} {n : Nat} (hfit : s.bs.pos + n ≤ s.bs.cap) : StepsWritten [(0, n)] s (bsSkip n s) := by
  rw [bsSkip_inside hfit]
  refine ⟨rfl, keepsBytes_of_buf_eq (fun id => buf_congr rfl id) _, fun q _ => by rw [buf_congr rfl], fun hzero => ?_⟩
  rw [buf_congr (s := s) rfl, fieldsBits, fieldsBits, List.append_nil, fieldBits_zero]
  refine List.ext_getElem (by simp [fieldsWidth]) fun k hk _ => ?_
  rw [bitList_getElem, List.getElem_replicate]
  exact hzero k (by rwa [bitList_length] at hk)

theorem hdrStep_written {s : State} (hb : s.bsBound = true) {st : HdrStep} (hfit : s.bs.pos + st.2 ≤ s.bs.cap) :
    StepsWritten [stepField st] s (hdrStep st s) := by
  obtain ⟨v | v, n⟩ := st
  · exact bsSkip_written hfit
  · exact bsWrite_written hb v hfit

/-- Steps inside the stream leave their fields, and no skip among them starts past the capacity. -/
theorem runHdrSteps_written {steps : List HdrStep} {s : State} (hb : s.bsBound = true)
    (hfit : s.bs.pos + fieldsWidth (steps.map stepField) ≤ s.bs.cap) :
    StepsWritten (steps.map stepField) s (runHdrSteps steps s) ∧ hdrSkipsPastCapacity steps s = false := by
  induction steps generalizing s with
  | nil => exact ⟨.nil s, rfl⟩
  | cons st rest ih =>
    have hwidth : fieldsWidth ((st :: rest).map stepField) = st.2 + fieldsWidth (rest.map stepField) := rfl
    have hstep := hdrStep_written (st := st) hb (by omega)
    obtain ⟨hrest, hskips⟩ := ih (hstep.bound hb) (by
      rw [hstep.bs]
      show s.bs.pos + (st.2 + 0) + _ ≤ s.bs.cap
      omega)
    refine ⟨hstep.trans hrest, ?_⟩
    rw [hdrSkipsPastCapacity, hskips, decide_eq_false (by omega), Bool.and_false, Bool.or_false]

theorem hdrFields_width (rsv : HdrRsv0) (h : Header) : fieldsWidth (h.fields rsv) = 64 := by cases rsv <;> rfl

/-- `HDR.ENCODE` inside the stream leaves the fields of the header that `CTRL` describes. -/
theorem exec_hdrEncode {s : State} (hro : s.bs.ro = false) (hb : s.bsBound = true) (hfit : s.bs.pos + 64 ≤ s.bs.cap) :
    exec .hdrEncode s = .next (hdrEncode s)
      ∧ StepsWritten ((headerOfCtrl s.ctrl).fields s.cfg.hdrRsv0) s (hdrEncode s) := by
  have hwidth := hdrFields_width s.cfg.hdrRsv0 (headerOfCtrl s.ctrl)
  obtain ⟨hwritten, hskips⟩ := runHdrSteps_written (steps := hdrSteps s.cfg.hdrRsv0 (headerOfCtrl s.ctrl)) hb (by
    show s.bs.pos + fieldsWidth ((headerOfCtrl s.ctrl).fields s.cfg.hdrRsv0) ≤ s.bs.cap
    rwa [hwidth])
  refine ⟨?_, hwritten⟩
  show execHdrEncode s = _
  rw [execHdrEncode, if_neg (by rw [hro]; exact Bool.false_ne_true), if_neg (by rw [hb]; rintro ⟨⟩),
    if_neg (by rw [hskips]; exact Bool.false_ne_true)]

/-- Settles O44: the header is the one that `headerOfCtrl` makes. -/
theorem hdrEncodeResult : Obligations.HdrEncodeResult := by
  intro s hro hb hfit
  obtain ⟨hexec, hwritten⟩ := exec_hdrEncode hro hb hfit
  obtain ⟨hregs, hbytes, -, hbits⟩ := hwritten
  rw [hdrFields_width] at hregs hbytes hbits
  refine ⟨_, headerOfCtrl s.ctrl, hexec, hregs, hbytes, fun hzero => hbits fun k hk => ?_, rfl, rfl, rfl, rfl, rfl,
    dimM1_toNat _, dimM1_toNat _⟩
  have hk' : k < ((s.buf s.bs.buf).bitList s.cfg.bitOrder s.bs.pos 64).length := by rwa [bitList_length]
  rw [← bitList_getElem _ _ hk']
  simp only [hzero, List.getElem_replicate]

/-! ## The round trip -/

/-- A dimension that a header can hold comes back. -/
theorem dim_dimM1 (open0 : BitVec 16) {dim : BitVec 17} (h1 : 1 ≤ dim.toNat) (h2 : dim.toNat ≤ 65536) :
    (dimM1 open0 dim).setWidth 17 + 1 = dim := by
  apply BitVec.eq_of_toNat_eq
  rw [dim_toNat, dimM1_toNat open0 (by rintro rfl; simp at h1)]
  omega

theorem ctrlOfHeader_headerOfCtrl {c d : CtrlRegs} (hw1 : 1 ≤ c.width.toNat) (hw2 : c.width.toNat ≤ 65536)
    (hh1 : 1 ≤ c.height.toNat) (hh2 : c.height.toNat ≤ 65536) :
    ctrlOfHeader (headerOfCtrl c) d = { c with runLenBits := d.runLenBits, zeroize := d.zeroize } := by
  simp only [ctrlOfHeader, headerOfCtrl, dim_dimM1 _ hw1 hw2, dim_dimM1 _ hh1 hh2]

/-- A buffer that a writable `BS.INIT` takes is bound by a read-only one of the same size. -/
theorem initFits_readOnly {id : BufId} {size : Nat} {s : State} (h : size ≤ (s.buf id).size) :
    initFits id size true s = true := by
  cases id with
  | host n => exact decide_eq_true h
  | scratch => exact decide_eq_true h
  | lc => exact decide_eq_true h

/-- Settles O45: the 64 bits written over the zeros of the fresh buffer are read again as the same header. -/
theorem headerRoundTrip : Obligations.HeaderRoundTrip := by
  intro id size c s hsize hinit hw1 hw2 hh1 hh2
  have hbs := bsInit_bs id size false s
  have hbound : (bsInit id size false s).bsBound = true := (bsInit_bsGood hinit).1
  obtain ⟨hexec, hwritten⟩ := exec_hdrEncode (s := bsInit id size false s) (by rw [hbs]) hbound (by
    rw [hbs]
    show 0 + 64 ≤ size * 8
    omega)
  have hu := hwritten.bound hbound
  have hubs := hwritten.bs
  have hucfg : (hdrEncode (bsInit id size false s)).cfg = s.cfg := hwritten.cfg.trans (bsInit_cfg _ _ _ _)
  generalize hudef : hdrEncode (bsInit id size false s) = u at *
  rw [bsBound_iff, hubs, hbs] at hu
  have hfits : initFits id size true { u with ctrl := c } = true := initFits_readOnly (by
    rw [buf_congr (s := u) rfl]
    simp only at hu
    omega)
  have hv := bsInit_readOnly id size { u with ctrl := c }
  have hvbound : (bsInit id size true { u with ctrl := c }).bsBound = true := (bsInit_bsGood hfits).1
  refine ⟨_, u, _, _, exec_bsInit hinit, hexec, exec_bsInit hfits, exec_hdrDecode_inside hvbound (by
    rw [hv]
    show 0 + 64 ≤ size * 8
    omega), ?_⟩
  have hfetch : fetchHeader (bsInit id size true { u with ctrl := c }) = headerOfCtrl s.ctrl := by
    have hbits := hwritten.bits fun k hk => ?_
    · rw [hdrFields_width, hbs, bsInit_cfg, bsInit_ctrl] at hbits
      refine fetchHeader_of_decode (rest := []) ?_
      rw [streamBits_inside (by rw [hv]; show 0 + 64 ≤ size * 8; omega), hv, buf_congr (s := u) rfl]
      simp only [hucfg]
      rw [hbits]
      have := decodeHeader_encodeHeader s.cfg.hdrRsv0 s.cfg.bitOrder (headerOfCtrl s.ctrl) []
      rwa [List.append_nil] at this
    · rw [hdrFields_width] at hk
      rw [hbs, bsInit_writable_buf, bsInit_cfg, Buffer.bit, read_initBuf_same hinit (by simp only; omega)]
      exact BitVec.getLsbD_zero
  show ctrlOfHeader _ (hdrWalk _ _).ctrl = _
  rw [hfetch, ctrlOfHeader_headerOfCtrl hw1 hw2 hh1 hh2]
  rw [hdrWalk_inside _ (by rw [hv]; show 0 + 64 ≤ size * 8; omega), hv]
  rfl

end Sys2Proof.Proofs
end

section
/-! PROOFS. What every operation leaves of the stream and the memories that starts no stream (10_state.md R24, R26): the
canonical form, the sizes of the buffers, and a stream that only goes forward. -/

namespace Sys2Proof.Proofs

open Sys2Proof.Machine Sys2Proof.Laws

/-- What an access leaves that starts no stream. A cursor above the capacity may come back to it, no further (log 14). -/
structure Tame (s t : State) : Prop where
  cfg : t.cfg = s.cfg
  mem : s.memWf → t.memWf
  size : ∀ id, (t.buf id).size = (s.buf id).size
  good : s.bsGood → t.bsGood
  phase : s.phase = .idle → t.phase = .idle
  status : s.bs.status = .overflow → t.bs.status = .overflow
  pos : min s.bs.pos s.bs.cap ≤ t.bs.pos
  bsbuf : t.bs.buf = s.bs.buf
  bscap : t.bs.cap = s.bs.cap
  bsro : t.bs.ro = s.bs.ro

theorem Tame.trans {s t u : State} (a : Tame s t) (b : Tame t u) : Tame s u where
  cfg := b.cfg.trans a.cfg
  mem := b.mem ∘ a.mem
  size id := (b.size id).trans (a.size id)
  good := b.good ∘ a.good
  phase := b.phase ∘ a.phase
  status := b.status ∘ a.status
  pos := by
    have ha := a.pos
    have hb := b.pos
    rw [a.bscap] at hb
    omega
  bsbuf := b.bsbuf.trans a.bsbuf
  bscap := b.bscap.trans a.bscap
  bsro := b.bsro.trans a.bsro

/-- Registers other than those of the stream. -/
theorem Tame.of_regs {s t : State} (hcfg : t.cfg = s.cfg) (hmem : t = t.withMem s) (hbs : t.bs = s.bs)
    (hphase : s.phase = .idle → t.phase = .idle) : Tame s t where
  cfg := hcfg
  mem := memWf_congr hmem
  size id := by rw [buf_congr hmem]
  good := bsGood_congr hbs (by rw [buf_congr hmem])
  phase := hphase
  status := by rw [hbs]; exact id
  pos := by rw [hbs]; exact Nat.min_le_left _ _
  bsbuf := by rw [hbs]
  bscap := by rw [hbs]
  bsro := by rw [hbs]

theorem Tame.refl (s : State) : Tame s s := .of_regs rfl rfl rfl id

theorem Tame.setBuf {s : State} {id : BufId} {b : Buffer} (hsize : b.size = (s.buf id).size)
    (hwf : (s.buf id).wf = true → b.wf = true) : Tame s (s.setBuf id b) where
  cfg := setBuf_cfg _ _ _
  mem h := memWf_setBuf h (hwf ((memWf_iff s).mp h id))
  size := size_setBuf s hsize
  good := bsGood_congr (setBuf_bs _ _ _) (size_setBuf s hsize _)
  phase := by rw [setBuf_phase]; exact fun h => h
  status := by rw [setBuf_bs]; exact fun h => h
  pos := by rw [setBuf_bs]; exact Nat.min_le_left _ _
  bsbuf := by rw [setBuf_bs]
  bscap := by rw [setBuf_bs]
  bsro := by rw [setBuf_bs]

theorem Tame.setPixel (f : Fmt) (s : State) (id : BufId) (i : Nat) (w : Word) :
    Tame s (s.setBuf id (pixWrite s.cfg f (s.buf id) i w)) :=
  .setBuf (pixWrite_size _ _ _ _ _) fun h => pixWrite_wf _ _ h _ _

theorem Tame.bsAdvance (n : Nat) (s : State) : Tame s (bsAdvance n s) where
  cfg := bsAdvance_cfg _ _
  mem h := (memWf_iff _).mpr fun id => by rw [bsAdvance_buf]; exact (memWf_iff s).mp h id
  size id := by rw [bsAdvance_buf]
  good := bsAdvance_bsGood n
  phase := by rw [bsAdvance_phase]; exact id
  status h := by rw [bsAdvance_regs]; simp only [h, ite_self]
  pos := by rw [bsAdvance_regs]; simp only; split <;> omega
  bsbuf := by rw [bsAdvance_regs]
  bscap := by rw [bsAdvance_regs]
  bsro := by rw [bsAdvance_regs]

theorem Tame.bsSkip (n : Nat) (s : State) : Tame s (bsSkip n s) where
  cfg := rfl
  mem := id
  size _ := rfl
  good := bsSkip_bsGood n
  phase := id
  status := id
  pos := by show _ ≤ min (s.bs.pos + n) s.bs.cap; omega
  bsbuf := rfl
  bscap := rfl
  bsro := rfl

theorem Tame.bsWrite {s : State} (hro : s.bs.ro = false) (v n : Nat) : Tame s (bsWrite v n s) where
  cfg := bsWrite_cfg _ _ _
  mem := bsWrite_memWf v n
  size := bsWrite_size v n s
  good := bsWrite_bsGood v n hro
  phase := by rw [bsWrite_phase]; exact id
  status h := by rw [bsWrite_bs]; simp only [h, statusAfter, ite_self]
  pos := by rw [bsWrite_bs]; simp only; omega
  bsbuf := by rw [bsWrite_bs]
  bscap := by rw [bsWrite_bs]
  bsro := by rw [bsWrite_bs]

theorem Tame.bsWriteFields {s : State} (hro : s.bs.ro = false) (fs : List Field) : Tame s (bsWriteFields fs s) := by
  induction fs generalizing s with
  | nil => exact .refl s
  | cons f rest ih =>
    have hfirst := Tame.bsWrite hro f.1 f.2
    exact hfirst.trans (ih (hfirst.bsro.trans hro))

/-! ## The header codec -/

theorem Tame.fillCtrl (h : Header) (s : State) : Tame s (fillCtrl h s) :=
  .of_regs rfl rfl rfl fun hidle => by
    show (if s.phase = .header then _ else s.phase) = _
    rw [hidle]
    rfl

theorem Tame.hdrWalk (rsv : HdrRsv0) (s : State) : Tame s (hdrWalk rsv s) :=
  (Tame.bsAdvance 8 s).trans <| (Tame.bsAdvance 4 _).trans <| (Tame.bsSkip _ _).trans <| (Tame.bsAdvance 8 _).trans <|
    (Tame.bsAdvance 2 _).trans <| (Tame.bsSkip 2 _).trans <| (Tame.bsAdvance 2 _).trans <| (Tame.bsSkip 2 _).trans <|
      (Tame.bsAdvance 16 _).trans <| (Tame.bsAdvance 16 _).trans <| Tame.bsSkip _ _

theorem Tame.hdrDecode (s : State) : Tame s (hdrDecode s) := (Tame.hdrWalk s.cfg.hdrRsv0 s).trans (.fillCtrl _ _)

theorem Tame.runHdrSteps {s : State} (hro : s.bs.ro = false) (steps : List HdrStep) : Tame s (runHdrSteps steps s) := by
  induction steps generalizing s with
  | nil => exact .refl s
  | cons st rest ih =>
    have hstep : Tame s (hdrStep st s) := by
      obtain ⟨v | v, n⟩ := st
      · exact .bsSkip n s
      · exact .bsWrite hro v n
    exact hstep.trans (ih (hstep.bsro.trans hro))

/-! ## The encoder -/

theorem Tame.encStartRun (cx : Ctx) (c : Color) (s : State) : Tame s (encStartRun cx c s) := by
  unfold Machine.encStartRun
  split
  · split <;> exact .of_regs rfl rfl rfl id
  · exact .of_regs rfl rfl rfl id

theorem Tame.encFlush {s : State} (hro : s.bs.ro = false) (cx : Ctx) : Tame s (encFlush cx s) := .bsWriteFields hro _

theorem Tame.encPixel {cx : Ctx} {c : Color} {s : State}
    (hro : (s.run.valid && runEnds cx c s) = true → s.bs.ro = false) : Tame s (encPixel cx c s) := by
  unfold Machine.encPixel
  split
  · exact .encStartRun cx c s
  next hvalid =>
    split
    next hends => exact (Tame.encFlush (hro (by simpa [hends] using hvalid)) cx).trans (.encStartRun cx c _)
    · exact .of_regs rfl rfl rfl id

theorem Tame.encScan {s : State} (hro : s.bs.ro = false) (cx : Ctx) (canvas : BufId) (n : Nat) :
    Tame s (encScan cx canvas n s) := by
  induction n generalizing s with
  | zero => exact .refl s
  | succ n ih =>
    have hprep : Tame s (scanPrepped cx canvas s) := .setPixel _ s canvas _ _
    have hstep : Tame s (encScanStep cx canvas s) := by
      rw [encScanStep_eq]
      exact hprep.trans ((Tame.encPixel fun _ => hprep.bsro.trans hro).trans (.of_regs rfl rfl rfl id))
    exact hstep.trans (ih (hstep.bsro.trans hro))

theorem Tame.encFinish (output : HostBuf) (outCap : Nat) (s : State) : Tame s (encFinish output outCap s) := by
  unfold Machine.encFinish
  split
  · exact (Tame.setBuf (writeBytes_size _ _ _) fun h => writeBytes_wf _ h _).trans (.of_regs rfl rfl rfl id)
  · exact .of_regs rfl rfl rfl id

/-- An emission that is not refused writes to no read-only stream. -/
theorem ro_of_not_refused {cx : Ctx} {n : Nat} {s : State} (h : emissionRefusal cx n s = none) : s.bs.ro = false := by
  unfold emissionRefusal at h
  split at h
  · cases h
  · split at h
    · cases h
    next hro => exact Bool.eq_false_of_not_eq_true hro

/-! ## The decoder -/

theorem Tame.raiseInLoop (cause : Cause) (f : Fmt) (s : State) : Tame s (raiseInLoop cause f s) :=
  .of_regs rfl rfl rfl fun _ => rfl

theorem Tame.decEmit (cx : Ctx) (s : State) : Tame s (decEmit cx s) :=
  (Tame.setBuf (pixFill_size _ _ _ _ _ _) fun h => pixFill_wf _ _ _ h _ _).trans (.of_regs rfl rfl rfl id)

theorem tame_of_emitOrRefuse {cx : Ctx} {s t : State} (h : emitOrRefuse cx s = .next t) : Tame s t := by
  unfold emitOrRefuse at h
  split at h
  · rw [← Host.Outcome.next.inj h]
    exact .decEmit cx s
  · cases h

theorem Tame.readEntry (cx : Ctx) (e : Entry) (s : State) : Tame s (readEntry cx e s) :=
  (Tame.bsAdvance (e.width cx) s).trans (.of_regs rfl rfl rfl id)

theorem withCtx_next {s t : State} {k : Ctx → Result} (h : withCtx s k = .next t) :
    ∃ f, s.fmt? = some f ∧ k (s.ctxOf f) = .next t := by
  cases hf : s.fmt? with
  | some f => exact ⟨f, rfl, by rwa [withCtx_some hf] at h⟩
  | none =>
    rw [withCtx, State.ctx?, hf] at h
    cases h

theorem tame_of_literalEntry {e : Entry} {c : Word} {push : Bool} {s t : State}
    (h : literalEntry e c push s = .next t) : Tame s t := by
  obtain ⟨f, -, h⟩ := withCtx_next h
  split at h
  · rw [← Host.Outcome.next.inj h]
    exact (Tame.readEntry _ e s).trans (.raiseInLoop _ _ _)
  · refine Tame.trans ?_ (tame_of_emitOrRefuse h)
    exact (Tame.readEntry _ e s).trans (.of_regs rfl rfl rfl id)

theorem tame_of_paletteEntry {e : Entry} {i : Nat} {s t : State} (h : paletteEntry e i s = .next t) : Tame s t := by
  obtain ⟨f, -, h⟩ := withCtx_next h
  split at h
  · rw [← Host.Outcome.next.inj h]
    exact (Tame.readEntry _ e s).trans (.raiseInLoop _ _ _)
  · split at h
    · refine Tame.trans ?_ (tame_of_emitOrRefuse h)
      exact (Tame.readEntry _ e s).trans (.of_regs rfl rfl rfl id)
    · cases h

theorem tame_of_reserved {bits : List Bool} {s t : State} (h : execReserved011 bits s = .next t) : Tame s t := by
  obtain ⟨f, -, h⟩ := withCtx_next h
  split at h <;> rw [← Host.Outcome.next.inj h] <;> exact (Tame.bsAdvance _ s).trans (.raiseInLoop _ _ _)

theorem Tame.prefixOutcome (cx : Ctx) (kind : EntryKind) (s : State) : Tame s (prefixOutcome cx kind s) := by
  unfold Machine.prefixOutcome
  split
  · exact .raiseInLoop _ _ s
  · exact .of_regs rfl rfl rfl id

/-! ## Every instruction -/

theorem tame_of_pixSet {f : Fmt} {id : BufId} {i : Nat} {c : Color} {s t : State} (h : pixSet f id i c s = .next t) :
    Tame s t := by
  unfold pixSet at h
  split at h
  · rw [← Host.Outcome.next.inj h]
    exact .setPixel f s id i _
  · cases h

theorem tame_of_pixGet {f : Fmt} {id : BufId} {i : Nat} {s t : State} (h : pixGet f id i s = .next t) : Tame s t := by
  unfold pixGet at h
  split at h
  · rw [← Host.Outcome.next.inj h]
    exact .of_regs rfl rfl rfl fun h => h
  · cases h

theorem tame_of_pixPreprocess {id : BufId} {i : Nat} {code : BitVec 4} {rgb alpha : BitVec 2} {z : Bool} {s t : State}
    (h : execPixPreprocess id i code rgb alpha z s = .next t) : Tame s t := by
  unfold execPixPreprocess at h
  split at h
  · cases h
  · split at h
    · rw [← Host.Outcome.next.inj h]
      exact (Tame.setPixel _ s id i _).trans (.of_regs rfl rfl rfl fun h => h)
    · cases h

/-- A palette operation that answers a next state leaves the stream and the memories. -/
theorem tame_of_palette {i : Instr} {s t : State} (hi : (∃ k, i = .palInit k) ∨ (∃ c, i = .palLookup c) ∨ (∃ c, i = .palPush c)
      ∨ (∃ j, i = .palLruUpdate j) ∨ ∃ j, i = .palGet j) (h : exec i s = .next t) : Tame s t := by
  have regs {u : State} (hu : Host.Outcome.next u = (Host.Outcome.next t : Result)) (htame : Tame s u) : Tame s t :=
    Host.Outcome.next.inj hu ▸ htame
  obtain ⟨k, rfl⟩ | ⟨c, rfl⟩ | ⟨c, rfl⟩ | ⟨j, rfl⟩ | ⟨j, rfl⟩ := hi
  · change execPalInit k s = .next t at h
    unfold execPalInit at h
    split at h
    · exact regs h (.of_regs rfl rfl rfl id)
    · cases h
  · change execPalLookup c s = .next t at h
    unfold execPalLookup at h
    split at h
    · cases h
    · exact regs h (.of_regs rfl rfl rfl id)
  · change execPalPush c s = .next t at h
    unfold execPalPush at h
    split at h
    · cases h
    · exact regs h (.of_regs rfl rfl rfl id)
  · change execPalLruUpdate j s = .next t at h
    unfold execPalLruUpdate at h
    split at h
    · exact regs h (.of_regs rfl rfl rfl id)
    · cases h
  · change execPalGet j s = .next t at h
    unfold execPalGet at h
    split at h
    · exact regs h (.of_regs rfl rfl rfl id)
    · cases h

theorem tame_of_bsWrite {v n : Nat} {s t : State} (h : execBsWrite v n s = .next t) : Tame s t := by
  unfold execBsWrite at h
  split at h
  · cases h
  · split at h
    · cases h
    next hro =>
      split at h
      · rw [← Host.Outcome.next.inj h]
        exact .bsWrite (Bool.eq_false_of_not_eq_true hro) v n
      · cases h

theorem tame_of_bsRead {n : Nat} {s t : State} (h : execBsRead n s = .next t) : Tame s t := by
  unfold execBsRead at h
  split at h
  · cases h
  · split at h
    · rw [← Host.Outcome.next.inj h]
      exact (Tame.bsAdvance n s).trans (.of_regs rfl rfl rfl id)
    · cases h

theorem tame_of_bsSkip {n : Nat} {s t : State} (h : execBsSkip n s = .next t) : Tame s t := by
  unfold execBsSkip at h
  split at h
  · cases h
  · rw [← Host.Outcome.next.inj h]
    exact .bsSkip n s

theorem tame_of_emitting {cx : Ctx} {n : Nat} {s t u : State} (h : emitting cx n s u = .next t)
    (hu : s.bs.ro = false → Tame s u) : Tame s t := by
  obtain ⟨hrefusal, rfl⟩ := emitting_eq_next_iff.mp h
  exact hu (ro_of_not_refused hrefusal)

theorem tame_of_encPixel {c : Color} {s t : State} (h : exec (.encPixel c) s = .next t) : Tame s t := by
  obtain ⟨rfl, hends⟩ := exec_encPixel_next h
  exact .encPixel fun hruns => ro_of_not_refused (hends hruns)

theorem tame_of_encFlush {s t : State} (h : execEncFlush s = .next t) : Tame s t := by
  have hnext := dispatching_next h
  split at hnext
  · exact tame_of_emitting hnext fun hro => .encFlush hro _
  · cases hnext

theorem tame_of_encSyntax {mode : Mode} {n : Nat} {code : Word} {s t : State}
    (h : execEncSyntax mode n code s = .next t) : Tame s t :=
  tame_of_emitting (dispatching_next h) fun hro => .bsWriteFields hro _

theorem tame_of_encFinish {output : HostBuf} {outCap : Nat} {s t : State}
    (h : execEncFinish output outCap s = .next t) : Tame s t := by
  unfold execEncFinish at h
  split at h
  · cases h
  · rw [← Host.Outcome.next.inj h]
    exact .encFinish output outCap s

theorem tame_of_decPrefix {s t : State} (h : execDecPrefix s = .next t) : Tame s t := by
  unfold execDecPrefix at h
  split at h
  · rw [← Host.Outcome.next.inj (dispatching_next h)]
    exact (Tame.bsAdvance _ s).trans (.prefixOutcome _ _ _)
  · cases h

theorem tame_of_decEmit {s t : State} (h : execDecEmit s = .next t) : Tame s t := by
  have hnext := dispatching_next h
  split at hnext
  · cases hnext
  · exact tame_of_emitOrRefuse hnext

theorem tame_of_hdrEncode {s t : State} (h : execHdrEncode s = .next t) : Tame s t := by
  unfold execHdrEncode at h
  split at h
  · cases h
  next hro =>
    split at h
    · cases h
    · split at h
      · cases h
      · rw [← Host.Outcome.next.inj h]
        exact .runHdrSteps (Bool.eq_false_of_not_eq_true hro) _

theorem tame_of_hdrDecode {s t : State} (h : execHdrDecode s = .next t) : Tame s t := by
  unfold execHdrDecode at h
  split at h
  · rw [← Host.Outcome.next.inj h]
    exact .hdrDecode s
  · cases h

theorem tame_of_returnObject {attrs : CanvasAttrs} {color : Nat} {o : DrawObject} {s t : State}
    (h : returnObject attrs color o s = .next t) : Tame s t := by
  unfold returnObject at h
  split at h
  · cases h
  · split at h
    · rw [← Host.Outcome.next.inj h]
      exact .of_regs rfl rfl rfl id
    · cases h

theorem tame_of_estimate {a : EstimateArgs} {s t : State} (h : execEstimate a s = .next t) : Tame s t := by
  unfold execEstimate at h
  split at h
  · cases h
  · split at h
    · cases h
    · split at h <;> rw [← Host.Outcome.next.inj h] <;> exact .of_regs rfl rfl rfl id

/-- Every instruction but the four that begin with a `BS.INIT`. -/
theorem tame_of_exec {i : Instr} {s t : State} (h : exec i s = .next t) :
    (∃ id size ro, i = .bsInit id size ro) ∨ (∃ a, i = .encode a) ∨ (∃ a, i = .decode a) ∨ (∃ a, i = .draw a)
      ∨ Tame s t := by
  have tame (ht : Tame s t) : (∃ id size ro, i = .bsInit id size ro) ∨ (∃ a, i = .encode a) ∨ (∃ a, i = .decode a)
      ∨ (∃ a, i = .draw a) ∨ Tame s t := .inr (.inr (.inr (.inr ht)))
  cases i
  case bsInit id size ro => exact .inl ⟨id, size, ro, rfl⟩
  case encode a => exact .inr (.inl ⟨a, rfl⟩)
  case decode a => exact .inr (.inr (.inl ⟨a, rfl⟩))
  case draw a => exact .inr (.inr (.inr (.inl ⟨a, rfl⟩)))
  case hdr3 hd => exact tame (Host.Outcome.next.inj h ▸ (Tame.hdrWalk .three s).trans (.fillCtrl hd _))
  case hdr4 hd => exact tame (Host.Outcome.next.inj h ▸ (Tame.hdrWalk .four s).trans (.fillCtrl hd _))
  case lit c => exact tame (tame_of_literalEntry h)
  case litr n c => exact tame (tame_of_literalEntry h)
  case reserved011 bits => exact tame (tame_of_reserved h)
  case pal i => exact tame (tame_of_paletteEntry h)
  case palr n i => exact tame (tame_of_paletteEntry h)
  case nlit c => exact tame (tame_of_literalEntry h)
  case nrun n c => exact tame (tame_of_literalEntry h)
  case bsWrite v n => exact tame (tame_of_bsWrite h)
  case bsRead n => exact tame (tame_of_bsRead h)
  case bsSkip n => exact tame (tame_of_bsSkip h)
  case pixGet8888 id k => exact tame (tame_of_pixGet h)
  case pixGet4444 id k => exact tame (tame_of_pixGet h)
  case pixGet1555 id k => exact tame (tame_of_pixGet h)
  case pixGetLut8 id k => exact tame (tame_of_pixGet h)
  case pixGetLut4 id k => exact tame (tame_of_pixGet h)
  case pixSet8888 id k c => exact tame (tame_of_pixSet h)
  case pixSet4444 id k c => exact tame (tame_of_pixSet h)
  case pixSet1555 id k c => exact tame (tame_of_pixSet h)
  case pixSetLut8 id k c => exact tame (tame_of_pixSet h)
  case pixSetLut4 id k c => exact tame (tame_of_pixSet h)
  case pixPreprocess id k code rgb alpha z => exact tame (tame_of_pixPreprocess h)
  case palInit k => exact tame (tame_of_palette (.inl ⟨k, rfl⟩) h)
  case palLookup c => exact tame (tame_of_palette (.inr (.inl ⟨c, rfl⟩)) h)
  case palPush c => exact tame (tame_of_palette (.inr (.inr (.inl ⟨c, rfl⟩))) h)
  case palLruUpdate j => exact tame (tame_of_palette (.inr (.inr (.inr (.inl ⟨j, rfl⟩)))) h)
  case palGet j => exact tame (tame_of_palette (.inr (.inr (.inr (.inr ⟨j, rfl⟩)))) h)
  case encPixel c => exact tame (tame_of_encPixel h)
  case encStartRun c => exact tame (exec_encStartRun_next h ▸ .encStartRun _ c s)
  case encFlush => exact tame (tame_of_encFlush h)
  case encSyntax mode n code => exact tame (tame_of_encSyntax h)
  case encFinish output outCap => exact tame (tame_of_encFinish h)
  case decPrefix => exact tame (tame_of_decPrefix h)
  case decEmit => exact tame (tame_of_decEmit h)
  case hdrEncode => exact tame (tame_of_hdrEncode h)
  case hdrDecode => exact tame (tame_of_hdrDecode h)
  case setRect attrs x y w ht filled th color => exact tame (tame_of_returnObject h)
  case setLine attrs x0 y0 x1 y1 th color => exact tame (tame_of_returnObject h)
  case setBitmap attrs x y w ht src stride => exact tame (Host.Outcome.next.inj h ▸ .of_regs rfl rfl rfl id)
  case estimate a => exact tame (tame_of_estimate h)

/-- Settles O11: the stream of a tame access only goes forward. -/
theorem streamOnlyForward : Obligations.StreamOnlyForward := by
  intro i s t h
  obtain h | h | h | h | h := tame_of_exec h
  · exact .inl h
  · exact .inr (.inl h)
  · exact .inr (.inr (.inl h))
  · exact .inr (.inr (.inr (.inl h)))
  · have hpos := h.pos
    exact .inr (.inr (.inr (.inr ⟨h.status, fun hle => by omega, h.bsbuf, h.bscap, h.bsro⟩)))

end Sys2Proof.Proofs
end

section
/-! PROOFS. The steps of a `DECODE` in progress (44_decoder.md R231, R242): each keeps the invariant, and the loop ends. -/

namespace Sys2Proof.Proofs

open Sys2Proof.Machine Sys2Proof.Laws

/-! ## An entry in the loop -/

/-- What the loop does with the entry at the cursor: its pixels are emitted, or an error is raised. -/
inductive EntryStep (cx : Ctx) (s t : State) : Prop where
  | emitted (e : Entry) (color : Color) (pal : List Color) (inside : EntryInside cx e s) (pos : 1 ≤ e.runLength)
      (length : pal.length = s.pal.length) (ht : t = decEmit cx (entryResolved cx e color pal s))
  | raised (n : Nat) (cause : Cause) (d : DecRegs) (hd : d.outpix = s.dec.outpix)
      (ht : t = raiseInLoop cause cx.fmt { bsAdvance n s with dec := d })

/-- An entry that passes the checks emits its pixels, and the cache keeps its slots. -/
theorem EntryInside.runs {cx : Ctx} {e : Entry} {s : State} (h : EntryInside cx e s) (hfull : CacheFull cx s.pal)
    (hwf : e.wf cx = true) (he : ∀ bits, e ≠ .reserved011 bits) (hslot : ∀ i, entrySlot e = some i → i < cx.k) :
    ∃ color pal, pal.length = s.pal.length ∧ runEntry e s = .next (decEmit cx (entryResolved cx e color pal s)) := by
  have literal (c : Word) (push : Bool) : ∃ color pal, pal.length = s.pal.length
      ∧ Machine.literalEntry e c push s = .next (decEmit cx (entryResolved cx e color pal s)) := by
    refine ⟨_, _, ?_, h.literalEntry c push⟩
    rw [hfull.slots]
    split
    · exact pushColor_length _ _
    · rfl
  have palette {i : Nat} (hp : cx.palEn = true) (hi : entrySlot e = some i) : ∃ color pal, pal.length = s.pal.length
      ∧ Machine.paletteEntry e i s = .next (decEmit cx (entryResolved cx e color pal s)) := by
    have hlt : i < (cx.slots s.pal).length := by
      rw [hfull.slots, hfull hp]
      exact hslot i hi
    refine ⟨_, _, ?_, h.paletteEntry (hslot i hi) (List.getElem?_eq_getElem hlt)⟩
    rw [hfull.slots]
    exact promote_length _ _
  cases e <;> simp only [Entry.wf, Bool.and_eq_true] at hwf
  case lit c => exact literal c true
  case litr n c => exact literal c true
  case reserved011 bits => exact absurd rfl (he bits)
  case pal i => exact palette hwf.1 rfl
  case palr n i => exact palette hwf.1.1 rfl
  case nlit c => exact literal c false
  case nrun n c => exact literal c false

/-- Where none of the checks fails, the entry lies inside the stream, its slot exists, and what remains holds its run. -/
theorem of_entryFault_none {cx : Ctx} {e : Entry} {s : State} (hpos : s.bs.pos ≤ s.bs.cap)
    (h : entryFault cx (entrySlot e) (readEntry cx e s) = none) :
    s.bs.pos + e.width cx ≤ s.bs.cap ∧ (∀ i, entrySlot e = some i → i < cx.k) ∧ e.runLength ≤ s.dec.remaining := by
  unfold entryFault at h
  split at h
  · cases h
  next hover =>
    have hin : s.bs.pos + e.width cx ≤ s.bs.cap := by
      by_contra hpast
      refine hover ?_
      show (bsAdvance _ s).bs.status = _
      rw [bsAdvance_regs]
      exact if_pos ⟨by omega, by omega⟩
    split at h
    · cases h
    next hany =>
      split at h
      · cases h
      next hlen =>
        refine ⟨hin, fun i hi => ?_, ?_⟩
        · rw [hi] at hany
          simpa using hany
        · rw [readEntry_inside hin] at hlen
          exact Nat.not_lt.mp hlen

/-- The entry that the loop fetches runs to one of the two ends. -/
theorem entryStep_of_loopGood {s : State} {f : Fmt} (hloop : s.loopGood) (hpos : s.bs.pos ≤ s.bs.cap)
    (hf : s.fmt? = some f) (hroom : f.pixbytes s.pixels ≤ s.job.dstCap) :
    ∃ t, runEntry (fetchEntry (s.ctxOf f) s) s = .next t ∧ EntryStep (s.ctxOf f) s t := by
  obtain ⟨⟨-, hok, -, hdst, -⟩, -, -, hsum, -, hfull⟩ := hloop
  obtain ⟨rest, hdecode⟩ := fetchEntry_decodes (s.ctxOf f) s
  have hwf := (encodeOfDecode _ _ _ _ hdecode).1
  generalize fetchEntry (s.ctxOf f) s = e at hwf
  by_cases he : ∃ bits, e = .reserved011 bits
  · obtain ⟨bits, rfl⟩ := he
    exact ⟨_, exec_reserved hf bits, .raised bits.length _ s.dec rfl (by rw [← bsAdvance_dec bits.length s]; rfl)⟩
  · rw [not_exists] at he
    cases hfault : entryFault (s.ctxOf f) (entrySlot e) (readEntry (s.ctxOf f) e s) with
    | some cause =>
      refine ⟨_, (runEntry_exec e s).trans (exec_entry_fault hf he hfault),
        .raised (e.width (s.ctxOf f)) cause (readEntry (s.ctxOf f) e s).dec ?_ rfl⟩
      show (bsAdvance _ s).dec.outpix = _
      rw [bsAdvance_dec]
    | none =>
      obtain ⟨hin, hslot, hlen⟩ := of_entryFault_none hpos hfault
      have h : EntryInside (s.ctxOf f) e s := ⟨hf, rfl, hok, hin, hlen,
        ((pixbytes_mono f (by omega)).trans hroom).trans hdst⟩
      obtain ⟨color, pal, hpal, hrun⟩ := h.runs hfull hwf he hslot
      exact ⟨_, hrun, .emitted e color pal h (runLength_pos hwf) hpal rfl⟩

theorem tame_of_runEntry {e : Entry} {s t : State} (h : runEntry e s = .next t) : Tame s t := by
  cases e
  case reserved011 bits => exact tame_of_reserved h
  case pal i => exact tame_of_paletteEntry h
  case palr n i => exact tame_of_paletteEntry h
  all_goals exact tame_of_literalEntry h

/-- The registers and the pixels after an entry of the loop. -/
theorem EntryStep.frame {cx : Ctx} {s t : State} (h : EntryStep cx s t) :
    t.withMem s = { s with
        bs := t.bs
        dec := t.dec
        pal := t.pal
        res := t.res
        free := t.free
        phase := t.phase }
      ∧ s.dec.outpix ≤ t.dec.outpix
      ∧ s.keepsBytes t (bytesFrom (.host s.job.dst) 0 (cx.fmt.pixbytes t.dec.outpix)) := by
  obtain ⟨e, color, pal, hin, hpos, hlen, rfl⟩ | ⟨n, cause, d, hd, rfl⟩ := h
  · obtain ⟨hregs, -, -, hkeeps⟩ := hin.spec color pal
    generalize decEmit cx (entryResolved cx e color pal s) = t at hregs hkeeps
    have hbs : t.bs = _ := (congrArg State.bs hregs :)
    have hdec : t.dec = _ := (congrArg State.dec hregs :)
    have hpal : t.pal = _ := (congrArg State.pal hregs :)
    have hres : t.res = s.res := (congrArg State.res hregs :)
    have hfree : t.free = s.free := (congrArg State.free hregs :)
    have hphase : t.phase = s.phase := (congrArg State.phase hregs :)
    refine ⟨?_, by rw [hdec]; exact Nat.le_add_right _ _, keepsBytes_mono ?_ hkeeps⟩
    · rw [hregs, hbs, hdec, hpal, hres, hfree, hphase]
    · rintro id off ⟨rfl, -, hoff⟩
      rw [hdec]
      exact ⟨rfl, Nat.zero_le _, by rwa [Nat.zero_add]⟩
  · have hmem : ∀ id, (raiseInLoop cause cx.fmt { bsAdvance n s with dec := d }).buf id = s.buf id := fun id =>
      (buf_congr (s := bsAdvance n s) rfl id).trans (bsAdvance_buf n s id)
    refine ⟨?_, hd.ge, keepsBytes_of_buf_eq hmem _⟩
    rw [bsAdvance_eq]
    rfl

/-- An entry of the loop leaves the loop's invariant, or the block idle. -/
theorem EntryStep.loopGood {s t : State} {f : Fmt} (h : EntryStep (s.ctxOf f) s t) (htame : Tame s t)
    (hphase : s.phase = .entries) (hloop : s.loopGood) :
    (t.phase = .idle ∧ t.res.status = .malformed ∧ regHolds t.res.size (f.pixbytes t.dec.outpix)
        ∧ t.dec.outpix = s.dec.outpix)
      ∨ (t.phase = .entries ∧ t.loopGood ∧ t.dec.remaining < s.dec.remaining) := by
  obtain ⟨e, color, pal, hin, hpos, hlen, rfl⟩ | ⟨n, cause, d, hd, rfl⟩ := h
  · right
    obtain ⟨⟨hro, hok, hapart, hdst, hrl⟩, hdims, h64, hsum, ⟨g, hg, hroom⟩, hfull⟩ := hloop
    obtain ⟨hregs, -⟩ := hin.spec color pal
    have hsize := htame.size
    generalize decEmit (s.ctxOf f) (entryResolved (s.ctxOf f) e color pal s) = t at hregs hsize
    have hcfg : t.cfg = s.cfg := (congrArg State.cfg hregs :)
    have hctrl : t.ctrl = s.ctrl := (congrArg State.ctrl hregs :)
    have hjob : t.job = s.job := (congrArg State.job hregs :)
    have hbs : t.bs = { s.bs with pos := s.bs.pos + e.width (s.ctxOf f) } := (congrArg State.bs hregs :)
    have hpal : t.pal = pal := (congrArg State.pal hregs :)
    have houtpix : t.dec.outpix = s.dec.outpix + e.runLength := (congrArg (fun x : State => x.dec.outpix) hregs :)
    have hrem : t.dec.remaining = s.dec.remaining - e.runLength := (congrArg (fun x : State => x.dec.remaining) hregs :)
    have hphase' : t.phase = .entries := (congrArg State.phase hregs).trans hphase
    have hle := hin.length
    have hpixels : t.pixels = s.pixels := by rw [State.pixels, hctrl, State.pixels]
    refine ⟨hphase', ⟨⟨?_, ?_, ?_, ?_, ?_⟩, ?_, ?_, ?_, ⟨g, ?_, ?_⟩, ?_⟩, by omega⟩
    · rw [hbs]; exact hro
    · rw [hbs]; exact hok
    · rw [hbs, hjob]; exact hapart
    · rw [hjob, hsize]; exact hdst
    · rw [State.rl, hctrl]; exact hrl
    · rw [State.dimsGood, hctrl]; exact hdims
    · rw [hbs]; simp only; omega
    · rw [hrem, houtpix, hpixels]; omega
    · rw [State.fmt?, hcfg, hctrl]; exact hg
    · rw [hpixels, hjob]; exact hroom
    · rw [State.palEn, State.palSize, hctrl, hpal, hlen]; exact hfull
  · refine .inl ⟨rfl, rfl, ?_, hd⟩
    have hreports := sizeReg_held (f.pixbytes d.outpix)
    exact hreports

/-- All that a step of the loop does. -/
theorem decStep_entries {s : State} (hinv : s.Inv) (hphase : s.phase = .entries) :
    ∃ f t, s.fmt? = some f ∧ f.pixbytes s.pixels ≤ s.job.dstCap ∧ decStep s = .next t ∧ Tame s t
      ∧ ((s.dec.remaining = 0 ∧ t = endDecode f s) ∨ EntryStep (s.ctxOf f) s t) := by
  obtain ⟨⟨hro, -⟩, -, -, -, ⟨f, hf, hroom⟩, -⟩ := hinv.loop hphase
  by_cases hdone : s.dec.remaining = 0
  · refine ⟨f, endDecode f s, hf, hroom, ?_, .of_regs rfl rfl rfl fun _ => rfl, .inl ⟨hdone, rfl⟩⟩
    simp only [decStep, hphase, decLoopStep, withCtx_some hf, if_pos hdone]
    rfl
  · obtain ⟨t, hrun, hstep⟩ := entryStep_of_loopGood (hinv.loop hphase) (hinv.bs.2.1 hro) hf hroom
    refine ⟨f, t, hf, hroom, ?_, tame_of_runEntry hrun, .inr hstep⟩
    simp only [decStep, hphase, decLoopStep, withCtx_some hf, if_neg hdone, hrun]

/-! ## The invariant -/

theorem inv_of_idle {s : State} (hcfg : s.cfg.legal = true) (hmem : s.memWf) (hbs : s.bsGood) (hidle : s.phase = .idle) :
    s.Inv where
  cfg := hcfg
  mem := hmem
  bs := hbs
  header h := by rw [hidle] at h; cases h
  setup h := by rw [hidle] at h; cases h
  loop h := by rw [hidle] at h; cases h

theorem inv_of_entries {s : State} (hcfg : s.cfg.legal = true) (hmem : s.memWf) (hbs : s.bsGood)
    (hphase : s.phase = .entries) (hloop : s.loopGood) : s.Inv where
  cfg := hcfg
  mem := hmem
  bs := hbs
  header h := by rw [hphase] at h; cases h
  setup h := by rw [hphase] at h; cases h
  loop _ := hloop

/-- A tame access that leaves the block idle keeps the invariant. -/
theorem Tame.inv {s t : State} (h : Tame s t) (hinv : s.Inv) (hidle : t.phase = .idle) : t.Inv :=
  inv_of_idle (by rw [h.cfg]; exact hinv.cfg) (h.mem hinv.mem) (h.good hinv.bs) hidle

/-- The header is read from the first 64 bits. -/
theorem decStep_of_header {s : State} (hphase : s.phase = .header) (hgood : s.headerGood) :
    decStep s = .next (fillCtrl (fetchHeader s) (streamAt s 64)) := by
  obtain ⟨-, hpos, hcap⟩ := hgood
  have hread := decStep_header hphase (by omega) (decodeHeader_stream s)
  rwa [← fetchHeader_eq, hpos] at hread

theorem setupGood_of_header {s : State} (hgood : s.headerGood) (h : Header) : (fillCtrl h (streamAt s 64)).setupGood := by
  obtain ⟨⟨hro, hok, hapart, hdst, hrl⟩, -, -⟩ := hgood
  have hw := h.widthM1.isLt
  have hh := h.heightM1.isLt
  refine ⟨⟨hro, hok, hapart, ?_, hrl⟩, ?_, rfl⟩
  · rw [buf_congr (s := s) rfl]
    exact hdst
  · have hwidth : (fillCtrl h (streamAt s 64)).ctrl.width.toNat = h.widthM1.toNat + 1 := dim_toNat _
    have hheight : (fillCtrl h (streamAt s 64)).ctrl.height.toNat = h.heightM1.toNat + 1 := dim_toNat _
    rw [State.dimsGood, hwidth, hheight]
    omega

theorem inv_of_header {s : State} (hinv : s.Inv) (hphase : s.phase = .header) :
    (fillCtrl (fetchHeader s) (streamAt s 64)).Inv := by
  obtain ⟨-, hpos, hcap⟩ := hinv.header hphase
  have hnext : (fillCtrl (fetchHeader s) (streamAt s 64)).phase = .setup := if_pos hphase
  refine ⟨hinv.cfg, memWf_congr (s := s) rfl hinv.mem, ?_, fun h => ?_, fun _ => setupGood_of_header (hinv.header hphase) _,
    fun h => ?_⟩
  · have hwalk := Tame.hdrWalk .three s
    rw [hdrWalk_inside .three (by omega), hpos] at hwalk
    exact (Tame.fillCtrl (fetchHeader s) _).good (hwalk.good hinv.bs)
  · rw [hnext] at h; cases h
  · rw [hnext] at h; cases h

/-- The checks after the header end the `DECODE`, or find a format whose frame the output holds. -/
theorem decSetup_cases (s : State) :
    (∃ cause, decSetup s = raiseMalformed cause 0 s)
      ∨ ∃ f, s.fmt? = some f ∧ f.pixbytes s.pixels ≤ s.job.dstCap ∧ decSetup s = decReset s := by
  unfold decSetup
  split
  · exact .inl ⟨_, rfl⟩
  next f hf =>
    split
    · exact .inl ⟨_, rfl⟩
    · split
      · exact .inl ⟨_, rfl⟩
      next hroom => exact .inr ⟨f, hf, Nat.not_lt.mp hroom, rfl⟩

theorem loopGood_decReset {s : State} {f : Fmt} (hcfg : s.cfg.legal = true) (hsetup : s.setupGood) (hf : s.fmt? = some f)
    (hroom : f.pixbytes s.pixels ≤ s.job.dstCap) : (decReset s).loopGood := by
  obtain ⟨⟨hro, hok, hapart, hdst, hrl⟩, hdims, hpos⟩ := hsetup
  refine ⟨⟨hro, hok, hapart, ?_, hrl⟩, hdims, hpos.ge, rfl, ⟨f, hf, hroom⟩, fun hp => ?_⟩
  · rw [decReset_buf]
    exact hdst
  · exact cacheFull_seed (cx := s.ctxOf f) hcfg hp

theorem inv_of_setup {s : State} (hinv : s.Inv) (hphase : s.phase = .setup) : (decSetup s).Inv := by
  obtain ⟨cause, hraise⟩ | ⟨f, hf, hroom, hreset⟩ := decSetup_cases s
  · rw [hraise]
    have htame : Tame s (raiseMalformed cause 0 s) := .of_regs rfl rfl rfl fun _ => rfl
    exact htame.inv hinv rfl
  · rw [hreset]
    have htame : Tame s (decReset s) := .of_regs rfl rfl rfl fun h => by rw [hphase] at h; cases h
    exact inv_of_entries hinv.cfg (htame.mem hinv.mem) (htame.good hinv.bs) rfl
      (loopGood_decReset hinv.cfg (hinv.setup hphase) hf hroom)

/-- Every step of a `DECODE` in progress answers a next state, which has the invariant. -/
theorem decStep_keeps {s : State} (hinv : s.Inv) : ∃ t, decStep s = .next t ∧ t.Inv ∧ t.cfg = s.cfg := by
  cases hphase : s.phase with
  | idle => exact ⟨s, by simp only [decStep, hphase], hinv, rfl⟩
  | header => exact ⟨_, decStep_of_header hphase (hinv.header hphase), inv_of_header hinv hphase, rfl⟩
  | setup =>
    refine ⟨_, by simp only [decStep, hphase], inv_of_setup hinv hphase, ?_⟩
    obtain ⟨cause, hraise⟩ | ⟨f, -, -, hreset⟩ := decSetup_cases s
    · rw [hraise]; rfl
    · rw [hreset]; rfl
  | entries =>
    obtain ⟨f, t, -, -, hstep, htame, hend⟩ := decStep_entries hinv hphase
    refine ⟨t, hstep, ?_, htame.cfg⟩
    obtain ⟨-, rfl⟩ | hentry := hend
    · exact htame.inv hinv rfl
    · obtain ⟨hidle, -⟩ | ⟨hnext, hloop, -⟩ := hentry.loopGood htame hphase (hinv.loop hphase)
      · exact htame.inv hinv hidle
      · exact inv_of_entries (by rw [htame.cfg]; exact hinv.cfg) (htame.mem hinv.mem) (htame.good hinv.bs) hnext hloop

theorem decRun_keeps {fuel : Nat} {s : State} (hinv : s.Inv) : ∃ t, decRun fuel s = .next t ∧ t.Inv ∧ t.cfg = s.cfg := by
  induction fuel generalizing s with
  | zero => exact ⟨s, rfl, hinv, rfl⟩
  | succ fuel ih =>
    by_cases hidle : s.phase = .idle
    · exact ⟨s, decRun_idle _ _ hidle, hinv, rfl⟩
    · obtain ⟨t, hstep, ht, htcfg⟩ := decStep_keeps hinv
      obtain ⟨u, hrun, hu, hucfg⟩ := ih ht
      exact ⟨u, (decRun_step hidle hstep).trans hrun, hu, hucfg.trans htcfg⟩

end Sys2Proof.Proofs
end

section
/-! PROOFS. What stops by name (60_exceptions.md R311, R320): a dispatch without a format, and host operations on operands
that are refused. What the host operations answer on accepted ones. -/

namespace Sys2Proof.Proofs

open Sys2Proof.Machine Sys2Proof.Laws

/-! ## A dispatch without a format -/

section
variable {s : State} (hf : s.fmt? = none)
include hf

theorem withCtx_stops (k : Ctx → Result) : withCtx s k = .fault .formatDispatch := by
  rw [withCtx, State.ctx?, hf]
  rfl

theorem entry_stops (e : Entry) : exec e.toInstr s = .fault .formatDispatch := by
  cases e <;> exact withCtx_stops hf _

theorem dispatching_stops {reaches : Bool} (h : reaches ≠ false) (k : Ctx → Result) :
    dispatching reaches s k = .fault .formatDispatch := by
  rw [Bool.eq_true_of_not_eq_false h]
  exact dispatching_none hf k

theorem startRun_stops {c : Color} (h : ¬(s.palEn = true ∧ c ∈ s.slots)) :
    exec (.encStartRun c) s = .fault .formatDispatch := by
  show execEncStartRun c s = _
  exact dispatching_stops hf (fun hfree => h (startRunDispatches_eq_false_iff.mp hfree)) _

theorem syntax_stops {mode : Mode} (h : ¬(s.palEn = true ∧ mode = .palette)) (n : Nat) (code : Word) :
    exec (.encSyntax mode n code) s = .fault .formatDispatch := by
  show execEncSyntax mode n code s = _
  exact dispatching_stops hf (fun hfree => h (syntaxDispatches_eq_false_iff.mp hfree)) _

theorem flush_stops (hvalid : s.run.valid = true) (h : ¬(s.palEn = true ∧ s.run.mode = .palette)) :
    exec .encFlush s = .fault .formatDispatch := by
  show execEncFlush s = _
  refine dispatching_stops hf (fun hfree => ?_) _
  rw [hvalid, Bool.true_and] at hfree
  exact h (syntaxDispatches_eq_false_iff.mp hfree)

theorem pixel_stops_starting {c : Color} (hvalid : s.run.valid = false) (h : ¬(s.palEn = true ∧ c ∈ s.slots)) :
    exec (.encPixel c) s = .fault .formatDispatch := by
  show execEncPixel c s = _
  refine dispatching_stops hf (fun hfree => ?_) _
  rw [pixelDispatches, if_pos hvalid] at hfree
  exact h (startRunDispatches_eq_false_iff.mp hfree)

theorem pixel_stops_ending {c : Color} (hvalid : s.run.valid = true) (hends : c ≠ s.run.color ∨ s.run.len = 2 ^ s.rl)
    (h : ¬((s.palEn = true ∧ s.run.mode = .palette) ∧ s.palEn = true ∧ c ∈ s.slots)) :
    exec (.encPixel c) s = .fault .formatDispatch := by
  show execEncPixel c s = _
  refine dispatching_stops hf (fun hfree => ?_) _
  have hruns : runEnds s.anyCtx c s = true := by
    rw [runEnds, Bool.or_eq_true, decide_eq_true_eq, decide_eq_true_eq]
    exact hends
  rw [pixelDispatches, if_neg (by rw [hvalid]; rintro ⟨⟩), hruns, Bool.true_and, Bool.or_eq_false_iff] at hfree
  exact h ⟨syntaxDispatches_eq_false_iff.mp hfree.1, startRunDispatches_eq_false_iff.mp hfree.2⟩

theorem emit_stops (hlen : s.dec.len ≠ 0) : exec .decEmit s = .fault .formatDispatch := by
  show execDecEmit s = _
  exact dispatching_stops hf (by rw [decide_eq_true hlen]; rintro ⟨⟩) _

end

/-! ## The host operations -/

theorem exec_estimate_accepted {a : EstimateArgs} {f : Fmt} {s : State} (hacc : a.accepted f s) (halloc : a.allocOk = true) :
    exec (.estimate a) s = .next (estimateEnd (a.ctrl.ctx s.cfg f) (latched a.ctrl s)) := by
  obtain ⟨hfmt, hobjects⟩ := hacc
  show execEstimate a s = _
  simp only [execEstimate, hfmt, objectsRefusal_eq_none_iff.mpr hobjects]
  rw [if_neg (by rw [halloc]; rintro ⟨⟩), ← latched_ctxOf (ctrlFits_of_legal hobjects.1)]
  rfl

theorem exec_draw_accepted {a : DrawArgs} {f : Fmt} {s : State} (hacc : a.accepted f s) (halloc : a.allocOk = true) :
    exec (.draw a) s =
      .next (encodePass (a.ctrl.ctx s.cfg f) .lc a.out a.outCap (drawCanvas f a.bg (latched a.ctrl s))) := by
  obtain ⟨hfmt, hlegal, hbg, hcolours, hcompressed, hsource, hout, hreadable⟩ := hacc
  show execDraw a s = _
  simp only [execDraw, hfmt, objectsRefusal_eq_none_iff.mpr ⟨hlegal, hbg, hcolours, hcompressed⟩]
  rw [if_neg (by rw [hsource]; rintro ⟨⟩), if_neg (Nat.not_lt.mpr hout), if_neg (by rw [hreadable]; rintro ⟨⟩),
    if_neg (by rw [halloc]; rintro ⟨⟩), ← latched_ctxOf (ctrlFits_of_legal hlegal)]
  rfl

/-- `ENCODE` is accepted for a format, or refused. -/
theorem encode_accepted_or_refused (a : EncodeArgs) (s : State) :
    (∃ f, a.accepted f s) ∨ ∃ r, exec (.encode a) s = .refused r := by
  show _ ∨ ∃ r, execEncode a s = .refused r
  unfold execEncode
  split
  · exact .inr ⟨_, rfl⟩
  next f hf =>
    split
    · exact .inr ⟨_, rfl⟩
    next hlegal =>
      split
      · exact .inr ⟨_, rfl⟩
      next hcanvas =>
        split
        · exact .inr ⟨_, rfl⟩
        next hne =>
          split
          · exact .inr ⟨_, rfl⟩
          next hout =>
            exact .inl ⟨f, hf, Bool.eq_true_of_not_eq_false hlegal, Nat.not_lt.mp hcanvas, hne, Nat.not_lt.mp hout⟩

/-- `ESTIMATE` is accepted for a format, or refused. -/
theorem estimate_accepted_or_refused (a : EstimateArgs) (s : State) :
    (∃ f, a.accepted f s) ∨ ∃ r, exec (.estimate a) s = .refused r := by
  show _ ∨ ∃ r, execEstimate a s = .refused r
  unfold execEstimate
  split
  · exact .inr ⟨_, rfl⟩
  next f hf =>
    split
    · exact .inr ⟨_, rfl⟩
    next hobjects => exact .inl ⟨f, hf, objectsRefusal_eq_none_iff.mp hobjects⟩

/-- `DRAW` is accepted for a format, or refused. -/
theorem draw_accepted_or_refused (a : DrawArgs) (s : State) :
    (∃ f, a.accepted f s) ∨ ∃ r, exec (.draw a) s = .refused r := by
  show _ ∨ ∃ r, execDraw a s = .refused r
  unfold execDraw
  split
  · exact .inr ⟨_, rfl⟩
  next f hf =>
    split
    · exact .inr ⟨_, rfl⟩
    next hobjects =>
      obtain ⟨hlegal, hbg, hcolours, hcompressed⟩ := objectsRefusal_eq_none_iff.mp hobjects
      split
      · exact .inr ⟨_, rfl⟩
      next hsource =>
        split
        · exact .inr ⟨_, rfl⟩
        next hout =>
          split
          · exact .inr ⟨_, rfl⟩
          next hreadable =>
            exact .inl ⟨f, hf, hlegal, hbg, hcolours, hcompressed, Bool.eq_false_of_not_eq_true hsource,
              Nat.not_lt.mp hout, Bool.eq_true_of_not_eq_false hreadable⟩

/-- `DECODE` is accepted, or its start is refused. -/
theorem decStart_accepted_or_refused (a : DecodeArgs) (s : State) :
    a.accepted s ∨ ∃ r, decStart a s = .refused r := by
  unfold decStart
  split
  · exact .inr ⟨_, rfl⟩
  next hrl =>
    split
    · exact .inr ⟨_, rfl⟩
    next hin =>
      split
      · exact .inr ⟨_, rfl⟩
      next hdst =>
        split
        · exact .inr ⟨_, rfl⟩
        next hne =>
          split
          · exact .inr ⟨_, rfl⟩
          next hexp =>
            exact .inl ⟨not_not.mp hrl, Nat.not_lt.mp hin, Nat.not_lt.mp hdst, hne, Bool.eq_true_of_not_eq_false hexp⟩

/-- What answers a next state where it is accepted is refused exactly where it is not. -/
theorem refused_iff {i : Instr} {s : State} {accepted : Fmt → Prop}
    (hnext : ∀ f, accepted f → ∃ t, exec i s = .next t) (hcases : (∃ f, accepted f) ∨ ∃ r, exec i s = .refused r) :
    (∃ r, exec i s = .refused r) ↔ ∀ f, ¬accepted f := by
  refine ⟨fun ⟨r, hr⟩ f hacc => ?_, fun h => hcases.resolve_left fun ⟨f, hacc⟩ => h f hacc⟩
  obtain ⟨t, ht⟩ := hnext f hacc
  rw [ht] at hr
  cases hr

/-- Settles O35, instruction by instruction: each one's dispatch is reached, and each refusal is the negation of a clause
of what is accepted. -/
theorem namedStops : Obligations.NamedStops := by
  refine ⟨?dispatch, fun a s => ?encode, fun a s => ?estimate, fun a s => ?draw, fun a s hacc => ?decode⟩
  case dispatch =>
    rintro i s hf hit index (⟨e, rfl⟩ | ⟨c, rfl, h⟩ | ⟨mode, n, code, rfl, h⟩ | ⟨rfl, hv, h⟩ | ⟨c, rfl, hv, h⟩
      | ⟨c, rfl, hv, hends, h⟩ | ⟨rfl, h⟩)
    · exact entry_stops hf e
    · exact startRun_stops hf h
    · exact syntax_stops hf h n code
    · exact flush_stops hf hv h
    · exact pixel_stops_starting hf hv h
    · exact pixel_stops_ending hf hv hends h
    · exact emit_stops hf h
  case encode =>
    refine refused_iff (fun f hacc => ?_) (encode_accepted_or_refused a s)
    cases halloc : a.allocOk with
    | true => exact ⟨_, exec_encode_accepted hacc halloc⟩
    | false => exact ⟨_, exec_encode_unallocated hacc halloc⟩
  case estimate =>
    refine refused_iff (fun f hacc => ?_) (estimate_accepted_or_refused a s)
    cases halloc : a.allocOk with
    | true => exact ⟨_, exec_estimate_accepted hacc halloc⟩
    | false => exact ⟨_, exec_estimate_unallocated hacc halloc⟩
  case draw =>
    refine refused_iff (fun f hacc => ?_) (draw_accepted_or_refused a s)
    cases halloc : a.allocOk with
    | true => exact ⟨_, exec_draw_accepted hacc halloc⟩
    | false => exact ⟨_, exec_draw_unallocated hacc halloc⟩
  case decode =>
    obtain ⟨r, hr⟩ := (decStart_accepted_or_refused a { s with phase := .idle }).resolve_left hacc
    refine ⟨r, ?_⟩
    show execDecode a s = _
    rw [execDecode, hr]

end Sys2Proof.Proofs
end

section
/-! PROOFS. The invariant of the machine over every step, and the ends of `DECODE` (44_decoder.md R231, R242). -/

namespace Sys2Proof.Proofs

open Sys2Proof.Machine Sys2Proof.Laws

/-! ## A pass of the encoder -/

/-- After its `BS.INIT` a pass is a tame access of the scratch stream. -/
theorem Tame.encodePass (cx : Ctx) (canvas : BufId) (output : HostBuf) (outCap : Nat) (s : State) :
    Tame (bsInit .scratch (scratchBytes s.cfg s.pixels cx.pixBits) false s) (encodePass cx canvas output outCap s) := by
  have hfresh : Tame (bsInit .scratch (scratchBytes s.cfg s.pixels cx.pixBits) false s) (encFresh cx s) :=
    .of_regs rfl rfl rfl id
  have hbegin : Tame _ (encBegin cx s) := hfresh.trans (Tame.runHdrSteps rfl _)
  have hscan := hbegin.trans (Tame.encScan (hbegin.bsro.trans rfl) cx canvas s.pixels)
  exact (hscan.trans (Tame.encFlush (hscan.bsro.trans rfl) cx)).trans (.encFinish output outCap _)

/-- A pass leaves the invariant, whatever the stream was before. -/
theorem inv_of_encodePass (cx : Ctx) (canvas : BufId) (output : HostBuf) (outCap : Nat) {s : State}
    (hcfg : s.cfg.legal = true) (hmem : s.memWf) (hidle : s.phase = .idle) :
    (encodePass cx canvas output outCap s).Inv ∧ (encodePass cx canvas output outCap s).cfg = s.cfg := by
  have htame := Tame.encodePass cx canvas output outCap s
  refine ⟨htame.inv (inv_of_idle hcfg (bsInit_memWf _ _ _ hmem) (bsInit_bsGood rfl) hidle) (htame.phase hidle), ?_⟩
  rw [htame.cfg, bsInit_cfg]

theorem fillPixels_wf (cfg : Config) (f : Fmt) (word : Nat → Word) (n : Nat) {b : Buffer} (h : b.wf = true) (i : Nat) :
    (fillPixels cfg f word b i n).wf = true := by
  induction n generalizing b i with
  | zero => exact h
  | succ n ih => exact ih (pixWrite_wf cfg f h i _) _

/-- The logical canvas is drawn in canonical form. -/
theorem drawCanvas_memWf (f : Fmt) (bg : Nat) {s : State} (h : s.memWf) : (drawCanvas f bg s).memWf :=
  memWf_setBuf (id := .lc) h (fillPixels_wf _ _ _ _ (zeros_wf _) _)

/-! ## The start of a `DECODE` -/

theorem Tame.endAlloc (s : State) : Tame s (endAlloc s) := .of_regs rfl rfl rfl id

/-- Fewer than 8 bytes hold no header (60_exceptions.md R313). -/
theorem decStart_short {a : DecodeArgs} {s : State} (hacc : a.accepted s) (halloc : a.allocOk = true)
    (hsize : a.inSize < 8) : decStart a s = .next { s with res := resRegs .malformed .shortHeader 0 0 } := by
  obtain ⟨hrl, hin, hdst, hne, hexp⟩ := hacc
  rw [decStart, if_neg (not_not.mpr hrl), if_neg (Nat.not_lt.mpr hin), if_neg (Nat.not_lt.mpr hdst), if_neg hne,
    if_neg (by rw [hexp]; rintro ⟨⟩), if_neg (by rw [halloc]; rintro ⟨⟩), if_pos hsize]

/-- The start of a `DECODE` either ends it, or comes to the header. -/
theorem decStart_next {a : DecodeArgs} {s t : State} (h : decStart a s = .next t) :
    (Tame s t ∧ t.phase = s.phase) ∨ (t = decStarted a s ∧ a.accepted s ∧ 8 ≤ a.inSize) := by
  have hacc : a.accepted s := (decStart_accepted_or_refused a s).resolve_right fun ⟨r, hr⟩ => by
    rw [hr] at h
    cases h
  cases halloc : a.allocOk with
  | false =>
    rw [decStart_unallocated hacc halloc] at h
    rw [← Host.Outcome.next.inj h]
    exact .inl ⟨.endAlloc s, rfl⟩
  | true =>
    by_cases hsize : 8 ≤ a.inSize
    · rw [decStart_accepted hacc halloc hsize] at h
      exact .inr ⟨(Host.Outcome.next.inj h).symm, hacc, hsize⟩
    · rw [decStart_short hacc halloc (Nat.not_le.mp hsize)] at h
      rw [← Host.Outcome.next.inj h]
      exact .inl ⟨.of_regs rfl rfl rfl id, rfl⟩

theorem headerGood_decStarted {a : DecodeArgs} {s : State} (hacc : a.accepted s) (hsize : 8 ≤ a.inSize) :
    (decStarted a s).headerGood := by
  obtain ⟨⟨hrl1, hrl2⟩, -, hdst, hne, -⟩ := hacc
  have hrl : (decStarted a s).rl = a.runLenBits := toNat_ofNat_holds (by omega)
  refine ⟨⟨rfl, rfl, fun heq => hne (BufId.host.inj heq), ?_, by rwa [hrl], by rwa [hrl]⟩, rfl, ?_⟩
  · rw [decStarted_buf]
    exact hdst
  · show 64 ≤ a.inSize * 8
    omega

theorem inv_decStarted {a : DecodeArgs} {s : State} (hinv : s.Inv) (hacc : a.accepted s) (hsize : 8 ≤ a.inSize) :
    (decStarted a s).Inv where
  cfg := hinv.cfg
  mem := memWf_congr (s := s) rfl hinv.mem
  bs := bsGood_congr (s := bsInit (.host a.inp) a.inSize true s) rfl (by rw [decStarted_buf]; rfl)
    (bsInit_bsGood (initFits_readOnly hacc.2.1))
  header _ := headerGood_decStarted hacc hsize
  setup := nofun
  loop := nofun

/-! ## Every step -/

/-- An operation that the host has asked for keeps the invariant. -/
theorem inv_of_exec {i : Instr} {s t : State} (hinv : s.Inv) (hidle : s.phase = .idle) (h : exec i s = .next t) :
    t.Inv ∧ t.cfg = s.cfg := by
  obtain ⟨id, size, ro, rfl⟩ | ⟨a, rfl⟩ | ⟨a, rfl⟩ | ⟨a, rfl⟩ | htame := tame_of_exec h
  · change execBsInit id size ro s = .next t at h
    unfold execBsInit at h
    split at h
    next hfits =>
      rw [← Host.Outcome.next.inj h]
      exact ⟨inv_of_idle (by rw [bsInit_cfg]; exact hinv.cfg) (bsInit_memWf _ _ _ hinv.mem) (bsInit_bsGood hfits)
        (by rw [bsInit_phase, hidle]), bsInit_cfg _ _ _ _⟩
    next => cases h
  · obtain ⟨f, hacc⟩ := (encode_accepted_or_refused a s).resolve_right fun ⟨r, hr⟩ => by rw [hr] at h; cases h
    cases halloc : a.allocOk with
    | false =>
      rw [exec_encode_unallocated hacc halloc] at h
      rw [← Host.Outcome.next.inj h]
      exact ⟨(Tame.endAlloc s).inv hinv hidle, rfl⟩
    | true =>
      rw [exec_encode_accepted hacc halloc] at h
      rw [← Host.Outcome.next.inj h]
      exact inv_of_encodePass _ _ _ _ (s := latched a.ctrl s) hinv.cfg (memWf_congr (s := s) rfl hinv.mem) hidle
  · change execDecode a s = .next t at h
    have hstate : { s with phase := .idle } = s := by rw [← hidle]
    rw [execDecode, hstate] at h
    cases hstart : decStart a s with
    | fault r => rw [hstart] at h; cases h
    | refused r => rw [hstart] at h; cases h
    | next u =>
      rw [hstart] at h
      have hu : u.Inv ∧ u.cfg = s.cfg := by
        obtain ⟨htame, hphase⟩ | ⟨rfl, hacc, hsize⟩ := decStart_next hstart
        · exact ⟨htame.inv hinv (hphase.trans hidle), htame.cfg⟩
        · exact ⟨inv_decStarted hinv hacc hsize, rfl⟩
      obtain ⟨v, hrun, hv, hvcfg⟩ := decRun_keeps (fuel := decFuel) hu.1
      rw [← Host.Outcome.next.inj (hrun.symm.trans h)]
      exact ⟨hv, hvcfg.trans hu.2⟩
  · obtain ⟨f, hacc⟩ := (draw_accepted_or_refused a s).resolve_right fun ⟨r, hr⟩ => by rw [hr] at h; cases h
    cases halloc : a.allocOk with
    | false =>
      rw [exec_draw_unallocated hacc halloc] at h
      rw [← Host.Outcome.next.inj h]
      exact ⟨(Tame.endAlloc s).inv hinv hidle, rfl⟩
    | true =>
      rw [exec_draw_accepted hacc halloc] at h
      rw [← Host.Outcome.next.inj h]
      exact inv_of_encodePass _ _ _ _ (s := drawCanvas f a.bg (latched a.ctrl s)) hinv.cfg
        (drawCanvas_memWf f a.bg (memWf_congr (s := s) (t := latched a.ctrl s) rfl hinv.mem)) hidle
  · exact ⟨htame.inv hinv (htame.phase hidle), htame.cfg⟩

/-- Settles O58: with no `DECODE` in progress the step is an operation of the host, and in one it is a step of it. -/
theorem stepKeepsInv : Obligations.StepKeepsInv := by
  intro s t hinv hstep
  by_cases hidle : s.phase = .idle
  · cases hpending : s.pending with
    | nil =>
      obtain ⟨-, -, -, hnone⟩ := stepRunsDecoded s .hdrDecode
      rw [hnone hidle hpending] at hstep
      rw [← Host.Outcome.next.inj hstep]
      exact ⟨hinv, rfl⟩
    | cons i rest =>
      obtain ⟨-, -, hasked, -⟩ := stepRunsDecoded s i
      rw [hasked rest hidle hpending] at hstep
      have htaken : Tame s { s with pending := rest } := .of_regs rfl rfl rfl id
      have hkeeps := inv_of_exec (htaken.inv hinv hidle) hidle hstep
      exact hkeeps
  · rw [step_eq_decStep hidle] at hstep
    obtain ⟨u, hu, huinv, hucfg⟩ := decStep_keeps hinv
    rw [← Host.Outcome.next.inj (hu.symm.trans hstep)]
    exact ⟨huinv, hucfg⟩

/-! ## `DECODE` as steps -/

/-- One step and the rest of a run. -/
theorem core_run_succ (k : Nat) (s : State) : core.run (k + 1) s = match step s with
    | .next t => core.run k t
    | .fault r => .fault r
    | .refused r => .refused r := by
  have hrun := Host.Core.run.eq_2 core s k
  have hstep : core.step s = step s := rfl
  rw [hstep] at hrun
  rw [hrun]
  cases step s <;> rfl

/-- The steps of a `DECODE` in progress are steps of the machine, as many as it takes. -/
theorem decRun_eq_run (fuel : Nat) (s : State) : ∃ k, k ≤ fuel ∧ decRun fuel s = core.run k s := by
  induction fuel generalizing s with
  | zero => exact ⟨0, le_rfl, rfl⟩
  | succ fuel ih =>
    by_cases hidle : s.phase = .idle
    · exact ⟨0, Nat.zero_le _, decRun_idle _ _ hidle⟩
    · have hrun (k : Nat) := core_run_succ k s
      rw [step_eq_decStep hidle] at hrun
      rw [decRun_succ, if_neg hidle]
      cases hstep : decStep s with
      | next t =>
        obtain ⟨k, hk, heq⟩ := ih t
        exact ⟨k + 1, Nat.succ_le_succ hk, by rw [hrun, hstep]; exact heq⟩
      | fault r => exact ⟨1, Nat.succ_le_succ (Nat.zero_le _), by rw [hrun, hstep]; rfl⟩
      | refused r => exact ⟨1, Nat.succ_le_succ (Nat.zero_le _), by rw [hrun, hstep]; rfl⟩

/-- Settles O49. -/
theorem decodeIsSteps : Obligations.DecodeIsSteps := by
  intro a s t _ hidle hstart
  have hstate : { s with phase := .idle } = s := by rw [← hidle]
  obtain ⟨k, hk, hrun⟩ := decRun_eq_run decFuel t
  refine ⟨k, hk, ?_⟩
  show execDecode a s = _
  rw [execDecode, hstate, hstart]
  exact hrun

end Sys2Proof.Proofs
end

section
/-! PROOFS. How `DECODE` ends (44_decoder.md R231, R242 to R244): the errors before its loop, the end of its loop, and a
stream of a header and executable entries. -/

namespace Sys2Proof.Proofs

open Sys2Proof.Machine Sys2Proof.Laws

/-! ## The errors before the loop -/

/-- Fewer than 8 bytes end a `DECODE` before it reads anything. -/
theorem exec_decode_short {a : DecodeArgs} {s : State} (hacc : a.accepted s) (halloc : a.allocOk = true)
    (hsize : a.inSize < 8) :
    exec (.decode a) s = .next { s with phase := .idle, res := resRegs .malformed .shortHeader 0 0 } := by
  have hstart := decStart_short (s := { s with phase := .idle }) hacc halloc hsize
  show execDecode a s = _
  rw [execDecode, hstart]
  exact decRun_idle _ _ rfl

/-- The header that stands at the start of the input is read. -/
theorem decStep_decStarted_of_decode {a : DecodeArgs} {h : Header} {rest : List Bool} {s : State} (hsize : 8 ≤ a.inSize)
    (hd : decodeHeader s.cfg.hdrRsv0 s.cfg.bitOrder ((s.buf (.host a.inp)).bitList s.cfg.bitOrder 0 64) = .ok (h, rest)) :
    decStep (decStarted a s) = .next (decHeaderRead a h s) := by
  have hpos : (decStarted a s).bs.pos + 64 ≤ (decStarted a s).bs.cap := by rw [decStarted_bs]; simp only; omega
  refine decStep_header (rest := rest) rfl hpos ?_
  rw [streamBits_inside hpos, decStarted_buf]
  exact hd

/-- An error of the checks ends a `DECODE`. -/
theorem exec_decode_raised {a : DecodeArgs} {h : Header} {rest : List Bool} {s : State} {cause : Cause}
    (hacc : a.accepted s) (halloc : a.allocOk = true) (hsize : 8 ≤ a.inSize)
    (hd : decodeHeader s.cfg.hdrRsv0 s.cfg.bitOrder ((s.buf (.host a.inp)).bitList s.cfg.bitOrder 0 64) = .ok (h, rest))
    (hraise : decSetup (decHeaderRead a h s) = raiseMalformed cause 0 (decHeaderRead a h s)) :
    exec (.decode a) s = .next (raiseMalformed cause 0 (decHeaderRead a h s)) := by
  have hsetup : decStep (decHeaderRead a h s) = .next (raiseMalformed cause 0 (decHeaderRead a h s)) := by
    simp only [decStep, decHeaderRead_phase, hraise]
  rw [exec_decode_started hacc halloc hsize, show decFuel = 2 ^ 32 + 1 + 1 + 1 from rfl,
    decRun_step (by rintro ⟨⟩) (decStep_decStarted_of_decode hsize hd), decRun_step (by rintro ⟨⟩) hsetup]
  exact decRun_idle _ _ rfl

/-- `CTRL` after the header of a `DECODE`. -/
theorem decHeaderRead_ctrl {a : DecodeArgs} {s : State} (hacc : a.accepted s) (h : Header) :
    (decHeaderRead a h s).ctrl.holds h ∧ (decHeaderRead a h s).ctrl.runLenBits.toNat = a.runLenBits
      ∧ (decHeaderRead a h s).ctrl.zeroize = s.ctrl.zeroize :=
  ⟨⟨rfl, rfl, rfl, rfl, rfl, decHeaderRead_width a h s, decHeaderRead_height a h s⟩,
    toNat_ofNat_holds (by have := hacc.1.2; omega), rfl⟩

/-- Settles O46: nothing is written before the loop, and the checks come in the order of `decSetup`. -/
theorem decodeHeaderErrors : Obligations.DecodeHeaderErrors := by
  intro a s hacc halloc raised
  refine ⟨fun hsize => ?short, ?checks⟩
  case short =>
    refine ⟨_, exec_decode_short hacc halloc hsize, resRegs_reports _ _ _ _, fun id off => ?_, rfl⟩
    rw [State.byteAt, buf_congr (s := s) rfl, State.byteAt]
  intro h rest hsize hd read
  have raise {cause : Cause} (hraise : decSetup (decHeaderRead a h s) = raiseMalformed cause 0 (decHeaderRead a h s)) :
      raised cause 64 read := by
    refine ⟨_, exec_decode_raised hacc halloc hsize hd hraise, resRegs_reports _ _ _ _, fun id off => ?_,
      decHeaderRead_ctrl hacc h⟩
    rw [State.byteAt, buf_congr (s := s) rfl, State.byteAt]
  refine ⟨fun hf => raise ?_, fun f hf hmismatch => raise ?_⟩
  · have hf' : (decHeaderRead a h s).fmt? = none := hf
    simp only [decSetup, hf']
  · have hf' : (decHeaderRead a h s).fmt? = some f := hf
    simp only [decSetup, hf']
    obtain ⟨w, ht, hexp, hne⟩ | hroom := hmismatch
    · have hfails : expectationFails (decHeaderRead a h s) = true := by
        rw [expectationFails, decHeaderRead_job, decHeaderRead_width, decHeaderRead_height, hexp]
        simp only [ne_eq, Bool.or_eq_true, decide_eq_true_eq]
        by_contra hn
        rw [not_or, not_not, not_not] at hn
        exact hne (by rw [hn.1, hn.2])
      rw [if_pos hfails]
    · rw [decHeaderRead_pixels, decHeaderRead_job, if_pos hroom, ite_self]

/-! ## The loop ends -/

/-- What the loop of a `DECODE` leaves at its end, whatever the stream holds. -/
structure LoopEnds (f : Fmt) (s t : State) : Prop where
  phase : t.phase = .idle
  status : t.res.status = .ok ∨ t.res.status = .malformed
  size : regHolds t.res.size (f.pixbytes t.dec.outpix)
  inside : t.dec.outpix ≤ s.pixels
  more : s.dec.outpix ≤ t.dec.outpix
  bytes : s.keepsBytes t (bytesFrom (.host s.job.dst) 0 (f.pixbytes t.dec.outpix))
  regs : t.withMem s = { s with
    bs := t.bs
    dec := t.dec
    pal := t.pal
    res := t.res
    free := t.free
    phase := .idle }

/-- The loop ends, with as many steps as pixels remain and one more (44_decoder.md R242). -/
theorem loop_ends {s : State} {f : Fmt} {fuel : Nat} (hinv : s.Inv) (hphase : s.phase = .entries) (hf : s.fmt? = some f)
    (hfuel : s.dec.remaining < fuel) : ∃ t, decRun fuel s = .next t ∧ LoopEnds f s t := by
  induction fuel generalizing s with
  | zero => omega
  | succ fuel ih =>
    obtain ⟨f', t, hf', hroom, hstep, htame, hend⟩ := decStep_entries hinv hphase
    obtain rfl : f' = f := Option.some.inj (hf'.symm.trans hf)
    have hrun := decRun_step (n := fuel) (by rw [hphase]; rintro ⟨⟩) hstep
    have hsum := (hinv.loop hphase).2.2.2.1
    obtain ⟨hdone, rfl⟩ | hentry := hend
    · have houtpix : s.dec.outpix = s.pixels := by omega
      refine ⟨_, hrun.trans (decRun_idle _ _ rfl), rfl, .inl rfl, ?_, houtpix.le, le_rfl,
        keepsBytes_of_buf_eq (fun id => buf_congr rfl id) _, rfl⟩
      show regHolds (sizeReg _) (f'.pixbytes s.dec.outpix)
      rw [houtpix]
      exact sizeReg_held _
    · obtain ⟨hregs, hmore, hbytes⟩ := hentry.frame
      obtain ⟨hidle, hmal, hsize, houtpix⟩ | ⟨hnext, hloop, hless⟩ := hentry.loopGood htame hphase (hinv.loop hphase)
      · rw [hidle] at hregs
        exact ⟨t, hrun.trans (decRun_idle _ _ hidle), hidle, .inr hmal, hsize, by omega, hmore, hbytes, hregs⟩
      · have hctrl : t.ctrl = s.ctrl := (congrArg State.ctrl hregs :)
        have hjob : t.job = s.job := (congrArg State.job hregs :)
        have htinv : t.Inv := inv_of_entries (by rw [htame.cfg]; exact hinv.cfg) (htame.mem hinv.mem)
          (htame.good hinv.bs) hnext hloop
        obtain ⟨u, hrest, hends⟩ := ih htinv hnext (by rw [State.fmt?, htame.cfg, hctrl]; exact hf) (by omega)
        refine ⟨u, hrun.trans hrest, hends.phase, hends.status, hends.size, ?_, hmore.trans hends.more, ?_, ?_⟩
        · have := hends.inside
          rwa [State.pixels, hctrl] at this
        · have hu := hends.bytes
          rw [hjob] at hu
          refine keepsBytes_trans (keepsBytes_mono ?_ hbytes) hu
          rintro id off ⟨rfl, h0, hoff⟩
          have := pixbytes_mono f' hends.more
          rw [Nat.zero_add] at hoff
          exact ⟨rfl, h0, (lt_of_lt_of_le hoff this).trans_eq (Nat.zero_add _).symm⟩
        · calc u.withMem s = (u.withMem t).withMem s := rfl
            _ = ({ t.withMem s with
                bs := u.bs, dec := u.dec, pal := u.pal, res := u.res, free := u.free, phase := .idle } : State) := by
              rw [hends.regs]; rfl
            _ = _ := by rw [hregs]

/-- The `DECODE` that has ended before its loop has no size and has written nothing. -/
theorem exec_decode_cases {a : DecodeArgs} {s : State} (hinv : s.Inv) (hacc : a.accepted s) (halloc : a.allocOk = true) :
    (∃ cause, exec (.decode a) s = .next { s with phase := .idle, res := resRegs .malformed cause 0 0 })
      ∨ ∃ h : Header, (∃ cause, exec (.decode a) s = .next (raiseMalformed cause 0 (decHeaderRead a h s)))
          ∨ ∃ f t, (decHeaderRead a h s).fmt? = some f ∧ f.pixbytes (decHeaderRead a h s).pixels ≤ a.dstCap
            ∧ exec (.decode a) s = .next t ∧ LoopEnds f (decReset (decHeaderRead a h s)) t := by
  by_cases hsize : 8 ≤ a.inSize
  case neg => exact .inl ⟨_, exec_decode_short hacc halloc (Nat.not_le.mp hsize)⟩
  have hstarted := inv_decStarted hinv hacc hsize
  have hread := inv_of_header hstarted rfl
  have hd : decodeHeader s.cfg.hdrRsv0 s.cfg.bitOrder ((s.buf (.host a.inp)).bitList s.cfg.bitOrder 0 64) =
      .ok (fetchHeader (decStarted a s), []) := by
    have hstream := decodeHeader_stream (decStarted a s)
    rwa [← fetchHeader_eq, streamBits_inside (by rw [decStarted_bs]; simp only; omega), decStarted_buf] at hstream
  generalize fetchHeader (decStarted a s) = h at hd hread
  change (decHeaderRead a h s).Inv at hread
  refine .inr ⟨h, ?_⟩
  obtain ⟨cause, hraise⟩ | ⟨f, hf, hroom, hreset⟩ := decSetup_cases (decHeaderRead a h s)
  · exact .inl ⟨cause, exec_decode_raised hacc halloc hsize hd hraise⟩
  · have hloop := inv_of_setup hread rfl
    rw [hreset] at hloop
    have hframe : (decHeaderRead a h s).pixels ≤ 2 ^ 16 * 2 ^ 16 := by
      rw [decHeaderRead_pixels]
      exact Nat.mul_le_mul h.widthM1.isLt h.heightM1.isLt
    obtain ⟨t, hrun, hends⟩ := loop_ends (fuel := 2 ^ 32 + 1) hloop rfl hf (by
      show (decHeaderRead a h s).pixels < _
      omega)
    refine .inr ⟨f, t, hf, hroom, ?_, hends⟩
    have hsetup : decStep (decHeaderRead a h s) = .next (decReset (decHeaderRead a h s)) := by
      simp only [decStep, decHeaderRead_phase, hreset]
    rw [exec_decode_started hacc halloc hsize, show decFuel = 2 ^ 32 + 1 + 1 + 1 from rfl,
      decRun_step (by rintro ⟨⟩) (decStep_decStarted_of_decode hsize hd), decRun_step (by rintro ⟨⟩) hsetup, hrun]

/-- Settles O47: before the loop nothing is written, and the loop ends. -/
theorem decodeEnds : Obligations.DecodeEnds := by
  intro a s hinv hidle hacc halloc
  have before {t : State} (hexec : exec (.decode a) s = .next t) (hphase : t.phase = .idle)
      (hstatus : t.res.status = .malformed) (hsize : t.res.size = sizeReg 0) (hbuf : ∀ id, t.buf id = s.buf id)
      (hregs : t.withMem s = { s with
        phase := .idle, bs := t.bs, ctrl := t.ctrl, res := t.res, dec := t.dec, pal := t.pal, job := t.job, free := t.free }) :
      ∃ t n, exec (.decode a) s = .next t ∧ t.phase = .idle ∧ (t.res.status = .ok ∨ t.res.status = .malformed)
        ∧ regHolds t.res.size n ∧ n ≤ a.dstCap
        ∧ (n = 0 ∨ ∃ f, s.cfg.fmtOf t.ctrl.fmt = some f ∧ n = f.pixbytes t.dec.outpix)
        ∧ s.keepsBytes t (bytesFrom (.host a.dst) 0 n)
        ∧ t.withMem s = { s with
            bs := t.bs, ctrl := t.ctrl, res := t.res, dec := t.dec, pal := t.pal, job := t.job, free := t.free } := by
    refine ⟨t, 0, hexec, hphase, .inr hstatus, ?_, Nat.zero_le _, .inl rfl, keepsBytes_of_buf_eq hbuf _, ?_⟩
    · rw [hsize]
      exact sizeReg_held 0
    · rw [hregs, ← hidle]
  obtain ⟨cause, hexec⟩ | ⟨h, ⟨cause, hexec⟩ | ⟨f, t, hf, hroom, hexec, hends⟩⟩ := exec_decode_cases hinv hacc halloc
  · exact before hexec rfl rfl rfl (fun id => buf_congr rfl id) rfl
  · exact before hexec rfl rfl rfl (fun id => buf_congr rfl id) rfl
  · have hregs := hends.regs
    have hctrl : t.ctrl = (decHeaderRead a h s).ctrl := (congrArg State.ctrl hregs :)
    have hjob : t.job = (decHeaderRead a h s).job := (congrArg State.job hregs :)
    refine ⟨t, f.pixbytes t.dec.outpix, hexec, hends.phase, hends.status, hends.size,
      (pixbytes_mono f hends.inside).trans hroom, .inr ⟨f, ?_, rfl⟩, ?_, ?_⟩
    · rw [hctrl]
      exact hf
    · exact keepsBytes_trans (keepsBytes_of_buf_eq (fun id => (decReset_buf _ id).trans (decHeaderRead_buf a h s id)) _)
        hends.bytes
    · rw [hctrl, hjob]
      show t.withMem (decReset (decHeaderRead a h s)) = _
      rw [hregs, ← hidle]
      rfl

/-! ## A whole stream -/

/-- What the loop leaves beside the pixels of its entries. -/
structure Covered (cx : Ctx) (es : List Entry) (s t : State) : Prop where
  pal : t.pal = cacheAfter cx s.pal es
  ctrl : t.ctrl = s.ctrl
  outside : ∀ i, ¬(s.dec.outpix ≤ i ∧ i < s.dec.outpix + coveredPixels es) →
    pixRead s.cfg cx.fmt (t.buf (.host s.job.dst)) i = pixRead s.cfg cx.fmt (s.buf (.host s.job.dst)) i
  bytes : s.keepsBytes t (bytesFrom (.host s.job.dst) 0 (cx.fmt.pixbytes (s.dec.outpix + coveredPixels es)))

theorem EntryFits.entryInside {cx : Ctx} {e : Entry} {s : State} (h : EntryFits cx e s) : EntryInside cx e s :=
  ⟨h.fmt, h.ctx, h.ok, h.inside, h.length, h.room⟩

theorem Covered.cons {cx : Ctx} {e : Entry} {es : List Entry} {s t : State} (h : Reading cx (e :: es) s)
    (hrest : Covered cx es (decEmit cx (resolved cx e s)) t) : Covered cx (e :: es) s t := by
  obtain ⟨hregs, -, hother, hkeeps⟩ := h.entryFits.entryInside.spec (entryColor cx s.pal e) (cacheAfterEntry cx s.pal e)
  change (decEmit cx (resolved cx e s)).withMem s = _ at hregs
  change ∀ i, _ → pixRead s.cfg cx.fmt ((decEmit cx (resolved cx e s)).buf _) i = _ at hother
  change s.keepsBytes (decEmit cx (resolved cx e s)) _ at hkeeps
  generalize decEmit cx (resolved cx e s) = u at hregs hother hkeeps hrest
  have hcfg : u.cfg = s.cfg := (congrArg State.cfg hregs :)
  have hctrl : u.ctrl = s.ctrl := (congrArg State.ctrl hregs :)
  have hdst : u.job.dst = s.job.dst := (congrArg (fun x : State => x.job.dst) hregs :)
  have hpal : u.pal = cacheAfterEntry cx s.pal e := (congrArg State.pal hregs :)
  have houtpix : u.dec.outpix = s.dec.outpix + e.runLength := (congrArg (fun x : State => x.dec.outpix) hregs :)
  obtain ⟨hupal, huctrl, huout, hubytes⟩ := hrest
  rw [hcfg, hdst, houtpix] at huout
  rw [hdst, houtpix] at hubytes
  rw [Nat.add_assoc, ← coveredPixels_cons] at hubytes
  refine ⟨by rw [hupal, hpal]; rfl, huctrl.trans hctrl, fun i hi => ?_, keepsBytes_trans (keepsBytes_mono ?_ hkeeps) hubytes⟩
  · rw [coveredPixels_cons] at hi
    rw [huout i (by omega), hother i (by omega)]
  · rintro id off ⟨rfl, -, hoff⟩
    have := pixbytes_mono cx.fmt (m := s.dec.outpix + e.runLength) (n := s.dec.outpix + coveredPixels (e :: es))
      (by rw [coveredPixels_cons]; omega)
    exact ⟨rfl, Nat.zero_le _, by omega⟩

theorem Reading.covered {cx : Ctx} {es : List Entry} {s t : State} (h : Reading cx es s) (hcfg : cx.cfg.legal = true)
    {fuel : Nat} (hfuel : es.length < fuel) (hrun : Machine.decRun fuel s = .next t) : Covered cx es s t := by
  induction es generalizing s fuel with
  | nil =>
    obtain ⟨fuel, rfl⟩ := Nat.exists_eq_add_of_lt hfuel
    rw [decRun_succ, if_neg (by rw [h.phase]; rintro ⟨⟩), h.decStep_nil] at hrun
    rw [← Host.Outcome.next.inj ((decRun_idle (0 + fuel) (endDecode cx.fmt s) rfl).symm.trans hrun)]
    exact ⟨rfl, rfl, fun i _ => by rw [buf_congr (s := s) rfl], keepsBytes_of_buf_eq (fun id => buf_congr rfl id) _⟩
  | cons e es ih =>
    obtain ⟨fuel, rfl⟩ := Nat.exists_eq_succ_of_ne_zero (Nat.ne_zero_of_lt hfuel)
    rw [decRun_succ, if_neg (by rw [h.phase]; rintro ⟨⟩), h.decStep_cons hcfg] at hrun
    exact .cons h (ih h.next (Nat.lt_of_succ_lt_succ hfuel) hrun)

/-- Settles O48: the loop runs through the entries, and what it leaves beside their pixels is `Covered`. -/
theorem decodeStream : Obligations.DecodeStream := by
  intro a f h es rest s hcfg hacc halloc hfmt cx w ht hexp hroom hexecutable hcover hbits
  have hcx : decodeCtx a s.cfg f h = cx := rfl
  obtain ⟨t, hexec, hres, hpixels⟩ :=
    exec_decode_stream hcfg hacc halloc hcx hfmt hexp hroom hexecutable hcover hbits
  obtain ⟨hfits, hheader, hentries⟩ := bitList_stream hbits
  obtain ⟨hread, hpal⟩ := reading_decReset hcfg hacc hcx hfmt hroom hexecutable hcover hfits hentries
  have hrun := hexec
  rw [exec_decode_started hacc halloc (by omega), show decFuel = 2 ^ 32 + 1 + 1 + 1 from rfl,
    decRun_step (by rintro ⟨⟩) (decStep_decStarted (by omega) hheader),
    decRun_step (by rintro ⟨⟩) (decStep_decHeaderRead hfmt hexp hroom)] at hrun
  obtain ⟨htpal, htctrl, houtside, hbytes⟩ := hread.covered hcfg (hread.length_lt_fuel hcover) hrun
  have hbuf (id : BufId) : (decReset (decHeaderRead a h s)).buf id = s.buf id :=
    (decReset_buf _ id).trans (decHeaderRead_buf a h s id)
  have hstart : (decReset (decHeaderRead a h s)).dec.outpix + coveredPixels es = w * ht := by
    rw [hcover]
    exact Nat.zero_add _
  rw [hstart] at houtside hbytes
  refine ⟨t, hexec, ?_, hpixels, fun i hi => ?_, keepsBytes_trans (keepsBytes_of_buf_eq hbuf _) hbytes,
    htpal.trans (by rw [hpal]), ?_⟩
  · rw [hres]
    exact resRegs_reports _ _ _ _
  · have hpixel := houtside i (by omega)
    rw [hbuf] at hpixel
    exact hpixel
  · rw [htctrl]
    exact (decHeaderRead_ctrl hacc h).1

end Sys2Proof.Proofs
end

section
/-! PROOFS. A whole pass of the encoder (43_encoder.md R201, R215): what it leaves of the registers and the buffers, and the
stream it writes, for the canvas of an `ENCODE` and the logical canvas of a `DRAW`. -/

namespace Sys2Proof.Proofs

open Sys2Proof.Machine Sys2Proof.Laws

/-! ## What a scan leaves of the buffers -/

theorem encScanStep_buf_other {cx : Ctx} {canvas : BufId} {s : State} (hbound : s.bs.buf = .scratch) {id : BufId}
    (hscratch : id ≠ .scratch) (hcanvas : id ≠ canvas) : (encScanStep cx canvas s).buf id = s.buf id := by
  have hpixel := encPixel_other cx (scanColor cx canvas s s.encI) (scanPrepped cx canvas s) (id := id) (by
    rw [scanPrepped, setBuf_bs, hbound]
    exact hscratch)
  rw [encScanStep_eq, buf_congr rfl, hpixel]
  exact buf_setBuf_other s _ hcanvas

/-- A scan leaves every buffer but the scratch buffer and the canvas. -/
theorem encScan_buf_other {cx : Ctx} {canvas : BufId} {n : Nat} {s : State} (hbound : s.bs.buf = .scratch) {id : BufId}
    (hscratch : id ≠ .scratch) (hcanvas : id ≠ canvas) : (encScan cx canvas n s).buf id = s.buf id := by
  induction n generalizing s with
  | zero => rfl
  | succ n ih =>
    rw [encScan, ih ((encScanStep_frame cx canvas s).bsbuf.trans hbound), encScanStep_buf_other hbound hscratch hcanvas]

/-- It leaves the bytes of the canvas that hold no pixel it came to. -/
theorem read_encScan {cx : Ctx} {canvas : BufId} {n : Nat} {s : State} (h : Scanning canvas cx n s) {off : Nat}
    (hoff : cx.fmt.pixbytes (s.encI + n) ≤ off) :
    ((encScan cx canvas n s).buf canvas).read off = (s.buf canvas).read off := by
  induction n generalizing s with
  | zero => rfl
  | succ n ih =>
    rw [encScan, ih h.step (by rwa [encScanStep_encI, Nat.add_assoc, Nat.add_comm 1]), encScanStep_buf_canvas h,
      setPixelColor, read_pixWrite_other]
    have hend : pixelOffset cx.fmt s.encI + cx.fmt.pixbytes 1 ≤ cx.fmt.pixbytes (s.encI + (n + 1)) := by
      cases cx.fmt <;> simp only [pixelOffset_eq, pixbytes_eq] <;> omega
    omega

/-! ## The pass up to its end -/

theorem encFresh_buf {cx : Ctx} {s : State} {id : BufId} (h : id ≠ .scratch) : (encFresh cx s).buf id = s.buf id := by
  rw [encFresh, buf_congr (s := bsInit .scratch (scratchBytes s.cfg s.pixels cx.pixBits) false s) rfl]
  exact bsInit_buf_other _ _ _ s h

/-- The resets and the header leave the fresh stream alone changed. -/
theorem encBegin_onlyStream (cx : Ctx) (s : State) : OnlyStream (encFresh cx s) (encBegin cx s) :=
  ((encFresh_emitted cx s).hdrEncode (encFresh_cap cx s)).2

theorem encBegin_buf {cx : Ctx} {s : State} {id : BufId} (h : id ≠ .scratch) : (encBegin cx s).buf id = s.buf id :=
  ((encBegin_onlyStream cx s).other id h).trans (encFresh_buf h)

/-- What steps 1 to 4 of a pass leave, beside the stream. -/
structure PassFrame (canvas : BufId) (f : Fmt) (s u : State) : Prop where
  cfg : u.cfg = s.cfg
  dec : u.dec = s.dec
  ctrl : u.ctrl = s.ctrl
  job : u.job = s.job
  objs : u.objs = s.objs
  phase : u.phase = s.phase
  pending : u.pending = s.pending
  ret : u.ret = s.ret
  cap : u.bs.cap = 8 * scratchBytes s.cfg s.pixels f.bits
  other : ∀ id, id ≠ .scratch → id ≠ canvas → u.buf id = s.buf id
  size : ∀ id, id ≠ .scratch → (u.buf id).size = (s.buf id).size
  pixels : ∀ i, pixRead s.cfg f (u.buf canvas) i =
    if i < s.pixels then pack s.cfg.channelScale f (scanColor (s.ctxOf f) canvas s i)
    else pixRead s.cfg f (s.buf canvas) i
  bytes : ∀ off, f.pixbytes s.pixels ≤ off → (u.buf canvas).read off = (s.buf canvas).read off

section
variable {canvas : BufId} {f : Fmt} {s : State} (hcanvas : canvas ≠ .scratch)
  (hroom : f.pixbytes s.pixels ≤ (s.buf canvas).size)
include hcanvas

theorem scanColor_encBegin (i : Nat) :
    scanColor (s.ctxOf f) canvas (encBegin (s.ctxOf f) s) i = scanColor (s.ctxOf f) canvas s i := by
  obtain ⟨-, hcfg, hctrl, -⟩ := encBegin_spec f s
  simp only [scanColor, preppedColor, hcfg, hctrl, encBegin_buf hcanvas]

include hroom

theorem scanning_encBegin : Scanning canvas (s.ctxOf f) s.pixels (encBegin (s.ctxOf f) s) := by
  obtain ⟨hemit, -, -, -, hencI, -⟩ := encBegin_spec f s
  refine ⟨hemit.bound, hcanvas, ?_⟩
  rw [hencI, Nat.zero_add, encBegin_buf hcanvas]
  exact hroom

theorem encodeStream_frame : PassFrame canvas f s (encodeStream (s.ctxOf f) canvas s) := by
  obtain ⟨hemit, hcfg, hctrl, -, hencI, -⟩ := encBegin_spec f s
  have hscan := scanning_encBegin hcanvas hroom
  have honly := (encBegin_onlyStream (s.ctxOf f) s).frame
  have hframe := (honly.trans (encScan_frame (s.ctxOf f) canvas s.pixels _)).trans (flush_frame (s.ctxOf f) _)
  have hflush (id : BufId) (h : id ≠ .scratch) : (encodeStream (s.ctxOf f) canvas s).buf id =
      (encScan (s.ctxOf f) canvas s.pixels (encBegin (s.ctxOf f) s)).buf id :=
    flush_other _ _ (by rw [(encScan_frame _ _ _ _).bsbuf, hemit.bound]; exact h)
  refine {
    cfg := hframe.cfg
    dec := hframe.dec
    ctrl := hframe.ctrl
    job := hframe.job
    objs := hframe.objs
    phase := hframe.phase
    pending := hframe.pending
    ret := hframe.ret
    cap := hframe.bscap.trans (Nat.mul_comm _ 8)
    other := fun id h1 h2 => by rw [hflush id h1, encScan_buf_other hemit.bound h1 h2, encBegin_buf h1]
    size := fun id h => (hframe.size id).trans (by rw [encFresh_buf h])
    pixels := fun i => ?pixels
    bytes := fun off hoff => ?bytes }
  case pixels =>
    have hpixel := pixRead_encScan hscan i
    rw [hencI, hcfg, encBegin_buf hcanvas, scanColor_encBegin hcanvas] at hpixel
    rw [hflush canvas hcanvas]
    exact hpixel.trans (if_congr (by omega) rfl rfl)
  case bytes =>
    rw [hflush canvas hcanvas, read_encScan hscan (by rw [hencI, Nat.zero_add]; exact hoff), encBegin_buf hcanvas]

/-- The stream of a pass: the header of `CTRL` and the entries of the preprocessed canvas. -/
theorem encodeStream_emitted (hcfg : s.cfg.legal = true) (hpos : 0 < s.pixels) :
    Emitted (streamOf (s.ctxOf f) (headerOfCtrl s.ctrl)
      (canvasEntries (s.ctxOf f) ((List.range s.pixels).map (scanColor (s.ctxOf f) canvas s))))
      (encodeStream (s.ctxOf f) canvas s) := by
  obtain ⟨hemit, hcfgb, hctrl, hrun, hencI, hpal, -⟩ := encBegin_spec f s
  have hscan := scanning_encBegin hcanvas hroom
  have hcolors : scanColors (s.ctxOf f) canvas (encBegin (s.ctxOf f) s) s.pixels =
      (List.range s.pixels).map (scanColor (s.ctxOf f) canvas s) := by
    rw [scanColors, hencI, List.range_eq_range']
    exact List.map_congr_left fun i _ => scanColor_encBegin hcanvas i
  have hfull : CacheFull (s.ctxOf f) (encBegin (s.ctxOf f) s).pal := by
    rw [hpal]
    exact cacheFull_seed hcfg
  have hk : (s.ctxOf f).k < 2 ^ 32 := lt_trans s.ctrl.palSize.isLt (by norm_num)
  obtain ⟨n, hn⟩ := Nat.exists_eq_succ_of_ne_zero hpos.ne'
  rw [hn] at hscan hcolors
  have hstream := hemit.scan hscan hcfgb.symm hfull hk hrun
  rw [hcolors, hpal, ← Nat.succ_eq_add_one, ← hn] at hstream
  exact hstream

end

/-! ## The end of the pass -/

/-- What `ENC.FINISH` leaves, whether the stream fits or not. -/
structure PassEnds (output : HostBuf) (outCap : Nat) (u t : State) : Prop where
  reports : t.res.reports t.res.status .none (emittedSize u.bs.pos) u.bs.pos
  status : t.res.status = .ok ∨ t.res.status = .capacity
  past : t.res.status = .capacity ↔ u.bs.cap < u.bs.pos ∨ outCap < emittedSize u.bs.pos
  regs : t = { u.withMem t with res := t.res }
  other : ∀ id, id ≠ .host output → t.buf id = u.buf id
  bytes : ∀ id off, ¬(id = .host output ∧ t.res.status = .ok ∧ off < emittedSize u.bs.pos) →
    t.byteAt id off = u.byteAt id off
  copied : t.res.status = .ok → emittedSize u.bs.pos ≤ (u.buf (.host output)).size →
    ∀ off, off < emittedSize u.bs.pos → (t.buf (.host output)).read off = u.scratch.read off

theorem encFinish_ends (output : HostBuf) (outCap : Nat) (u : State) :
    PassEnds output outCap u (encFinish output outCap u) := by
  by_cases hfits : u.bs.pos ≤ u.bs.cap ∧ emittedSize u.bs.pos ≤ outCap
  · rw [encFinish_fits hfits.1 hfits.2]
    have hbuf (id : BufId) : ({ copyOut output u with
        res := resRegs .ok .none (emittedSize u.bs.pos) u.bs.pos } : State).buf id = (copyOut output u).buf id :=
      buf_congr rfl id
    refine ⟨resRegs_reports _ _ _ _, .inl rfl, ⟨nofun, fun h => by omega⟩, ?_, fun id hid => ?_, fun id off ho => ?_,
      fun _ hroom off hoff => ?_⟩
    · simp [State.withMem, copyOut]
    · rw [hbuf]
      exact buf_setBuf_other u _ hid
    · rw [State.byteAt, hbuf]
      exact (copyOut_keepsBytes output u).2 id off fun h => ho ⟨h.1, rfl, by simpa using h.2.2⟩
    · rw [hbuf]
      exact read_copyOut hroom hoff
  · have hpast : u.bs.cap < u.bs.pos ∨ outCap < emittedSize u.bs.pos := by omega
    rw [encFinish_past hpast]
    exact ⟨resRegs_reports _ _ _ _, .inr rfl, ⟨fun _ => hpast, fun _ => rfl⟩, rfl, fun id _ => buf_congr rfl id,
      fun id off _ => by rw [State.byteAt, buf_congr (s := u) rfl, State.byteAt], nofun⟩

/-- Settles O31: the canvas is the one that the scan leaves, and the copy touches `OUT` alone. -/
theorem encodeResult : Obligations.EncodeResult := by
  intro a f s hacc halloc
  have hexec := exec_encode_accepted hacc halloc
  obtain ⟨-, hlegal, hroom, hne, -⟩ := hacc
  have hfits := ctrlFits_of_legal hlegal
  have hpixels := latched_pixels hfits s
  have hframe := encodeStream_frame (canvas := .host a.canvas) (f := f) (s := latched a.ctrl s) (by rintro ⟨⟩) (by
    rw [hpixels, latched_buf]
    exact hroom)
  rw [latched_ctxOf hfits] at hframe
  rw [encodePass] at hexec
  generalize encodeStream (a.ctrl.ctx s.cfg f) (.host a.canvas) (latched a.ctrl s) = u at hexec hframe
  have hends := encFinish_ends a.out a.outCap u
  generalize encFinish a.out a.outCap u = t at hexec hends
  have hne' : BufId.host a.canvas ≠ .host a.out := fun heq => hne (BufId.host.inj heq)
  have hcanvas := hends.other _ hne'
  have hpix := hframe.pixels
  have hbytes := hframe.bytes
  have hcap := hframe.cap
  have hother := hframe.other
  have hregs := hends.regs
  rw [hpixels] at hpix hbytes hcap
  have scan (i : Nat) : scanColor ((latched a.ctrl s).ctxOf f) (.host a.canvas) (latched a.ctrl s) i =
      a.ctrl.prep (pixelColor s.cfg f (s.buf (.host a.canvas)) i) := by
    rw [latched_ctxOf hfits, scanColor_latched hfits]
  refine ⟨t, u.bs.pos, hexec, hends.status, hends.reports, ?past, fun i hi => ?inside, fun i hi => ?beyond,
    fun h off hc ho => ?bytes, ?_⟩
  case past =>
    rw [hends.past, hcap]
    rfl
  case inside =>
    rw [hcanvas, ← scan]
    exact (hpix i).trans (if_pos hi)
  case beyond =>
    rw [hcanvas, ← latched_buf a.ctrl s]
    exact (hpix i).trans (if_neg (Nat.not_lt.mpr hi))
  case bytes =>
    rw [hends.bytes _ _ fun hout => ho ⟨BufId.host.inj hout.1, hout.2⟩, State.byteAt, State.byteAt,
      ← latched_buf a.ctrl s]
    by_cases hh : h = a.canvas
    · subst hh
      exact hbytes off (Nat.not_lt.mp fun hlt => hc ⟨rfl, hlt⟩)
    · rw [hother _ (by rintro ⟨⟩) fun heq => hh (BufId.host.inj heq)]
  · have hlc : t.buf .lc = s.buf .lc := by
      rw [hends.other _ (by rintro ⟨⟩), hother _ (by rintro ⟨⟩) (by rintro ⟨⟩), latched_buf]
    rw [hregs]
    exact ⟨hframe.ctrl, hframe.cfg, hframe.dec, hframe.job, hframe.objs, hlc, hframe.phase, hframe.pending, hframe.ret⟩

/-- Settles O32. -/
theorem encodeStream : Obligations.EncodeStream := by
  intro a f s hcfg hacc halloc cx bits size
  obtain ⟨t, n, hexec, -, -⟩ := encodeResult a f s hacc halloc
  have ht := hexec
  rw [exec_encode_accepted hacc halloc, encodePass] at ht
  have hwritten := passWritten_of_accepted hcfg hacc rfl
  have hends := encFinish_ends a.out a.outCap (Machine.encodeStream (a.ctrl.ctx s.cfg f) (.host a.canvas) (latched a.ctrl s))
  rw [Host.Outcome.next.inj ht] at hends
  obtain ⟨-, -, hemit, -⟩ := hwritten
  refine ⟨t, hexec, ?_, fun hok => ?_⟩
  · have hbits := hends.reports.2.2.2
    rwa [hemit.pos] at hbits
  · exact bitList_of_getD (length_le_emittedSize _) (exec_encode_ok hcfg hacc halloc hexec hok).stream

end Sys2Proof.Proofs
end

section
/-! PROOFS. `DRAW` (46_rasterizer.md R282, R285, R286): the words of the logical canvas, and the stream made of them. -/

namespace Sys2Proof.Proofs

open Sys2Proof.Machine Sys2Proof.Laws

/-! ## The words of a canvas -/

theorem toNat_wordOfBytes_lt (order : ByteOrder) (bytes : List Byte) :
    (wordOfBytes order bytes).toNat < 256 ^ bytes.length := by
  cases order with
  | le => exact lt_of_le_of_lt (Nat.mod_le _ _) (foldr_bytes_lt bytes)
  | be =>
    have hlt := foldr_bytes_lt bytes.reverse
    rw [List.foldr_reverse, List.length_reverse] at hlt
    exact lt_of_le_of_lt (Nat.mod_le _ _) hlt

/-- A word read from a bitmap's source has `P` bits. -/
theorem bitmapPixel_lt (cfg : Config) (f : Fmt) (src : Buffer) (x y : Int) (stride : Nat) (px py : Int) :
    (bitmapPixel cfg f src x y stride px py).toNat < 2 ^ f.bits := by
  have bytes (off n : Nat) : (wordOfBytes cfg.pixelByteOrder (src.readBytes off n)).toNat < 256 ^ n := by
    have hlt := toNat_wordOfBytes_lt cfg.pixelByteOrder (src.readBytes off n)
    rwa [readBytes_length] at hlt
  cases f
  · exact bytes _ 4
  · exact bytes _ 2
  · exact bytes _ 2
  · exact bytes _ 1
  · exact unpack_lt cfg .lut4 src _

theorem toNat_ofNat_colour {f : Fmt} {c : Nat} (h : c < 2 ^ f.bits) : (BitVec.ofNat 32 c).toNat < 2 ^ f.bits :=
  lt_of_le_of_lt (Nat.mod_le _ _) h

/-- A word of the canvas has `P` bits, where the colours have. -/
theorem canvasPixel_lt {f : Fmt} {bg : Nat} {s : State} (hbg : bg < 2 ^ f.bits)
    (hcolours : s.objs.all (objectColourFits f.bits) = true) (px py : Int) :
    (canvasPixel f bg s px py).toNat < 2 ^ f.bits := by
  cases howner : owner s.cfg s.objs px py with
  | none =>
    rw [canvasPixel_of_no_owner howner]
    exact toNat_ofNat_colour hbg
  | some jo =>
    obtain ⟨j, o⟩ := jo
    obtain ⟨k, -, htop, -⟩ := ownerFrom_eq_some_iff.mp howner
    have hfits := List.all_eq_true.mp hcolours o (List.mem_of_getElem? htop)
    rw [canvasPixel_of_owner howner]
    cases o
    case rect x y w h color => exact toNat_ofNat_colour (of_decide_eq_true hfits)
    case strokeRect x y w h t color => exact toNat_ofNat_colour (of_decide_eq_true hfits)
    case line x0 y0 x1 y1 t color => exact toNat_ofNat_colour (of_decide_eq_true hfits)
    case bitmap x y w h src stride => exact bitmapPixel_lt _ _ _ _ _ _ _ _
    case compressedBitmap x y w h src offset => exact Nat.two_pow_pos _

/-- A word of the canvas depends on the configuration, the objects and their sources. -/
theorem canvasPixel_congr {s t : State} (hcfg : t.cfg = s.cfg) (hobjs : t.objs = s.objs)
    (hbuf : ∀ id, t.buf id = s.buf id) (f : Fmt) (bg : Nat) (px py : Int) :
    canvasPixel f bg t px py = canvasPixel f bg s px py := by
  have hobject (o : DrawObject) : objectPixel f t o px py = objectPixel f s o px py := by
    cases o <;> simp only [objectPixel, hcfg, hbuf]
  simp only [canvasPixel, hcfg, hobjs, hobject]

/-! ## The logical canvas -/

@[simp] theorem fillPixels_size (cfg : Config) (f : Fmt) (word : Nat → Word) (n : Nat) (b : Buffer) (i : Nat) :
    (fillPixels cfg f word b i n).size = b.size := by
  induction n generalizing b i with
  | zero => rfl
  | succ n ih => rw [fillPixels, ih, pixWrite_size]

theorem pixRead_fillPixels_other (cfg : Config) (f : Fmt) (word : Nat → Word) (n : Nat) (b : Buffer) {i j : Nat}
    (h : ¬(i ≤ j ∧ j < i + n)) : pixRead cfg f (fillPixels cfg f word b i n) j = pixRead cfg f b j := by
  induction n generalizing b i with
  | zero => rfl
  | succ n ih => rw [fillPixels, ih _ (by omega), pixRead_pixWrite_other _ _ _ _ (by omega)]

/-- Each pixel is filled with its word. -/
theorem pixRead_fillPixels_same (cfg : Config) (f : Fmt) {word : Nat → Word} (n : Nat) (b : Buffer) {i j : Nat}
    (h1 : i ≤ j) (h2 : j < i + n) (hroom : f.pixbytes (i + n) ≤ b.size) (hword : (word j).toNat < 2 ^ f.bits) :
    pixRead cfg f (fillPixels cfg f word b i n) j = word j := by
  induction n generalizing b i with
  | zero => omega
  | succ n ih =>
    rw [fillPixels]
    obtain rfl | hne := eq_or_ne j i
    · have hinside : pixInside f b j = true := decide_eq_true ((pixbytes_mono f (by omega)).trans hroom)
      rw [pixRead_fillPixels_other _ _ _ _ _ (by omega), pixRead_pixWrite_same _ _ _ _ hinside, Nat.mod_eq_of_lt hword,
        BitVec.ofNat_toNat, BitVec.setWidth_eq]
    · exact ih _ (by omega) (by omega) (by rw [pixWrite_size]; simpa [Nat.add_assoc, Nat.add_comm 1] using hroom)

section
variable {a : DrawArgs} {f : Fmt} {s : State} (hacc : a.accepted f s)
include hacc

theorem drawArgs_fits : CtrlFits a.ctrl := ctrlFits_of_legal hacc.2.1

/-- The state in which a `DRAW` starts its pass. -/
def drawn (a : DrawArgs) (f : Fmt) (s : State) : State := drawCanvas f a.bg (latched a.ctrl s)

omit hacc in
theorem drawn_buf_host (h : HostBuf) : (drawn a f s).buf (.host h) = s.buf (.host h) := by
  rw [← latched_buf a.ctrl s]
  exact buf_setBuf_other (latched a.ctrl s) (id := .lc) _ (by rintro ⟨⟩)

theorem drawn_pixels : (drawn a f s).pixels = a.ctrl.pixels := latched_pixels (drawArgs_fits hacc) s

theorem drawn_ctxOf : (drawn a f s).ctxOf f = a.ctrl.ctx s.cfg f := latched_ctxOf (drawArgs_fits hacc) f s

omit hacc in
theorem drawn_room : f.pixbytes (drawn a f s).pixels ≤ ((drawn a f s).buf .lc).size :=
  (fillPixels_size _ _ _ _ (Buffer.zeros (f.pixbytes (latched a.ctrl s).pixels)) _).ge

/-- The pixels of the logical canvas are the words of `canvas_pixel` in raster order. -/
theorem pixRead_drawn {i : Nat} (hi : i < a.ctrl.pixels) :
    pixRead s.cfg f ((drawn a f s).buf .lc) i =
      canvasPixel f a.bg s (Int.ofNat (i % a.ctrl.width)) (Int.ofNat (i / a.ctrl.width)) := by
  have hfits := drawArgs_fits hacc
  obtain ⟨-, -, hbg, hcolours, -⟩ := hacc
  have hwidth : (latched a.ctrl s).ctrl.width.toNat = a.ctrl.width :=
    toNat_ofNat_holds (by have := hfits.width.2; omega)
  have hword : rasterWord f a.bg (latched a.ctrl s) i =
      canvasPixel f a.bg s (Int.ofNat (i % a.ctrl.width)) (Int.ofNat (i / a.ctrl.width)) := by
    rw [rasterWord, hwidth]
    exact canvasPixel_congr rfl rfl (latched_buf a.ctrl s) _ _ _ _
  rw [← hword]
  refine pixRead_fillPixels_same s.cfg f _ _ (Nat.zero_le _) ?_ ?_ ?_
  · rwa [latched_pixels hfits, Nat.zero_add]
  · rw [Nat.zero_add]
    exact le_rfl
  · rw [hword]
    exact canvasPixel_lt hbg hcolours _ _

/-- The scan of a `DRAW` comes to the preprocessed Colors of these words. -/
theorem scanColor_drawn {i : Nat} (hi : i < a.ctrl.pixels) :
    scanColor ((drawn a f s).ctxOf f) .lc (drawn a f s) i =
      a.ctrl.prep (unpack s.cfg.channelScale f
        (canvasPixel f a.bg s (Int.ofNat (i % a.ctrl.width)) (Int.ofNat (i / a.ctrl.width)))) := by
  rw [← pixRead_drawn hacc hi, CtrlArgs.prep, ← zeroize_latched (drawArgs_fits hacc)]
  rfl

/-- The stream of an accepted `DRAW`. -/
theorem emitted_drawn (hcfg : s.cfg.legal = true) :
    Emitted (streamOf (a.ctrl.ctx s.cfg f) (a.ctrl.header s.cfg)
        (canvasEntries (a.ctrl.ctx s.cfg f) (a.canvasColors f s)))
      (Machine.encodeStream (a.ctrl.ctx s.cfg f) .lc (drawn a f s)) := by
  have hcolors : (List.range (drawn a f s).pixels).map (scanColor ((drawn a f s).ctxOf f) .lc (drawn a f s)) =
      a.canvasColors f s := by
    rw [drawn_pixels hacc, DrawArgs.canvasColors]
    exact List.map_congr_left fun i hi => scanColor_drawn hacc (List.mem_range.mp hi)
  have hemit := encodeStream_emitted (canvas := .lc) (f := f) (s := drawn a f s) (by rintro ⟨⟩) drawn_room hcfg
    (by rw [drawn_pixels hacc]; exact pixels_pos (drawArgs_fits hacc))
  rw [hcolors, drawn_ctxOf hacc] at hemit
  exact hemit

end

/-- Settles O56: a `DRAW` is a pass over its logical canvas, which is no buffer of the host. -/
theorem drawStream : Obligations.DrawStream := by
  intro a f s hcfg hacc halloc cx bits size
  have hexec := exec_draw_accepted hacc halloc
  change exec (.draw a) s = .next (encodePass cx .lc a.out a.outCap (drawn a f s)) at hexec
  have hemit := emitted_drawn hacc hcfg
  have hframe := encodeStream_frame (canvas := .lc) (f := f) (s := drawn a f s) (by rintro ⟨⟩) drawn_room
  rw [drawn_ctxOf hacc] at hframe
  rw [encodePass] at hexec
  change Emitted bits _ at hemit
  change PassFrame .lc f (drawn a f s) (Machine.encodeStream cx .lc (drawn a f s)) at hframe
  generalize Machine.encodeStream cx .lc (drawn a f s) = u at hexec hemit hframe
  have hends := encFinish_ends a.out a.outCap u
  generalize encFinish a.out a.outCap u = t at hexec hends
  have hpos : u.bs.pos = bits.length := hemit.pos
  have hcap := hframe.cap
  rw [drawn_pixels hacc] at hcap
  have huhost (h : HostBuf) : u.buf (.host h) = s.buf (.host h) :=
    (hframe.other _ (by rintro ⟨⟩) (by rintro ⟨⟩)).trans (drawn_buf_host h)
  have hreports := hends.reports
  have hpast := hends.past
  have hbytes := hends.bytes
  have hcopied := hends.copied
  rw [hpos] at hreports hpast hbytes hcopied
  rw [hcap] at hpast
  refine ⟨t, hexec, hreports, hends.status, hpast, fun hok => ?stream, fun h off ho => ?bytes⟩
  case stream =>
    have hfits : ¬(8 * scratchBytes (drawn a f s).cfg a.ctrl.pixels f.bits < bits.length
        ∨ a.outCap < emittedSize bits.length) := fun hp => by
      have := hpast.mpr hp
      rw [hok] at this
      cases this
    rw [not_or, Nat.not_lt, Nat.not_lt] at hfits
    have hroom : emittedSize bits.length ≤ (u.buf (.host a.out)).size := by
      obtain ⟨-, -, -, -, -, -, hout, -⟩ := hacc
      rw [huhost]
      exact hfits.2.trans hout
    refine bitList_of_getD (length_le_emittedSize _) fun p hp => ?_
    rw [← hemit.held (by rw [hcap]; exact hfits.1) p, show u.cfg = s.cfg from hframe.cfg]
    exact bit_congr (hcopied hok hroom (p / 8) (Nat.div_lt_of_lt_mul hp)) _
  case bytes =>
    rw [hbytes _ off fun hout => ho ⟨BufId.host.inj hout.1, hout.2⟩, State.byteAt, huhost, State.byteAt]

end Sys2Proof.Proofs
end

section
/-! PROOFS. `ESTIMATE` (46_rasterizer.md R283): the units of the slices, and what the slices of a canvas depend on. -/

namespace Sys2Proof.Proofs

open Sys2Proof.Machine Sys2Proof.Laws

/-! ## The units of slices -/

theorem totalUnits_eq_sum (rl : Nat) (slices : List (Bool × Nat)) :
    totalUnits rl slices = (slices.map (sliceUnits rl)).sum := by
  induction slices with
  | nil => rfl
  | cons slice rest ih => rw [totalUnits, ih, List.map_cons, List.sum_cons]

theorem totalUnits_append (rl : Nat) (slices more : List (Bool × Nat)) :
    totalUnits rl (slices ++ more) = totalUnits rl slices + totalUnits rl more := by
  simp only [totalUnits_eq_sum, List.map_append, List.sum_append]

theorem totalUnits_flatMap {α : Type} (rl : Nat) (slices : α → List (Bool × Nat)) (l : List α) :
    totalUnits rl (l.flatMap slices) = (l.map fun x => totalUnits rl (slices x)).sum := by
  induction l with
  | nil => rfl
  | cons x rest ih => rw [List.flatMap_cons, totalUnits_append, ih, List.map_cons, List.sum_cons]

/-! ## Slices and colours -/

theorem covers_shape (cfg : Config) (o : DrawObject) (px py : Int) : covers cfg o.shape px py = covers cfg o px py := by
  cases o <;> rfl

/-- An owner without its colour. -/
def ownerShape (o : Option (Nat × DrawObject)) : Option (Nat × DrawObject) := o.map (Prod.map id DrawObject.shape)

theorem ownerFrom_shape (cfg : Config) (px py : Int) (i : Nat) (objs : List DrawObject) :
    ownerFrom cfg px py i (objs.map DrawObject.shape) = ownerShape (ownerFrom cfg px py i objs) := by
  induction objs generalizing i with
  | nil => rfl
  | cons o rest ih =>
    rw [List.map_cons, ownerFrom_cons, ownerFrom_cons, ih, covers_shape]
    cases ownerFrom cfg px py (i + 1) rest with
    | some above => rfl
    | none => cases covers cfg o px py <;> rfl

theorem lineOwners_shape (cfg : Config) (objs : List DrawObject) (width y : Nat) :
    lineOwners cfg (objs.map DrawObject.shape) width y = (lineOwners cfg objs width y).map ownerShape := by
  rw [lineOwners, lineOwners, List.map_map]
  exact List.map_congr_left fun x _ => ownerFrom_shape cfg _ _ 0 objs

theorem isConstant_shape (o : Option (Nat × DrawObject)) : isConstant (ownerShape o) = isConstant o := by
  match o with
  | none => rfl
  | some (_, o) => cases o <;> rfl

theorem map_fst_shape (o : Option (Nat × DrawObject)) : (ownerShape o).map Prod.fst = o.map Prod.fst := by
  cases o <;> rfl

theorem slicesFrom_shape (cur : Option (Nat × DrawObject)) (len : Nat) (os : List (Option (Nat × DrawObject))) :
    slicesFrom (ownerShape cur) len (os.map ownerShape) = slicesFrom cur len os := by
  induction os generalizing cur len with
  | nil => rw [List.map_nil, slicesFrom, slicesFrom, isConstant_shape]
  | cons o rest ih => simp only [List.map_cons, slicesFrom, map_fst_shape, isConstant_shape, ih]

theorem slicesOf_shape (os : List (Option (Nat × DrawObject))) : slicesOf (os.map ownerShape) = slicesOf os := by
  cases os with
  | nil => rfl
  | cons o rest => exact slicesFrom_shape o 1 rest

/-- The slices of a canvas do not depend on the colours of its objects. -/
theorem canvasSlices_congr {cfg : Config} {objs objs' : List DrawObject}
    (h : objs'.map DrawObject.shape = objs.map DrawObject.shape) (width height : Nat) :
    canvasSlices cfg objs' width height = canvasSlices cfg objs width height := by
  have hshape (objs : List DrawObject) :
      canvasSlices cfg (objs.map DrawObject.shape) width height = canvasSlices cfg objs width height := by
    simp only [canvasSlices, lineOwners_shape, slicesOf_shape]
  rw [← hshape objs', h, hshape]

/-! ## ESTIMATE -/

/-- The result registers that an accepted `ESTIMATE` leaves. -/
def estimatedRegs (a : EstimateArgs) (f : Fmt) (s : State) : ResRegs :=
  estimateRegs (a.ctrl.ctx s.cfg f) (canvasSlices s.cfg s.objs a.ctrl.width a.ctrl.height)

theorem exec_estimate_regs {a : EstimateArgs} {f : Fmt} {s : State} (hacc : a.accepted f s) (halloc : a.allocOk = true) :
    exec (.estimate a) s = .next { s with ctrl := ctrlRegsOf s.cfg a.ctrl, res := estimatedRegs a f s } := by
  rw [exec_estimate_accepted hacc halloc]
  obtain ⟨-, hlegal, -⟩ := hacc
  have hfits := ctrlFits_of_legal hlegal
  have hwidth : (latched a.ctrl s).ctrl.width.toNat = a.ctrl.width :=
    toNat_ofNat_holds (by have := hfits.width; omega)
  have hheight : (latched a.ctrl s).ctrl.height.toNat = a.ctrl.height :=
    toNat_ofNat_holds (by have := hfits.height; omega)
  rw [estimateEnd, hwidth, hheight]
  rfl

/-- Settles O52: the registers are `EST_COST` of the slices, and these are made of what the objects cover. -/
theorem estimateResult : Obligations.EstimateResult := by
  refine ⟨fun a f s hacc halloc => ?_, fun a a' f s s' hacc hacc' halloc halloc' hcfg hobjs hpal hrl hwidth hheight => ?_⟩
  · intro units lineUnits
    refine ⟨_, _, exec_estimate_regs hacc halloc, rfl, estimateRegs_reports _ _, fun hcost => ?_⟩
    have hunits : totalUnits a.ctrl.runLenBits (canvasSlices s.cfg s.objs a.ctrl.width a.ctrl.height) =
        ((List.range a.ctrl.height).map lineUnits).sum := by
      rw [canvasSlices, totalUnits_flatMap]
      exact congrArg List.sum (List.map_congr_left fun y _ => totalUnits_eq_sum _ _)
    have hcost' : (a.ctrl.ctx s.cfg f).cfg.estCost = .default := hcost
    rw [← hunits, estimateBits, hcost']
    rfl
  · refine ⟨_, _, exec_estimate_regs hacc halloc, exec_estimate_regs hacc' halloc', ?_⟩
    show estimatedRegs a' f s' = estimatedRegs a f s
    simp only [estimatedRegs, CtrlArgs.ctx, hcfg, hpal, hrl, hwidth, hheight, canvasSlices_congr hobjs]

end Sys2Proof.Proofs
end

section
/-! PROOFS. The estimate bounds the stream of a `DRAW` (46_rasterizer.md R284): how many runs a canvas of given slices has, and
that the words of a `DRAW` are such a canvas. -/

namespace Sys2Proof.Proofs

open Sys2Proof.Machine Sys2Proof.Laws

/-! ## How many runs there are -/

section
variable {maxRun : Nat}

/-- A run that has begun earlier is cut no less often than one that has begun later, and at most once more. -/
theorem runsFrom_length_bounds (c : Color) (cs : List Color) {n m : Nat} (hn : 1 ≤ n) (hnm : n ≤ m) (hm : m ≤ maxRun) :
    (runsFrom maxRun c n cs).length ≤ (runsFrom maxRun c m cs).length
      ∧ (runsFrom maxRun c m cs).length ≤ (runsFrom maxRun c n cs).length + 1 := by
  induction cs generalizing n m with
  | nil => exact ⟨le_rfl, Nat.le_succ _⟩
  | cons d rest ih =>
    by_cases hd : d = c
    · subst hd
      rcases hm.lt_or_eq with hlt | rfl
      · rw [runsFrom, runsFrom, if_pos ⟨rfl, by omega⟩, if_pos ⟨rfl, hlt.ne⟩]
        exact ih (by omega) (by omega) hlt
      · rcases hnm.lt_or_eq with hlt | rfl
        · have hrest := ih (n := 1) (m := n + 1) le_rfl (by omega) hlt
          rw [runsFrom, runsFrom, if_pos ⟨rfl, hlt.ne⟩, if_neg fun hh => hh.2 rfl, List.length_cons]
          omega
        · exact ⟨le_rfl, Nat.le_succ _⟩
    · rw [runsFrom, runsFrom, if_neg fun hh => hd hh.1, if_neg fun hh => hd hh.1]
      exact ⟨le_rfl, Nat.le_succ _⟩

theorem runsFrom_length_le_succ (c : Color) (cs : List Color) {n : Nat} (hmax : n ≤ maxRun) :
    (runsFrom maxRun c n cs).length ≤ (runsOf maxRun cs).length + 1 := by
  cases cs with
  | nil => exact le_rfl
  | cons d rest =>
    rw [runsFrom, runsOf]
    split
    next h =>
      obtain ⟨rfl, hne⟩ := h
      exact (runsFrom_length_bounds d rest (le_refl 1) (Nat.le_add_left 1 n) (by omega)).2
    next => exact le_rfl

theorem runsFrom_append_length_le (c : Color) (cs ds : List Color) {n : Nat} (hn : 1 ≤ n) (hmax : n ≤ maxRun) :
    (runsFrom maxRun c n (cs ++ ds)).length ≤ (runsFrom maxRun c n cs).length + (runsOf maxRun ds).length := by
  induction cs generalizing c n with
  | nil =>
    rw [List.nil_append, runsFrom, List.length_singleton, Nat.add_comm]
    exact runsFrom_length_le_succ c ds hmax
  | cons d rest ih =>
    rw [List.cons_append, runsFrom, runsFrom]
    split
    next h => exact ih c (by omega) (by omega)
    next =>
      have hrest := ih d (le_refl 1) (by omega)
      simp only [List.length_cons]
      omega

/-- Two stretches cut apart have no fewer runs than cut together. -/
theorem runsOf_append_length_le (hmax : 1 ≤ maxRun) (cs ds : List Color) :
    (runsOf maxRun (cs ++ ds)).length ≤ (runsOf maxRun cs).length + (runsOf maxRun ds).length := by
  cases cs with
  | nil => exact Nat.le_add_left _ _
  | cons c rest => exact runsFrom_append_length_le c rest ds (le_refl 1) hmax

theorem greedyCut_length_le (hmax : 1 ≤ maxRun) (m : Nat) (c : Color) :
    (greedyCut maxRun m c).length ≤ ceilDiv m maxRun := by
  have hdiv := Nat.div_add_mod m maxRun
  have hcut : (greedyCut maxRun m c).length = m / maxRun + if m % maxRun = 0 then 0 else 1 := by
    rw [greedyCut, List.length_append, List.length_replicate]
    split <;> rfl
  rw [hcut, ceilDiv, Nat.le_div_iff_mul_le hmax]
  split
  · rw [Nat.add_zero, Nat.mul_comm]
    omega
  · rw [Nat.add_mul, Nat.mul_comm]
    omega

theorem runsOf_replicate_length_le (hmax : 1 ≤ maxRun) (m : Nat) (c : Color) :
    (runsOf maxRun (List.replicate m c)).length ≤ ceilDiv m maxRun := by
  cases m with
  | zero => exact Nat.zero_le _
  | succ m =>
    have hcut := runsFrom_replicate (rest := []) (c := c) (le_refl 1) hmax m nofun
    rw [List.append_nil, show runsOf maxRun [] = [] from rfl, List.append_nil, Nat.add_comm 1] at hcut
    rw [List.replicate_succ, runsOf, hcut]
    exact greedyCut_length_le hmax _ c

/-- A canvas of stretches of one word each has no more runs than the stretches cut one by one. -/
theorem runsOf_canvas_length_le (hmax : 1 ≤ maxRun) {f : Fmt} {ns : List Nat} {canvas : List Word}
    (h : canvas ∈ canvasesOf f ns) (color : Word → Color) :
    (runsOf maxRun (canvas.map color)).length ≤ (ns.map fun n => ceilDiv n maxRun).sum := by
  induction ns generalizing canvas with
  | nil =>
    rw [canvasesOf, List.mem_singleton] at h
    rw [h]
    exact le_rfl
  | cons n rest ih =>
    simp only [canvasesOf, List.mem_flatMap, List.mem_map] at h
    obtain ⟨w, -, tail, htail, rfl⟩ := h
    rw [List.map_append, List.map_replicate, List.map_cons, List.sum_cons]
    exact (runsOf_append_length_le hmax _ _).trans
      (Nat.add_le_add (runsOf_replicate_length_le hmax n _) (ih htail))

end

/-- The stretches of one word cost what the slices are charged. -/
theorem sum_wordStretches (rl : Nat) (slices : List (Bool × Nat)) :
    ((wordStretches slices).map fun n => ceilDiv n (2 ^ rl)).sum = totalUnits rl slices := by
  have hpos := Nat.two_pow_pos rl
  have hone : ceilDiv 1 (2 ^ rl) = 1 := by
    rw [ceilDiv, Nat.add_comm, Nat.sub_add_cancel hpos, Nat.div_self hpos]
  induction slices with
  | nil => rfl
  | cons slice rest ih =>
    obtain ⟨constant, n⟩ := slice
    rw [← List.singleton_append, wordStretches_append, totalUnits_append, List.map_append, List.sum_append, ih]
    cases constant with
    | true => rfl
    | false => simp [wordStretches, totalUnits, sliceUnits, hone]

/-! ## What the entries cost -/

theorem width_entryOf_le (cx : Ctx) (pal : List Color) (run : Nat × Color) : (entryOf cx pal run).width cx ≤ cx.maxWidth := by
  rcases entryOf_cases cx pal run with ⟨hpal, j, -, hentry⟩ | ⟨hpal, -, hentry⟩ | ⟨hpal, hentry⟩ <;>
    rw [hentry, Ctx.maxWidth, hpal] <;> split <;>
    simp only [width_lit, width_litr, width_pal, width_palr, width_nlit, width_nrun, if_true, Bool.false_eq_true, if_false] <;>
    omega

theorem sum_width_entriesOf_le (cx : Ctx) (pal : List Color) (runs : List (Nat × Color)) :
    ((entriesOf cx pal runs).map (Entry.width cx)).sum ≤ runs.length * cx.maxWidth := by
  induction runs generalizing pal with
  | nil => exact Nat.zero_le _
  | cons run rest ih =>
    rw [entriesOf, List.map_cons, List.sum_cons, List.length_cons, Nat.succ_mul, Nat.add_comm]
    exact Nat.add_le_add (ih _) (width_entryOf_le cx pal run)

/-- The default `EST_COST` bounds the stream of every canvas of the slices. -/
theorem canvasBits_le_default {cx : Ctx} {slices : List (Bool × Nat)} {canvas : List Word}
    (h : canvas ∈ canvasesOf cx.fmt (wordStretches slices)) (color : Word → Color) :
    canvasBits cx (canvas.map color) ≤ 64 + totalUnits cx.rl slices * cx.maxWidth := by
  have hruns := runsOf_canvas_length_le (Nat.two_pow_pos cx.rl) h color
  rw [sum_wordStretches] at hruns
  exact Nat.add_le_add_left ((sum_width_entriesOf_le cx _ _).trans (Nat.mul_le_mul_right _ hruns)) 64

/-- `EST_COST` bounds the stream of every preprocessed canvas of the slices. -/
theorem canvasBits_le_estimate {cx : Ctx} {slices : List (Bool × Nat)} {canvas : List Word}
    (h : canvas ∈ canvasesOf cx.fmt (wordStretches slices)) (rgb alpha : BitVec 2) (z : Bool) :
    canvasBits cx (canvas.map fun w => prep (unpack cx.cfg.channelScale cx.fmt w) rgb alpha z) ≤ estimateBits cx slices := by
  rcases estimateBits_cases cx slices with hdefault | hmost
  · rw [hdefault]
    exact canvasBits_le_default h _
  · exact (le_mostBits (mem_canvasCosts h rgb alpha z)).trans hmost

/-! ## The words of a DRAW are a canvas of its slices -/

/-- An owner is the object that stands at its index. -/
def IsOwner (objs : List DrawObject) (o : Option (Nat × DrawObject)) : Prop := ∀ jo ∈ o, objs[jo.1]? = some jo.2

theorem isOwner_owner (cfg : Config) (objs : List DrawObject) (px py : Int) : IsOwner objs (owner cfg objs px py) := by
  rintro ⟨j, o⟩ howner
  obtain ⟨k, hk, htop, -⟩ := ownerFrom_eq_some_iff.mp howner
  rwa [hk, Nat.zero_add]

/-- Owners of one index are one object. -/
theorem IsOwner.eq_of_index {objs : List DrawObject} {o o' : Option (Nat × DrawObject)} (h : IsOwner objs o)
    (h' : IsOwner objs o') (hindex : o'.map Prod.fst = o.map Prod.fst) : o' = o := by
  match o, o' with
  | none, none => rfl
  | some (j, x), some (j', x') =>
    obtain rfl : j' = j := Option.some.inj hindex
    have hx := h (j', x) rfl
    rw [h' (j', x') rfl] at hx
    rw [show x' = x from Option.some.inj hx]

/-- Words of `P` bits, the same one in each constant slice. -/
structure SliceWords {α : Type} (f : Fmt) (objs : List DrawObject) (own : α → Option (Nat × DrawObject)) (word : α → Word)
    (colour : Option (Nat × DrawObject) → Word) : Prop where
  owned : ∀ x, IsOwner objs (own x)
  wordFits : ∀ x, (word x).toNat < 2 ^ f.bits
  colourFits : ∀ o, IsOwner objs o → (colour o).toNat < 2 ^ f.bits
  constant : ∀ x, isConstant (own x) = true → word x = colour (own x)

section
variable {α : Type} {f : Fmt} {objs : List DrawObject} {own : α → Option (Nat × DrawObject)} {word : α → Word}
  {colour : Option (Nat × DrawObject) → Word} (h : SliceWords f objs own word colour)
include h

theorem SliceWords.mem_slicesFrom (xs : List α) {cur : Option (Nat × DrawObject)} (hcur : IsOwner objs cur)
    {begun : List Word} (hbegun : ∀ w ∈ begun, w.toNat < 2 ^ f.bits)
    (hconst : isConstant cur = true → begun = List.replicate begun.length (colour cur)) :
    begun ++ xs.map word ∈ canvasesOf f (wordStretches (slicesFrom cur begun.length (xs.map own))) := by
  induction xs generalizing cur begun with
  | nil =>
    rw [List.map_nil, List.map_nil, List.append_nil]
    exact mem_canvasesOf_slice hbegun (h.colourFits cur hcur) hconst
  | cons x rest ih =>
    rw [List.map_cons, List.map_cons, slicesFrom]
    split
    next hindex =>
      have hsame := hcur.eq_of_index (h.owned x) hindex
      have hlonger := ih (begun := begun ++ [word x]) hcur
        (fun w hw => (List.mem_append.mp hw).elim (hbegun w) fun hx => by rw [List.mem_singleton.mp hx]; exact h.wordFits x)
        (fun hc => by
          rw [List.length_append, List.length_singleton, List.replicate_succ', ← hconst hc,
            h.constant x (by rwa [hsame]), hsame])
      rwa [List.append_assoc, List.length_append] at hlonger
    next =>
      have hrest := ih (begun := [word x]) (h.owned x)
        (fun w hw => by rw [List.mem_singleton.mp hw]; exact h.wordFits x) (fun hc => by rw [h.constant x hc]; rfl)
      rw [← List.singleton_append, wordStretches_append]
      exact mem_canvasesOf_append (mem_canvasesOf_slice hbegun (h.colourFits cur hcur) hconst) hrest

/-- The words of a line are a canvas of its slices. -/
theorem SliceWords.mem_slicesOf (xs : List α) : xs.map word ∈ canvasesOf f (wordStretches (slicesOf (xs.map own))) := by
  cases xs with
  | nil => exact List.mem_singleton.mpr rfl
  | cons x rest =>
    exact h.mem_slicesFrom rest (begun := [word x]) (h.owned x)
      (fun w hw => by rw [List.mem_singleton.mp hw]; exact h.wordFits x) (fun hc => by rw [h.constant x hc]; rfl)

end

theorem mem_canvasesOf_flatMap {α : Type} {f : Fmt} {words : α → List Word} {slices : α → List (Bool × Nat)} (l : List α)
    (h : ∀ x, words x ∈ canvasesOf f (wordStretches (slices x))) :
    l.flatMap words ∈ canvasesOf f (wordStretches (l.flatMap slices)) := by
  induction l with
  | nil => exact List.mem_singleton.mpr rfl
  | cons x rest ih =>
    rw [List.flatMap_cons, List.flatMap_cons, wordStretches_append]
    exact mem_canvasesOf_append (h x) ih

/-- Raster order is line by line. -/
theorem map_range_raster {α : Type} (g : Nat → Nat → α) {width : Nat} (hwidth : 0 < width) (height : Nat) :
    (List.range (width * height)).map (fun i => g (i % width) (i / width)) =
      (List.range height).flatMap fun y => (List.range width).map fun x => g x y := by
  induction height with
  | zero => rfl
  | succ height ih =>
    rw [Nat.mul_succ, List.range_add, List.map_append, ih, List.range_succ, List.flatMap_append, List.flatMap_singleton,
      List.map_map]
    refine congrArg _ (List.map_congr_left fun x hx => ?_)
    have hlt := List.mem_range.mp hx
    simp only [Function.comp_apply]
    rw [Nat.mul_add_mod, Nat.mod_eq_of_lt hlt, Nat.mul_add_div hwidth, Nat.div_eq_of_lt hlt, Nat.add_zero]

/-- The colour of a constant owner. -/
def ownerColour (bg : Nat) : Option (Nat × DrawObject) → Nat
  | some (_, .rect _ _ _ _ color) => color
  | some (_, .strokeRect _ _ _ _ _ color) => color
  | some (_, .line _ _ _ _ _ color) => color
  | some (_, .bitmap _ _ _ _ _ _) => bg
  | some (_, .compressedBitmap _ _ _ _ _ _) => bg
  | none => bg

theorem canvasPixel_of_constant (f : Fmt) (bg : Nat) {s : State} {px py : Int}
    (h : isConstant (owner s.cfg s.objs px py) = true) :
    canvasPixel f bg s px py = BitVec.ofNat 32 (ownerColour bg (owner s.cfg s.objs px py)) := by
  match howner : owner s.cfg s.objs px py with
  | none => exact canvasPixel_of_no_owner howner
  | some (j, o) =>
    rw [howner] at h
    rw [canvasPixel_of_owner howner]
    cases o
    case rect => rfl
    case strokeRect => rfl
    case line => rfl
    case bitmap => cases h
    case compressedBitmap => cases h

theorem ownerColour_lt {f : Fmt} {bg : Nat} {objs : List DrawObject} {o : Option (Nat × DrawObject)}
    (hbg : bg < 2 ^ f.bits) (hcolours : objs.all (objectColourFits f.bits) = true) (ho : IsOwner objs o) :
    ownerColour bg o < 2 ^ f.bits := by
  match o with
  | none => exact hbg
  | some (j, o) =>
    have hfits := List.all_eq_true.mp hcolours o (List.mem_of_getElem? (ho (j, o) rfl))
    cases o
    case rect => exact of_decide_eq_true hfits
    case strokeRect => exact of_decide_eq_true hfits
    case line => exact of_decide_eq_true hfits
    case bitmap => exact hbg
    case compressedBitmap => exact hbg

/-- The words of a `DRAW` in raster order. -/
def drawnWords (a : DrawArgs) (f : Fmt) (s : State) : List Word :=
  (List.range a.ctrl.pixels).map fun i =>
    canvasPixel f a.bg s (Int.ofNat (i % a.ctrl.width)) (Int.ofNat (i / a.ctrl.width))

theorem canvasColors_eq_map_drawnWords (a : DrawArgs) (f : Fmt) (s : State) :
    a.canvasColors f s = (drawnWords a f s).map fun w =>
      prep (unpack s.cfg.channelScale f w) (BitVec.ofNat 2 a.ctrl.rgbTrunc) (BitVec.ofNat 2 a.ctrl.alphaTrunc)
        (decide (a.ctrl.zeroize = 1)) := by
  rw [DrawArgs.canvasColors, drawnWords, List.map_map]
  rfl

theorem streamOf_length (cx : Ctx) (h : Header) (colors : List Color) :
    (streamOf cx h (canvasEntries cx colors)).length = canvasBits cx colors := by
  simp [streamOf, canvasBits, List.length_flatMap, width_eq_length]

theorem encFinish_res (output : HostBuf) (outCap : Nat) (u : State) :
    ∃ status, (encFinish output outCap u).res = resRegs status .none (emittedSize u.bs.pos) u.bs.pos := by
  by_cases hfits : u.bs.pos ≤ u.bs.cap ∧ emittedSize u.bs.pos ≤ outCap
  · exact ⟨.ok, by rw [encFinish_fits hfits.1 hfits.2]⟩
  · exact ⟨.capacity, by rw [encFinish_past (by omega)]⟩

section
variable {a : DrawArgs} {f : Fmt} {s : State} (hacc : a.accepted f s)
include hacc

/-- The words of scan line `y` of a `DRAW`. -/
theorem sliceWords_drawn (y : Nat) :
    SliceWords f s.objs (fun x => owner s.cfg s.objs (Int.ofNat x) (Int.ofNat y))
      (fun x => canvasPixel f a.bg s (Int.ofNat x) (Int.ofNat y)) (fun o => BitVec.ofNat 32 (ownerColour a.bg o)) := by
  obtain ⟨-, -, hbg, hcolours, -⟩ := hacc
  exact ⟨fun x => isOwner_owner _ _ _ _, fun x => canvasPixel_lt hbg hcolours _ _,
    fun o ho => toNat_ofNat_colour (ownerColour_lt hbg hcolours ho), fun x => canvasPixel_of_constant f a.bg⟩

/-- They are a canvas of the slices that an `ESTIMATE` of the same objects charges. -/
theorem drawnWords_mem_canvasesOf :
    drawnWords a f s ∈ canvasesOf f (wordStretches (canvasSlices s.cfg s.objs a.ctrl.width a.ctrl.height)) := by
  have hraster := map_range_raster (fun x y => canvasPixel f a.bg s (Int.ofNat x) (Int.ofNat y))
    (Nat.lt_of_succ_le (drawArgs_fits hacc).width.1) a.ctrl.height
  have hlines := mem_canvasesOf_flatMap (List.range a.ctrl.height) fun y =>
    (sliceWords_drawn hacc y).mem_slicesOf (List.range a.ctrl.width)
  rw [← hraster] at hlines
  exact hlines

/-- The result registers of a `DRAW`, whether they hold the numbers or not. -/
theorem exec_draw_res {t : State} (hcfg : s.cfg.legal = true) (halloc : a.allocOk = true) (hexec : exec (.draw a) s = .next t) :
    let bits := canvasBits (a.ctrl.ctx s.cfg f) (a.canvasColors f s)
    ∃ status, t.res = resRegs status .none (emittedSize bits) bits := by
  intro bits
  have hpos := (emitted_drawn hacc hcfg).pos
  rw [streamOf_length] at hpos
  rw [exec_draw_accepted hacc halloc] at hexec
  obtain ⟨status, hres⟩ := encFinish_res a.out a.outCap (Machine.encodeStream (a.ctrl.ctx s.cfg f) .lc (drawn a f s))
  rw [hpos] at hres
  exact ⟨status, by rw [← Host.Outcome.next.inj hexec]; exact hres⟩

end

/-- Settles O57: the words of the `DRAW` are a canvas of the slices that the `ESTIMATE` charged. -/
theorem drawWithinEstimate : Obligations.DrawWithinEstimate := by
  intro a e f s s' t u hcfg hacc halloc healloc hctrl hcfg' hobjs hdraw hestimate
  obtain ⟨f', hacc'⟩ | ⟨r, hrefused⟩ := estimate_accepted_or_refused e s'
  case inr =>
    rw [hrefused] at hestimate
    cases hestimate
  have hf : f' = f := by
    obtain ⟨hfmt', -⟩ := hacc'
    obtain ⟨hfmt, -⟩ := hacc
    rw [hctrl, hcfg', hfmt] at hfmt'
    exact (Option.some.inj hfmt').symm
  subst hf
  have hmem := drawnWords_mem_canvasesOf hacc
  obtain ⟨status, hres⟩ := exec_draw_res hacc hcfg halloc hdraw
  rw [canvasColors_eq_map_drawnWords] at hres
  have hures : u.res = estimateRegs (a.ctrl.ctx s.cfg f')
      (canvasSlices s.cfg s.objs a.ctrl.width a.ctrl.height) := by
    rw [exec_estimate_regs hacc' healloc] at hestimate
    rw [← Host.Outcome.next.inj hestimate, ← hctrl, ← hcfg', ← hobjs]
    rfl
  have hcost := mem_canvasCosts (cx := a.ctrl.ctx s.cfg f') hmem (BitVec.ofNat 2 a.ctrl.rgbTrunc)
    (BitVec.ofNat 2 a.ctrl.alphaTrunc) (decide (a.ctrl.zeroize = 1))
  have hbound := canvasBits_le_estimate (cx := a.ctrl.ctx s.cfg f') hmem (BitVec.ofNat 2 a.ctrl.rgbTrunc)
    (BitVec.ofNat 2 a.ctrl.alphaTrunc) (decide (a.ctrl.zeroize = 1))
  rw [hres, hures]
  exact ⟨estimateBitsReg_ge hcost hbound, estimateSizeReg_ge hcost hbound⟩

end Sys2Proof.Proofs
end
